-- ==== Sys2Proof/Word.lean ====
section
/-! DEFINITION. The word types of the machine (R3, R70, R71) and the type of its byte stores. -/

namespace Sys2Proof

/-- `DATA_BITS` = 8 (R3, R7). -/
abbrev Byte := BitVec 8

/-- `CPU_ADDR_BITS` = 16 (R3, R7): an address as the CPU drives it. -/
abbrev Addr := BitVec 16

/-- `BUS_DECODE_BITS` = 13 (R7, R71): an address as the chips see it. -/
abbrev BusAddr := BitVec 13

/-- A byte store: (index, byte) cells, indices strictly rising, no listed byte equal to 0, which is what an
unlisted index reads as. -/
abbrev Memory := List Host.Cell

end Sys2Proof
end

