-- ==== Sys2Proof/Config.lean ====
section
/-! DEFINITION. The implementation parameters of R7. Those that are plain data form `Params`, a constant part of the
machine's state, so that a statement about every state is a statement about every choice of them; the two OPEN
parameters that are functions of run-time data (`DECIMAL_CFG`, `COPROC_RUN`) are constants with no body. -/

namespace Sys2Proof

/-- The three chips behind the bus (R73), which are also the trap reasons (R400) and the access types (R51). -/
inductive Chip where
  | tia | pia | cartridge
  deriving DecidableEq, Repr

/-- The kind of a bus access (R75, R76, R403). -/
inductive AccessKind where
  | read | write
  deriving DecidableEq, Repr

/-- `TIA_CLK_PER_CPU`, in {1, 3} (R7, D14). -/
inductive TiaClocks where
  | one | three
  deriving DecidableEq, Repr

/-- `CYCLE_ORDER` (R7, R420, D15): the order of the three agents inside a board step. -/
inductive CycleOrder where
  | cpuPiaTia | cpuTiaPia | piaCpuTia | tiaCpuPia | piaTiaCpu | tiaPiaCpu
  deriving DecidableEq, Repr

/-- `HALT_MODE` (R7, R425, D12). -/
inductive HaltMode where
  | immediate | readsOnly
  deriving DecidableEq, Repr

/-- `TV_MODE` (R7, R453). -/
inductive TvMode where
  | ntsc | pal | secam
  deriving DecidableEq, Repr

/-- `FE_MODE` (R7, R540, D34). -/
inductive FeMode where
  | lip | stackSniff
  deriving DecidableEq, Repr

/-- `CART_SCHEME`: the schemes of R529 to R542. The schemes R543 refuses have no constructor: no machine is built
with one of them (R550). -/
inductive Scheme where
  | vanilla2k | vanilla4k | f8 | f6 | f4 | f0 | fa | e0 | tigervision | ua | fe | e7 | ef | cv | scheme3E
  deriving DecidableEq, Repr

/-- The 22 scheme names the source enumerates (C11, R543, R544). -/
inductive SchemeName where
  | vanilla2k | vanilla4k | f8 | e0 | tigervision | fe | ua | fa | f6 | e7 | fa2 | f4 | f0 | dpc | dpcPlus | cdf
  | scheme3E | cv | ef | pp | supercharger | econobanking
  deriving DecidableEq, Repr

/-- The lines that enter the CORE block: the two interrupt inputs (R410) and `HOST_INPUTS` (R476, R497). -/
structure Lines where
  irq : Bool
  nmi : Bool
  inpt0 : Bool
  inpt1 : Bool
  inpt2 : Bool
  inpt3 : Bool
  inpt4 : Bool
  inpt5 : Bool
  portA : Byte
  portB : Byte
  deriving DecidableEq, Repr

/-- No line asserted and every input 0: the platform default of R410 and the inputs 95_test_vectors.md assumes. -/
def Lines.idle : Lines :=
  { irq := false, nmi := false, inpt0 := false, inpt1 := false, inpt2 := false, inpt3 := false, inpt4 := false,
    inpt5 := false, portA := 0, portB := 0 }

/-- One bit per pair of the six TIA objects (R474, R485): the latches, and a set of them (R486). -/
structure Collisions where
  m0p1 : Bool
  m0p0 : Bool
  m1p0 : Bool
  m1p1 : Bool
  p0pf : Bool
  p0bl : Bool
  p1pf : Bool
  p1bl : Bool
  m0pf : Bool
  m0bl : Bool
  m1pf : Bool
  m1bl : Bool
  blpf : Bool
  p0p1 : Bool
  m0m1 : Bool
  deriving DecidableEq, Repr

/-- No latch. -/
def Collisions.none : Collisions :=
  { m0p1 := false, m0p0 := false, m1p0 := false, m1p1 := false, p0pf := false, p0bl := false, p1pf := false,
    p1bl := false, m0pf := false, m0bl := false, m1pf := false, m1bl := false, blpf := false, p0p1 := false,
    m0m1 := false }

/-- One entry of the table that stands for the predicate `CHIP_TRAP` (R403): accesses of this kind at this masked
address trap, with this data byte or (none) with any. The chip is the one the address selects (R73). -/
structure TrapRule where
  kind : AccessKind
  addr : BusAddr
  data : Option Byte
  deriving DecidableEq, Repr

/-- One value of `COLLISION_ORACLE` (R486): the latches that become set on the tick of this line and clock. -/
structure OracleEntry where
  line : Nat
  hclock : Fin 228
  latches : Collisions
  deriving DecidableEq, Repr

/-- The construction parameters of R7 that are plain data. -/
structure Params where
  /-- `TIA_CLK_PER_CPU` -/
  tiaClk : TiaClocks
  /-- `CYCLE_ORDER` -/
  order : CycleOrder
  /-- `HALT_MODE` -/
  haltMode : HaltMode
  /-- `TRAP_HANDLER` -/
  trapHandler : Bool
  /-- `CHIP_TRAP`, the accesses on which it is true -/
  chipTrap : List TrapRule
  /-- `CART_SCHEME` -/
  scheme : Scheme
  /-- the number of bytes of `CART_IMAGE` -/
  imageSize : Nat
  /-- `CART_IMAGE`, the ROM bytes by image offset -/
  image : Memory
  /-- `CART_SC` -/
  superChip : Bool
  /-- `FE_MODE` -/
  feMode : FeMode
  /-- `COPROC_BUDGET` -/
  coprocBudget : Nat
  /-- `TV_MODE` -/
  tvMode : TvMode
  /-- `IRQ_LINE`, `NMI_LINE` and `HOST_INPUTS`: the lines from a board step on -/
  inputs : List (Nat × Lines)
  /-- `COLLISION_ORACLE`, the ticks on which it sets a latch -/
  collisionOracle : List OracleEntry
  /-- `FM_VISIBLE_OVERSCAN` -/
  visibleOverscan : Nat
  /-- `MUSIC_CLOCK_HZ` (R560) -/
  musicClockHz : Nat
  /-- `CPU_CLOCK_HZ` (R560) -/
  cpuClockHz : Nat
  /-- `END_ADDR` (D42) -/
  endAddr : Option Addr
  deriving DecidableEq, Repr

/-- The decision defaults of R7 with an all-zero `vanilla_4k` image (R530; log 6). -/
def Params.default : Params :=
  { tiaClk := .three, order := .cpuPiaTia, haltMode := .immediate, trapHandler := false, chipTrap := [],
    scheme := .vanilla4k, imageSize := 4096, image := [], superChip := false, feMode := .lip,
    coprocBudget := 500000, tvMode := .ntsc, inputs := [], collisionOracle := [], visibleOverscan := 20,
    musicClockHz := 0, cpuClockHz := 0, endAddr := none }

/-- `DECIMAL_CFG.adcFlags` (R252): (N, V, Z) after a decimal ADC of valid BCD inputs, from A, the operand and the
input carry. A free function: no body (log 8). -/
opaque decimalAdcFlags : Byte → Byte → Bool → Bool × Bool × Bool

/-- `DECIMAL_CFG.sbcFlags` (R252): (N, V, Z) after a decimal SBC of valid BCD inputs. A free function (log 8). -/
opaque decimalSbcFlags : Byte → Byte → Bool → Bool × Bool × Bool

/-- `DECIMAL_CFG.adcInvalid` (R252): (A, N, V, Z, C) after a decimal ADC of an input with a nibble above 9. A free
function (log 8). -/
opaque decimalAdcInvalid : Byte → Byte → Bool → Byte × Bool × Bool × Bool × Bool

/-- `DECIMAL_CFG.sbcInvalid` (R252): (A, N, V, Z, C) after a decimal SBC of an input with a nibble above 9. A free
function (log 8). -/
opaque decimalSbcInvalid : Byte → Byte → Bool → Byte × Bool × Bool × Bool × Bool

/-- The co-processor's state (R58, R570, R573): its registers, buffers and the two music stream registers. DESIGN CHOICE
(log 33): the spec gives no width for the music stream registers (N27); they are 32 bits, as the registers are. -/
structure Coproc where
  regs : Vector (BitVec 32) 16
  rom : Memory
  ram : Memory
  music0 : BitVec 32
  music1 : BitVec 32
  deriving DecidableEq, Repr, Inhabited

/-- The kinds of a co-processor fault (R574). -/
inductive CoprocFaultKind where
  | unaligned | outOfRange | budget
  deriving DecidableEq, Repr, Inhabited

/-- How a co-processor run ends (R570, R572, R574). -/
inductive CoprocOutcome where
  | returned
  | fault (kind : CoprocFaultKind) (address : BitVec 32)
  deriving DecidableEq, Repr, Inhabited

/-- `COPROC_RUN` (R570, R577): the black box, from the budget (R572), the state and the entry address. A free
function: no body (log 22). DESIGN CHOICE (log 33): the spec gives no width for the entry address (N27); it is 32 bits, as
a fault's address is (R574). -/
opaque coprocRun : Nat → Coproc → BitVec 32 → Coproc × CoprocOutcome

end Sys2Proof
end

