-- ==== Sys2Proof/Machine/Memory.lean ====
section
/-! DEFINITION. The named operations over a byte store in canonical form: read one byte, write one byte, the form
itself, and a store made from a list of bytes. -/

namespace Sys2Proof

/-- What an unlisted byte reads as (log 4). -/
def Memory.blank : Byte := 0

/-- The byte at an index. -/
def Memory.read : Memory → Nat → Byte
  | [], _ => Memory.blank
  | (k, b) :: rest, i => if k = i then b else Memory.read rest i

/-- The store with one byte replaced, in canonical form again: a byte equal to the blank one is not listed. -/
def Memory.write : Memory → Nat → Byte → Memory
  | [], i, v => if v = Memory.blank then [] else [(i, v)]
  | (k, b) :: rest, i, v =>
    if i < k then (if v = Memory.blank then (k, b) :: rest else (i, v) :: (k, b) :: rest)
    else if i = k then (if v = Memory.blank then rest else (i, v) :: rest)
    else (k, b) :: Memory.write rest i v

/-- The canonical form: indices strictly rising, no blank byte listed. -/
def Memory.wf : Memory → Bool
  | [] => true
  | (k, b) :: rest => decide (b ≠ Memory.blank) && rest.all (fun c => decide (k < c.1)) && Memory.wf rest

/-- Every listed index is below a bound. -/
def Memory.below (m : Memory) (n : Nat) : Bool := m.all (fun c => decide (c.1 < n))

/-- The store that holds these bytes from an index on. -/
def Memory.ofBytes : Nat → List Byte → Memory
  | _, [] => []
  | i, b :: rest => if b = Memory.blank then Memory.ofBytes (i + 1) rest else (i, b) :: Memory.ofBytes (i + 1) rest

end Sys2Proof
end

