-- ==== Sys2Proof/Machine/Image.lean ====
section
/-! DEFINITION. Cartridge construction: which image lengths fit a scheme (R544), which scheme names are refused (R543)
and the construction error (R550). -/

namespace Sys2Proof

/-- Does an image of this many bytes fit the scheme (R544, R550)? 3F and 3E take a positive multiple of 2048 (R538,
R542). -/
def Scheme.fits (sch : Scheme) (size : Nat) : Bool :=
  match sch with
  | .vanilla2k => size == 2048
  | .vanilla4k => size == 4096
  | .f8 | .e0 | .ua | .fe => size == 8192
  | .f6 | .e7 => size == 16384
  | .f4 => size == 32768
  | .f0 | .ef => size == 65536
  | .fa => size == 12288
  | .cv => size == 2048
  | .tigervision | .scheme3E => decide (0 < size) && size % 2048 == 0

/-- The scheme a name stands for; none for the names R543 refuses. -/
def SchemeName.scheme : SchemeName → Option Scheme
  | .vanilla2k => some .vanilla2k
  | .vanilla4k => some .vanilla4k
  | .f8 => some .f8
  | .e0 => some .e0
  | .tigervision => some .tigervision
  | .fe => some .fe
  | .ua => some .ua
  | .fa => some .fa
  | .f6 => some .f6
  | .e7 => some .e7
  | .f4 => some .f4
  | .f0 => some .f0
  | .scheme3E => some .scheme3E
  | .cv => some .cv
  | .ef => some .ef
  | .fa2 | .dpc | .dpcPlus | .cdf | .pp | .supercharger | .econobanking => none

/-- The construction errors (R550): the scheme is refused (R543), or the image's length is not the scheme's. -/
inductive ImageError where
  | refusedScheme | wrongLength
  deriving DecidableEq, Repr

/-- Construction of a machine's parameters from a scheme name and an image, over the other parameters (R550): no
machine is built from an invalid image. -/
def buildParams (name : SchemeName) (bytes : List Byte) (p : Params) : Except ImageError Params :=
  match name.scheme with
  | none => .error .refusedScheme
  | some sch =>
    if sch.fits bytes.length then
      .ok { p with scheme := sch, imageSize := bytes.length, image := Memory.ofBytes 0 bytes }
    else .error .wrongLength

end Sys2Proof
end

