-- ==== Sys2Proof/Syntax.lean ====
section
/-! DEFINITION. The instructions: one constructor per row of spec/opcode_table.json (R124), its operands at the exact
widths of R121 and R122, the addressing modes of R121 and the instruction kinds of R161. -/

namespace Sys2Proof

/-- The addressing modes (R121, D37). -/
inductive Mode where
  | implied | accumulator | immediate | zeroPage | zeroPageX | zeroPageY | absolute | absoluteX | absoluteY | indirect
  | indexedIndirectX | indirectIndexedY | relative
  deriving DecidableEq, Repr

/-- The length in bytes of an instruction of this mode (R121, R128). -/
def Mode.length : Mode → Nat
  | .implied | .accumulator => 1
  | .absolute | .absoluteX | .absoluteY | .indirect => 3
  | .immediate | .zeroPage | .zeroPageX | .zeroPageY | .indexedIndirectX | .indirectIndexedY | .relative => 2

/-- The 151 documented instructions (R124). A suffix names the mode: Acc accumulator, Imm immediate, Zp zeroPage, Abs
absolute, Ind indirect, IndX indexedIndirectX, IndY indirectIndexedY; implied and relative have none. `v` is an
immediate byte, `zp` a zero-page byte, `addr` an absolute address, `off` a branch offset. -/
inductive Instr where
  | ldaImm (v : Byte)
  | ldaZp (zp : Byte)
  | ldaZpX (zp : Byte)
  | ldaAbs (addr : Addr)
  | ldaAbsX (addr : Addr)
  | ldaAbsY (addr : Addr)
  | ldaIndX (zp : Byte)
  | ldaIndY (zp : Byte)
  | ldxImm (v : Byte)
  | ldxZp (zp : Byte)
  | ldxZpY (zp : Byte)
  | ldxAbs (addr : Addr)
  | ldxAbsY (addr : Addr)
  | ldyImm (v : Byte)
  | ldyZp (zp : Byte)
  | ldyZpX (zp : Byte)
  | ldyAbs (addr : Addr)
  | ldyAbsX (addr : Addr)
  | staZp (zp : Byte)
  | staZpX (zp : Byte)
  | staAbs (addr : Addr)
  | staAbsX (addr : Addr)
  | staAbsY (addr : Addr)
  | staIndX (zp : Byte)
  | staIndY (zp : Byte)
  | stxZp (zp : Byte)
  | stxZpY (zp : Byte)
  | stxAbs (addr : Addr)
  | styZp (zp : Byte)
  | styZpX (zp : Byte)
  | styAbs (addr : Addr)
  | tax
  | tay
  | txa
  | tya
  | tsx
  | txs
  | pha
  | php
  | pla
  | plp
  | adcImm (v : Byte)
  | adcZp (zp : Byte)
  | adcZpX (zp : Byte)
  | adcAbs (addr : Addr)
  | adcAbsX (addr : Addr)
  | adcAbsY (addr : Addr)
  | adcIndX (zp : Byte)
  | adcIndY (zp : Byte)
  | sbcImm (v : Byte)
  | sbcZp (zp : Byte)
  | sbcZpX (zp : Byte)
  | sbcAbs (addr : Addr)
  | sbcAbsX (addr : Addr)
  | sbcAbsY (addr : Addr)
  | sbcIndX (zp : Byte)
  | sbcIndY (zp : Byte)
  | andImm (v : Byte)
  | andZp (zp : Byte)
  | andZpX (zp : Byte)
  | andAbs (addr : Addr)
  | andAbsX (addr : Addr)
  | andAbsY (addr : Addr)
  | andIndX (zp : Byte)
  | andIndY (zp : Byte)
  | oraImm (v : Byte)
  | oraZp (zp : Byte)
  | oraZpX (zp : Byte)
  | oraAbs (addr : Addr)
  | oraAbsX (addr : Addr)
  | oraAbsY (addr : Addr)
  | oraIndX (zp : Byte)
  | oraIndY (zp : Byte)
  | eorImm (v : Byte)
  | eorZp (zp : Byte)
  | eorZpX (zp : Byte)
  | eorAbs (addr : Addr)
  | eorAbsX (addr : Addr)
  | eorAbsY (addr : Addr)
  | eorIndX (zp : Byte)
  | eorIndY (zp : Byte)
  | cmpImm (v : Byte)
  | cmpZp (zp : Byte)
  | cmpZpX (zp : Byte)
  | cmpAbs (addr : Addr)
  | cmpAbsX (addr : Addr)
  | cmpAbsY (addr : Addr)
  | cmpIndX (zp : Byte)
  | cmpIndY (zp : Byte)
  | cpxImm (v : Byte)
  | cpxZp (zp : Byte)
  | cpxAbs (addr : Addr)
  | cpyImm (v : Byte)
  | cpyZp (zp : Byte)
  | cpyAbs (addr : Addr)
  | bitZp (zp : Byte)
  | bitAbs (addr : Addr)
  | aslAcc
  | aslZp (zp : Byte)
  | aslZpX (zp : Byte)
  | aslAbs (addr : Addr)
  | aslAbsX (addr : Addr)
  | lsrAcc
  | lsrZp (zp : Byte)
  | lsrZpX (zp : Byte)
  | lsrAbs (addr : Addr)
  | lsrAbsX (addr : Addr)
  | rolAcc
  | rolZp (zp : Byte)
  | rolZpX (zp : Byte)
  | rolAbs (addr : Addr)
  | rolAbsX (addr : Addr)
  | rorAcc
  | rorZp (zp : Byte)
  | rorZpX (zp : Byte)
  | rorAbs (addr : Addr)
  | rorAbsX (addr : Addr)
  | incZp (zp : Byte)
  | incZpX (zp : Byte)
  | incAbs (addr : Addr)
  | incAbsX (addr : Addr)
  | decZp (zp : Byte)
  | decZpX (zp : Byte)
  | decAbs (addr : Addr)
  | decAbsX (addr : Addr)
  | inx
  | iny
  | dex
  | dey
  | jmpAbs (addr : Addr)
  | jmpInd (addr : Addr)
  | jsr (addr : Addr)
  | rts
  | bcc (off : Byte)
  | bcs (off : Byte)
  | beq (off : Byte)
  | bne (off : Byte)
  | bmi (off : Byte)
  | bpl (off : Byte)
  | bvc (off : Byte)
  | bvs (off : Byte)
  | clc
  | sec
  | cli
  | sei
  | cld
  | sed
  | clv
  | nop
  | brk
  | rti
  deriving DecidableEq, Repr

/-- The addressing mode of an instruction (R124). -/
def Instr.mode : Instr → Mode
  | .ldaImm _ => .immediate
  | .ldaZp _ => .zeroPage
  | .ldaZpX _ => .zeroPageX
  | .ldaAbs _ => .absolute
  | .ldaAbsX _ => .absoluteX
  | .ldaAbsY _ => .absoluteY
  | .ldaIndX _ => .indexedIndirectX
  | .ldaIndY _ => .indirectIndexedY
  | .ldxImm _ => .immediate
  | .ldxZp _ => .zeroPage
  | .ldxZpY _ => .zeroPageY
  | .ldxAbs _ => .absolute
  | .ldxAbsY _ => .absoluteY
  | .ldyImm _ => .immediate
  | .ldyZp _ => .zeroPage
  | .ldyZpX _ => .zeroPageX
  | .ldyAbs _ => .absolute
  | .ldyAbsX _ => .absoluteX
  | .staZp _ => .zeroPage
  | .staZpX _ => .zeroPageX
  | .staAbs _ => .absolute
  | .staAbsX _ => .absoluteX
  | .staAbsY _ => .absoluteY
  | .staIndX _ => .indexedIndirectX
  | .staIndY _ => .indirectIndexedY
  | .stxZp _ => .zeroPage
  | .stxZpY _ => .zeroPageY
  | .stxAbs _ => .absolute
  | .styZp _ => .zeroPage
  | .styZpX _ => .zeroPageX
  | .styAbs _ => .absolute
  | .tax => .implied
  | .tay => .implied
  | .txa => .implied
  | .tya => .implied
  | .tsx => .implied
  | .txs => .implied
  | .pha => .implied
  | .php => .implied
  | .pla => .implied
  | .plp => .implied
  | .adcImm _ => .immediate
  | .adcZp _ => .zeroPage
  | .adcZpX _ => .zeroPageX
  | .adcAbs _ => .absolute
  | .adcAbsX _ => .absoluteX
  | .adcAbsY _ => .absoluteY
  | .adcIndX _ => .indexedIndirectX
  | .adcIndY _ => .indirectIndexedY
  | .sbcImm _ => .immediate
  | .sbcZp _ => .zeroPage
  | .sbcZpX _ => .zeroPageX
  | .sbcAbs _ => .absolute
  | .sbcAbsX _ => .absoluteX
  | .sbcAbsY _ => .absoluteY
  | .sbcIndX _ => .indexedIndirectX
  | .sbcIndY _ => .indirectIndexedY
  | .andImm _ => .immediate
  | .andZp _ => .zeroPage
  | .andZpX _ => .zeroPageX
  | .andAbs _ => .absolute
  | .andAbsX _ => .absoluteX
  | .andAbsY _ => .absoluteY
  | .andIndX _ => .indexedIndirectX
  | .andIndY _ => .indirectIndexedY
  | .oraImm _ => .immediate
  | .oraZp _ => .zeroPage
  | .oraZpX _ => .zeroPageX
  | .oraAbs _ => .absolute
  | .oraAbsX _ => .absoluteX
  | .oraAbsY _ => .absoluteY
  | .oraIndX _ => .indexedIndirectX
  | .oraIndY _ => .indirectIndexedY
  | .eorImm _ => .immediate
  | .eorZp _ => .zeroPage
  | .eorZpX _ => .zeroPageX
  | .eorAbs _ => .absolute
  | .eorAbsX _ => .absoluteX
  | .eorAbsY _ => .absoluteY
  | .eorIndX _ => .indexedIndirectX
  | .eorIndY _ => .indirectIndexedY
  | .cmpImm _ => .immediate
  | .cmpZp _ => .zeroPage
  | .cmpZpX _ => .zeroPageX
  | .cmpAbs _ => .absolute
  | .cmpAbsX _ => .absoluteX
  | .cmpAbsY _ => .absoluteY
  | .cmpIndX _ => .indexedIndirectX
  | .cmpIndY _ => .indirectIndexedY
  | .cpxImm _ => .immediate
  | .cpxZp _ => .zeroPage
  | .cpxAbs _ => .absolute
  | .cpyImm _ => .immediate
  | .cpyZp _ => .zeroPage
  | .cpyAbs _ => .absolute
  | .bitZp _ => .zeroPage
  | .bitAbs _ => .absolute
  | .aslAcc => .accumulator
  | .aslZp _ => .zeroPage
  | .aslZpX _ => .zeroPageX
  | .aslAbs _ => .absolute
  | .aslAbsX _ => .absoluteX
  | .lsrAcc => .accumulator
  | .lsrZp _ => .zeroPage
  | .lsrZpX _ => .zeroPageX
  | .lsrAbs _ => .absolute
  | .lsrAbsX _ => .absoluteX
  | .rolAcc => .accumulator
  | .rolZp _ => .zeroPage
  | .rolZpX _ => .zeroPageX
  | .rolAbs _ => .absolute
  | .rolAbsX _ => .absoluteX
  | .rorAcc => .accumulator
  | .rorZp _ => .zeroPage
  | .rorZpX _ => .zeroPageX
  | .rorAbs _ => .absolute
  | .rorAbsX _ => .absoluteX
  | .incZp _ => .zeroPage
  | .incZpX _ => .zeroPageX
  | .incAbs _ => .absolute
  | .incAbsX _ => .absoluteX
  | .decZp _ => .zeroPage
  | .decZpX _ => .zeroPageX
  | .decAbs _ => .absolute
  | .decAbsX _ => .absoluteX
  | .inx => .implied
  | .iny => .implied
  | .dex => .implied
  | .dey => .implied
  | .jmpAbs _ => .absolute
  | .jmpInd _ => .indirect
  | .jsr _ => .absolute
  | .rts => .implied
  | .bcc _ => .relative
  | .bcs _ => .relative
  | .beq _ => .relative
  | .bne _ => .relative
  | .bmi _ => .relative
  | .bpl _ => .relative
  | .bvc _ => .relative
  | .bvs _ => .relative
  | .clc => .implied
  | .sec => .implied
  | .cli => .implied
  | .sei => .implied
  | .cld => .implied
  | .sed => .implied
  | .clv => .implied
  | .nop => .implied
  | .brk => .implied
  | .rti => .implied

/-- A memory operand: the modes of R164 to R169 with their instruction bytes. -/
inductive MemMode where
  | zp (zp : Byte)
  | zpX (zp : Byte)
  | zpY (zp : Byte)
  | abs (addr : Addr)
  | absX (addr : Addr)
  | absY (addr : Addr)
  | indX (zp : Byte)
  | indY (zp : Byte)
  deriving DecidableEq, Repr

/-- The operand of an instruction of kind R: an immediate byte (R163) or memory. -/
inductive Operand where
  | imm (v : Byte)
  | mem (m : MemMode)
  deriving DecidableEq, Repr

/-- The mnemonics of kind R (R161). -/
inductive ReadOp where
  | lda | ldx | ldy | adc | sbc | and | ora | eor | cmp | cpx | cpy | bit
  deriving DecidableEq, Repr

/-- The mnemonics of kind W (R161). -/
inductive WriteOp where
  | sta | stx | sty
  deriving DecidableEq, Repr

/-- The mnemonics of kind M (R161); ASL, LSR, ROL and ROR also have an accumulator form. -/
inductive ModifyOp where
  | asl | lsr | rol | ror | inc | dec
  deriving DecidableEq, Repr

/-- The implied instructions of two cycles (R162, R221 to R226, R307 to R310, R370 to R377). -/
inductive ImpliedOp where
  | tax | tay | txa | tya | tsx | txs | inx | iny | dex | dey | clc | sec | cli | sei | cld | sed | clv | nop
  deriving DecidableEq, Repr

/-- The stack instructions (R227 to R230). -/
inductive StackOp where
  | pha | php | pla | plp
  deriving DecidableEq, Repr

/-- The branches (R335 to R342). -/
inductive BranchOp where
  | bcc | bcs | beq | bne | bmi | bpl | bvc | bvs
  deriving DecidableEq, Repr

/-- The kind of an instruction (R161) with its operand: what the statements about many forms at once quantify over.
`control` stands for JMP, JSR, RTS, BRK and RTI, whose rules give their own sequences. -/
inductive Kind where
  | read (op : ReadOp) (o : Operand)
  | write (op : WriteOp) (m : MemMode)
  | modify (op : ModifyOp) (m : MemMode)
  | accumulator (op : ModifyOp)
  | implied (op : ImpliedOp)
  | stack (op : StackOp)
  | branch (op : BranchOp) (off : Byte)
  | control
  deriving DecidableEq, Repr

/-- The kind and operand of every instruction (R161). -/
def Instr.kind : Instr → Kind
  | .ldaImm v => .read .lda (.imm v)
  | .ldaZp zp => .read .lda (.mem (.zp zp))
  | .ldaZpX zp => .read .lda (.mem (.zpX zp))
  | .ldaAbs addr => .read .lda (.mem (.abs addr))
  | .ldaAbsX addr => .read .lda (.mem (.absX addr))
  | .ldaAbsY addr => .read .lda (.mem (.absY addr))
  | .ldaIndX zp => .read .lda (.mem (.indX zp))
  | .ldaIndY zp => .read .lda (.mem (.indY zp))
  | .ldxImm v => .read .ldx (.imm v)
  | .ldxZp zp => .read .ldx (.mem (.zp zp))
  | .ldxZpY zp => .read .ldx (.mem (.zpY zp))
  | .ldxAbs addr => .read .ldx (.mem (.abs addr))
  | .ldxAbsY addr => .read .ldx (.mem (.absY addr))
  | .ldyImm v => .read .ldy (.imm v)
  | .ldyZp zp => .read .ldy (.mem (.zp zp))
  | .ldyZpX zp => .read .ldy (.mem (.zpX zp))
  | .ldyAbs addr => .read .ldy (.mem (.abs addr))
  | .ldyAbsX addr => .read .ldy (.mem (.absX addr))
  | .staZp zp => .write .sta (.zp zp)
  | .staZpX zp => .write .sta (.zpX zp)
  | .staAbs addr => .write .sta (.abs addr)
  | .staAbsX addr => .write .sta (.absX addr)
  | .staAbsY addr => .write .sta (.absY addr)
  | .staIndX zp => .write .sta (.indX zp)
  | .staIndY zp => .write .sta (.indY zp)
  | .stxZp zp => .write .stx (.zp zp)
  | .stxZpY zp => .write .stx (.zpY zp)
  | .stxAbs addr => .write .stx (.abs addr)
  | .styZp zp => .write .sty (.zp zp)
  | .styZpX zp => .write .sty (.zpX zp)
  | .styAbs addr => .write .sty (.abs addr)
  | .tax => .implied .tax
  | .tay => .implied .tay
  | .txa => .implied .txa
  | .tya => .implied .tya
  | .tsx => .implied .tsx
  | .txs => .implied .txs
  | .pha => .stack .pha
  | .php => .stack .php
  | .pla => .stack .pla
  | .plp => .stack .plp
  | .adcImm v => .read .adc (.imm v)
  | .adcZp zp => .read .adc (.mem (.zp zp))
  | .adcZpX zp => .read .adc (.mem (.zpX zp))
  | .adcAbs addr => .read .adc (.mem (.abs addr))
  | .adcAbsX addr => .read .adc (.mem (.absX addr))
  | .adcAbsY addr => .read .adc (.mem (.absY addr))
  | .adcIndX zp => .read .adc (.mem (.indX zp))
  | .adcIndY zp => .read .adc (.mem (.indY zp))
  | .sbcImm v => .read .sbc (.imm v)
  | .sbcZp zp => .read .sbc (.mem (.zp zp))
  | .sbcZpX zp => .read .sbc (.mem (.zpX zp))
  | .sbcAbs addr => .read .sbc (.mem (.abs addr))
  | .sbcAbsX addr => .read .sbc (.mem (.absX addr))
  | .sbcAbsY addr => .read .sbc (.mem (.absY addr))
  | .sbcIndX zp => .read .sbc (.mem (.indX zp))
  | .sbcIndY zp => .read .sbc (.mem (.indY zp))
  | .andImm v => .read .and (.imm v)
  | .andZp zp => .read .and (.mem (.zp zp))
  | .andZpX zp => .read .and (.mem (.zpX zp))
  | .andAbs addr => .read .and (.mem (.abs addr))
  | .andAbsX addr => .read .and (.mem (.absX addr))
  | .andAbsY addr => .read .and (.mem (.absY addr))
  | .andIndX zp => .read .and (.mem (.indX zp))
  | .andIndY zp => .read .and (.mem (.indY zp))
  | .oraImm v => .read .ora (.imm v)
  | .oraZp zp => .read .ora (.mem (.zp zp))
  | .oraZpX zp => .read .ora (.mem (.zpX zp))
  | .oraAbs addr => .read .ora (.mem (.abs addr))
  | .oraAbsX addr => .read .ora (.mem (.absX addr))
  | .oraAbsY addr => .read .ora (.mem (.absY addr))
  | .oraIndX zp => .read .ora (.mem (.indX zp))
  | .oraIndY zp => .read .ora (.mem (.indY zp))
  | .eorImm v => .read .eor (.imm v)
  | .eorZp zp => .read .eor (.mem (.zp zp))
  | .eorZpX zp => .read .eor (.mem (.zpX zp))
  | .eorAbs addr => .read .eor (.mem (.abs addr))
  | .eorAbsX addr => .read .eor (.mem (.absX addr))
  | .eorAbsY addr => .read .eor (.mem (.absY addr))
  | .eorIndX zp => .read .eor (.mem (.indX zp))
  | .eorIndY zp => .read .eor (.mem (.indY zp))
  | .cmpImm v => .read .cmp (.imm v)
  | .cmpZp zp => .read .cmp (.mem (.zp zp))
  | .cmpZpX zp => .read .cmp (.mem (.zpX zp))
  | .cmpAbs addr => .read .cmp (.mem (.abs addr))
  | .cmpAbsX addr => .read .cmp (.mem (.absX addr))
  | .cmpAbsY addr => .read .cmp (.mem (.absY addr))
  | .cmpIndX zp => .read .cmp (.mem (.indX zp))
  | .cmpIndY zp => .read .cmp (.mem (.indY zp))
  | .cpxImm v => .read .cpx (.imm v)
  | .cpxZp zp => .read .cpx (.mem (.zp zp))
  | .cpxAbs addr => .read .cpx (.mem (.abs addr))
  | .cpyImm v => .read .cpy (.imm v)
  | .cpyZp zp => .read .cpy (.mem (.zp zp))
  | .cpyAbs addr => .read .cpy (.mem (.abs addr))
  | .bitZp zp => .read .bit (.mem (.zp zp))
  | .bitAbs addr => .read .bit (.mem (.abs addr))
  | .aslAcc => .accumulator .asl
  | .aslZp zp => .modify .asl (.zp zp)
  | .aslZpX zp => .modify .asl (.zpX zp)
  | .aslAbs addr => .modify .asl (.abs addr)
  | .aslAbsX addr => .modify .asl (.absX addr)
  | .lsrAcc => .accumulator .lsr
  | .lsrZp zp => .modify .lsr (.zp zp)
  | .lsrZpX zp => .modify .lsr (.zpX zp)
  | .lsrAbs addr => .modify .lsr (.abs addr)
  | .lsrAbsX addr => .modify .lsr (.absX addr)
  | .rolAcc => .accumulator .rol
  | .rolZp zp => .modify .rol (.zp zp)
  | .rolZpX zp => .modify .rol (.zpX zp)
  | .rolAbs addr => .modify .rol (.abs addr)
  | .rolAbsX addr => .modify .rol (.absX addr)
  | .rorAcc => .accumulator .ror
  | .rorZp zp => .modify .ror (.zp zp)
  | .rorZpX zp => .modify .ror (.zpX zp)
  | .rorAbs addr => .modify .ror (.abs addr)
  | .rorAbsX addr => .modify .ror (.absX addr)
  | .incZp zp => .modify .inc (.zp zp)
  | .incZpX zp => .modify .inc (.zpX zp)
  | .incAbs addr => .modify .inc (.abs addr)
  | .incAbsX addr => .modify .inc (.absX addr)
  | .decZp zp => .modify .dec (.zp zp)
  | .decZpX zp => .modify .dec (.zpX zp)
  | .decAbs addr => .modify .dec (.abs addr)
  | .decAbsX addr => .modify .dec (.absX addr)
  | .inx => .implied .inx
  | .iny => .implied .iny
  | .dex => .implied .dex
  | .dey => .implied .dey
  | .jmpAbs _ => .control
  | .jmpInd _ => .control
  | .jsr _ => .control
  | .rts => .control
  | .bcc off => .branch .bcc off
  | .bcs off => .branch .bcs off
  | .beq off => .branch .beq off
  | .bne off => .branch .bne off
  | .bmi off => .branch .bmi off
  | .bpl off => .branch .bpl off
  | .bvc off => .branch .bvc off
  | .bvs off => .branch .bvs off
  | .clc => .implied .clc
  | .sec => .implied .sec
  | .cli => .implied .cli
  | .sei => .implied .sei
  | .cld => .implied .cld
  | .sed => .implied .sed
  | .clv => .implied .clv
  | .nop => .implied .nop
  | .brk => .control
  | .rti => .control

end Sys2Proof
end

