-- ==== Sys2Proof/WellFormed.lean ====
section
/-! DEFINITION. Well-formedness. An instruction's operands have the exact widths of R121 in their types, so every term
of `Instr` is well formed and needs no check. What needs checks are the construction parameters: an image that fits its
scheme (R544, R550), an image that is a byte store of that size, and a co-processor budget in its range (R572). -/

namespace Sys2Proof

/-- The image has the scheme's length (R544, R550). -/
def Params.imageFits (p : Params) : Bool := p.scheme.fits p.imageSize

/-- The image is a byte store in canonical form. -/
def Params.imageCanonical (p : Params) : Bool := p.image.wf

/-- The image lists no byte past its size. -/
def Params.imageInRange (p : Params) : Bool := p.image.below p.imageSize

/-- `COPROC_BUDGET` is in [100000, 500000] (R7, R572). -/
def Params.budgetInRange (p : Params) : Bool := decide (100000 ≤ p.coprocBudget ∧ p.coprocBudget ≤ 500000)

/-- All checks of the parameters. -/
def Params.wf (p : Params) : Bool := p.imageFits && p.imageCanonical && p.imageInRange && p.budgetInRange

end Sys2Proof
end

