-- ==== Sys2Proof/Decode.lean ====
section
/-! DEFINITION. The opcode map (R124), the decoder and, after it, the encoder (R120 to R122), with the byte-order and
field helpers they use. -/

namespace Sys2Proof

/-- The 16-bit value with this low and this high byte (R79, R122): `(hi << 8) | lo`. -/
def wordOf (lo hi : Byte) : Addr := hi ++ lo

/-- Bits 7..0 of an address. -/
def loByte (a : Addr) : Byte := a.setWidth 8

/-- Bits 15..8 of an address. -/
def hiByte (a : Addr) : Byte := (a >>> 8).setWidth 8

/-- `zext_16` of a byte (R8): a zero-page address. -/
def zext (b : Byte) : Addr := b.setWidth 16

/-- `sext_8` of a branch offset, as a 16-bit value (R8, R122). -/
def sext (b : Byte) : Addr := b.signExtend 16

/-- What an opcode byte decodes to: how many operand bytes follow and the instruction they complete. -/
inductive Shape where
  | invalid
  | one (i : Instr)
  | two (f : Byte → Instr)
  | three (f : Addr → Instr)

/-- The opcode map (R123, R124); every other opcode is invalid (R126). -/
def opcodeShape (op : Byte) : Shape :=
  match op.toNat with
  | 0x00 => .one .brk
  | 0x01 => .two .oraIndX
  | 0x05 => .two .oraZp
  | 0x06 => .two .aslZp
  | 0x08 => .one .php
  | 0x09 => .two .oraImm
  | 0x0A => .one .aslAcc
  | 0x0D => .three .oraAbs
  | 0x0E => .three .aslAbs
  | 0x10 => .two .bpl
  | 0x11 => .two .oraIndY
  | 0x15 => .two .oraZpX
  | 0x16 => .two .aslZpX
  | 0x18 => .one .clc
  | 0x19 => .three .oraAbsY
  | 0x1D => .three .oraAbsX
  | 0x1E => .three .aslAbsX
  | 0x20 => .three .jsr
  | 0x21 => .two .andIndX
  | 0x24 => .two .bitZp
  | 0x25 => .two .andZp
  | 0x26 => .two .rolZp
  | 0x28 => .one .plp
  | 0x29 => .two .andImm
  | 0x2A => .one .rolAcc
  | 0x2C => .three .bitAbs
  | 0x2D => .three .andAbs
  | 0x2E => .three .rolAbs
  | 0x30 => .two .bmi
  | 0x31 => .two .andIndY
  | 0x35 => .two .andZpX
  | 0x36 => .two .rolZpX
  | 0x38 => .one .sec
  | 0x39 => .three .andAbsY
  | 0x3D => .three .andAbsX
  | 0x3E => .three .rolAbsX
  | 0x40 => .one .rti
  | 0x41 => .two .eorIndX
  | 0x45 => .two .eorZp
  | 0x46 => .two .lsrZp
  | 0x48 => .one .pha
  | 0x49 => .two .eorImm
  | 0x4A => .one .lsrAcc
  | 0x4C => .three .jmpAbs
  | 0x4D => .three .eorAbs
  | 0x4E => .three .lsrAbs
  | 0x50 => .two .bvc
  | 0x51 => .two .eorIndY
  | 0x55 => .two .eorZpX
  | 0x56 => .two .lsrZpX
  | 0x58 => .one .cli
  | 0x59 => .three .eorAbsY
  | 0x5D => .three .eorAbsX
  | 0x5E => .three .lsrAbsX
  | 0x60 => .one .rts
  | 0x61 => .two .adcIndX
  | 0x65 => .two .adcZp
  | 0x66 => .two .rorZp
  | 0x68 => .one .pla
  | 0x69 => .two .adcImm
  | 0x6A => .one .rorAcc
  | 0x6C => .three .jmpInd
  | 0x6D => .three .adcAbs
  | 0x6E => .three .rorAbs
  | 0x70 => .two .bvs
  | 0x71 => .two .adcIndY
  | 0x75 => .two .adcZpX
  | 0x76 => .two .rorZpX
  | 0x78 => .one .sei
  | 0x79 => .three .adcAbsY
  | 0x7D => .three .adcAbsX
  | 0x7E => .three .rorAbsX
  | 0x81 => .two .staIndX
  | 0x84 => .two .styZp
  | 0x85 => .two .staZp
  | 0x86 => .two .stxZp
  | 0x88 => .one .dey
  | 0x8A => .one .txa
  | 0x8C => .three .styAbs
  | 0x8D => .three .staAbs
  | 0x8E => .three .stxAbs
  | 0x90 => .two .bcc
  | 0x91 => .two .staIndY
  | 0x94 => .two .styZpX
  | 0x95 => .two .staZpX
  | 0x96 => .two .stxZpY
  | 0x98 => .one .tya
  | 0x99 => .three .staAbsY
  | 0x9A => .one .txs
  | 0x9D => .three .staAbsX
  | 0xA0 => .two .ldyImm
  | 0xA1 => .two .ldaIndX
  | 0xA2 => .two .ldxImm
  | 0xA4 => .two .ldyZp
  | 0xA5 => .two .ldaZp
  | 0xA6 => .two .ldxZp
  | 0xA8 => .one .tay
  | 0xA9 => .two .ldaImm
  | 0xAA => .one .tax
  | 0xAC => .three .ldyAbs
  | 0xAD => .three .ldaAbs
  | 0xAE => .three .ldxAbs
  | 0xB0 => .two .bcs
  | 0xB1 => .two .ldaIndY
  | 0xB4 => .two .ldyZpX
  | 0xB5 => .two .ldaZpX
  | 0xB6 => .two .ldxZpY
  | 0xB8 => .one .clv
  | 0xB9 => .three .ldaAbsY
  | 0xBA => .one .tsx
  | 0xBC => .three .ldyAbsX
  | 0xBD => .three .ldaAbsX
  | 0xBE => .three .ldxAbsY
  | 0xC0 => .two .cpyImm
  | 0xC1 => .two .cmpIndX
  | 0xC4 => .two .cpyZp
  | 0xC5 => .two .cmpZp
  | 0xC6 => .two .decZp
  | 0xC8 => .one .iny
  | 0xC9 => .two .cmpImm
  | 0xCA => .one .dex
  | 0xCC => .three .cpyAbs
  | 0xCD => .three .cmpAbs
  | 0xCE => .three .decAbs
  | 0xD0 => .two .bne
  | 0xD1 => .two .cmpIndY
  | 0xD5 => .two .cmpZpX
  | 0xD6 => .two .decZpX
  | 0xD8 => .one .cld
  | 0xD9 => .three .cmpAbsY
  | 0xDD => .three .cmpAbsX
  | 0xDE => .three .decAbsX
  | 0xE0 => .two .cpxImm
  | 0xE1 => .two .sbcIndX
  | 0xE4 => .two .cpxZp
  | 0xE5 => .two .sbcZp
  | 0xE6 => .two .incZp
  | 0xE8 => .one .inx
  | 0xE9 => .two .sbcImm
  | 0xEA => .one .nop
  | 0xEC => .three .cpxAbs
  | 0xED => .three .sbcAbs
  | 0xEE => .three .incAbs
  | 0xF0 => .two .beq
  | 0xF1 => .two .sbcIndY
  | 0xF5 => .two .sbcZpX
  | 0xF6 => .two .incZpX
  | 0xF8 => .one .sed
  | 0xF9 => .three .sbcAbsY
  | 0xFD => .three .sbcAbsX
  | 0xFE => .three .incAbsX
  | _ => .invalid

/-- The length of the instruction an opcode begins (R128), none where the opcode is invalid (R126). -/
def opcodeLength (op : Byte) : Option Nat :=
  match opcodeShape op with
  | .invalid => none
  | .one _ => some 1
  | .two _ => some 2
  | .three _ => some 3

/-- The decoder: the instruction the first bytes of a list hold and the bytes after it; none where the opcode is
invalid (R126) or the list ends inside the instruction. Operand bytes follow the opcode, low byte first (R120, R122). -/
def decode : List Byte → Option (Instr × List Byte)
  | [] => none
  | op :: rest =>
    match opcodeShape op with
    | .invalid => none
    | .one i => some (i, rest)
    | .two f =>
      match rest with
      | b :: rest => some (f b, rest)
      | [] => none
    | .three f =>
      match rest with
      | lo :: hi :: rest => some (f (wordOf lo hi), rest)
      | _ => none

/-- The bytes of an instruction (R120 to R124). -/
def encode : Instr → List Byte
  | .ldaImm v => [0xA9, v]
  | .ldaZp zp => [0xA5, zp]
  | .ldaZpX zp => [0xB5, zp]
  | .ldaAbs addr => [0xAD, loByte addr, hiByte addr]
  | .ldaAbsX addr => [0xBD, loByte addr, hiByte addr]
  | .ldaAbsY addr => [0xB9, loByte addr, hiByte addr]
  | .ldaIndX zp => [0xA1, zp]
  | .ldaIndY zp => [0xB1, zp]
  | .ldxImm v => [0xA2, v]
  | .ldxZp zp => [0xA6, zp]
  | .ldxZpY zp => [0xB6, zp]
  | .ldxAbs addr => [0xAE, loByte addr, hiByte addr]
  | .ldxAbsY addr => [0xBE, loByte addr, hiByte addr]
  | .ldyImm v => [0xA0, v]
  | .ldyZp zp => [0xA4, zp]
  | .ldyZpX zp => [0xB4, zp]
  | .ldyAbs addr => [0xAC, loByte addr, hiByte addr]
  | .ldyAbsX addr => [0xBC, loByte addr, hiByte addr]
  | .staZp zp => [0x85, zp]
  | .staZpX zp => [0x95, zp]
  | .staAbs addr => [0x8D, loByte addr, hiByte addr]
  | .staAbsX addr => [0x9D, loByte addr, hiByte addr]
  | .staAbsY addr => [0x99, loByte addr, hiByte addr]
  | .staIndX zp => [0x81, zp]
  | .staIndY zp => [0x91, zp]
  | .stxZp zp => [0x86, zp]
  | .stxZpY zp => [0x96, zp]
  | .stxAbs addr => [0x8E, loByte addr, hiByte addr]
  | .styZp zp => [0x84, zp]
  | .styZpX zp => [0x94, zp]
  | .styAbs addr => [0x8C, loByte addr, hiByte addr]
  | .tax => [0xAA]
  | .tay => [0xA8]
  | .txa => [0x8A]
  | .tya => [0x98]
  | .tsx => [0xBA]
  | .txs => [0x9A]
  | .pha => [0x48]
  | .php => [0x08]
  | .pla => [0x68]
  | .plp => [0x28]
  | .adcImm v => [0x69, v]
  | .adcZp zp => [0x65, zp]
  | .adcZpX zp => [0x75, zp]
  | .adcAbs addr => [0x6D, loByte addr, hiByte addr]
  | .adcAbsX addr => [0x7D, loByte addr, hiByte addr]
  | .adcAbsY addr => [0x79, loByte addr, hiByte addr]
  | .adcIndX zp => [0x61, zp]
  | .adcIndY zp => [0x71, zp]
  | .sbcImm v => [0xE9, v]
  | .sbcZp zp => [0xE5, zp]
  | .sbcZpX zp => [0xF5, zp]
  | .sbcAbs addr => [0xED, loByte addr, hiByte addr]
  | .sbcAbsX addr => [0xFD, loByte addr, hiByte addr]
  | .sbcAbsY addr => [0xF9, loByte addr, hiByte addr]
  | .sbcIndX zp => [0xE1, zp]
  | .sbcIndY zp => [0xF1, zp]
  | .andImm v => [0x29, v]
  | .andZp zp => [0x25, zp]
  | .andZpX zp => [0x35, zp]
  | .andAbs addr => [0x2D, loByte addr, hiByte addr]
  | .andAbsX addr => [0x3D, loByte addr, hiByte addr]
  | .andAbsY addr => [0x39, loByte addr, hiByte addr]
  | .andIndX zp => [0x21, zp]
  | .andIndY zp => [0x31, zp]
  | .oraImm v => [0x09, v]
  | .oraZp zp => [0x05, zp]
  | .oraZpX zp => [0x15, zp]
  | .oraAbs addr => [0x0D, loByte addr, hiByte addr]
  | .oraAbsX addr => [0x1D, loByte addr, hiByte addr]
  | .oraAbsY addr => [0x19, loByte addr, hiByte addr]
  | .oraIndX zp => [0x01, zp]
  | .oraIndY zp => [0x11, zp]
  | .eorImm v => [0x49, v]
  | .eorZp zp => [0x45, zp]
  | .eorZpX zp => [0x55, zp]
  | .eorAbs addr => [0x4D, loByte addr, hiByte addr]
  | .eorAbsX addr => [0x5D, loByte addr, hiByte addr]
  | .eorAbsY addr => [0x59, loByte addr, hiByte addr]
  | .eorIndX zp => [0x41, zp]
  | .eorIndY zp => [0x51, zp]
  | .cmpImm v => [0xC9, v]
  | .cmpZp zp => [0xC5, zp]
  | .cmpZpX zp => [0xD5, zp]
  | .cmpAbs addr => [0xCD, loByte addr, hiByte addr]
  | .cmpAbsX addr => [0xDD, loByte addr, hiByte addr]
  | .cmpAbsY addr => [0xD9, loByte addr, hiByte addr]
  | .cmpIndX zp => [0xC1, zp]
  | .cmpIndY zp => [0xD1, zp]
  | .cpxImm v => [0xE0, v]
  | .cpxZp zp => [0xE4, zp]
  | .cpxAbs addr => [0xEC, loByte addr, hiByte addr]
  | .cpyImm v => [0xC0, v]
  | .cpyZp zp => [0xC4, zp]
  | .cpyAbs addr => [0xCC, loByte addr, hiByte addr]
  | .bitZp zp => [0x24, zp]
  | .bitAbs addr => [0x2C, loByte addr, hiByte addr]
  | .aslAcc => [0x0A]
  | .aslZp zp => [0x06, zp]
  | .aslZpX zp => [0x16, zp]
  | .aslAbs addr => [0x0E, loByte addr, hiByte addr]
  | .aslAbsX addr => [0x1E, loByte addr, hiByte addr]
  | .lsrAcc => [0x4A]
  | .lsrZp zp => [0x46, zp]
  | .lsrZpX zp => [0x56, zp]
  | .lsrAbs addr => [0x4E, loByte addr, hiByte addr]
  | .lsrAbsX addr => [0x5E, loByte addr, hiByte addr]
  | .rolAcc => [0x2A]
  | .rolZp zp => [0x26, zp]
  | .rolZpX zp => [0x36, zp]
  | .rolAbs addr => [0x2E, loByte addr, hiByte addr]
  | .rolAbsX addr => [0x3E, loByte addr, hiByte addr]
  | .rorAcc => [0x6A]
  | .rorZp zp => [0x66, zp]
  | .rorZpX zp => [0x76, zp]
  | .rorAbs addr => [0x6E, loByte addr, hiByte addr]
  | .rorAbsX addr => [0x7E, loByte addr, hiByte addr]
  | .incZp zp => [0xE6, zp]
  | .incZpX zp => [0xF6, zp]
  | .incAbs addr => [0xEE, loByte addr, hiByte addr]
  | .incAbsX addr => [0xFE, loByte addr, hiByte addr]
  | .decZp zp => [0xC6, zp]
  | .decZpX zp => [0xD6, zp]
  | .decAbs addr => [0xCE, loByte addr, hiByte addr]
  | .decAbsX addr => [0xDE, loByte addr, hiByte addr]
  | .inx => [0xE8]
  | .iny => [0xC8]
  | .dex => [0xCA]
  | .dey => [0x88]
  | .jmpAbs addr => [0x4C, loByte addr, hiByte addr]
  | .jmpInd addr => [0x6C, loByte addr, hiByte addr]
  | .jsr addr => [0x20, loByte addr, hiByte addr]
  | .rts => [0x60]
  | .bcc off => [0x90, off]
  | .bcs off => [0xB0, off]
  | .beq off => [0xF0, off]
  | .bne off => [0xD0, off]
  | .bmi off => [0x30, off]
  | .bpl off => [0x10, off]
  | .bvc off => [0x50, off]
  | .bvs off => [0x70, off]
  | .clc => [0x18]
  | .sec => [0x38]
  | .cli => [0x58]
  | .sei => [0x78]
  | .cld => [0xD8]
  | .sed => [0xF8]
  | .clv => [0xB8]
  | .nop => [0xEA]
  | .brk => [0x00]
  | .rti => [0x40]

/-- The bytes of a table word, first byte in the least significant bits, padded with zero bytes to the longest
instruction. -/
def tableWordBytes (nbits w : Nat) : List Byte :=
  let w := w % 2 ^ nbits
  [BitVec.ofNat 8 w, BitVec.ofNat 8 (w / 256), BitVec.ofNat 8 (w / 65536)]

/-- The instruction the decoder reads from a word numbered as spec/opcode_table.json numbers it. -/
def decodeTableWord (nbits w : Nat) : Option Instr := (decode (tableWordBytes nbits w)).map (·.1)

end Sys2Proof
end

