-- ==== Sys2Proof/Machine/State.lean ====
section
/-! DEFINITION. The machine's state (R30) as plain data, its value after reset (R601), and the reasons a step stops. -/

namespace Sys2Proof.Machine

/-- The stored flags of P (R36 to R44). Bits B and E are not stored (R39, R40). -/
structure Flags where
  n : Bool
  v : Bool
  d : Bool
  i : Bool
  z : Bool
  c : Bool
  deriving DecidableEq, Repr

/-- The interrupts an entry is for (R411, R412): NMI or IRQ. -/
inductive Interrupt where
  | nmi | irq
  deriving DecidableEq, Repr

/-- The execution-state tag (R46): at an instruction boundary, or about to run cycle `k` of a known opcode, or about to
run cycle `k` of an interrupt entry (R415). -/
inductive ExecTag where
  | fetch
  | mid (opcode : Byte) (k : Nat)
  | entry (interrupt : Interrupt) (k : Nat)
  deriving DecidableEq, Repr

/-- The internal latches of the instruction in progress (R50), not visible to programs; `ea` also holds the bytes of a
pointer, a vector or a return address as they come in (log 34). -/
structure Latches where
  opcode : Byte
  lo : Byte
  hi : Byte
  ea : Addr
  operand : Byte
  offset : Byte
  deriving DecidableEq, Repr

/-- The CPU state (R31 to R50). -/
structure Cpu where
  a : Byte
  x : Byte
  y : Byte
  s : Byte
  pc : Addr
  p : Flags
  lip : Addr
  nmiLatch : Bool
  halted : Bool
  tag : ExecTag
  lat : Latches
  deriving DecidableEq, Repr

/-- The bus snapshot (R51). -/
structure Bus where
  lastAddress : BusAddr
  lastData : Byte
  accessType : Chip
  deriving DecidableEq, Repr

/-- The ball's widths (R480, R483). -/
inductive BallWidth where
  | w1 | w2 | w4 | w8
  deriving DecidableEq, Repr

/-- The ball object (R480), with the pixel of its last tick (R481; log 18). -/
structure Ball where
  counter : Fin 160
  rendering : Bool
  renderCounter : Int
  width : BallWidth
  enaNew : Bool
  enaOld : Bool
  vdel : Bool
  hmm : Fin 16
  moving : Bool
  pixel : Bool
  deriving DecidableEq, Repr

/-- The TIA timing state (R54), its stored write registers (R470; log 16) and its motion state (R484). -/
structure Tia where
  hclock : Fin 228
  line : Nat
  regs : Memory
  hmoveExt : Bool
  mactive : Bool
  mclock : Nat
  ball : Ball
  deriving DecidableEq, Repr

/-- The states of the FrameManager (R460). -/
inductive FrameState where
  | waitForVsyncStart | waitForVsyncEnd | waitForFrameStart | frame | overscan
  deriving DecidableEq, Repr

/-- The FrameManager (R56, R460). A frame buffer is an opaque token (R464): the number the factory gave it; `emitted`
lists the tokens handed out by `newFrame` (R465), oldest first (log 20). -/
structure Frame where
  state : FrameState
  lineInState : Nat
  vblank : Bool
  vsync : Bool
  buffer : Option Nat
  nextBuffer : Nat
  emitted : List Nat
  deriving DecidableEq, Repr

/-- The timer's divisors (R492). -/
inductive Divisor where
  | d1 | d8 | d64 | d1024
  deriving DecidableEq, Repr

/-- The PIA (R53, R490 to R498). -/
structure Pia where
  ram : Memory
  divisor : Divisor
  countdown : Byte
  sub : Nat
  flag : Bool
  irqEnable : Bool
  outA : Byte
  dirA : Byte
  outB : Byte
  dirB : Byte
  deriving DecidableEq, Repr

/-- The cartridge's bank-select registers and extra RAM (R57, R520): `bank` of R531 to R542, the E0 slices (R537; the
fourth is hard-wired), the E7 registers (R541), the 3E RAM block (R542) and the FE stack-sniff latch (R540). -/
structure Cart where
  bank : Nat
  s0 : Fin 8
  s1 : Fin 8
  s2 : Fin 8
  lower : Fin 8
  ramblk : Fin 4
  ramBlock : Option (Fin 32)
  feArmed : Bool
  ram : Memory
  deriving DecidableEq, Repr

/-- The accumulator of the music clock (R560): the board step of the previous access, and the fraction in parts of
1/`CPU_CLOCK_HZ` of a tick (log 23). -/
structure MusicClock where
  lastCycle : Nat
  frac : Nat
  deriving DecidableEq, Repr

/-- A DPC-family cartridge's co-processor (R58, R570) and the music clock it keeps beside it (R560). -/
structure Bridge where
  core : Coproc
  music : MusicClock
  deriving DecidableEq, Repr

/-- What a trap record says (R401, R574). -/
inductive TrapMessage where
  | invalidRead (address : BusAddr)
  | invalidWrite (address : BusAddr)
  | coprocFault (kind : CoprocFaultKind) (address : BitVec 32)
  deriving DecidableEq, Repr

/-- A record of the trap log (R52, R400): a chip's trap with its reason, chip and message, or an invalid opcode with its
address (R402). -/
inductive TrapRecord where
  | chip (reason : Chip) (chip : Chip) (message : TrapMessage)
  | invalidOpcode (opcode : Byte) (lip : Addr)
  deriving DecidableEq, Repr

/-- The trap log, oldest first, and the fatal bit (R52). -/
structure Traps where
  log : List TrapRecord
  fatal : Bool
  deriving DecidableEq, Repr

/-- The state of the machine (R30), with its construction parameters (R7; log 2) and the number of board steps made
since reset began (R420). -/
structure State where
  cfg : Params
  clock : Nat
  cpu : Cpu
  bus : Bus
  tia : Tia
  collision : Collisions
  frame : Frame
  pia : Pia
  cart : Cart
  coproc : Option Bridge
  traps : Traps
  deriving DecidableEq, Repr

/-- Why a step stops. -/
inductive Fault where
  /-- Raised by the opcode fetch of one of the 105 invalid opcodes (R126, R402): the opcode, its address and the stopped
  machine. Safe: the spec stops the machine there. -/
  | invalidOpcode (opcode : Byte) (lip : Addr) (stopped : State)
  /-- Raised by a chip's trap taken with no handler (R400), a co-processor fault included (R574): the record and the
  machine as it stood when the trap stopped it. Safe: the spec stops the machine there. -/
  | chipTrap (record : TrapRecord) (stopped : State)
  /-- Raised by a step of a machine whose fatal bit is set and whose log is empty, which no run reaches (R11). Safe. -/
  | stopped (state : State)
  deriving DecidableEq, Repr

/-- Why a step is refused. -/
inductive Refusal where
  /-- Raised by the arm of `exec` of an instruction that has no meaning yet. Safe. -/
  | notModelled (mnemonic : String)
  deriving DecidableEq, Repr

/-- The latches before the first instruction: R50 gives no value, and none is read before it is written (log 3). -/
def Latches.reset : Latches := { opcode := 0, lo := 0, hi := 0, ea := 0, operand := 0, offset := 0 }

/-- The ball at reset (R480). -/
def Ball.reset : Ball :=
  { counter := 0, rendering := false, renderCounter := -4, width := .w1, enaNew := false, enaOld := false,
    vdel := false, hmm := 8, moving := false, pixel := false }

/-- The FrameManager at reset (R56). -/
def Frame.reset : Frame :=
  { state := .waitForVsyncStart, lineInState := 0, vblank := false, vsync := false, buffer := none, nextBuffer := 0,
    emitted := [] }

/-- The cartridge's bank registers at reset, for every scheme (R526, R544), with this extra RAM. -/
def Cart.reset (ram : Memory) : Cart :=
  { bank := 0, s0 := 4, s1 := 5, s2 := 6, lower := 0, ramblk := 0, ramBlock := none, feArmed := false, ram := ram }

/-- The machine right after reset (R600, R601) with the decision defaults of R7 and an all-zero `vanilla_4k` image
(R530): seven board steps have been made, PC holds the word at 0xFFFC/0xFFFD. The values R601 calls draws are chosen:
logs 3, 4, 5; the parameters: log 6. -/
def State.reset : State :=
  { cfg := Params.default
    clock := 7
    cpu :=
      { a := 0, x := 0, y := 0, s := 0xFD, pc := 0,
        p := { n := false, v := false, d := false, i := true, z := false, c := false },
        lip := 0, nmiLatch := false, halted := false, tag := .fetch, lat := Latches.reset }
    bus := { lastAddress := 0x1FFD, lastData := 0, accessType := .cartridge }
    tia := { hclock := 21, line := 0, regs := [], hmoveExt := false, mactive := false, mclock := 0, ball := Ball.reset }
    collision := Collisions.none
    frame := Frame.reset
    pia :=
      { ram := [], divisor := .d1024, countdown := 0, sub := 7, flag := false, irqEnable := false,
        outA := 0, dirA := 0, outB := 0, dirB := 0 }
    cart := Cart.reset []
    coproc := none
    traps := { log := [], fatal := false } }

end Sys2Proof.Machine
end

