-- ==== Sys2Proof/Machine/Cartridge.lean ====
section
/-! DEFINITION. The cartridge: hotspots of kind (a) (R522), the byte or RAM port mapped at each offset (R529 to R542),
the entry points read and write (R521) and the listener's hotspots of kind (b) (R525). -/

namespace Sys2Proof.Machine

/-- The cartridge offset `m & 0xFFF` (R85, R520). -/
def cartOffset (m : BusAddr) : Nat := m.toNat % 4096

/-- What is mapped at an offset: a byte of the image, or a byte of the extra RAM through its read or its write port. -/
inductive CartPort where
  | rom (index : Nat)
  | ramRead (index : Nat)
  | ramWrite (index : Nat)
  deriving DecidableEq, Repr

/-- Hotspots `first`, `first + 1`, … select banks 0, 1, … (R531, R533, R534, R536, R542). -/
def Cart.hotspots (first count o : Nat) (c : Cart) : Cart :=
  if first ≤ o ∧ o < first + count then { c with bank := o - first } else c

/-- `directSwitch` (R521, R522, R524): the kind (a) hotspots, and FE's choice by LIP bit 13 (R540; log 15). -/
def Cart.directSwitch (p : Params) (lip : Addr) (o : Nat) (c : Cart) : Cart :=
  match p.scheme with
  | .f8 => c.hotspots 0xFF8 2 o
  | .f6 => c.hotspots 0xFF6 4 o
  | .f4 => c.hotspots 0xFF4 8 o
  | .f0 => if o = 0xFF0 then { c with bank := (c.bank + 1) % 16 } else c
  | .fa => c.hotspots 0xFF8 3 o
  | .ef => c.hotspots 0xFE0 16 o
  | .e7 =>
    if 0xFE0 ≤ o ∧ o ≤ 0xFE7 then { c with lower := Fin.ofNat 8 (o - 0xFE0) }
    else if 0xFE8 ≤ o ∧ o ≤ 0xFEB then { c with ramblk := Fin.ofNat 4 (o - 0xFE8) }
    else c
  | .fe =>
    match p.feMode with
    | .lip => { c with bank := if lip.getLsbD 13 then 0 else 1 }
    | .stackSniff => c
  | .vanilla2k | .vanilla4k | .e0 | .tigervision | .ua | .cv | .scheme3E => c

/-- A 4 KiB bank under a RAM overlay of `size` bytes: write port first, read port after it (R532, R536). -/
def overlayPort (size bank o : Nat) : CartPort :=
  if o < size then .ramWrite o else if o < 2 * size then .ramRead (o - size) else .rom (4096 * bank + o)

/-- The slice register of a 1 KiB slot (R537): the fourth is fixed at 7. -/
def Cart.slice (c : Cart) (slot : Nat) : Nat :=
  match slot with
  | 0 => c.s0.val
  | 1 => c.s1.val
  | 2 => c.s2.val
  | _ => 7

/-- What the bank registers map at an offset (R529 to R542). -/
def Cart.port (p : Params) (c : Cart) (o : Nat) : CartPort :=
  match p.scheme with
  | .vanilla2k => .rom (o % 2048)
  | .vanilla4k => .rom o
  | .f8 | .f6 | .f4 => overlayPort (if p.superChip then 128 else 0) c.bank o
  | .f0 | .ua | .fe | .ef => .rom (4096 * c.bank + o)
  | .fa => overlayPort 256 c.bank o
  | .e0 => .rom (1024 * c.slice (o / 1024) + o % 1024)
  | .tigervision => if o < 2048 then .rom (2048 * c.bank + o) else .rom (p.imageSize - 2048 + (o - 2048))
  | .e7 =>
    if o < 2048 then
      if c.lower = 7 then (if o < 1024 then .ramWrite o else .ramRead (o - 1024)) else .rom (2048 * c.lower.val + o)
    else if o < 0x900 then .ramWrite (1024 + 256 * c.ramblk.val + (o - 0x800))
    else if o < 0xA00 then .ramRead (1024 + 256 * c.ramblk.val + (o - 0x900))
    else .rom (2048 * 7 + o % 2048)
  | .cv => if o < 1024 then .ramRead o else if o < 2048 then .ramWrite (o - 1024) else .rom (o % 2048)
  | .scheme3E =>
    if o < 2048 then
      match c.ramBlock with
      | some b => if o < 1024 then .ramRead (1024 * b.val + o) else .ramWrite (1024 * b.val + (o - 1024))
      | none => .rom (2048 * c.bank + o)
    else .rom (p.imageSize - 2048 + (o - 2048))

/-- `cart.read` (R521): the switch comes before the data (R524); a read of a RAM write port returns the last bus data
and stores it (R532). -/
def Cart.read (p : Params) (lip : Addr) (lastData : Byte) (m : BusAddr) (c : Cart) : Byte × Cart :=
  let o := cartOffset m
  let c := c.directSwitch p lip o
  match c.port p o with
  | .rom i => (p.image.read i, c)
  | .ramRead i => (c.ram.read i, c)
  | .ramWrite i => (lastData, { c with ram := c.ram.write i lastData })

/-- `cart.write` (R521): a write anywhere but a RAM write port stores nothing (R83). -/
def Cart.write (p : Params) (lip : Addr) (m : BusAddr) (v : Byte) (c : Cart) : Cart :=
  let o := cartOffset m
  let c := c.directSwitch p lip o
  match c.port p o with
  | .ramWrite i => { c with ram := c.ram.write i v }
  | .rom _ | .ramRead _ => c

/-- `sniffSwitch` (R521, R525): the kind (b) hotspots of E0, 3F, UA, FE (stack_sniff; log 15) and 3E (log 31), R537 to
R540 and R542. -/
def Cart.sniff (p : Params) (m : BusAddr) (v : Byte) (kind : AccessKind) (c : Cart) : Cart :=
  match p.scheme with
  | .e0 =>
    let o := cartOffset m
    if !m.getLsbD 12 then c
    else if 0xFE0 ≤ o ∧ o ≤ 0xFE7 then { c with s0 := Fin.ofNat 8 (o - 0xFE0) }
    else if 0xFE8 ≤ o ∧ o ≤ 0xFEF then { c with s1 := Fin.ofNat 8 (o - 0xFE8) }
    else if 0xFF0 ≤ o ∧ o ≤ 0xFF7 then { c with s2 := Fin.ofNat 8 (o - 0xFF0) }
    else c
  | .tigervision =>
    if kind = .write ∧ m.toNat ≤ 0x3F then { c with bank := v.toNat % (p.imageSize / 2048) } else c
  | .ua =>
    if m &&& 0x1260#13 = 0x0220#13 then { c with bank := 0 }
    else if m &&& 0x1260#13 = 0x0240#13 then { c with bank := 1 }
    else c
  | .fe =>
    match p.feMode with
    | .lip => c
    | .stackSniff =>
      { c with
        bank := if c.feArmed then (if v.getLsbD 5 then 0 else 1) else c.bank
        feArmed := decide (m = 0x01FE#13) }
  | .scheme3E =>
    if kind = .write ∧ m.toNat = 0x3E then { c with ramBlock := some (Fin.ofNat 32 v.toNat) }
    else if kind = .write ∧ m.toNat = 0x3F then
      { c with bank := v.toNat % (p.imageSize / 2048), ramBlock := none }
    else c
  | .vanilla2k | .vanilla4k | .f8 | .f6 | .f4 | .f0 | .fa | .e7 | .ef | .cv => c

/-- The number of values the bank register takes under a scheme (R531 to R542). -/
def bankCount (p : Params) : Nat :=
  match p.scheme with
  | .f8 | .ua | .fe => 2
  | .f6 => 4
  | .f4 => 8
  | .f0 | .ef => 16
  | .fa => 3
  | .tigervision | .scheme3E => p.imageSize / 2048
  | .vanilla2k | .vanilla4k | .e0 | .e7 | .cv => 1

/-- The number of bytes of extra RAM a scheme has (R544). -/
def extraRamSize (p : Params) : Nat :=
  match p.scheme with
  | .f8 | .f6 | .f4 => if p.superChip then 128 else 0
  | .fa => 256
  | .e7 => 2048
  | .cv => 1024
  | .scheme3E => 32768
  | .vanilla2k | .vanilla4k | .f0 | .e0 | .tigervision | .ua | .fe | .ef => 0

end Sys2Proof.Machine
end

