-- ==== Sys2Proof/Machine/Pia.lean ====
section
/-! DEFINITION. The PIA: RAM (R491), timer (R492 to R496), ports (R497) and its register map (R490). -/

namespace Sys2Proof.Machine

/-- The divisor as a number (R492). -/
def Divisor.count : Divisor → Nat
  | .d1 => 1
  | .d8 => 8
  | .d64 => 64
  | .d1024 => 1024

/-- `[1, 8, 64, 1024][m[1:0]]` (R490, R494). -/
def divisorOf (m : BusAddr) : Divisor :=
  match m.getLsbD 1, m.getLsbD 0 with
  | false, false => .d1
  | false, true => .d8
  | true, false => .d64
  | true, true => .d1024

/-- `pia.cycle()` (R493). -/
def Pia.tick (p : Pia) : Pia :=
  let sub := p.sub + 1
  if sub = p.divisor.count then
    if p.countdown = 0 then { p with sub := 0, countdown := 0xFF, divisor := .d1, flag := true }
    else { p with sub := 0, countdown := p.countdown - 1 }
  else { p with sub := sub }

/-- The byte an I/O port reads as (R497): the output register where the direction bit is 1, the input where it is 0. -/
def portByte (out dir input : Byte) : Byte := (out &&& dir) ||| (input &&& ~~~dir)

/-- The index of a PIA RAM byte (R74, R491). -/
def piaRamIndex (m : BusAddr) : Nat := m.toNat % 128

/-- A PIA read: the byte and the PIA after it (R74, R490, R491, R495 to R497). -/
def piaRead (m : BusAddr) (l : Lines) (p : Pia) : Byte × Pia :=
  if !m.getLsbD 9 then (p.ram.read (piaRamIndex m), p)
  else if m.getLsbD 2 then
    if m.getLsbD 0 then (if p.flag then 0x80#8 else 0#8, p) else (p.countdown, { p with flag := false })
  else
    match m.getLsbD 1, m.getLsbD 0 with
    | false, false => (portByte p.outA p.dirA l.portA, p)
    | false, true => (p.dirA, p)
    | true, false => (portByte p.outB p.dirB l.portB, p)
    | true, true => (p.dirB, p)

/-- A PIA write (R74, R490, R491, R494, R497, R498). -/
def piaWrite (m : BusAddr) (v : Byte) (p : Pia) : Pia :=
  if !m.getLsbD 9 then { p with ram := p.ram.write (piaRamIndex m) v }
  else if m.getLsbD 2 then
    if m.getLsbD 4 then
      { p with divisor := divisorOf m, countdown := v, sub := 0, flag := false, irqEnable := m.getLsbD 3 }
    else p
  else
    match m.getLsbD 1, m.getLsbD 0 with
    | false, false => { p with outA := v }
    | false, true => { p with dirA := v }
    | true, false => { p with outB := v }
    | true, true => { p with dirB := v }

end Sys2Proof.Machine
end

