-- ==== Sys2Proof/Machine/FrameManager.lean ====
section
/-! DEFINITION. The TIA metrics (R453, R454) and the FrameManager (R460 to R466). -/

namespace Sys2Proof.Machine

/-- `KERNEL_LINES` (R453). -/
def kernelLines : TvMode → Nat
  | .ntsc => 192
  | .pal | .secam => 228

/-- `VBLANK_LINES` (R453). -/
def vblankLines : TvMode → Nat
  | .ntsc => 40
  | .pal | .secam => 48

/-- `OVERSCAN_LINES` (R453). -/
def overscanLines : TvMode → Nat
  | .ntsc => 30
  | .pal | .secam => 36

/-- The visible width of a line (R453). -/
def visibleWidth : Nat := 160

/-- The clock frequency of a TV mode in Hz (R454). -/
def clockHz : TvMode → Nat
  | .ntsc => 3579545
  | .pal | .secam => 3546894

/-- The audio sample rate in Hz, "clock-Hz / 114" (R454), a rational number. -/
def sampleRate (tv : TvMode) : Rat := (clockHz tv : Rat) / 114

/-- `VSYNC_LIMIT` (R460). -/
def vsyncLimit : Nat := 50

/-- `goto(s)` (R461). -/
def Frame.goto (st : FrameState) (f : Frame) : Frame := { f with state := st, lineInState := 0 }

/-- `startFrame()` (R461, R464): a new buffer is requested and the frame begins. -/
def Frame.startFrame (f : Frame) : Frame :=
  ({ f with buffer := some f.nextBuffer, nextBuffer := f.nextBuffer + 1 }).goto .frame

/-- `finalize()` (R461, R465): the buffer is handed out. -/
def Frame.finalize (f : Frame) : Frame := { f with emitted := f.emitted ++ f.buffer.toList, buffer := none }

/-- `nextLine()` (R461). -/
def Frame.nextLine (tv : TvMode) (visibleOverscan : Nat) (f : Frame) : Frame :=
  let g := { f with lineInState := f.lineInState + 1 }
  match g.state with
  | .waitForVsyncStart | .waitForVsyncEnd =>
    if vsyncLimit < g.lineInState then g.goto .waitForFrameStart else g
  | .waitForFrameStart => if vblankLines tv ≤ g.lineInState then g.startFrame else g
  | .frame => if kernelLines tv + visibleOverscan ≤ g.lineInState then g.finalize.goto .overscan else g
  | .overscan => if overscanLines tv - visibleOverscan ≤ g.lineInState then g.goto .waitForVsyncStart else g

/-- `setVsync(v)` (R462), for a `v` that differs from the stored flag. -/
def Frame.setVsync (v : Bool) (f : Frame) : Frame :=
  let g := { f with vsync := v }
  match g.state with
  | .waitForVsyncStart | .waitForFrameStart | .overscan => if v then g.goto .waitForVsyncEnd else g
  | .waitForVsyncEnd => if v then g else g.goto .waitForFrameStart
  | .frame => if v then g.finalize.goto .waitForVsyncEnd else g

/-- A write to VSYNC (R472): `setVsync` only where the bit changes. -/
def Frame.writeVsync (v : Bool) (f : Frame) : Frame := if v = f.vsync then f else f.setVsync v

/-- `setVblank(v)` (R463). -/
def Frame.setVblank (v : Bool) (f : Frame) : Frame := { f with vblank := v }

end Sys2Proof.Machine
end

