-- ==== Sys2Proof/Machine/Tia.lean ====
section
/-! DEFINITION. The TIA: horizontal clock and ticks (R450, R451), the ball (R480 to R484), the collision latches (R485
to R487), the read registers (R474 to R476) and the write registers (R470 to R473). -/

namespace Sys2Proof.Machine

/-- The width in pixels (R483). -/
def BallWidth.pixels : BallWidth → Int
  | .w1 => 1
  | .w2 => 2
  | .w4 => 4
  | .w8 => 8

/-- The width a CTRLPF byte selects, by bits 5:4 (R483). -/
def ballWidthOf (v : Byte) : BallWidth :=
  match v.getLsbD 5, v.getLsbD 4 with
  | false, false => .w1
  | false, true => .w2
  | true, false => .w4
  | true, true => .w8

/-- The `hblank` predicate (R450): the first 68 clocks, or 76 on a line with the HMOVE blank (R484). -/
def Tia.hblank (t : Tia) : Bool := decide (t.hclock.val < 68) || (t.hmoveExt && decide (t.hclock.val < 76))

/-- The counter step of R481: the position counter advances, and a wrap starts a new copy (log 17). -/
def Ball.counterStep (b : Ball) : Ball :=
  let c := b.counter + 1
  if c = 0 then { b with counter := c, rendering := true, renderCounter := -4 } else { b with counter := c }

/-- `ball.pixelTick()` (R481). -/
def Ball.pixelTick (b : Ball) : Ball :=
  let enabled := if b.vdel then b.enaOld else b.enaNew
  let pixel := b.rendering && decide (0 ≤ b.renderCounter) && decide (b.renderCounter < b.width.pixels) && enabled
  let b := { b with pixel := pixel }
  let b :=
    if b.rendering then
      { b with renderCounter := b.renderCounter + 1, rendering := decide (b.renderCounter + 1 < b.width.pixels) }
    else b
  b.counterStep

/-- A RESBL write (R482). -/
def Ball.resbl (b : Ball) : Ball := { b with counter := 0, rendering := true, renderCounter := -4 }

/-- `movementTick()` (R484), on a tick whose clock is a multiple of 4 while `mactive`. -/
def Tia.movementTick (t : Tia) : Tia :=
  let ball :=
    if t.mclock = t.ball.hmm.val then { t.ball with moving := false }
    else if t.ball.moving && t.hblank then t.ball.counterStep
    else t.ball
  { t with ball := ball, mclock := t.mclock + 1, mactive := decide (t.mclock + 1 ≠ 16) }

/-- The ball's part of a tick: the pixel step on a visible tick (R481), then the movement step (R484). -/
def Tia.objects (t : Tia) : Tia :=
  let u := { t with ball := if t.hblank then { t.ball with pixel := false } else t.ball.pixelTick }
  if u.mactive && decide (u.hclock.val % 4 = 0) then u.movementTick else u

/-- The union of two sets of latches. -/
def Collisions.union (a b : Collisions) : Collisions :=
  { m0p1 := a.m0p1 || b.m0p1, m0p0 := a.m0p0 || b.m0p0, m1p0 := a.m1p0 || b.m1p0, m1p1 := a.m1p1 || b.m1p1,
    p0pf := a.p0pf || b.p0pf, p0bl := a.p0bl || b.p0bl, p1pf := a.p1pf || b.p1pf, p1bl := a.p1bl || b.p1bl,
    m0pf := a.m0pf || b.m0pf, m0bl := a.m0bl || b.m0bl, m1pf := a.m1pf || b.m1pf, m1bl := a.m1bl || b.m1bl,
    blpf := a.blpf || b.blpf, p0p1 := a.p0p1 || b.p0p1, m0m1 := a.m0m1 || b.m0m1 }

/-- The latches with those set that the oracle names for this line and clock (R486; log 19). -/
def oracleSet (oracle : List OracleEntry) (line : Nat) (hclock : Fin 228) (c : Collisions) : Collisions :=
  match oracle with
  | [] => c
  | e :: rest =>
    oracleSet rest line hclock (if e.line = line ∧ e.hclock = hclock then Collisions.union c e.latches else c)

/-- `tia.tick()` (R451). -/
def tiaTick (s : State) : State :=
  let t := s.tia.objects
  let latches := oracleSet s.cfg.collisionOracle s.tia.line s.tia.hclock s.collision
  if t.hclock = 227 then
    { s with
      tia := { t with hclock := 0, line := t.line + 1, hmoveExt := false }
      frame := s.frame.nextLine s.cfg.tvMode s.cfg.visibleOverscan
      collision := latches
      cpu := { s.cpu with halted := false } }
  else { s with tia := { t with hclock := t.hclock + 1 }, collision := latches }

/-- The lines in force in a board step (R410, R476; log 2): those of the last entry that has begun. -/
def linesAt (inputs : List (Nat × Lines)) (t : Nat) : Lines :=
  inputs.foldl (fun cur e => if e.1 ≤ t then e.2 else cur) Lines.idle

/-- Bits 7 and 6 that the TIA drives on a read of register `m & 0x0F` (R474). -/
def tiaDriven (reg : Nat) (c : Collisions) (l : Lines) : Bool × Bool :=
  match reg with
  | 0x0 => (c.m0p1, c.m0p0)
  | 0x1 => (c.m1p0, c.m1p1)
  | 0x2 => (c.p0pf, c.p0bl)
  | 0x3 => (c.p1pf, c.p1bl)
  | 0x4 => (c.m0pf, c.m0bl)
  | 0x5 => (c.m1pf, c.m1bl)
  | 0x6 => (c.blpf, false)
  | 0x7 => (c.p0p1, c.m0m1)
  | 0x8 => (l.inpt0, false)
  | 0x9 => (l.inpt1, false)
  | 0xA => (l.inpt2, false)
  | 0xB => (l.inpt3, false)
  | 0xC => (l.inpt4, false)
  | 0xD => (l.inpt5, false)
  | _ => (false, false)

/-- The byte a TIA read returns (R475): two driven bits and the last bus data's low six. -/
def tiaRead (m : BusAddr) (s : State) : Byte :=
  let d := tiaDriven (m.toNat % 16) s.collision (linesAt s.cfg.inputs s.clock)
  (if d.1 then 0x80#8 else 0#8) ||| (if d.2 then 0x40#8 else 0#8) ||| (s.bus.lastData &&& 0x3F#8)

/-- Is the register's byte stored (R470, R476; log 16)? The strobes WSYNC, RSYNC, RESBL, HMOVE, HMCLR and CXCLR ignore
their data, ENABL, HMBL and VDELBL live in the ball, and 0x2D to 0x3F have no effect. -/
def tiaStores (reg : Nat) : Bool :=
  match reg with
  | 0x02 | 0x03 | 0x14 | 0x1F | 0x24 | 0x27 => false
  | _ => decide (reg < 0x2A)

/-- The effect a write to TIA register `reg` has beside storing its byte (R470 to R473, R482 to R484, R487). -/
def tiaEffect (reg : Nat) (v : Byte) (s : State) : State :=
  match reg with
  | 0x00 => { s with frame := s.frame.writeVsync (v.getLsbD 1) }
  | 0x01 => { s with frame := s.frame.setVblank (v.getLsbD 1) }
  | 0x02 => { s with cpu := { s.cpu with halted := true } }
  | 0x0A => { s with tia := { s.tia with ball := { s.tia.ball with width := ballWidthOf v } } }
  | 0x14 => { s with tia := { s.tia with ball := s.tia.ball.resbl } }
  | 0x1C => { s with tia := { s.tia with ball := { s.tia.ball with enaOld := s.tia.ball.enaNew } } }
  | 0x1F => { s with tia := { s.tia with ball := { s.tia.ball with enaNew := v.getLsbD 1 } } }
  | 0x24 => { s with tia := { s.tia with ball := { s.tia.ball with hmm := Fin.ofNat 16 (v.toNat / 16 + 8) } } }
  | 0x27 => { s with tia := { s.tia with ball := { s.tia.ball with vdel := v.getLsbD 0 } } }
  | 0x2A =>
    { s with
      tia :=
        { s.tia with
          ball := { s.tia.ball with moving := true }
          mclock := 0
          mactive := true
          hmoveExt := s.tia.hmoveExt || decide (s.tia.hclock.val < 68) } }
  | 0x2B =>
    { s with
      tia :=
        { s.tia with
          ball := { s.tia.ball with hmm := 8 }
          regs := (((s.tia.regs.write 0x20 0).write 0x21 0).write 0x22 0).write 0x23 0 } }
  | 0x2C => { s with collision := Collisions.none }
  | _ => s

/-- A TIA write (R470): the register is `m & 0x3F`. -/
def tiaWrite (m : BusAddr) (v : Byte) (s : State) : State :=
  let reg := m.toNat % 64
  let s := if tiaStores reg then { s with tia := { s.tia with regs := s.tia.regs.write reg v } } else s
  tiaEffect reg v s

/-- The stored byte of TIA write register `reg` (R470). -/
def tiaReg (reg : Nat) (s : State) : Byte := s.tia.regs.read reg

end Sys2Proof.Machine
end

