-- ==== Sys2Proof/Machine/Bus.lean ====
section
/-! DEFINITION. The bus: mask and chip select (R71, R73), one read and one write access with the snapshot, the listeners
and the traps (R75 to R78), the trap channel (R400 to R403), and the debug peek and poke (R445). -/

namespace Sys2Proof.Machine

/-- `a & 0x1FFF` (R71). -/
def maskAddr (a : Addr) : BusAddr := a.setWidth 13

/-- Chip select (R73). -/
def route (m : BusAddr) : Chip := if m.getLsbD 12 then .cartridge else if m.getLsbD 7 then .pia else .tia

/-- `raise Trap` (R400): the record is logged; with no handler the machine stops, and a stopped machine logs nothing
more. -/
def raiseTrap (r : TrapRecord) (s : State) : State :=
  if s.traps.fatal then s else { s with traps := { log := s.traps.log ++ [r], fatal := !s.cfg.trapHandler } }

/-- `raise InvalidOpcode(op, LIP)` (R402): recorded and fatal, with or without a callback. -/
def raiseInvalidOpcode (op : Byte) (s : State) : State :=
  if s.traps.fatal then s
  else { s with traps := { log := s.traps.log ++ [.invalidOpcode op s.cpu.lip], fatal := true } }

/-- `CHIP_TRAP(chip, kind, m, v)` (R403; log 2). -/
def chipTraps (p : Params) (kind : AccessKind) (m : BusAddr) (v : Byte) : Bool :=
  p.chipTrap.any (fun r => r.kind == kind && r.addr == m && (r.data == none || r.data == some v))

/-- The message of a chip trap (R401, R403). -/
def trapMessage (kind : AccessKind) (m : BusAddr) : TrapMessage :=
  match kind with
  | .read => .invalidRead m
  | .write => .invalidWrite m

/-- What follows the chip's part of an access (R75, R76): the snapshot, the listeners (R77, R525), then the trap. -/
def afterAccess (kind : AccessKind) (m : BusAddr) (v : Byte) (s : State) : State :=
  let s :=
    { s with
      bus := { lastAddress := m, lastData := v, accessType := route m }
      cart := s.cart.sniff s.cfg m v kind }
  if chipTraps s.cfg kind m v then raiseTrap (.chip (route m) (route m) (trapMessage kind m)) s else s

/-- The chip's part of a read (R75): the byte and the state after the chip's side effects. -/
def chipRead (m : BusAddr) (s : State) : Byte × State :=
  match route m with
  | .tia => (tiaRead m s, s)
  | .pia =>
    let r := piaRead m (linesAt s.cfg.inputs s.clock) s.pia
    (r.1, { s with pia := r.2 })
  | .cartridge =>
    let r := s.cart.read s.cfg s.cpu.lip s.bus.lastData m
    (r.1, { s with cart := r.2 })

/-- The chip's part of a write (R76). -/
def chipWrite (m : BusAddr) (v : Byte) (s : State) : State :=
  match route m with
  | .tia => tiaWrite m v s
  | .pia => { s with pia := piaWrite m v s.pia }
  | .cartridge => { s with cart := s.cart.write s.cfg s.cpu.lip m v }

/-- `MemRead(a)` (R75). -/
def busRead (a : Addr) (s : State) : Byte × State :=
  let r := chipRead (maskAddr a) s
  (r.1, afterAccess .read (maskAddr a) r.1 r.2)

/-- `MemWrite(a, v)` (R76). -/
def busWrite (a : Addr) (v : Byte) (s : State) : State :=
  afterAccess .write (maskAddr a) v (chipWrite (maskAddr a) v s)

/-- `readWord(a)` (R79): two reads, the low byte first, the second address modulo 65536. -/
def readWord (a : Addr) (s : State) : Addr × State :=
  let l := busRead a s
  let h := busRead (a + 1) l.2
  (wordOf l.1 h.1, h.2)

/-- The debug `peek(chip, offset)` (R445, C4, D32): the byte a read would return, with no side effect but the RAM
disturbance of a write port (R532). It is no machine step. -/
def peek (chip : Chip) (m : BusAddr) (s : State) : Byte × State :=
  match chip with
  | .tia => (tiaRead m s, s)
  | .pia => ((piaRead m (linesAt s.cfg.inputs s.clock) s.pia).1, s)
  | .cartridge =>
    let r := s.cart.read s.cfg s.cpu.lip s.bus.lastData m
    (r.1, { s with cart := { s.cart with ram := r.2.ram } })

/-- The debug `poke` (R445): it changes nothing. -/
def poke (_chip : Chip) (_m : BusAddr) (_v : Byte) (s : State) : State := s

end Sys2Proof.Machine
end

