-- ==== Sys2Proof/Machine/Coprocessor.lean ====
section
/-! DEFINITION. The co-processor bridge (R570 to R577) and the music clock (R560). The schemes whose accesses trigger a
run are refused (R543), so no access of this machine calls it (R571; log 22); what a run does is given here. -/

namespace Sys2Proof.Machine

/-- A hexadecimal digit, upper case. -/
def hexDigit (n : Nat) : Char := if n < 10 then Char.ofNat (48 + n) else Char.ofNat (55 + n)

/-- An address as `0x` and eight upper-case hexadecimal digits (R574). -/
def hexAddress (a : BitVec 32) : String :=
  String.ofList ('0' :: 'x' :: ([7, 6, 5, 4, 3, 2, 1, 0].map (fun k => hexDigit (a.toNat / 16 ^ k % 16))))

/-- The text of a trap message (R401, R574; log 11). -/
def messageText : TrapMessage → String
  | .invalidRead m => "invalid read " ++ hexAddress (m.setWidth 32)
  | .invalidWrite m => "invalid write " ++ hexAddress (m.setWidth 32)
  | .coprocFault .unaligned a => "unaligned access " ++ hexAddress a
  | .coprocFault .outOfRange a => "out-of-range access " ++ hexAddress a
  | .coprocFault .budget a => "cycle budget exceeded " ++ hexAddress a

/-- `run(entryAddress)` (R571): the black box runs to completion inside the access that triggered it (R576); a fault
keeps what was written before it and raises a trap of reason cartridge (R574, R575). The music clock, which the
cartridge keeps (R560), plays no part in it (R577). -/
def runCoproc (entry : BitVec 32) (s : State) : State :=
  match s.coproc with
  | none => s
  | some b =>
    let r := coprocRun s.cfg.coprocBudget b.core entry
    let t := { s with coproc := some { b with core := r.1 } }
    match r.2 with
    | .returned => t
    | .fault kind address => raiseTrap (.chip .cartridge .cartridge (.coprocFault kind address)) t

/-- The ticks the music generators advance at an access in board step `t` (R560), and the accumulator after it; `frac`
is kept in parts of 1/`CPU_CLOCK_HZ` (log 23). -/
def musicAdvance (p : Params) (t : Nat) (c : MusicClock) : Nat × MusicClock :=
  let x := (t - c.lastCycle) * p.musicClockHz + c.frac
  (x / p.cpuClockHz, { frac := x % p.cpuClockHz, lastCycle := t })

end Sys2Proof.Machine
end

