-- ==== Sys2Proof/Machine/Flags.lean ====
section
/-! DEFINITION. Every flag computation: the pushed and pulled P byte (R36, R39, R40), SetNZ (R9), ADC and SBC in both
modes (R250 to R252), compares (R256), BIT (R259) and the read-modify-write functions (R301 to R306). -/

namespace Sys2Proof.Machine

/-- 1 for true, 0 for false. -/
def bit (b : Bool) : Nat := if b then 1 else 0

/-- The byte pushed for P (R36): `{N, V, 1, B, D, I, Z, C}`, with B as given (R39) and E = 1 (R40). -/
def packP (b : Bool) (p : Flags) : Byte :=
  BitVec.ofNat 8
    (128 * bit p.n + 64 * bit p.v + 32 + 16 * bit b + 8 * bit p.d + 4 * bit p.i + 2 * bit p.z + bit p.c)

/-- The flags loaded from a pulled byte (R230, R379): bits 5 and 4 are discarded. -/
def unpackP (v : Byte) : Flags :=
  { n := v.getLsbD 7, v := v.getLsbD 6, d := v.getLsbD 3, i := v.getLsbD 2, z := v.getLsbD 1, c := v.getLsbD 0 }

/-- `SetNZ(v)` (R9). -/
def setNZ (v : Byte) (p : Flags) : Flags := { p with n := v.msb, z := v == 0 }

/-- Bits 3..0 of a byte as a number. -/
def lowDigit (b : Byte) : Nat := b.toNat % 16

/-- Bits 7..4 of a byte as a number. -/
def highDigit (b : Byte) : Nat := b.toNat / 16

/-- `bcd(b)` (R250): no nibble above 9. -/
def bcd (b : Byte) : Bool := decide (highDigit b ≤ 9) && decide (lowDigit b ≤ 9)

/-- The binary branch of ADC (R250): the sum is exact, C is the carry out, V says that both inputs' signs differ from
the result's. -/
def adcBinary (a v : Byte) (p : Flags) : Byte × Flags :=
  let sum := a.toNat + v.toNat + bit p.c
  let r : Byte := BitVec.ofNat 8 sum
  (r, setNZ r { p with c := decide (256 ≤ sum), v := ((a ^^^ r) &&& (v ^^^ r) &&& 0x80#8) != 0 })

/-- The decimal digits and the carry of ADC on valid BCD inputs (R250). -/
def adcDigits (a v : Byte) (c : Bool) : Byte × Bool :=
  let lo := lowDigit a + lowDigit v + bit c
  let c1 := decide (9 < lo)
  let lo := if c1 then lo - 10 else lo
  let hi := highDigit a + highDigit v + bit c1
  let c2 := decide (9 < hi)
  let hi := if c2 then hi - 10 else hi
  (BitVec.ofNat 8 (16 * hi + lo), c2)

/-- ADC (R250): the new A and flags. In decimal mode N, V and Z, and everything for an input that is not BCD, are
`DECIMAL_CFG`'s (R252). -/
def adc (a v : Byte) (p : Flags) : Byte × Flags :=
  if p.d then
    if bcd a && bcd v then
      let f := decimalAdcFlags a v p.c
      let r := adcDigits a v p.c
      (r.1, { p with n := f.1, v := f.2.1, z := f.2.2, c := r.2 })
    else
      let f := decimalAdcInvalid a v p.c
      (f.1, { p with n := f.2.1, v := f.2.2.1, z := f.2.2.2.1, c := f.2.2.2.2 })
  else adcBinary a v p

/-- The binary branch of SBC (R251): the binary ADC of the complement of the operand. -/
def sbcBinary (a v : Byte) (p : Flags) : Byte × Flags := adcBinary a (v ^^^ 0xFF#8) p

/-- The decimal digits and the carry (no borrow) of SBC on valid BCD inputs (R251). -/
def sbcDigits (a v : Byte) (c : Bool) : Byte × Bool :=
  let lo : Int := (lowDigit a : Int) - lowDigit v - (1 - bit c)
  let b1 := decide (lo < 0)
  let lo := if b1 then lo + 10 else lo
  let hi : Int := (highDigit a : Int) - highDigit v - bit b1
  let b2 := decide (hi < 0)
  let hi := if b2 then hi + 10 else hi
  (BitVec.ofNat 8 (16 * hi + lo).toNat, !b2)

/-- SBC (R251): the new A and flags, with C = 1 meaning no borrow; the decimal cases as in `adc` (R252). -/
def sbc (a v : Byte) (p : Flags) : Byte × Flags :=
  if p.d then
    if bcd a && bcd v then
      let f := decimalSbcFlags a v p.c
      let r := sbcDigits a v p.c
      (r.1, { p with n := f.1, v := f.2.1, z := f.2.2, c := r.2 })
    else
      let f := decimalSbcInvalid a v p.c
      (f.1, { p with n := f.2.1, v := f.2.2.1, z := f.2.2.2.1, c := f.2.2.2.2 })
  else sbcBinary a v p

/-- CMP, CPX, CPY (R256 to R258): C is "no borrow", Z is equality, N is bit 7 of the difference. -/
def compareFlags (r v : Byte) (p : Flags) : Flags :=
  { p with c := decide (v.toNat ≤ r.toNat), z := r == v, n := (r - v).msb }

/-- BIT (R259): N and V from the operand, Z from `A & v`. -/
def bitTest (a v : Byte) (p : Flags) : Flags :=
  { p with n := v.getLsbD 7, v := v.getLsbD 6, z := (a &&& v) == 0 }

/-- ASL (R301). -/
def asl (v : Byte) (p : Flags) : Byte × Flags :=
  let r := v <<< 1
  (r, setNZ r { p with c := v.getLsbD 7 })

/-- LSR (R302). -/
def lsr (v : Byte) (p : Flags) : Byte × Flags :=
  let r := v >>> 1
  (r, setNZ r { p with c := v.getLsbD 0 })

/-- ROL (R303), through the carry before the instruction. -/
def rol (v : Byte) (p : Flags) : Byte × Flags :=
  let r := (v <<< 1) ||| BitVec.ofNat 8 (bit p.c)
  (r, setNZ r { p with c := v.getLsbD 7 })

/-- ROR (R304), through the carry before the instruction. -/
def ror (v : Byte) (p : Flags) : Byte × Flags :=
  let r := BitVec.ofNat 8 (128 * bit p.c) ||| (v >>> 1)
  (r, setNZ r { p with c := v.getLsbD 0 })

/-- INC (R305). -/
def inc (v : Byte) (p : Flags) : Byte × Flags :=
  let r := v + 1
  (r, setNZ r p)

/-- DEC (R306). -/
def dec (v : Byte) (p : Flags) : Byte × Flags :=
  let r := v - 1
  (r, setNZ r p)

/-- The debug view of P (R39, R40, R445): bits 5 and 4 read as 1. -/
def debugP (p : Flags) : Byte := packP true p

end Sys2Proof.Machine
end

