-- ==== Sys2Proof/Machine/Ops.lean ====
section
/-! DEFINITION. The shared operations: register updates, the board step (R420) with its halt (R425, R426), one read and
one write cycle of the CPU, the stack (R220), the common dummy cycles, taking an exception (R378, R415, R416) and the
return from one (R379), and how an instruction ends. -/

namespace Sys2Proof.Machine

/-- The outcome of an instruction. -/
abbrev Out := Host.Outcome State Fault Refusal

/-! ### Register updates (R9) -/

/-- `A <- v` -/
def State.withA (s : State) (v : Byte) : State := { s with cpu := { s.cpu with a := v } }

/-- `X <- v` -/
def State.withX (s : State) (v : Byte) : State := { s with cpu := { s.cpu with x := v } }

/-- `Y <- v` -/
def State.withY (s : State) (v : Byte) : State := { s with cpu := { s.cpu with y := v } }

/-- `S <- v` -/
def State.withS (s : State) (v : Byte) : State := { s with cpu := { s.cpu with s := v } }

/-- `PC <- a` -/
def State.withPc (s : State) (a : Addr) : State := { s with cpu := { s.cpu with pc := a } }

/-- All flags at once. -/
def State.withP (s : State) (p : Flags) : State := { s with cpu := { s.cpu with p := p } }

/-- `SetNZ(v)` -/
def State.withNZ (s : State) (v : Byte) : State := s.withP (setNZ v s.cpu.p)

/-- `PC <- (PC + 1) mod 65536` (R34) -/
def State.incPc (s : State) : State := s.withPc (s.cpu.pc + 1)

/-- `LIP <- a` (R48) -/
def State.withLip (s : State) (a : Addr) : State := { s with cpu := { s.cpu with lip := a } }

/-- The NMI-pending latch (R49). -/
def State.withNmi (s : State) (b : Bool) : State := { s with cpu := { s.cpu with nmiLatch := b } }

/-- The execution-state tag (R46). -/
def State.withTag (s : State) (t : ExecTag) : State := { s with cpu := { s.cpu with tag := t } }

/-- The latches of the instruction in progress (R50). -/
def State.withLat (s : State) (l : Latches) : State := { s with cpu := { s.cpu with lat := l } }

/-- The opcode byte is latched. -/
def State.latchOpcode (s : State) (v : Byte) : State := s.withLat { s.cpu.lat with opcode := v }

/-- The low operand byte is latched. -/
def State.latchLo (s : State) (v : Byte) : State := s.withLat { s.cpu.lat with lo := v }

/-- The high operand byte is latched. -/
def State.latchHi (s : State) (v : Byte) : State := s.withLat { s.cpu.lat with hi := v }

/-- The effective address is latched. -/
def State.latchEa (s : State) (a : Addr) : State := s.withLat { s.cpu.lat with ea := a }

/-- The operand of a read-modify-write instruction is latched. -/
def State.latchOperand (s : State) (v : Byte) : State := s.withLat { s.cpu.lat with operand := v }

/-- The branch offset is latched. -/
def State.latchOffset (s : State) (v : Byte) : State := s.withLat { s.cpu.lat with offset := v }

/-- A register operation between two cycles: a stopped machine performs none (R11, R400). -/
def perform (f : State → State) (s : State) : State := if s.traps.fatal then s else f s

/-! ### The board step (R420) -/

/-- One PIA tick (R493). -/
def piaTick (s : State) : State := { s with pia := s.pia.tick }

/-- The TIA ticks of one board step: `TIA_CLK_PER_CPU` of them (R420, R451). -/
def tiaTicks (s : State) : State :=
  match s.cfg.tiaClk with
  | .one => tiaTick s
  | .three => tiaTick (tiaTick (tiaTick s))

/-- Is there an edge from deasserted to asserted on `NMI_LINE` into this board step (R411; log 13)? -/
def nmiEdge (s : State) : Bool :=
  (linesAt s.cfg.inputs s.clock).nmi && !(decide (0 < s.clock) && (linesAt s.cfg.inputs (s.clock - 1)).nmi)

/-- The edge sets the NMI-pending latch (R411). -/
def latchNmi (s : State) : State := if nmiEdge s then s.withNmi true else s

/-- A board step up to the CPU's slot: the agents that `CYCLE_ORDER` puts before the CPU. -/
def beginSlot (s : State) : State :=
  let s := latchNmi s
  match s.cfg.order with
  | .cpuPiaTia | .cpuTiaPia => s
  | .piaCpuTia => piaTick s
  | .tiaCpuPia => tiaTicks s
  | .piaTiaCpu => tiaTicks (piaTick s)
  | .tiaPiaCpu => piaTick (tiaTicks s)

/-- The rest of a board step: the agents after the CPU, and the step is counted. -/
def endSlot (s : State) : State :=
  let s :=
    match s.cfg.order with
    | .cpuPiaTia => tiaTicks (piaTick s)
    | .cpuTiaPia => piaTick (tiaTicks s)
    | .piaCpuTia => tiaTicks s
    | .tiaCpuPia => piaTick s
    | .piaTiaCpu | .tiaPiaCpu => s
  { s with clock := s.clock + 1 }

/-- A board step in which the CPU makes no access (R425, R600). -/
def idleSlot (s : State) : State := endSlot (beginSlot s)

/-- Board steps until the CPU's slot of one in which it is not halted (R425, R426). The first argument bounds the halted
steps. -/
def awaitCpu : Nat → State → State
  | 0, s => beginSlot s
  | n + 1, s => if (beginSlot s).cpu.halted then awaitCpu n (idleSlot s) else beginSlot s

/-- A bound no halt exceeds (R428): a board step makes at least one of the 228 ticks of a line. -/
def haltBound : Nat := 228

/-- The CPU's slot in which a read cycle runs. -/
def openRead (s : State) : State := awaitCpu haltBound s

/-- The CPU's slot in which a write cycle runs: with `HALT_MODE = reads_only` a halted CPU still writes (R425). -/
def openWrite (s : State) : State :=
  match s.cfg.haltMode with
  | .immediate => awaitCpu haltBound s
  | .readsOnly => beginSlot s

/-- The tag after one more CPU cycle (R46). -/
def ExecTag.advance : ExecTag → ExecTag
  | .fetch => .fetch
  | .mid op k => .mid op (k + 1)
  | .entry i k => .entry i (k + 1)

/-- The end of a board step in which the CPU made an access: a trap that stopped the machine leaves it as it stands
(R400; log 10). -/
def endCycle (s : State) : State := if s.traps.fatal then s else endSlot (s.withTag s.cpu.tag.advance)

/-- One read cycle in a slot that is open already. -/
def readHere (a : Addr) (s : State) : Byte × State :=
  let r := busRead a s
  (r.1, endCycle r.2)

/-- One read cycle of the CPU (R72, R75): `cycle k: v <- MemRead(a)`. A stopped machine runs none. -/
def readCycle (a : Addr) (s : State) : Byte × State :=
  if s.traps.fatal then (0, s) else readHere a (openRead s)

/-- One write cycle of the CPU (R72, R76): `cycle k: MemWrite(a, v)`. -/
def writeCycle (a : Addr) (v : Byte) (s : State) : State :=
  if s.traps.fatal then s else endCycle (busWrite a v (openWrite s))

/-- A read of the low byte of a pointer, a vector or a return address, which is latched until the high byte comes
(R50). -/
def readLow (a : Addr) (s : State) : Byte × State :=
  let r := readCycle a s
  (r.1, perform (fun t => t.latchEa (zext r.1)) r.2)

/-- `DummyRead(a)` (R9): a read whose value is discarded. -/
def dummyRead (a : Addr) (s : State) : State := (readCycle a s).2

/-- `DummyRead(PC)` (R162). -/
def dummyFetch (s : State) : State := dummyRead s.cpu.pc s

/-- An implied instruction's cycle 2 and its operation (R162). -/
def implied (f : State → State) (s : State) : State := perform f (dummyFetch s)

/-! ### The stack (R220) -/

/-- `0x0100 | S` (R33). -/
def stackAddr (s : State) : Addr := 0x0100#16 ||| zext s.cpu.s

/-- `Push(v)` (R220). -/
def push (v : Byte) (s : State) : State :=
  perform (fun s => s.withS (s.cpu.s - 1)) (writeCycle (stackAddr s) v s)

/-- `Pull()` (R220). -/
def pull (s : State) : Byte × State :=
  let s := perform (fun s => s.withS (s.cpu.s + 1)) s
  readCycle (stackAddr s) s

/-- `Pull()` of the low byte of a return address. -/
def pullLow (s : State) : Byte × State :=
  let s := perform (fun s => s.withS (s.cpu.s + 1)) s
  readLow (stackAddr s) s

/-- `DummyRead(0x0100 | S)` (R229, R230, R332, R333, R379). -/
def dummyStack (s : State) : State := dummyRead (stackAddr s) s

/-! ### Taking an exception and returning from one -/

/-- The NMI vector (R404). -/
def vectorNmi : Addr := 0xFFFA

/-- The reset vector (R404). -/
def vectorReset : Addr := 0xFFFC

/-- The IRQ and BRK vector (R404). -/
def vectorIrq : Addr := 0xFFFE

/-- Cycles 3 to 7 of BRK (R378) and of an interrupt entry (R415): PC and P are pushed, with the B bit given, I is set
with the read of the vector's low byte (an NMI entry clears its latch there, R415), and PC is the vector's word
(R416). -/
def enterVector (b : Bool) (vec : Addr) (nmi : Bool) (s : State) : State :=
  let s := push (hiByte s.cpu.pc) s
  let s := push (loByte s.cpu.pc) s
  let s := push (packP b s.cpu.p) s
  let l := readLow vec s
  let s := perform (fun s => s.withP { s.cpu.p with i := true }) l.2
  let s := perform (fun s => if nmi then s.withNmi false else s) s
  let h := readCycle (vec + 1) s
  perform (fun s => s.withPc (wordOf l.1 h.1)) h.2

/-- RTI from cycle 2 on (R379, R417): P, then PC, from the stack. -/
def returnInterrupt (s : State) : State :=
  let b := pull (dummyStack (dummyFetch s))
  let l := pullLow (perform (fun s => s.withP (unpackP b.1)) b.2)
  let h := pull l.2
  perform (fun s => s.withPc (wordOf l.1 h.1)) h.2

/-- The interrupt taken at an instruction boundary, in the CPU's slot before cycle 1, if one is: NMI before IRQ (R411 to
R414). -/
def pendingInterrupt (s : State) : Option Interrupt :=
  if s.cpu.nmiLatch then some .nmi
  else if (linesAt s.cfg.inputs s.clock).irq && !s.cpu.p.i then some .irq
  else none

/-- An interrupt entry begins: the tag names it, and the NMI latch is cleared for an NMI (R49, R411; log 12). -/
def beginEntry (k : Interrupt) (s : State) : State :=
  match k with
  | .nmi => (s.withTag (.entry .nmi 1)).withNmi false
  | .irq => s.withTag (.entry .irq 1)

/-- Interrupt entry (R415), from the open slot of its cycle 1: two discarded fetches, then the entry; B = 0. -/
def interruptEntry (k : Interrupt) (s : State) : State :=
  let s := (readHere s.cpu.pc (beginEntry k s)).2
  let s := dummyFetch s
  match k with
  | .nmi => enterVector false vectorNmi true s
  | .irq => enterVector false vectorIrq false s

/-! ### How an instruction ends -/

/-- The fault of a stopped machine: what its last record says (R400, R402). -/
def stopReason (s : State) : Fault :=
  match s.traps.log.getLast? with
  | some (.invalidOpcode op lip) => .invalidOpcode op lip s
  | some (.chip reason chip message) => .chipTrap (.chip reason chip message) s
  | none => .stopped s

/-- The end of an instruction: a stopped machine is a fault, any other is at an instruction boundary (R46, R160). -/
def finish (s : State) : Out := if s.traps.fatal then .fault (stopReason s) else .next (s.withTag .fetch)

end Sys2Proof.Machine
end

