-- ==== Sys2Proof/Machine/Operands.lean ====
section
/-! DEFINITION. The addressing modes (R164 to R169) from the end of the fetch cycles on: the cycles that form the
effective address, and the read, the write or the read-modify-write at it. -/

namespace Sys2Proof.Machine

/-- `(zp + i) mod 256` as an address (R165). -/
def zpIndexed (zp i : Byte) : Addr := zext (zp + i)

/-- Does adding the index carry out of the low byte (R167)? -/
def crossed (base : Addr) (i : Byte) : Bool := decide (256 ≤ (loByte base).toNat + i.toNat)

/-- The uncorrected address `{adh, (adl + i) mod 256}` (R167). -/
def partialAddr (base : Addr) (i : Byte) : Addr := wordOf (loByte base + i) (hiByte base)

/-- The indexed cycle of absoluteX, absoluteY and indirectIndexedY (R167, R169): the read at the uncorrected address,
which a read makes only when a page is crossed and a write or read-modify-write always (C6). -/
def indexedCycle (always : Bool) (base : Addr) (i : Byte) (s : State) : Addr × State :=
  (base + zext i, if always || crossed base i then dummyRead (partialAddr base i) s else s)

/-- The effective address of a memory operand and the state after the cycles that form it (R164 to R169). `always` is
false for kind R and true for kinds W and M. -/
def resolve (always : Bool) (m : MemMode) (s : State) : Addr × State :=
  match m with
  | .zp zp => (zext zp, s)
  | .zpX zp => (zpIndexed zp s.cpu.x, dummyRead (zext zp) s)
  | .zpY zp => (zpIndexed zp s.cpu.y, dummyRead (zext zp) s)
  | .abs addr => (addr, s)
  | .absX addr => indexedCycle always addr s.cpu.x s
  | .absY addr => indexedCycle always addr s.cpu.y s
  | .indX zp =>
    let l := readLow (zpIndexed zp s.cpu.x) (dummyRead (zext zp) s)
    let h := readCycle (zext (zp + s.cpu.x + 1)) l.2
    (wordOf l.1 h.1, perform (fun t => t.latchEa (wordOf l.1 h.1)) h.2)
  | .indY zp =>
    let l := readLow (zext zp) s
    let h := readCycle (zext (zp + 1)) l.2
    indexedCycle always (wordOf l.1 h.1) s.cpu.y (perform (fun t => t.latchEa (wordOf l.1 h.1)) h.2)

/-- The effective address of an operand of kind R. -/
def readEa (m : MemMode) (s : State) : Addr := (resolve false m s).1

/-- The effective address of an operand of kind W or M. -/
def writeEa (m : MemMode) (s : State) : Addr := (resolve true m s).1

/-- The state with the address formed, before the access of kind R. -/
def readBase (m : MemMode) (s : State) : State := perform (fun t => t.latchEa (readEa m s)) (resolve false m s).2

/-- The state with the address formed, before the access of kind W or M. -/
def writeBase (m : MemMode) (s : State) : State := perform (fun t => t.latchEa (writeEa m s)) (resolve true m s).2

/-- Kind R (R161): the operand and the state after the mode's last cycle. -/
def readMem (m : MemMode) (s : State) : Byte × State := readCycle (readEa m s) (readBase m s)

/-- Kind W (R161): the register value `r` is written in the mode's last cycle. -/
def writeMem (m : MemMode) (r : Byte) (s : State) : State := writeCycle (writeEa m s) r (writeBase m s)

/-- Kind M (R161, R300): read, write back unchanged, write the result, and the flags with it. On WSYNC both writes
take effect (R622): the first halts the CPU inside the instruction, the second, made on resume in the last cycle, halts it
after the instruction (R84, R471; this reading of R622's "halts once" is log 37). -/
def modifyMem (f : Byte → Flags → Byte × Flags) (m : MemMode) (s : State) : State :=
  let ea := writeEa m s
  let r := readCycle ea (writeBase m s)
  let t := writeCycle ea r.1 (perform (fun t => t.latchOperand r.1) r.2)
  let q := f r.1 t.cpu.p
  perform (fun t => t.withP q.2) (writeCycle ea q.1 t)

/-- The accumulator form (R162, R300): a dummy read of the next byte, then A and the flags. -/
def modifyAcc (f : Byte → Flags → Byte × Flags) (s : State) : State :=
  implied (fun s => let q := f s.cpu.a s.cpu.p; (s.withA q.1).withP q.2) s

/-- The operand of an instruction of kind R, immediate (R163: its only cycle was the fetch) or memory. -/
def readOperand (o : Operand) (s : State) : Byte × State :=
  match o with
  | .imm v => (v, s)
  | .mem m => readMem m s

end Sys2Proof.Machine
end

