-- ==== Sys2Proof/Machine/Arith.lean ====
section
/-! DEFINITION. Arithmetic, logic, compare and bit test (R250 to R260). Each instruction is run from the end of its fetch cycles (log 1). -/

namespace Sys2Proof.Machine

/-- ADC's operation (R250). -/
def performAdc (r : Byte × State) : State :=
  perform (fun s => let q := adc s.cpu.a r.1 s.cpu.p; (s.withA q.1).withP q.2) r.2

/-- SBC's operation (R251). -/
def performSbc (r : Byte × State) : State :=
  perform (fun s => let q := sbc s.cpu.a r.1 s.cpu.p; (s.withA q.1).withP q.2) r.2

/-- AND's operation (R253): `A <- A & v; SetNZ(A)`. -/
def performAnd (r : Byte × State) : State :=
  perform (fun s => (s.withA (s.cpu.a &&& r.1)).withNZ (s.cpu.a &&& r.1)) r.2

/-- ORA's operation (R254): `A <- A | v; SetNZ(A)`. -/
def performOra (r : Byte × State) : State :=
  perform (fun s => (s.withA (s.cpu.a ||| r.1)).withNZ (s.cpu.a ||| r.1)) r.2

/-- EOR's operation (R255): `A <- A ^ v; SetNZ(A)`. -/
def performEor (r : Byte × State) : State :=
  perform (fun s => (s.withA (s.cpu.a ^^^ r.1)).withNZ (s.cpu.a ^^^ r.1)) r.2

/-- CMP's operation (R256). -/
def performCmp (r : Byte × State) : State := perform (fun s => s.withP (compareFlags s.cpu.a r.1 s.cpu.p)) r.2

/-- CPX's operation (R257). -/
def performCpx (r : Byte × State) : State := perform (fun s => s.withP (compareFlags s.cpu.x r.1 s.cpu.p)) r.2

/-- CPY's operation (R258). -/
def performCpy (r : Byte × State) : State := perform (fun s => s.withP (compareFlags s.cpu.y r.1 s.cpu.p)) r.2

/-- BIT's operation (R259). -/
def performBit (r : Byte × State) : State := perform (fun s => s.withP (bitTest s.cpu.a r.1 s.cpu.p)) r.2

/-- ADC, immediate: opcode 0x69, 2 bytes (R250). -/
def execAdcImm (v : Byte) (s : State) : Out := finish (performAdc (v, s))

/-- ADC, zeroPage: opcode 0x65, 2 bytes (R250). -/
def execAdcZp (zp : Byte) (s : State) : Out := finish (performAdc (readMem (.zp zp) s))

/-- ADC, zeroPageX: opcode 0x75, 2 bytes (R250). -/
def execAdcZpX (zp : Byte) (s : State) : Out := finish (performAdc (readMem (.zpX zp) s))

/-- ADC, absolute: opcode 0x6D, 3 bytes (R250). -/
def execAdcAbs (addr : Addr) (s : State) : Out := finish (performAdc (readMem (.abs addr) s))

/-- ADC, absoluteX: opcode 0x7D, 3 bytes (R250). -/
def execAdcAbsX (addr : Addr) (s : State) : Out := finish (performAdc (readMem (.absX addr) s))

/-- ADC, absoluteY: opcode 0x79, 3 bytes (R250). -/
def execAdcAbsY (addr : Addr) (s : State) : Out := finish (performAdc (readMem (.absY addr) s))

/-- ADC, indexedIndirectX: opcode 0x61, 2 bytes (R250). -/
def execAdcIndX (zp : Byte) (s : State) : Out := finish (performAdc (readMem (.indX zp) s))

/-- ADC, indirectIndexedY: opcode 0x71, 2 bytes (R250). -/
def execAdcIndY (zp : Byte) (s : State) : Out := finish (performAdc (readMem (.indY zp) s))

/-- SBC, immediate: opcode 0xE9, 2 bytes (R251). -/
def execSbcImm (v : Byte) (s : State) : Out := finish (performSbc (v, s))

/-- SBC, zeroPage: opcode 0xE5, 2 bytes (R251). -/
def execSbcZp (zp : Byte) (s : State) : Out := finish (performSbc (readMem (.zp zp) s))

/-- SBC, zeroPageX: opcode 0xF5, 2 bytes (R251). -/
def execSbcZpX (zp : Byte) (s : State) : Out := finish (performSbc (readMem (.zpX zp) s))

/-- SBC, absolute: opcode 0xED, 3 bytes (R251). -/
def execSbcAbs (addr : Addr) (s : State) : Out := finish (performSbc (readMem (.abs addr) s))

/-- SBC, absoluteX: opcode 0xFD, 3 bytes (R251). -/
def execSbcAbsX (addr : Addr) (s : State) : Out := finish (performSbc (readMem (.absX addr) s))

/-- SBC, absoluteY: opcode 0xF9, 3 bytes (R251). -/
def execSbcAbsY (addr : Addr) (s : State) : Out := finish (performSbc (readMem (.absY addr) s))

/-- SBC, indexedIndirectX: opcode 0xE1, 2 bytes (R251). -/
def execSbcIndX (zp : Byte) (s : State) : Out := finish (performSbc (readMem (.indX zp) s))

/-- SBC, indirectIndexedY: opcode 0xF1, 2 bytes (R251). -/
def execSbcIndY (zp : Byte) (s : State) : Out := finish (performSbc (readMem (.indY zp) s))

/-- AND, immediate: opcode 0x29, 2 bytes (R253). -/
def execAndImm (v : Byte) (s : State) : Out := finish (performAnd (v, s))

/-- AND, zeroPage: opcode 0x25, 2 bytes (R253). -/
def execAndZp (zp : Byte) (s : State) : Out := finish (performAnd (readMem (.zp zp) s))

/-- AND, zeroPageX: opcode 0x35, 2 bytes (R253). -/
def execAndZpX (zp : Byte) (s : State) : Out := finish (performAnd (readMem (.zpX zp) s))

/-- AND, absolute: opcode 0x2D, 3 bytes (R253). -/
def execAndAbs (addr : Addr) (s : State) : Out := finish (performAnd (readMem (.abs addr) s))

/-- AND, absoluteX: opcode 0x3D, 3 bytes (R253). -/
def execAndAbsX (addr : Addr) (s : State) : Out := finish (performAnd (readMem (.absX addr) s))

/-- AND, absoluteY: opcode 0x39, 3 bytes (R253). -/
def execAndAbsY (addr : Addr) (s : State) : Out := finish (performAnd (readMem (.absY addr) s))

/-- AND, indexedIndirectX: opcode 0x21, 2 bytes (R253). -/
def execAndIndX (zp : Byte) (s : State) : Out := finish (performAnd (readMem (.indX zp) s))

/-- AND, indirectIndexedY: opcode 0x31, 2 bytes (R253). -/
def execAndIndY (zp : Byte) (s : State) : Out := finish (performAnd (readMem (.indY zp) s))

/-- ORA, immediate: opcode 0x09, 2 bytes (R254). -/
def execOraImm (v : Byte) (s : State) : Out := finish (performOra (v, s))

/-- ORA, zeroPage: opcode 0x05, 2 bytes (R254). -/
def execOraZp (zp : Byte) (s : State) : Out := finish (performOra (readMem (.zp zp) s))

/-- ORA, zeroPageX: opcode 0x15, 2 bytes (R254). -/
def execOraZpX (zp : Byte) (s : State) : Out := finish (performOra (readMem (.zpX zp) s))

/-- ORA, absolute: opcode 0x0D, 3 bytes (R254). -/
def execOraAbs (addr : Addr) (s : State) : Out := finish (performOra (readMem (.abs addr) s))

/-- ORA, absoluteX: opcode 0x1D, 3 bytes (R254). -/
def execOraAbsX (addr : Addr) (s : State) : Out := finish (performOra (readMem (.absX addr) s))

/-- ORA, absoluteY: opcode 0x19, 3 bytes (R254). -/
def execOraAbsY (addr : Addr) (s : State) : Out := finish (performOra (readMem (.absY addr) s))

/-- ORA, indexedIndirectX: opcode 0x01, 2 bytes (R254). -/
def execOraIndX (zp : Byte) (s : State) : Out := finish (performOra (readMem (.indX zp) s))

/-- ORA, indirectIndexedY: opcode 0x11, 2 bytes (R254). -/
def execOraIndY (zp : Byte) (s : State) : Out := finish (performOra (readMem (.indY zp) s))

/-- EOR, immediate: opcode 0x49, 2 bytes (R255). -/
def execEorImm (v : Byte) (s : State) : Out := finish (performEor (v, s))

/-- EOR, zeroPage: opcode 0x45, 2 bytes (R255). -/
def execEorZp (zp : Byte) (s : State) : Out := finish (performEor (readMem (.zp zp) s))

/-- EOR, zeroPageX: opcode 0x55, 2 bytes (R255). -/
def execEorZpX (zp : Byte) (s : State) : Out := finish (performEor (readMem (.zpX zp) s))

/-- EOR, absolute: opcode 0x4D, 3 bytes (R255). -/
def execEorAbs (addr : Addr) (s : State) : Out := finish (performEor (readMem (.abs addr) s))

/-- EOR, absoluteX: opcode 0x5D, 3 bytes (R255). -/
def execEorAbsX (addr : Addr) (s : State) : Out := finish (performEor (readMem (.absX addr) s))

/-- EOR, absoluteY: opcode 0x59, 3 bytes (R255). -/
def execEorAbsY (addr : Addr) (s : State) : Out := finish (performEor (readMem (.absY addr) s))

/-- EOR, indexedIndirectX: opcode 0x41, 2 bytes (R255). -/
def execEorIndX (zp : Byte) (s : State) : Out := finish (performEor (readMem (.indX zp) s))

/-- EOR, indirectIndexedY: opcode 0x51, 2 bytes (R255). -/
def execEorIndY (zp : Byte) (s : State) : Out := finish (performEor (readMem (.indY zp) s))

/-- CMP, immediate: opcode 0xC9, 2 bytes (R256). -/
def execCmpImm (v : Byte) (s : State) : Out := finish (performCmp (v, s))

/-- CMP, zeroPage: opcode 0xC5, 2 bytes (R256). -/
def execCmpZp (zp : Byte) (s : State) : Out := finish (performCmp (readMem (.zp zp) s))

/-- CMP, zeroPageX: opcode 0xD5, 2 bytes (R256). -/
def execCmpZpX (zp : Byte) (s : State) : Out := finish (performCmp (readMem (.zpX zp) s))

/-- CMP, absolute: opcode 0xCD, 3 bytes (R256). -/
def execCmpAbs (addr : Addr) (s : State) : Out := finish (performCmp (readMem (.abs addr) s))

/-- CMP, absoluteX: opcode 0xDD, 3 bytes (R256). -/
def execCmpAbsX (addr : Addr) (s : State) : Out := finish (performCmp (readMem (.absX addr) s))

/-- CMP, absoluteY: opcode 0xD9, 3 bytes (R256). -/
def execCmpAbsY (addr : Addr) (s : State) : Out := finish (performCmp (readMem (.absY addr) s))

/-- CMP, indexedIndirectX: opcode 0xC1, 2 bytes (R256). -/
def execCmpIndX (zp : Byte) (s : State) : Out := finish (performCmp (readMem (.indX zp) s))

/-- CMP, indirectIndexedY: opcode 0xD1, 2 bytes (R256). -/
def execCmpIndY (zp : Byte) (s : State) : Out := finish (performCmp (readMem (.indY zp) s))

/-- CPX, immediate: opcode 0xE0, 2 bytes (R257). -/
def execCpxImm (v : Byte) (s : State) : Out := finish (performCpx (v, s))

/-- CPX, zeroPage: opcode 0xE4, 2 bytes (R257). -/
def execCpxZp (zp : Byte) (s : State) : Out := finish (performCpx (readMem (.zp zp) s))

/-- CPX, absolute: opcode 0xEC, 3 bytes (R257). -/
def execCpxAbs (addr : Addr) (s : State) : Out := finish (performCpx (readMem (.abs addr) s))

/-- CPY, immediate: opcode 0xC0, 2 bytes (R258). -/
def execCpyImm (v : Byte) (s : State) : Out := finish (performCpy (v, s))

/-- CPY, zeroPage: opcode 0xC4, 2 bytes (R258). -/
def execCpyZp (zp : Byte) (s : State) : Out := finish (performCpy (readMem (.zp zp) s))

/-- CPY, absolute: opcode 0xCC, 3 bytes (R258). -/
def execCpyAbs (addr : Addr) (s : State) : Out := finish (performCpy (readMem (.abs addr) s))

/-- BIT, zeroPage: opcode 0x24, 2 bytes (R259). -/
def execBitZp (zp : Byte) (s : State) : Out := finish (performBit (readMem (.zp zp) s))

/-- BIT, absolute: opcode 0x2C, 3 bytes (R259). -/
def execBitAbs (addr : Addr) (s : State) : Out := finish (performBit (readMem (.abs addr) s))

end Sys2Proof.Machine
end

