-- ==== Sys2Proof/Machine/Control.lean ====
section
/-! DEFINITION. Jumps, subroutines and branches (R330 to R342). Each instruction is run from the end of its fetch cycles (log 1). -/

namespace Sys2Proof.Machine

/-- JMP indirect's cycles 4 and 5 (R331): the high byte comes from `{pth, (ptl + 1) mod 256}`. -/
def jumpIndirect (addr : Addr) (s : State) : State :=
  let r := readLow addr s
  let q := readCycle (wordOf (loByte addr + 1) (hiByte addr)) r.2
  perform (fun s => s.withPc (wordOf r.1 q.1)) q.2

/-- JSR's cycles 3 to 5 (R332), with PC at the instruction's last byte: the dummy stack read and the two pushes. -/
def jsrPushes (s : State) : State :=
  push (loByte s.cpu.pc) (push (hiByte s.cpu.pc) (dummyStack s))

/-- JSR's cycle 6 (R332): the high byte of the target, read after the pushes. -/
def jsrHigh (s : State) : Byte × State := readCycle (jsrPushes s).cpu.pc (jsrPushes s)

/-- JSR from cycle 3 on (R332). The byte cycle 6 reads is the target's high byte, which `fetchInstr` has taken from
this same read (log 26). -/
def callSubroutine (addr : Addr) (s : State) : State :=
  perform (fun s => (s.latchHi (hiByte addr)).withPc addr) (jsrHigh s).2

/-- RTS from cycle 2 on (R333). -/
def returnSubroutine (s : State) : State :=
  let l := pullLow (dummyStack (dummyFetch s))
  let h := pull l.2
  perform State.incPc (dummyFetch (perform (fun s => s.withPc (wordOf l.1 h.1)) h.2))

/-- A branch from the end of its cycle 2 on (R334), with PC at the next instruction. -/
def branch (taken : Bool) (off : Byte) (s : State) : State :=
  let s := perform (fun s => s.latchOffset off) s
  if taken then
    let next := s.cpu.pc
    let target := next + sext off
    let t := dummyFetch s
    if hiByte target = hiByte next then perform (fun s => s.withPc target) t
    else perform (fun s => s.withPc target) (dummyRead (wordOf (loByte target) (hiByte next)) t)
  else s

/-- JMP, absolute: opcode 0x4C, 3 bytes (R330). -/
def execJmpAbs (addr : Addr) (s : State) : Out := finish (perform (fun s => s.withPc addr) s)

/-- JMP, indirect: opcode 0x6C, 3 bytes (R331). -/
def execJmpInd (addr : Addr) (s : State) : Out := finish (jumpIndirect addr s)

/-- JSR, absolute: opcode 0x20, 3 bytes (R332). -/
def execJsr (addr : Addr) (s : State) : Out := finish (callSubroutine addr s)

/-- RTS, implied: opcode 0x60, 1 byte (R333). -/
def execRts (s : State) : Out := finish (returnSubroutine s)

/-- BCC, relative: opcode 0x90, 2 bytes (R335). -/
def execBcc (off : Byte) (s : State) : Out := finish (branch (!s.cpu.p.c) off s)

/-- BCS, relative: opcode 0xB0, 2 bytes (R336). -/
def execBcs (off : Byte) (s : State) : Out := finish (branch s.cpu.p.c off s)

/-- BEQ, relative: opcode 0xF0, 2 bytes (R337). -/
def execBeq (off : Byte) (s : State) : Out := finish (branch s.cpu.p.z off s)

/-- BNE, relative: opcode 0xD0, 2 bytes (R338). -/
def execBne (off : Byte) (s : State) : Out := finish (branch (!s.cpu.p.z) off s)

/-- BMI, relative: opcode 0x30, 2 bytes (R339). -/
def execBmi (off : Byte) (s : State) : Out := finish (branch s.cpu.p.n off s)

/-- BPL, relative: opcode 0x10, 2 bytes (R340). -/
def execBpl (off : Byte) (s : State) : Out := finish (branch (!s.cpu.p.n) off s)

/-- BVC, relative: opcode 0x50, 2 bytes (R341). -/
def execBvc (off : Byte) (s : State) : Out := finish (branch (!s.cpu.p.v) off s)

/-- BVS, relative: opcode 0x70, 2 bytes (R342). -/
def execBvs (off : Byte) (s : State) : Out := finish (branch s.cpu.p.v off s)

end Sys2Proof.Machine
end

