-- ==== Sys2Proof/Machine/LoadStore.lean ====
section
/-! DEFINITION. Loads and stores (R200 to R205). Each instruction is run from the end of its fetch cycles (log 1). -/

namespace Sys2Proof.Machine

/-- LDA's operation (R200): `A <- v; SetNZ(A)`. -/
def performLda (r : Byte × State) : State := perform (fun s => (s.withA r.1).withNZ r.1) r.2

/-- LDX's operation (R201): `X <- v; SetNZ(X)`. -/
def performLdx (r : Byte × State) : State := perform (fun s => (s.withX r.1).withNZ r.1) r.2

/-- LDY's operation (R202): `Y <- v; SetNZ(Y)`. -/
def performLdy (r : Byte × State) : State := perform (fun s => (s.withY r.1).withNZ r.1) r.2

/-- LDA, immediate: opcode 0xA9, 2 bytes (R200). -/
def execLdaImm (v : Byte) (s : State) : Out := finish (performLda (v, s))

/-- LDA, zeroPage: opcode 0xA5, 2 bytes (R200). -/
def execLdaZp (zp : Byte) (s : State) : Out := finish (performLda (readMem (.zp zp) s))

/-- LDA, zeroPageX: opcode 0xB5, 2 bytes (R200). -/
def execLdaZpX (zp : Byte) (s : State) : Out := finish (performLda (readMem (.zpX zp) s))

/-- LDA, absolute: opcode 0xAD, 3 bytes (R200). -/
def execLdaAbs (addr : Addr) (s : State) : Out := finish (performLda (readMem (.abs addr) s))

/-- LDA, absoluteX: opcode 0xBD, 3 bytes (R200). -/
def execLdaAbsX (addr : Addr) (s : State) : Out := finish (performLda (readMem (.absX addr) s))

/-- LDA, absoluteY: opcode 0xB9, 3 bytes (R200). -/
def execLdaAbsY (addr : Addr) (s : State) : Out := finish (performLda (readMem (.absY addr) s))

/-- LDA, indexedIndirectX: opcode 0xA1, 2 bytes (R200). -/
def execLdaIndX (zp : Byte) (s : State) : Out := finish (performLda (readMem (.indX zp) s))

/-- LDA, indirectIndexedY: opcode 0xB1, 2 bytes (R200). -/
def execLdaIndY (zp : Byte) (s : State) : Out := finish (performLda (readMem (.indY zp) s))

/-- LDX, immediate: opcode 0xA2, 2 bytes (R201). -/
def execLdxImm (v : Byte) (s : State) : Out := finish (performLdx (v, s))

/-- LDX, zeroPage: opcode 0xA6, 2 bytes (R201). -/
def execLdxZp (zp : Byte) (s : State) : Out := finish (performLdx (readMem (.zp zp) s))

/-- LDX, zeroPageY: opcode 0xB6, 2 bytes (R201). -/
def execLdxZpY (zp : Byte) (s : State) : Out := finish (performLdx (readMem (.zpY zp) s))

/-- LDX, absolute: opcode 0xAE, 3 bytes (R201). -/
def execLdxAbs (addr : Addr) (s : State) : Out := finish (performLdx (readMem (.abs addr) s))

/-- LDX, absoluteY: opcode 0xBE, 3 bytes (R201). -/
def execLdxAbsY (addr : Addr) (s : State) : Out := finish (performLdx (readMem (.absY addr) s))

/-- LDY, immediate: opcode 0xA0, 2 bytes (R202). -/
def execLdyImm (v : Byte) (s : State) : Out := finish (performLdy (v, s))

/-- LDY, zeroPage: opcode 0xA4, 2 bytes (R202). -/
def execLdyZp (zp : Byte) (s : State) : Out := finish (performLdy (readMem (.zp zp) s))

/-- LDY, zeroPageX: opcode 0xB4, 2 bytes (R202). -/
def execLdyZpX (zp : Byte) (s : State) : Out := finish (performLdy (readMem (.zpX zp) s))

/-- LDY, absolute: opcode 0xAC, 3 bytes (R202). -/
def execLdyAbs (addr : Addr) (s : State) : Out := finish (performLdy (readMem (.abs addr) s))

/-- LDY, absoluteX: opcode 0xBC, 3 bytes (R202). -/
def execLdyAbsX (addr : Addr) (s : State) : Out := finish (performLdy (readMem (.absX addr) s))

/-- STA, zeroPage: opcode 0x85, 2 bytes (R203). -/
def execStaZp (zp : Byte) (s : State) : Out := finish (writeMem (.zp zp) s.cpu.a s)

/-- STA, zeroPageX: opcode 0x95, 2 bytes (R203). -/
def execStaZpX (zp : Byte) (s : State) : Out := finish (writeMem (.zpX zp) s.cpu.a s)

/-- STA, absolute: opcode 0x8D, 3 bytes (R203). -/
def execStaAbs (addr : Addr) (s : State) : Out := finish (writeMem (.abs addr) s.cpu.a s)

/-- STA, absoluteX: opcode 0x9D, 3 bytes (R203). -/
def execStaAbsX (addr : Addr) (s : State) : Out := finish (writeMem (.absX addr) s.cpu.a s)

/-- STA, absoluteY: opcode 0x99, 3 bytes (R203). -/
def execStaAbsY (addr : Addr) (s : State) : Out := finish (writeMem (.absY addr) s.cpu.a s)

/-- STA, indexedIndirectX: opcode 0x81, 2 bytes (R203). -/
def execStaIndX (zp : Byte) (s : State) : Out := finish (writeMem (.indX zp) s.cpu.a s)

/-- STA, indirectIndexedY: opcode 0x91, 2 bytes (R203). -/
def execStaIndY (zp : Byte) (s : State) : Out := finish (writeMem (.indY zp) s.cpu.a s)

/-- STX, zeroPage: opcode 0x86, 2 bytes (R204). -/
def execStxZp (zp : Byte) (s : State) : Out := finish (writeMem (.zp zp) s.cpu.x s)

/-- STX, zeroPageY: opcode 0x96, 2 bytes (R204). -/
def execStxZpY (zp : Byte) (s : State) : Out := finish (writeMem (.zpY zp) s.cpu.x s)

/-- STX, absolute: opcode 0x8E, 3 bytes (R204). -/
def execStxAbs (addr : Addr) (s : State) : Out := finish (writeMem (.abs addr) s.cpu.x s)

/-- STY, zeroPage: opcode 0x84, 2 bytes (R205). -/
def execStyZp (zp : Byte) (s : State) : Out := finish (writeMem (.zp zp) s.cpu.y s)

/-- STY, zeroPageX: opcode 0x94, 2 bytes (R205). -/
def execStyZpX (zp : Byte) (s : State) : Out := finish (writeMem (.zpX zp) s.cpu.y s)

/-- STY, absolute: opcode 0x8C, 3 bytes (R205). -/
def execStyAbs (addr : Addr) (s : State) : Out := finish (writeMem (.abs addr) s.cpu.y s)

end Sys2Proof.Machine
end

