-- ==== Sys2Proof/Machine/Shift.lean ====
section
/-! DEFINITION. Shifts, rotates, increments and decrements (R300 to R310). Each instruction is run from the end of its fetch cycles (log 1). -/

namespace Sys2Proof.Machine

/-- ASL, accumulator: opcode 0x0A, 1 byte (R301). -/
def execAslAcc (s : State) : Out := finish (modifyAcc asl s)

/-- ASL, zeroPage: opcode 0x06, 2 bytes (R301). -/
def execAslZp (zp : Byte) (s : State) : Out := finish (modifyMem asl (.zp zp) s)

/-- ASL, zeroPageX: opcode 0x16, 2 bytes (R301). -/
def execAslZpX (zp : Byte) (s : State) : Out := finish (modifyMem asl (.zpX zp) s)

/-- ASL, absolute: opcode 0x0E, 3 bytes (R301). -/
def execAslAbs (addr : Addr) (s : State) : Out := finish (modifyMem asl (.abs addr) s)

/-- ASL, absoluteX: opcode 0x1E, 3 bytes (R301). -/
def execAslAbsX (addr : Addr) (s : State) : Out := finish (modifyMem asl (.absX addr) s)

/-- LSR, accumulator: opcode 0x4A, 1 byte (R302). -/
def execLsrAcc (s : State) : Out := finish (modifyAcc lsr s)

/-- LSR, zeroPage: opcode 0x46, 2 bytes (R302). -/
def execLsrZp (zp : Byte) (s : State) : Out := finish (modifyMem lsr (.zp zp) s)

/-- LSR, zeroPageX: opcode 0x56, 2 bytes (R302). -/
def execLsrZpX (zp : Byte) (s : State) : Out := finish (modifyMem lsr (.zpX zp) s)

/-- LSR, absolute: opcode 0x4E, 3 bytes (R302). -/
def execLsrAbs (addr : Addr) (s : State) : Out := finish (modifyMem lsr (.abs addr) s)

/-- LSR, absoluteX: opcode 0x5E, 3 bytes (R302). -/
def execLsrAbsX (addr : Addr) (s : State) : Out := finish (modifyMem lsr (.absX addr) s)

/-- ROL, accumulator: opcode 0x2A, 1 byte (R303). -/
def execRolAcc (s : State) : Out := finish (modifyAcc rol s)

/-- ROL, zeroPage: opcode 0x26, 2 bytes (R303). -/
def execRolZp (zp : Byte) (s : State) : Out := finish (modifyMem rol (.zp zp) s)

/-- ROL, zeroPageX: opcode 0x36, 2 bytes (R303). -/
def execRolZpX (zp : Byte) (s : State) : Out := finish (modifyMem rol (.zpX zp) s)

/-- ROL, absolute: opcode 0x2E, 3 bytes (R303). -/
def execRolAbs (addr : Addr) (s : State) : Out := finish (modifyMem rol (.abs addr) s)

/-- ROL, absoluteX: opcode 0x3E, 3 bytes (R303). -/
def execRolAbsX (addr : Addr) (s : State) : Out := finish (modifyMem rol (.absX addr) s)

/-- ROR, accumulator: opcode 0x6A, 1 byte (R304). -/
def execRorAcc (s : State) : Out := finish (modifyAcc ror s)

/-- ROR, zeroPage: opcode 0x66, 2 bytes (R304). -/
def execRorZp (zp : Byte) (s : State) : Out := finish (modifyMem ror (.zp zp) s)

/-- ROR, zeroPageX: opcode 0x76, 2 bytes (R304). -/
def execRorZpX (zp : Byte) (s : State) : Out := finish (modifyMem ror (.zpX zp) s)

/-- ROR, absolute: opcode 0x6E, 3 bytes (R304). -/
def execRorAbs (addr : Addr) (s : State) : Out := finish (modifyMem ror (.abs addr) s)

/-- ROR, absoluteX: opcode 0x7E, 3 bytes (R304). -/
def execRorAbsX (addr : Addr) (s : State) : Out := finish (modifyMem ror (.absX addr) s)

/-- INC, zeroPage: opcode 0xE6, 2 bytes (R305). -/
def execIncZp (zp : Byte) (s : State) : Out := finish (modifyMem inc (.zp zp) s)

/-- INC, zeroPageX: opcode 0xF6, 2 bytes (R305). -/
def execIncZpX (zp : Byte) (s : State) : Out := finish (modifyMem inc (.zpX zp) s)

/-- INC, absolute: opcode 0xEE, 3 bytes (R305). -/
def execIncAbs (addr : Addr) (s : State) : Out := finish (modifyMem inc (.abs addr) s)

/-- INC, absoluteX: opcode 0xFE, 3 bytes (R305). -/
def execIncAbsX (addr : Addr) (s : State) : Out := finish (modifyMem inc (.absX addr) s)

/-- DEC, zeroPage: opcode 0xC6, 2 bytes (R306). -/
def execDecZp (zp : Byte) (s : State) : Out := finish (modifyMem dec (.zp zp) s)

/-- DEC, zeroPageX: opcode 0xD6, 2 bytes (R306). -/
def execDecZpX (zp : Byte) (s : State) : Out := finish (modifyMem dec (.zpX zp) s)

/-- DEC, absolute: opcode 0xCE, 3 bytes (R306). -/
def execDecAbs (addr : Addr) (s : State) : Out := finish (modifyMem dec (.abs addr) s)

/-- DEC, absoluteX: opcode 0xDE, 3 bytes (R306). -/
def execDecAbsX (addr : Addr) (s : State) : Out := finish (modifyMem dec (.absX addr) s)

/-- INX, implied: opcode 0xE8, 1 byte (R307). -/
def execInx (s : State) : Out := finish (implied (fun s => (s.withX (s.cpu.x + 1)).withNZ (s.cpu.x + 1)) s)

/-- INY, implied: opcode 0xC8, 1 byte (R308). -/
def execIny (s : State) : Out := finish (implied (fun s => (s.withY (s.cpu.y + 1)).withNZ (s.cpu.y + 1)) s)

/-- DEX, implied: opcode 0xCA, 1 byte (R309). -/
def execDex (s : State) : Out := finish (implied (fun s => (s.withX (s.cpu.x - 1)).withNZ (s.cpu.x - 1)) s)

/-- DEY, implied: opcode 0x88, 1 byte (R310). -/
def execDey (s : State) : Out := finish (implied (fun s => (s.withY (s.cpu.y - 1)).withNZ (s.cpu.y - 1)) s)

end Sys2Proof.Machine
end

