-- ==== Sys2Proof/Machine/System.lean ====
section
/-! DEFINITION. Flag instructions, NOP, BRK and RTI (R370 to R379). Each instruction is run from the end of its fetch cycles (log 1). -/

namespace Sys2Proof.Machine

/-- CLC, implied: opcode 0x18, 1 byte (R370). -/
def execClc (s : State) : Out := finish (implied (fun s => s.withP { s.cpu.p with c := false }) s)

/-- SEC, implied: opcode 0x38, 1 byte (R371). -/
def execSec (s : State) : Out := finish (implied (fun s => s.withP { s.cpu.p with c := true }) s)

/-- CLI, implied: opcode 0x58, 1 byte (R372). -/
def execCli (s : State) : Out := finish (implied (fun s => s.withP { s.cpu.p with i := false }) s)

/-- SEI, implied: opcode 0x78, 1 byte (R373). -/
def execSei (s : State) : Out := finish (implied (fun s => s.withP { s.cpu.p with i := true }) s)

/-- CLD, implied: opcode 0xD8, 1 byte (R374). -/
def execCld (s : State) : Out := finish (implied (fun s => s.withP { s.cpu.p with d := false }) s)

/-- SED, implied: opcode 0xF8, 1 byte (R375). -/
def execSed (s : State) : Out := finish (implied (fun s => s.withP { s.cpu.p with d := true }) s)

/-- CLV, implied: opcode 0xB8, 1 byte (R376). -/
def execClv (s : State) : Out := finish (implied (fun s => s.withP { s.cpu.p with v := false }) s)

/-- NOP, implied: opcode 0xEA, 1 byte (R377). -/
def execNop (s : State) : Out := finish (implied (fun s => s) s)

/-- BRK, implied: opcode 0x00, 1 byte (R378). -/
def execBrk (s : State) : Out := finish (enterVector true vectorIrq false (perform State.incPc (dummyFetch s)))

/-- RTI, implied: opcode 0x40, 1 byte (R379). -/
def execRti (s : State) : Out := finish (returnInterrupt s)

end Sys2Proof.Machine
end

