-- ==== Sys2Proof/Machine/Transfer.lean ====
section
/-! DEFINITION. Register transfers and stack operations (R221 to R230). Each instruction is run from the end of its fetch cycles (log 1). -/

namespace Sys2Proof.Machine

/-- PLA's operation on the pulled byte (R229): `A <- Pull(); SetNZ(A)`. -/
def performPla (r : Byte × State) : State := perform (fun s => (s.withA r.1).withNZ r.1) r.2

/-- PLP's operation on the pulled byte (R230): the six flags loaded, bits 5 and 4 discarded. -/
def performPlp (r : Byte × State) : State := perform (fun s => s.withP (unpackP r.1)) r.2

/-- TAX, implied: opcode 0xAA, 1 byte (R221). -/
def execTax (s : State) : Out := finish (implied (fun s => (s.withX s.cpu.a).withNZ s.cpu.a) s)

/-- TAY, implied: opcode 0xA8, 1 byte (R222). -/
def execTay (s : State) : Out := finish (implied (fun s => (s.withY s.cpu.a).withNZ s.cpu.a) s)

/-- TXA, implied: opcode 0x8A, 1 byte (R223). -/
def execTxa (s : State) : Out := finish (implied (fun s => (s.withA s.cpu.x).withNZ s.cpu.x) s)

/-- TYA, implied: opcode 0x98, 1 byte (R224). -/
def execTya (s : State) : Out := finish (implied (fun s => (s.withA s.cpu.y).withNZ s.cpu.y) s)

/-- TSX, implied: opcode 0xBA, 1 byte (R225). -/
def execTsx (s : State) : Out := finish (implied (fun s => (s.withX s.cpu.s).withNZ s.cpu.s) s)

/-- TXS, implied: opcode 0x9A, 1 byte (R226). -/
def execTxs (s : State) : Out := finish (implied (fun s => s.withS s.cpu.x) s)

/-- PHA, implied: opcode 0x48, 1 byte (R227). -/
def execPha (s : State) : Out := finish (push s.cpu.a (dummyFetch s))

/-- PHP, implied: opcode 0x08, 1 byte (R228). -/
def execPhp (s : State) : Out := finish (push (packP true s.cpu.p) (dummyFetch s))

/-- PLA, implied: opcode 0x68, 1 byte (R229). -/
def execPla (s : State) : Out := finish (performPla (pull (dummyStack (dummyFetch s))))

/-- PLP, implied: opcode 0x28, 1 byte (R230). -/
def execPlp (s : State) : Out := finish (performPlp (pull (dummyStack (dummyFetch s))))

end Sys2Proof.Machine
end

