-- ==== Sys2Proof/Machine/Fetch.lean ====
section
/-! DEFINITION. The fetch cycles (R160, R120), the choice a step makes at an instruction boundary, and the placing of an
instruction where the next step fetches. -/

namespace Sys2Proof.Machine

/-- What a step does from an instruction boundary: stop, take an interrupt from the open slot, or run an instruction
whose fetch cycles are done. -/
inductive Action where
  | stop (r : Fault)
  | enter (k : Interrupt) (s : State)
  | run (i : Instr) (s : State)

/-- Cycle 1 (R160), in the open slot: the opcode is read, LIP takes its address (log 14), PC advances, and an invalid
opcode stops the machine there (R402; log 9). -/
def fetchOpcode (s : State) : Byte × State :=
  let r := busRead s.cpu.pc s
  let t := perform (fun t => (((t.latchOpcode r.1).withLip s.cpu.pc).withTag (.mid r.1 1)).incPc) r.2
  (r.1, endCycle (if opcodeLength r.1 = none then raiseInvalidOpcode r.1 t else t))

/-- The fetch of the low operand byte: `MemRead(PC); PC <- PC + 1`. -/
def fetchLo (s : State) : Byte × State :=
  let r := readCycle s.cpu.pc s
  (r.1, perform (fun t => (t.latchLo r.1).incPc) r.2)

/-- The fetch of the high operand byte. -/
def fetchHi (s : State) : Byte × State :=
  let r := readCycle s.cpu.pc s
  (r.1, perform (fun t => (t.latchHi r.1).incPc) r.2)

/-- The opcode of JSR (R332), the one instruction whose last byte is not fetched before its other cycles. -/
def jsrOpcode : Byte := 0x20

/-- The bytes of the instruction at PC, and the state at the end of its fetch cycles, from the open slot of cycle 1
(R120, R160). JSR's high byte is the one its cycle 6 reads (log 26). -/
def fetchInstr (s : State) : List Byte × State :=
  let op := fetchOpcode s
  match opcodeLength op.1 with
  | none | some 0 | some 1 => ([op.1], op.2)
  | some 2 =>
    let l := fetchLo op.2
    ([op.1, l.1], l.2)
  | some _ =>
    let l := fetchLo op.2
    if op.1 = jsrOpcode then ([op.1, l.1, (jsrHigh l.2).1], l.2)
    else
      let h := fetchHi l.2
      ([op.1, l.1, h.1], h.2)

/-- The action of a step (R160, R402, R413): a stopped machine stays stopped (R11); the CPU's next slot is awaited; a
pending interrupt is taken; otherwise the instruction at PC is fetched and decoded, and an invalid opcode stops the
machine at the end of cycle 1. -/
def nextAction (s : State) : Action :=
  if s.traps.fatal then .stop (stopReason s)
  else
    let b := openRead s
    match pendingInterrupt b with
    | some k => .enter k b
    | none =>
      let f := fetchInstr b
      match decode f.1 with
      | some (i, _) => .run i f.2
      | none => .stop (stopReason f.2)

/-- Does the cartridge window hold three bytes from PC on in a `vanilla_4k` image? -/
def fetchesImage (s : State) : Bool :=
  s.cfg.scheme == .vanilla4k && (maskAddr s.cpu.pc).getLsbD 12 && decide ((maskAddr s.cpu.pc).toNat % 4096 ≤ 0xFFD)

/-- The state with three bytes stored where the next step fetches (log 7). Where PC does not address a `vanilla_4k`
image, one is loaded and PC is its first byte, 0xF000. What could keep the next step from fetching is cleared: a stopped
machine, a pending NMI, driven lines, trapping accesses. -/
def placeInstruction (bytes : List Byte) (s : State) : State :=
  let s := if fetchesImage s then s else
    { s with
      cfg := { s.cfg with scheme := .vanilla4k, imageSize := 4096, image := [] }
      cpu := { s.cpu with pc := 0xF000 } }
  let o := (maskAddr s.cpu.pc).toNat % 4096
  let image := ((s.cfg.image.write o (bytes.getD 0 0)).write (o + 1) (bytes.getD 1 0)).write (o + 2) (bytes.getD 2 0)
  { s with
    cfg := { s.cfg with image := image, inputs := [], chipTrap := [] }
    cpu := { s.cpu with nmiLatch := false, tag := .fetch }
    traps := { s.traps with fatal := false } }

end Sys2Proof.Machine
end

