-- ==== Sys2Proof/Machine/Step.lean ====
section
/-! DEFINITION. One step of the machine: a whole instruction, or one interrupt entry (log 1). -/

namespace Sys2Proof.Machine

/-- One step from an instruction boundary, cycle by cycle (R10, R420). -/
def step (s : State) : Host.Outcome State Fault Refusal :=
  match nextAction s with
  | .stop r => .fault r
  | .enter k t => finish (interruptEntry k t)
  | .run i t => exec i t

/-- The state with a table word stored where the next step fetches (log 7). -/
def State.withFetchWord (s : State) (nbits w : Nat) : State := placeInstruction (tableWordBytes nbits w) s

end Sys2Proof.Machine
end

