-- ==== Sys2Proof/Machine/Cycle.lean ====
section
/-! DEFINITION. Every cycle of every instruction and of an interrupt entry on its own (R10, R46, R160 to R172): which
access it makes and what follows it. The meanings that `exec` calls make the same cycles one after the other. -/

namespace Sys2Proof.Machine

/-! ### The operations of each kind -/

/-- The bytes of an instruction that its fetch cycles read (R120, R160): all, but for JSR's last, which its cycle 6
reads (R332). -/
def fetchedBytes (i : Instr) : Nat :=
  match i with
  | .jsr _ => 2
  | _ => i.mode.length

/-- A branch's condition (R335 to R342). -/
def branchTaken (op : BranchOp) (p : Flags) : Bool :=
  match op with
  | .bcc => !p.c
  | .bcs => p.c
  | .beq => p.z
  | .bne => !p.z
  | .bmi => p.n
  | .bpl => !p.n
  | .bvc => !p.v
  | .bvs => p.v

/-- The stored register of a mnemonic of kind W (R203 to R205). -/
def storedRegister (op : WriteOp) (s : State) : Byte :=
  match op with
  | .sta => s.cpu.a
  | .stx => s.cpu.x
  | .sty => s.cpu.y

/-- The operation of a mnemonic of kind R on the operand it has read. -/
def performRead : ReadOp → Byte × State → State
  | .lda => performLda
  | .ldx => performLdx
  | .ldy => performLdy
  | .adc => performAdc
  | .sbc => performSbc
  | .and => performAnd
  | .ora => performOra
  | .eor => performEor
  | .cmp => performCmp
  | .cpx => performCpx
  | .cpy => performCpy
  | .bit => performBit

/-- The function of a read-modify-write mnemonic. -/
def modifyFun : ModifyOp → Byte → Flags → Byte × Flags
  | .asl => asl
  | .lsr => lsr
  | .rol => rol
  | .ror => ror
  | .inc => inc
  | .dec => dec

/-- The register operation of an implied mnemonic. -/
def impliedFun : ImpliedOp → State → State
  | .tax => fun s => (s.withX s.cpu.a).withNZ s.cpu.a
  | .tay => fun s => (s.withY s.cpu.a).withNZ s.cpu.a
  | .txa => fun s => (s.withA s.cpu.x).withNZ s.cpu.x
  | .tya => fun s => (s.withA s.cpu.y).withNZ s.cpu.y
  | .tsx => fun s => (s.withX s.cpu.s).withNZ s.cpu.s
  | .txs => fun s => s.withS s.cpu.x
  | .inx => fun s => (s.withX (s.cpu.x + 1)).withNZ (s.cpu.x + 1)
  | .iny => fun s => (s.withY (s.cpu.y + 1)).withNZ (s.cpu.y + 1)
  | .dex => fun s => (s.withX (s.cpu.x - 1)).withNZ (s.cpu.x - 1)
  | .dey => fun s => (s.withY (s.cpu.y - 1)).withNZ (s.cpu.y - 1)
  | .clc => fun s => s.withP { s.cpu.p with c := false }
  | .sec => fun s => s.withP { s.cpu.p with c := true }
  | .cli => fun s => s.withP { s.cpu.p with i := false }
  | .sei => fun s => s.withP { s.cpu.p with i := true }
  | .cld => fun s => s.withP { s.cpu.p with d := false }
  | .sed => fun s => s.withP { s.cpu.p with d := true }
  | .clv => fun s => s.withP { s.cpu.p with v := false }
  | .nop => fun s => s

/-! ### One cycle -/

/-- One cycle of the CPU: what it does in its slot before the access, the access itself (a write where `data` is given, a
read where it is not), and what follows with the byte read. -/
structure BusCycle where
  before : State → State := fun s => s
  addr : Addr
  data : Option Byte := none
  after : Byte → State → State := fun _ s => s

/-- The cycle in its slot (R72, R420): one access, the agents after the CPU, then the operations of the cycle. -/
def BusCycle.run (c : BusCycle) (b : State) : State :=
  match c.data with
  | none =>
    let r := readHere c.addr (c.before b)
    perform (c.after r.1) r.2
  | some v => perform (c.after v) (endCycle (busWrite c.addr v (c.before b)))

/-- The instruction is complete: the CPU is at an instruction boundary (R46, R160). -/
def complete (s : State) : State := s.withTag .fetch

/-- A dummy read (R9). -/
def idleRead (a : Addr) : BusCycle := { addr := a }

/-- A push (R220) with what follows it. -/
def pushCycle (v : Byte) (after : State → State) (s : State) : BusCycle :=
  { addr := stackAddr s, data := some v, after := fun _ t => after (t.withS (t.cpu.s - 1)) }

/-- A pull (R220) with what follows it. -/
def pullCycle (after : Byte → State → State) (s : State) : BusCycle :=
  { before := fun t => t.withS (t.cpu.s + 1), addr := stackAddr (s.withS (s.cpu.s + 1)), after := after }

/-- The low byte of a pointer, a vector or a return address is latched (R50). -/
def latchLow (v : Byte) (s : State) : State := s.latchEa (zext v)

/-- The word whose low byte is latched and whose high byte has come in. -/
def latchedWord (v : Byte) (s : State) : Addr := wordOf (loByte s.cpu.lat.ea) v

/-! ### Operands in memory (R164 to R169) -/

/-- The cycle at the uncorrected address of an indexed mode, where it is made (R167, R169). -/
def indexedFix (always : Bool) (base : Addr) (i : Byte) : Option BusCycle :=
  if always || crossed base i then some (idleRead (partialAddr base i)) else none

/-- The `j`-th cycle that forms an effective address, after the fetch; none once the address is formed. -/
def addressCycle (always : Bool) (m : MemMode) (j : Nat) (s : State) : Option BusCycle :=
  match m, j with
  | .zpX zp, 1 | .zpY zp, 1 => some (idleRead (zext zp))
  | .absX addr, 1 => indexedFix always addr s.cpu.x
  | .absY addr, 1 => indexedFix always addr s.cpu.y
  | .indX zp, 1 => some (idleRead (zext zp))
  | .indX zp, 2 => some { addr := zpIndexed zp s.cpu.x, after := latchLow }
  | .indX zp, 3 => some { addr := zext (zp + s.cpu.x + 1), after := fun v t => t.latchEa (latchedWord v t) }
  | .indY zp, 1 => some { addr := zext zp, after := latchLow }
  | .indY zp, 2 => some { addr := zext (zp + 1), after := fun v t => t.latchEa (latchedWord v t) }
  | .indY _, 3 => indexedFix always s.cpu.lat.ea s.cpu.y
  | _, _ => none

/-- The number of cycles that form the effective address of an operand of kind W or M. -/
def addressCount (m : MemMode) : Nat :=
  match m with
  | .zp _ | .abs _ => 0
  | .zpX _ | .zpY _ | .absX _ | .absY _ => 1
  | .indX _ | .indY _ => 3

/-- The effective address once its cycles are done; a pointer, or the base it gives, is latched. -/
def formedEa (m : MemMode) (s : State) : Addr :=
  match m with
  | .zp zp => zext zp
  | .zpX zp => zpIndexed zp s.cpu.x
  | .zpY zp => zpIndexed zp s.cpu.y
  | .abs addr => addr
  | .absX addr => addr + zext s.cpu.x
  | .absY addr => addr + zext s.cpu.y
  | .indX _ => s.cpu.lat.ea
  | .indY _ => s.cpu.lat.ea + zext s.cpu.y

/-- The `j`-th cycle after the fetch of an instruction of kind R on memory (R161). -/
def readTail (op : ReadOp) (m : MemMode) (j : Nat) (s : State) : BusCycle :=
  (addressCycle false m j s).getD
    { before := fun t => t.latchEa (formedEa m s), addr := formedEa m s,
      after := fun v t => complete (performRead op (v, t)) }

/-- The `j`-th cycle after the fetch of an instruction of kind W (R161). -/
def writeTail (op : WriteOp) (m : MemMode) (j : Nat) (s : State) : BusCycle :=
  (addressCycle true m j s).getD
    { before := fun t => t.latchEa (formedEa m s), addr := formedEa m s, data := some (storedRegister op s),
      after := fun _ t => complete t }

/-- The `j`-th cycle after the fetch of an instruction of kind M on memory (R161, R300): the read, the write of the
operand as it is, the write of the result with the flags; on WSYNC the first halts inside the
instruction and the second after it (R622; log 37). -/
def modifyTail (op : ModifyOp) (m : MemMode) (j : Nat) (s : State) : BusCycle :=
  let q := modifyFun op s.cpu.lat.operand s.cpu.p
  (addressCycle true m j s).getD
    (if j = addressCount m + 1 then
      { before := fun t => t.latchEa (formedEa m s), addr := formedEa m s, after := fun v t => t.latchOperand v }
    else if j = addressCount m + 2 then { addr := s.cpu.lat.ea, data := some s.cpu.lat.operand }
    else { addr := s.cpu.lat.ea, data := some q.1, after := fun _ t => complete (t.withP q.2) })

/-! ### Stack, branches, control -/

/-- The `j`-th cycle after the fetch of a stack instruction (R227 to R230). -/
def stackTail (op : StackOp) (j : Nat) (s : State) : BusCycle :=
  match op, j with
  | _, 1 => idleRead s.cpu.pc
  | .pha, _ => pushCycle s.cpu.a complete s
  | .php, _ => pushCycle (packP true s.cpu.p) complete s
  | .pla, 2 | .plp, 2 => idleRead (stackAddr s)
  | .pla, _ => pullCycle (fun v t => complete (performPla (v, t))) s
  | .plp, _ => pullCycle (fun v t => complete (performPlp (v, t))) s

/-- The `j`-th cycle after the fetch of a taken branch (R334). -/
def branchTail (off : Byte) (j : Nat) (s : State) : BusCycle :=
  let next := s.cpu.pc
  let target := next + sext off
  if j = 1 then
    { addr := next, after := fun _ t => if hiByte target = hiByte next then complete (t.withPc target) else t }
  else { addr := wordOf (loByte target) (hiByte next), after := fun _ t => complete (t.withPc target) }

/-- The `j`-th of the last five cycles of BRK (R378) and of an interrupt entry (R415). -/
def vectorTail (b : Bool) (vec : Addr) (nmi : Bool) (j : Nat) (s : State) : BusCycle :=
  match j with
  | 1 => pushCycle (hiByte s.cpu.pc) (fun t => t) s
  | 2 => pushCycle (loByte s.cpu.pc) (fun t => t) s
  | 3 => pushCycle (packP b s.cpu.p) (fun t => t) s
  | 4 =>
    { addr := vec,
      after := fun v t =>
        let t := (latchLow v t).withP { t.cpu.p with i := true }
        if nmi then t.withNmi false else t }
  | _ => { addr := vec + 1, after := fun v t => complete (t.withPc (latchedWord v t)) }

/-- The `j`-th cycle after the fetch of JMP indirect (R331). -/
def jumpTail (addr : Addr) (j : Nat) : BusCycle :=
  if j = 1 then { addr := addr, after := latchLow }
  else
    { addr := wordOf (loByte addr + 1) (hiByte addr), after := fun v t => complete (t.withPc (latchedWord v t)) }

/-- The `j`-th cycle after the fetch of JSR's opcode and low byte (R332). -/
def callTail (j : Nat) (s : State) : BusCycle :=
  match j with
  | 1 => idleRead (stackAddr s)
  | 2 => pushCycle (hiByte s.cpu.pc) (fun t => t) s
  | 3 => pushCycle (loByte s.cpu.pc) (fun t => t) s
  | _ => { addr := s.cpu.pc, after := fun v t => complete ((t.latchHi v).withPc (wordOf t.cpu.lat.lo v)) }

/-- The `j`-th cycle after the fetch of RTS (R333). -/
def subroutineTail (j : Nat) (s : State) : BusCycle :=
  match j with
  | 1 => idleRead s.cpu.pc
  | 2 => idleRead (stackAddr s)
  | 3 => pullCycle latchLow s
  | 4 => pullCycle (fun v t => t.withPc (latchedWord v t)) s
  | _ => { addr := s.cpu.pc, after := fun _ t => complete t.incPc }

/-- The `j`-th cycle after the fetch of RTI (R379). -/
def interruptTail (j : Nat) (s : State) : BusCycle :=
  match j with
  | 1 => idleRead s.cpu.pc
  | 2 => idleRead (stackAddr s)
  | 3 => pullCycle (fun v t => t.withP (unpackP v)) s
  | 4 => pullCycle latchLow s
  | _ => pullCycle (fun v t => complete (t.withPc (latchedWord v t))) s

/-- The `j`-th cycle after the fetch of BRK (R378). -/
def breakTail (j : Nat) (s : State) : BusCycle :=
  if j = 1 then { addr := s.cpu.pc, after := fun _ t => t.incPc } else vectorTail true vectorIrq false (j - 1) s

/-- The `j`-th cycle after the fetch of the instructions with sequences of their own. JMP absolute has none (R330). -/
def controlTail (i : Instr) (j : Nat) (s : State) : BusCycle :=
  match i with
  | .jmpInd addr => jumpTail addr j
  | .jsr _ => callTail j s
  | .rts => subroutineTail j s
  | .rti => interruptTail j s
  | .brk => breakTail j s
  | _ => idleRead s.cpu.pc

/-! ### Any cycle of an instruction -/

/-- The `j`-th cycle of an instruction after those that fetch its bytes. -/
def tailCycle (i : Instr) (j : Nat) (s : State) : BusCycle :=
  match i.kind with
  | .read op (.mem m) => readTail op m j s
  | .read _ (.imm _) => idleRead s.cpu.pc
  | .write op m => writeTail op m j s
  | .modify op m => modifyTail op m j s
  | .accumulator op =>
    { addr := s.cpu.pc,
      after := fun _ t =>
        let q := modifyFun op t.cpu.a t.cpu.p
        complete ((t.withA q.1).withP q.2) }
  | .implied op => { addr := s.cpu.pc, after := fun _ t => complete (impliedFun op t) }
  | .stack op => stackTail op j s
  | .branch _ off => branchTail off j s
  | .control => controlTail i j s

/-- What an instruction does with the last byte it fetches: the immediate forms, JMP absolute and a branch that is not
taken are complete there (R163, R330, R334). -/
def settle (i : Instr) (s : State) : State :=
  match i.kind with
  | .read op (.imm v) => complete (performRead op (v, s))
  | .branch op off =>
    let t := s.latchOffset off
    if branchTaken op t.cpu.p then t else complete t
  | .control =>
    match i with
    | .jmpAbs addr => complete (s.withPc addr)
    | _ => s
  | .read _ (.mem _) | .write _ _ | .modify _ _ | .accumulator _ | .implied _ | .stack _ => s

/-- What follows the fetch of the last operand byte, of an opcode and its two operand bytes. -/
def settleBytes (op lo hi : Byte) (s : State) : State :=
  match decode [op, lo, hi] with
  | some (i, _) => settle i s
  | none => s

/-- Cycle `k` (2 to 7) of an opcode, with the latches of the cycles before (R46, R50): an operand byte is fetched while
one is left (R160), then come the instruction's own cycles. -/
def opcodeCycle (op : Byte) (k : Nat) (s : State) : BusCycle :=
  match decode [op, s.cpu.lat.lo, s.cpu.lat.hi] with
  | none => idleRead s.cpu.pc
  | some (i, _) =>
    if k ≤ fetchedBytes i then
      if k = 2 then
        { addr := s.cpu.pc,
          after := fun v t =>
            let t := (t.latchLo v).incPc
            if fetchedBytes i = 2 then settleBytes op v t.cpu.lat.hi t else t }
      else
        { addr := s.cpu.pc, after := fun v t => settleBytes op t.cpu.lat.lo v (t.latchHi v).incPc }
    else tailCycle i (k - fetchedBytes i) s

/-- Cycle `k` (2 to 7) of an interrupt entry (R415). -/
def entryCycle (n : Interrupt) (k : Nat) (s : State) : BusCycle :=
  if k ≤ 2 then idleRead s.cpu.pc
  else
    match n with
    | .nmi => vectorTail false vectorNmi true (k - 2) s
    | .irq => vectorTail false vectorIrq false (k - 2) s

end Sys2Proof.Machine
end

