-- ==== Sys2Proof/Machine/Board.lean ====
section
/-! DEFINITION. One board step (R10, R420): from any state, inside an instruction or between two, one cycle slot of the
whole board. `step` makes as many of them as its instruction takes. -/

namespace Sys2Proof.Machine

/-- Is the CPU's next cycle a write? -/
def nextIsWrite (s : State) : Bool :=
  match s.cpu.tag with
  | .fetch => false
  | .mid op k => (opcodeCycle op k s).data.isSome
  | .entry n k => (entryCycle n k s).data.isSome

/-- Does a halt keep the CPU from its next cycle (R425)? Under `HALT_MODE = reads_only` a halted CPU still writes. -/
def heldByHalt (s : State) : Bool :=
  s.cpu.halted &&
    match s.cfg.haltMode with
    | .immediate => true
    | .readsOnly => !nextIsWrite s

/-- `cpu.cycle()` in its slot (R420): the next cycle of the instruction or interrupt entry in progress, or, at an
instruction boundary, the first cycle of an interrupt entry (R413) or an opcode fetch (R160). -/
def cpuCycle (s : State) : State :=
  match s.cpu.tag with
  | .fetch =>
    match pendingInterrupt s with
    | some n => (readHere s.cpu.pc (beginEntry n s)).2
    | none => (fetchOpcode s).2
  | .mid op k => (opcodeCycle op k s).run s
  | .entry n k => (entryCycle n k s).run s

/-- `board_step()` (R420): the agents before the CPU, the CPU's cycle unless a halt holds it, the agents after it, in
`CYCLE_ORDER`. A machine that has stopped or stops in it is a fault (R11, R400, R402). -/
def boardStep (s : State) : Out :=
  if s.traps.fatal then .fault (stopReason s)
  else
    let b := beginSlot s
    let t := if heldByHalt b then endSlot b else cpuCycle b
    if t.traps.fatal then .fault (stopReason t) else .next t

/-- `n` board steps. -/
def boardSteps : Nat → State → Out
  | 0, s => .next s
  | n + 1, s =>
    match boardStep s with
    | .next t => boardSteps n t
    | .fault f => .fault f
    | .refused r => .refused r

end Sys2Proof.Machine
end

