-- ==== Sys2Proof/Machine/Reset.lean ====
section
/-! DEFINITION. Machine reset (R600 to R603) over every parameter and every draw. -/

namespace Sys2Proof.Machine

/-- `RESET_DRAWS` (R7, R601, D6, D23, D40): the values the spec leaves open, taken once at reset. -/
structure Draws where
  a : Byte
  x : Byte
  y : Byte
  s : Byte
  n : Bool
  v : Bool
  d : Bool
  z : Bool
  c : Bool
  i : Bool
  pc : Addr
  lip : Addr
  lat : Latches
  bus : Bus
  piaRam : Memory
  divisor : Divisor
  countdown : Byte
  sub : Nat
  flag : Bool
  cartRam : Memory
  deriving DecidableEq, Repr

/-- The machine at the start of R600, after the device resets of R602. -/
def powerOn (p : Params) (d : Draws) : State :=
  { cfg := p
    clock := 0
    cpu :=
      { a := d.a, x := d.x, y := d.y, s := d.s, pc := d.pc,
        p := { n := d.n, v := d.v, d := d.d, i := d.i, z := d.z, c := d.c },
        lip := d.lip, nmiLatch := false, halted := false, tag := .fetch, lat := d.lat }
    bus := d.bus
    tia := { hclock := 0, line := 0, regs := [], hmoveExt := false, mactive := false, mclock := 0, ball := Ball.reset }
    collision := Collisions.none
    frame := Frame.reset
    pia :=
      { ram := d.piaRam, divisor := d.divisor, countdown := d.countdown, sub := d.sub, flag := d.flag,
        irqEnable := false, outA := 0, dirA := 0, outB := 0, dirB := 0 }
    cart := Cart.reset d.cartRam
    coproc := none
    traps := { log := [], fatal := false } }

/-- The five internal cycles of R600, which make no bus access; S is decremented by 3. -/
def resetInternal (s : State) : State :=
  let t := idleSlot (idleSlot (idleSlot (idleSlot (idleSlot s))))
  t.withS (t.cpu.s - 3)

/-- Cycles 6 and 7 of R600: the vector is read, I is set, PC is the vector's word. No instruction is in progress, so FE's
choice by LIP (R540) is made by the vector's own address, which leaves its reset bank mapped (R601, R603; log 36); LIP
itself stays a draw. -/
def resetVector (s : State) : State :=
  let l := readCycle vectorReset (s.withLip vectorReset)
  let h := readCycle (vectorReset + 1) (perform (fun s => s.withP { s.cpu.p with i := true }) l.2)
  (perform (fun s => s.withPc (wordOf l.1 h.1)) h.2).withLip s.cpu.lip

/-- Machine reset (R600). -/
def machineReset (p : Params) (d : Draws) : State :=
  (resetVector (resetInternal (powerOn p d))).withNmi false

/-- The draws `State.reset` takes: zero everywhere, with the divisor 1024, since 0 is no divisor (logs 3, 4, 5). -/
def Draws.zero : Draws :=
  { a := 0, x := 0, y := 0, s := 0, n := false, v := false, d := false, z := false, c := false, i := false, pc := 0,
    lip := 0, lat := Latches.reset, bus := { lastAddress := 0, lastData := 0, accessType := .cartridge },
    piaRam := [], divisor := .d1024, countdown := 0, sub := 0, flag := false, cartRam := [] }

end Sys2Proof.Machine
end

