-- ==== Sys2Proof/Safety.lean ====
section
/-! DEFINITION. The terms the statements use: a machine that runs, the invariant of every step, the end of a run. -/

namespace Sys2Proof.Machine

/-- The registers a program names (R31 to R34, R36) and LIP (R48): what the statements' register frames are about. -/
structure Regs where
  a : Byte
  x : Byte
  y : Byte
  s : Byte
  pc : Addr
  p : Flags
  lip : Addr
  deriving DecidableEq, Repr

/-- The registers of a state. -/
def State.regs (s : State) : Regs :=
  { a := s.cpu.a, x := s.cpu.x, y := s.cpu.y, s := s.cpu.s, pc := s.cpu.pc, p := s.cpu.p, lip := s.cpu.lip }

/-- What a tick and a read leave alone and only a write changes: the parameters (R30), the PIA's RAM, ports and stored
interrupt-enable bit (R491, R497, R498), the TIA's stored registers (R470), the ball fields that are registers (R483,
R484, R480), the FrameManager's two flags (R472, R463) and the co-processor (R58). -/
structure Stored where
  cfg : Params
  ram : Memory
  outA : Byte
  dirA : Byte
  outB : Byte
  dirB : Byte
  irqEnable : Bool
  tiaRegs : Memory
  width : BallWidth
  enaNew : Bool
  enaOld : Bool
  vdel : Bool
  hmm : Fin 16
  vsync : Bool
  vblank : Bool
  coproc : Option Bridge
  deriving DecidableEq, Repr

/-- What only a write changes, of a state. -/
def State.stored (s : State) : Stored :=
  { cfg := s.cfg, ram := s.pia.ram, outA := s.pia.outA, dirA := s.pia.dirA, outB := s.pia.outB, dirB := s.pia.dirB,
    irqEnable := s.pia.irqEnable, tiaRegs := s.tia.regs, width := s.tia.ball.width, enaNew := s.tia.ball.enaNew,
    enaOld := s.tia.ball.enaOld, vdel := s.tia.ball.vdel, hmm := s.tia.ball.hmm, vsync := s.frame.vsync,
    vblank := s.frame.vblank, coproc := s.coproc }

/-- One byte of a chip's byte store: a stored TIA register (R470), a byte of PIA RAM (R491) or of the cartridge's extra
RAM (R527). -/
def byteAt (c : Chip) (i : Nat) (s : State) : Byte :=
  match c with
  | .tia => tiaReg i s
  | .pia => s.pia.ram.read i
  | .cartridge => s.cart.ram.read i

/-- The bytes a write to an address stores to (R73, R74, R470, R532): none, one, or the four motion registers HMCLR
clears (R484). -/
def storeTargets (a : Addr) (s : State) : List (Chip × Nat) :=
  let m := maskAddr a
  match route m with
  | .tia =>
    if m.toNat % 64 = 0x2B then [(.tia, 0x20), (.tia, 0x21), (.tia, 0x22), (.tia, 0x23)]
    else if tiaStores (m.toNat % 64) then [(.tia, m.toNat % 64)] else []
  | .pia => if m.getLsbD 9 then [] else [(.pia, piaRamIndex m)]
  | .cartridge =>
    match (s.cart.directSwitch s.cfg s.cpu.lip (cartOffset m)).port s.cfg (cartOffset m) with
    | .ramWrite i => [(.cartridge, i)]
    | .rom _ | .ramRead _ => []

/-- The stored registers a write to the address cannot reach, the others put to a fixed value: a TIA write reaches the
TIA's and the FrameManager's, a PIA write the RAM or, with bit 9, the ports and the interrupt-enable bit, a cartridge
write none of them (R73, R74). -/
def Stored.elsewhere (a : Addr) (x : Stored) : Stored :=
  match route (maskAddr a) with
  | .tia =>
    { x with
      tiaRegs := [], width := .w1, enaNew := false, enaOld := false, vdel := false, hmm := 0, vsync := false,
      vblank := false }
  | .pia =>
    if (maskAddr a).getLsbD 9 then { x with outA := 0, dirA := 0, outB := 0, dirB := 0, irqEnable := false }
    else { x with ram := [] }
  | .cartridge => x

/-- Does the address select TIA write register `r`, under any mirror (R73, R470)? -/
def selectsTia (a : Addr) (r : Nat) : Bool := !a.getLsbD 12 && !a.getLsbD 7 && decide (a.toNat % 64 = r)

/-- Does the address select PIA port register `k`: SWCHA, SWACNT, SWCHB, SWBCNT for 0 to 3 (R73, R490)? -/
def selectsPort (a : Addr) (k : Nat) : Bool :=
  !a.getLsbD 12 && a.getLsbD 7 && a.getLsbD 9 && !a.getLsbD 2 && decide (a.toNat % 4 = k)

/-- Does a write to the address set the PIA timer (R490, R494)? -/
def selectsTimer (a : Addr) : Bool := !a.getLsbD 12 && a.getLsbD 7 && a.getLsbD 9 && a.getLsbD 2 && a.getLsbD 4

/-- The stored registers that are no bytes of a byte store, after a write of `v` (R472, R483, R484, R490, R494, R497);
the byte stores are as given. -/
def Stored.written (a : Addr) (v : Byte) (ram tiaRegs : Memory) (x : Stored) : Stored :=
  { cfg := x.cfg
    coproc := x.coproc
    ram := ram
    tiaRegs := tiaRegs
    vsync := if selectsTia a 0x00 then v.getLsbD 1 else x.vsync
    vblank := if selectsTia a 0x01 then v.getLsbD 1 else x.vblank
    width := if selectsTia a 0x0A then [.w1, .w2, .w4, .w8].getD (v.toNat / 16 % 4) .w1 else x.width
    enaOld := if selectsTia a 0x1C then x.enaNew else x.enaOld
    enaNew := if selectsTia a 0x1F then v.getLsbD 1 else x.enaNew
    hmm := if selectsTia a 0x24 then Fin.ofNat 16 ((v.toNat / 16) ^^^ 8) else if selectsTia a 0x2B then 8 else x.hmm
    vdel := if selectsTia a 0x27 then v.getLsbD 0 else x.vdel
    outA := if selectsPort a 0 then v else x.outA
    dirA := if selectsPort a 1 then v else x.dirA
    outB := if selectsPort a 2 then v else x.outB
    dirB := if selectsPort a 3 then v else x.dirB
    irqEnable := if selectsTimer a then a.getLsbD 3 else x.irqEnable }

/-- A write to WSYNC: TIA register 2 (R471). -/
def hitsWsync (a : Addr) : Bool := route (maskAddr a) == .tia && (maskAddr a).toNat % 64 == 2

/-- Could a read of this address store to the cartridge's extra RAM (R532)? The windows in which a scheme maps a RAM
write port under some bank selection (R532, R536, R541, R542). -/
def inWritePort (p : Params) (a : Addr) : Bool :=
  let o := cartOffset (maskAddr a)
  (maskAddr a).getLsbD 12 &&
    match p.scheme with
    | .f8 | .f6 | .f4 => p.superChip && decide (o < 128)
    | .fa => decide (o < 256)
    | .e7 => decide (o < 1024) || (decide (0x800 ≤ o) && decide (o < 0x900))
    | .cv | .scheme3E => decide (1024 ≤ o) && decide (o < 2048)
    | .vanilla2k | .vanilla4k | .f0 | .e0 | .tigervision | .ua | .fe | .ef => false

/-- No read of these addresses can store to the cartridge's extra RAM. -/
abbrev Quiet (s : State) (reads : List Addr) : Prop := ∀ a ∈ reads, inWritePort s.cfg a = false

/-- The read of an indexed mode at the uncorrected address (R167, R169). -/
def indexedReads (always : Bool) (base : Addr) (i : Byte) : List Addr :=
  if always || crossed base i then [partialAddr base i] else []

/-- The addresses read while a memory operand's effective address is formed (R164 to R169). -/
def resolveReads (always : Bool) (m : MemMode) (s : State) : List Addr :=
  match m with
  | .zp _ | .abs _ => []
  | .zpX zp | .zpY zp => [zext zp]
  | .absX addr => indexedReads always addr s.cpu.x
  | .absY addr => indexedReads always addr s.cpu.y
  | .indX zp => [zext zp, zpIndexed zp s.cpu.x, zext (zp + s.cpu.x + 1)]
  | .indY zp =>
    let l := readLow (zext zp) s
    let h := readCycle (zext (zp + 1)) l.2
    [zext zp, zext (zp + 1)] ++ indexedReads always (wordOf l.1 h.1) s.cpu.y

/-- The addresses an operand of kind R reads (R161, R163). -/
def operandReads (o : Operand) (s : State) : List Addr :=
  match o with
  | .imm _ => []
  | .mem m => resolveReads false m s ++ [readEa m s]

/-- The P byte as a push writes it, bit by bit (R36, R39, R40): N, V, 1, B, D, I, Z, C. -/
def pushedP (b : Bool) (p : Flags) : Byte :=
  BitVec.ofBool p.n ++ BitVec.ofBool p.v ++ 1#1 ++ BitVec.ofBool b ++ BitVec.ofBool p.d ++ BitVec.ofBool p.i ++
    BitVec.ofBool p.z ++ BitVec.ofBool p.c

/-- `dec(b)` (R250): the number a byte's two decimal digits write. -/
def decOf (b : Byte) : Nat := 10 * (b.toNat / 16) + b.toNat % 16

/-- The byte that writes a number below 100 in two decimal digits (R250). -/
def bcdByte (n : Nat) : Byte := BitVec.ofNat 8 (16 * (n / 10) + n % 10)

/-- Both inputs of a decimal operation are BCD: no nibble above 9 (R250). -/
abbrev bothBcd (a v : Byte) : Prop := a.toNat / 16 ≤ 9 ∧ a.toNat % 16 ≤ 9 ∧ v.toNat / 16 ≤ 9 ∧ v.toNat % 16 ≤ 9

/-- The stack lies in PIA RAM for this many pushes (R86). -/
abbrev stackInRam (n : Nat) (s : State) : Prop := 0x7F + n ≤ s.cpu.s.toNat

/-- The cycles of an operand of kind R without its penalty (R163 to R169). -/
def operandCycles (o : Operand) : Nat :=
  match o with
  | .imm _ => 2
  | .mem (.zp _) => 3
  | .mem (.zpX _) | .mem (.zpY _) | .mem (.abs _) | .mem (.absX _) | .mem (.absY _) => 4
  | .mem (.indX _) => 6
  | .mem (.indY _) => 5

/-- The cycles of a store (R164 to R169). -/
def storeCycles (m : MemMode) : Nat :=
  match m with
  | .zp _ => 3
  | .zpX _ | .zpY _ | .abs _ => 4
  | .absX _ | .absY _ => 5
  | .indX _ | .indY _ => 6

/-- The cycles of a read-modify-write instruction on memory: those of a store and two more (R300). -/
def modifyCycles (m : MemMode) : Nat := storeCycles m + 2

/-- The cycles of JMP, JSR, RTS, BRK and RTI (R330 to R333, R378, R379). -/
def controlCycles (i : Instr) : Nat :=
  match i with
  | .jmpAbs _ => 3
  | .jmpInd _ => 5
  | .brk => 7
  | _ => 6

/-- The cycle count of an instruction without penalties (R172, R630). -/
def baseCycles (i : Instr) : Nat :=
  match i.kind with
  | .read _ o => operandCycles o
  | .write _ m => storeCycles m
  | .modify _ m => modifyCycles m
  | .accumulator _ | .implied _ | .branch _ _ => 2
  | .stack .pha | .stack .php => 3
  | .stack .pla | .stack .plp => 4
  | .control => controlCycles i

/-- The page-crossing penalty of an operand of kind R (R167, R169): is the base address plus the index in another page? -/
def crossing (m : MemMode) (s : State) : Nat :=
  match m with
  | .absX addr => if 256 ≤ addr.toNat % 256 + s.cpu.x.toNat then 1 else 0
  | .absY addr => if 256 ≤ addr.toNat % 256 + s.cpu.y.toNat then 1 else 0
  | .indY zp => if 256 ≤ (readCycle (zext zp) s).1.toNat + s.cpu.y.toNat then 1 else 0
  | .zp _ | .zpX _ | .zpY _ | .abs _ | .indX _ => 0

/-- `(PC + sext_8(off)) mod 65536`, PC being the next instruction's address (R334). -/
def branchTarget (off : Byte) (s : State) : Addr := BitVec.ofInt 16 (s.cpu.pc.toNat + off.toInt)

/-- The cycles beyond `baseCycles` that the state decides (R172, R334, R630). -/
def penalty (i : Instr) (s : State) : Nat :=
  match i.kind with
  | .read _ (.mem m) => crossing m s
  | .branch op off =>
    if branchTaken op s.cpu.p then
      (if (branchTarget off s).toNat / 256 = s.cpu.pc.toNat / 256 then 1 else 2)
    else 0
  | .read _ (.imm _) | .write _ _ | .modify _ _ | .accumulator _ | .implied _ | .stack _ | .control => 0

/-- The byte a target holds after a write of `v` (R470, R484): `v`, but 0 where the write is HMCLR. -/
def storedByte (a : Addr) (v : Byte) : Byte :=
  if route (maskAddr a) = .tia ∧ (maskAddr a).toNat % 64 = 0x2B then 0 else v

/-- The result of a read-modify-write function on a byte and the carry before it (R301 to R306). -/
def modifiedByte (op : ModifyOp) (v : Byte) (c : Bool) : Byte :=
  match op with
  | .asl => BitVec.ofNat 8 (2 * v.toNat)
  | .lsr => BitVec.ofNat 8 (v.toNat / 2)
  | .rol => BitVec.ofNat 8 (2 * v.toNat + c.toNat)
  | .ror => BitVec.ofNat 8 (128 * c.toNat + v.toNat / 2)
  | .inc => BitVec.ofNat 8 (v.toNat + 1)
  | .dec => BitVec.ofNat 8 (v.toNat + 255)

/-- The flags after a read-modify-write function (R301 to R306): N and Z of the result, C the bit shifted out. -/
def modifiedFlags (op : ModifyOp) (v : Byte) (p : Flags) : Flags :=
  let r := modifiedByte op v p.c
  let c :=
    match op with
    | .asl | .rol => v.getLsbD 7
    | .lsr | .ror => v.getLsbD 0
    | .inc | .dec => p.c
  { p with n := r.getLsbD 7, z := r == 0#8, c := c }

/-- The stack address of the `k`-th push from here (R220): `0x0100 | ((S - k) mod 256)`. -/
def pushAddr (s : State) (k : Nat) : Addr := BitVec.ofNat 16 (0x0100 + (s.cpu.s.toNat + 256 - k) % 256)

/-- `t` holds what pushes of these bytes from `s` on leave (R220), the first at S, wherever the stack's addresses lead
(R73, R86): each target byte holds its byte, and the stored registers that are no bytes follow the writes in turn. -/
structure Pushed (vs : List Byte) (s t : State) : Prop where
  bytes : ∀ k v, vs[k]? = some v → ∀ c n, (c, n) ∈ storeTargets (pushAddr s k) s →
    byteAt c n t = storedByte (pushAddr s k) v
  registers : t.stored =
    vs.zipIdx.foldl (fun x v => x.written (pushAddr s v.2) v.1 t.pia.ram t.tia.regs) s.stored

/-- The index in PIA RAM of the `k`-th pulled byte from here, for a stack in RAM (R86, R220). -/
def pullIndex (s : State) (k : Nat) : Nat := (s.cpu.s.toNat + k) % 256 - 0x80

/-- The `k` bytes pulled next lie in PIA RAM (R86). -/
abbrev pullsInRam (s : State) (k : Nat) : Prop := ∀ j < k, 0x80 ≤ (s.cpu.s.toNat + (j + 1)) % 256

/-- The address selects a byte of PIA RAM (R74). -/
def isRam (a : Addr) : Bool := !a.getLsbD 12 && a.getLsbD 7 && !a.getLsbD 9

/-- With its fetch, which has been made at `s`, the instruction takes `k` board steps up to `t`, where the CPU is not
halted (R72, R630). -/
abbrev inCycles (i : Instr) (k : Nat) (s t : State) : Prop :=
  s.cpu.halted = false → t.clock + fetchedBytes i = s.clock + k

/-- The addresses JSR and BRK push to (R332, R378); the other control instructions push nothing. -/
def controlWrites (i : Instr) (s : State) : List Addr :=
  match i with
  | .jsr _ => [pushAddr s 0, pushAddr s 1]
  | .brk => [pushAddr s 0, pushAddr s 1, pushAddr s 2]
  | _ => []

/-- The addresses an instruction writes before its last cycle (R300, R332, R378): a write to WSYNC there halts the CPU
inside the instruction (R622, R624). -/
def innerWrites (i : Instr) (s : State) : List Addr :=
  match i.kind with
  | .modify _ m => [writeEa m s]
  | .control => controlWrites i s
  | .read _ _ | .write _ _ | .accumulator _ | .implied _ | .stack _ | .branch _ _ => []

/-- No trap can stop the machine (R400, R403): it has not stopped, and a handler is registered or no access traps. -/
abbrev Live (s : State) : Prop := s.traps.fatal = false ∧ (s.cfg.trapHandler = true ∨ s.cfg.chipTrap = [])

/-- The PIA's invariant (R492): the sub-counter is below the divisor, and the RAM is a byte store of 128 bytes. -/
def Pia.Inv (p : Pia) : Prop := p.sub < p.divisor.count ∧ p.ram.wf = true ∧ p.ram.below 128 = true

/-- The TIA's invariant (R470, R484): the stored registers are a byte store of 64 bytes, the motion clock runs to 16
and stops there. -/
def Tia.Inv (t : Tia) : Prop :=
  t.regs.wf = true ∧ t.regs.below 64 = true ∧ t.mclock ≤ 16 ∧ (t.mactive = true → t.mclock < 16)

/-- The FrameManager's invariant (R464): a buffer is held exactly in the frame state, every token handed out or held is
one the factory gave, and none is handed out twice (their list is strictly rising). -/
def Frame.Inv (f : Frame) : Prop :=
  (f.buffer.isSome = true ↔ f.state = .frame) ∧ (f.emitted ++ f.buffer.toList).Pairwise (· < ·) ∧
    ∀ b ∈ f.emitted ++ f.buffer.toList, b < f.nextBuffer

/-- The 15 latches of the collision detector, one by one (R474, R485). -/
def collisionLatches : List (Collisions → Bool) :=
  [(·.m0p1), (·.m0p0), (·.m1p0), (·.m1p1), (·.p0pf), (·.p0bl), (·.p1pf), (·.p1bl)] ++
    [(·.m0pf), (·.m0bl), (·.m1pf), (·.m1bl), (·.blpf), (·.p0p1), (·.m0m1)]

/-- The cartridge's invariant (R520): the bank register names a bank of the scheme, and the extra RAM is a byte store of
the scheme's size (R544). -/
def Cart.Inv (p : Params) (c : Cart) : Prop :=
  c.bank < bankCount p ∧ c.ram.wf = true ∧ c.ram.below (extraRamSize p) = true

/-- The invariant every step keeps. The VSYNC flag is bit 1 of the stored VSYNC register (R54, R472). -/
structure State.Inv (s : State) : Prop where
  cfg : s.cfg.wf = true
  pia : s.pia.Inv
  tia : s.tia.Inv
  frame : s.frame.Inv
  cart : s.cart.Inv s.cfg
  vsync : s.frame.vsync = (tiaReg 0x00 s).getLsbD 1
  vblank : s.frame.vblank = (tiaReg 0x01 s).getLsbD 1
  tag : s.cpu.tag = .fetch

/-- The run of a test program has ended (D42): the CPU is at an instruction boundary with PC = `END_ADDR`. -/
def AtEnd (s : State) : Prop := s.cpu.tag = .fetch ∧ s.cfg.endAddr = some s.cpu.pc

end Sys2Proof.Machine
end

