-- ==== Sys2Proof/Certificates/Slice0/Obligations.lean ====
section
/-! DEFINITION. The statements for the provers. `exec i s` is the instruction from the end of its fetch cycles (log 1);
`Live s` says that no trap can stop the machine (R400, R403). Register frames are whole: the conclusion gives every
register of `Regs`, so a register not named in it is unchanged. -/

open Sys2Proof Sys2Proof.Machine

/-! ### Encoding -/

/-- Decoding the bytes of an instruction gives it back, whatever follows them (R120 to R122, R124). -/
def Obligations.DecodeOfEncode : Prop :=
  ∀ (i : Instr) (rest : List Byte), decode (encode i ++ rest) = some (i, rest)

/-- The decoder accepts the encoder's bytes only: what it reads is what it leaves out of the list (R120 to R124). -/
def Obligations.EncodeOfDecode : Prop :=
  ∀ (bs : List Byte) (i : Instr) (rest : List Byte), decode bs = some (i, rest) → bs = encode i ++ rest

/-- One word of each family, bit by bit from R121, R122 and R124. -/
def Obligations.SpecWordsDecode : Prop :=
  decode [0b10101001, 0x80] = some (.ldaImm 0x80, []) ∧
  decode [0b10011101, 0x34, 0x12] = some (.staAbsX 0x1234, []) ∧
  decode [0b10101010] = some (.tax, []) ∧
  decode [0b01001000] = some (.pha, []) ∧
  decode [0b01110001, 0xC0] = some (.adcIndY 0xC0, []) ∧
  decode [0b00100100, 0x02] = some (.bitZp 0x02, []) ∧
  decode [0b01001010] = some (.lsrAcc, []) ∧
  decode [0b11001110, 0x01, 0x02] = some (.decAbs 0x0201, []) ∧
  decode [0b01101100, 0xFF, 0x10] = some (.jmpInd 0x10FF, []) ∧
  decode [0b00100000, 0x00, 0xF1] = some (.jsr 0xF100, []) ∧
  decode [0b11010000, 0xFC] = some (.bne 0xFC, []) ∧
  decode [0b01000000] = some (.rti, []) ∧
  decode [0b10001001, 0x00] = none

/-- The 105 invalid opcodes of R126 are refused, and no others. -/
def Obligations.InvalidOpcodesRefused : Prop :=
  ∀ (op : Byte) (lo hi : Byte), decode [op, lo, hi] = none ↔
    op.toNat ∈
      [0x02, 0x03, 0x04, 0x07, 0x0B, 0x0C, 0x0F, 0x12, 0x13, 0x14, 0x17, 0x1A, 0x1B, 0x1C, 0x1F, 0x22, 0x23, 0x27,
       0x2B, 0x2F, 0x32, 0x33, 0x34, 0x37, 0x3A, 0x3B, 0x3C, 0x3F, 0x42, 0x43, 0x44, 0x47, 0x4B, 0x4F, 0x52] ++
      [0x53, 0x54, 0x57, 0x5A, 0x5B, 0x5C, 0x5F, 0x62, 0x63, 0x64, 0x67, 0x6B, 0x6F, 0x72, 0x73, 0x74, 0x77, 0x7A,
       0x7B, 0x7C, 0x7F, 0x80, 0x82, 0x83, 0x87, 0x89, 0x8B, 0x8F, 0x92, 0x93, 0x97, 0x9B, 0x9C, 0x9E, 0x9F] ++
      [0xA3, 0xA7, 0xAB, 0xAF, 0xB2, 0xB3, 0xB7, 0xBB, 0xBF, 0xC2, 0xC3, 0xC7, 0xCB, 0xCF, 0xD2, 0xD3, 0xD4, 0xD7,
       0xDA, 0xDB, 0xDC, 0xDF, 0xE2, 0xE3, 0xE7, 0xEB, 0xEF, 0xF2, 0xF3, 0xF4, 0xF7, 0xFA, 0xFB, 0xFC, 0xFF]

/-! ### The step -/

/-- A step runs the instruction decoded from the bytes fetched at PC: step is exec of it at the state the fetch cycles
leave, in which PC has passed the fetched bytes, LIP is the opcode's address and nothing is stored (R160, log 1), and
which keeps the invariant of Safety.lean but for the tag, so that the statements about exec apply to it; where the CPU is
not halted each of those cycles has taken one board step (R72). -/
def Obligations.StepRunsDecoded : Prop :=
  ∀ (s : State) (i : Instr) (rest : List Byte), Live s → pendingInterrupt (openRead s) = none →
    decode (fetchInstr (openRead s)).1 = some (i, rest) →
    ∃ t, step s = exec i t ∧ t = (fetchInstr (openRead s)).2 ∧ Live t ∧ t.stored = s.stored ∧
      ((s.withTag .fetch).Inv → (t.withTag .fetch).Inv) ∧
      (s.cpu.halted = false → t.clock = s.clock + fetchedBytes i ∧ t.cpu.halted = false) ∧
      t.regs = { s.regs with pc := s.cpu.pc + BitVec.ofNat 16 (fetchedBytes i), lip := s.cpu.pc }

/-- With a `vanilla_4k` image whose bytes at PC encode an instruction, and no interrupt, a step is exec of that
instruction, with PC past the fetched bytes and LIP at the opcode (R160, R530, R85), and the invariant of Safety.lean kept
but for the tag. -/
def Obligations.StepRunsImageInstruction : Prop :=
  ∀ (s : State) (i : Instr), Live s → s.cfg.scheme = .vanilla4k → s.cpu.nmiLatch = false → s.cfg.inputs = [] →
    s.cpu.pc.getLsbD 12 = true → s.cpu.pc.toNat % 4096 + i.mode.length ≤ 4096 →
    (∀ k (h : k < (encode i).length), s.cfg.image.read (s.cpu.pc.toNat % 4096 + k) = (encode i)[k]) →
    ∃ t, step s = exec i t ∧ Live t ∧ t.stored = s.stored ∧ t.cart = s.cart ∧
      ((s.withTag .fetch).Inv → (t.withTag .fetch).Inv) ∧
      t.regs = { s.regs with pc := s.cpu.pc + BitVec.ofNat 16 (fetchedBytes i), lip := s.cpu.pc }

/-- Fetching an invalid opcode stops the machine with its record, PC past the opcode and LIP at it, no other register
changed (R402). -/
def Obligations.InvalidOpcodeStops : Prop :=
  ∀ (s : State), Live s → pendingInterrupt (openRead s) = none →
    opcodeLength (busRead s.cpu.pc (openRead s)).1 = none →
    ∃ u, step s = .fault (.invalidOpcode (busRead s.cpu.pc (openRead s)).1 s.cpu.pc u) ∧ u.traps.fatal = true ∧
      u.traps.log.getLast? = some (.invalidOpcode (busRead s.cpu.pc (openRead s)).1 s.cpu.pc) ∧
      u.regs = { s.regs with pc := s.cpu.pc + 1, lip := s.cpu.pc } ∧ u.stored = s.stored

/-- No step is refused, of any state; the only stop of a machine whose traps are handled or absent is an invalid opcode
at PC (R11, R402), and what `Live` says is kept by every step (R7, R400). -/
def Obligations.LiveStopsOnlyOnInvalidOpcode : Prop :=
  (∀ (s : State) (r : Refusal), step s ≠ .refused r) ∧
  (∀ (s : State) (f : Fault), Live s → step s = .fault f →
    ∃ op u, f = .invalidOpcode op s.cpu.pc u ∧ opcodeLength op = none) ∧
  (∀ (s t : State), Live s → step s = .next t → Live t)

/-! ### Board steps -/

/-- A step is a run of board steps, one CPU cycle each (R10, R160, R420; that `step` is the instruction-sized unit is
the model's choice, log 1): from an instruction boundary of a machine that has not stopped, `w` board steps in which a
halt holds the CPU (R425), the one in which the instruction or interrupt entry begins, and those of its other cycles,
each from a state inside it (R46); together they answer what the step answers, a stop too. -/
def Obligations.StepIsBoardSteps : Prop :=
  ∀ (s : State), s.cpu.tag = .fetch → s.traps.fatal = false →
    ∃ w n, w < n ∧ boardSteps n s = step s ∧
      (∀ m ≤ w, boardSteps m s = .next (idleSlot^[m] s)) ∧
      (∀ m < w, (beginSlot (idleSlot^[m] s)).cpu.halted = true) ∧
      (beginSlot (idleSlot^[w] s)).cpu.halted = false ∧
      ∀ m, w < m → m < n → ∃ u, boardSteps m s = .next u ∧ u.cpu.tag ≠ .fetch

/-- One board step from any state, inside an instruction too (R10, R46, R420, R425). It begins with the NMI edge: the
latch is set where the line is asserted and was not in the board step before, or there was none (R49, R411; where in the
step is the model's choice, log 13). In the order of `CYCLE_ORDER` the PIA makes one tick (R493), the TIA one or three
(R451), and the CPU, unless a halt holds it, one cycle with exactly one access (R72); that under the other orders the halt
is tested at the CPU's turn, after the agents before it, is deduced (log 29).
A held step changes no register, latch, tag or stored byte and makes no access, and the PIA ticks all the same (R425).
A step that runs the CPU leaves exactly this: at an instruction boundary a set NMI latch or else an IRQ that I does not
mask begins its entry with a discarded read at PC (R412, R413, R415), and else the opcode is read at PC, PC advances and
LIP takes the opcode's address after the read (R160; log 14); inside an instruction or an entry it makes the access of its
cycle, a write where the cycle gives data and a read where it does not, with what the cycle does to the CPU before and
after it (`opcodeCycle`, `entryCycle`; which cycle fills a latch of R50 is the model's choice, log 34). That these cycles
together are the instruction is `StepIsBoardSteps`.
An NMI entry clears the latch as it begins (R411) and again in its cycle 6 (R415; that it does both is deduced, log 12);
in every other step the latch stays. Every step is counted, keeps the invariant of Safety.lean but for the tag, and
leaves the parameters; inside an instruction of a machine that no trap can stop it always answers a next state. -/
def Obligations.BoardStepEffect : Prop :=
  (∀ (s t : State), boardStep s = .next t →
    let line (k : Nat) : Bool := (linesAt s.cfg.inputs k).nmi
    let latch : Bool := s.cpu.nmiLatch || (line s.clock && !(decide (0 < s.clock) && line (s.clock - 1)))
    let pia (u : State) : State := { u with pia := u.pia.tick }
    let tia (u : State) : State :=
      match s.cfg.tiaClk with
      | .one => tiaTick u
      | .three => tiaTick (tiaTick (tiaTick u))
    let before (u : State) : State :=
      match s.cfg.order with
      | .cpuPiaTia | .cpuTiaPia => u
      | .piaCpuTia => pia u
      | .tiaCpuPia => tia u
      | .piaTiaCpu => tia (pia u)
      | .tiaPiaCpu => pia (tia u)
    let after (u : State) : State :=
      match s.cfg.order with
      | .cpuPiaTia => tia (pia u)
      | .cpuTiaPia => pia (tia u)
      | .piaCpuTia => tia u
      | .tiaCpuPia => pia u
      | .piaTiaCpu | .tiaPiaCpu => u
    let b := before { s with cpu := { s.cpu with nmiLatch := latch } }
    let entering := s.cpu.tag = .fetch ∧ latch = true
    let irq : Bool := (linesAt s.cfg.inputs s.clock).irq && !s.cpu.p.i
    let ended (u : State) (g : ExecTag) : State :=
      { after { u with cpu := { u.cpu with tag := g } } with clock := s.clock + 1 }
    let fetch : State :=
      let r := busRead s.cpu.pc b
      let lat := { r.2.cpu.lat with opcode := r.1 }
      ended { r.2 with cpu := { r.2.cpu with pc := s.cpu.pc + 1, lip := s.cpu.pc, lat := lat } } (.mid r.1 2)
    let enter (n : Interrupt) : State :=
      ended (busRead s.cpu.pc { b with cpu := { b.cpu with tag := .entry n 1, nmiLatch := false } }).2 (.entry n 2)
    let cycle (c : BusCycle) (g : ExecTag) : State :=
      match c.data with
      | none => c.after (busRead c.addr (c.before b)).1 (ended (busRead c.addr (c.before b)).2 g)
      | some v => c.after v (ended (busWrite c.addr v (c.before b)) g)
    t.clock = s.clock + 1 ∧ t.cfg = s.cfg ∧
    t.tia.hclock.val = (s.tia.hclock.val + (match s.cfg.tiaClk with | .one => 1 | .three => 3)) % 228 ∧
    ((s.withTag .fetch).Inv → (t.withTag .fetch).Inv) ∧
    (heldByHalt b = true →
      t = { after b with clock := s.clock + 1 } ∧ t.pia = s.pia.tick ∧ t.regs = s.regs ∧ t.cpu.lat = s.cpu.lat ∧
      t.cpu.tag = s.cpu.tag ∧ t.bus = s.bus ∧ t.stored = s.stored ∧ t.cart = s.cart ∧ t.cpu.nmiLatch = latch) ∧
    (heldByHalt b = false →
      (entering → t = enter .nmi) ∧
      (s.cpu.tag = .fetch → latch = false → irq = true → t = enter .irq) ∧
      (s.cpu.tag = .fetch → latch = false → irq = false → t = fetch) ∧
      (∀ op k, s.cpu.tag = .mid op k → t = cycle (opcodeCycle op k b) (.mid op (k + 1))) ∧
      (∀ n k, s.cpu.tag = .entry n k → t = cycle (entryCycle n k b) (.entry n (k + 1))) ∧
      t.cpu.tag ≠ s.cpu.tag ∧
      (entering → t.cpu.nmiLatch = false ∧ t.cpu.tag = .entry .nmi 2) ∧
      (s.cpu.tag = .entry .nmi 6 → t.cpu.nmiLatch = false) ∧
      (¬ entering → s.cpu.tag ≠ .entry .nmi 6 → t.cpu.nmiLatch = latch))) ∧
  (∀ (s : State), Live s → s.cpu.tag ≠ .fetch → ∃ t, boardStep s = .next t)

/-! ### Interrupts -/

/-- An interrupt taken at a boundary: NMI if its latch is set, else IRQ if its line is asserted and I is 0 (R411, R412,
R414). -/
def Obligations.InterruptPriority : Prop :=
  ∀ (s : State),
    (s.cpu.nmiLatch = true → pendingInterrupt s = some .nmi) ∧
    (s.cpu.nmiLatch = false → (linesAt s.cfg.inputs s.clock).irq = true → s.cpu.p.i = false →
      pendingInterrupt s = some .irq) ∧
    (s.cpu.nmiLatch = false → s.cpu.p.i = true → pendingInterrupt s = none) ∧
    (s.cpu.nmiLatch = false → (linesAt s.cfg.inputs s.clock).irq = false → pendingInterrupt s = none)

/-- Interrupt entry completes and changes only PC, S and I (R415, R416): S drops by 3, I is set, LIP stays; the three
bytes are PC high, PC low and P with B = 0 and E = 1, stored wherever the stack's addresses lead (R73; what a TIA register
keeps where R470 leaves it open is log 16) and, with the stack in PIA RAM, in three bytes of it; no other byte changes,
where the discarded reads at PC cannot reach a cartridge RAM write port; with a `vanilla_4k` image PC is the word at the
vector, 0xFFFA for NMI and 0xFFFE for IRQ (R404). -/
def Obligations.InterruptEntry : Prop :=
  ∀ (s : State) (k : Interrupt), Live s → s.Inv → pendingInterrupt (openRead s) = some k →
    ∃ t, step s = .next t ∧
      t.regs = { s.regs with s := s.cpu.s - 3, pc := t.cpu.pc, p := { s.cpu.p with i := true } } ∧
      (stackInRam 3 s → { t.stored with ram := s.pia.ram } = s.stored) ∧
      (stackInRam 3 s →
        byteAt .pia (s.cpu.s.toNat - 0x80) t = hiByte s.cpu.pc ∧
        byteAt .pia (s.cpu.s.toNat - 0x81) t = loByte s.cpu.pc ∧
        byteAt .pia (s.cpu.s.toNat - 0x82) t = pushedP false s.cpu.p) ∧
      Pushed [hiByte s.cpu.pc, loByte s.cpu.pc, pushedP false s.cpu.p] s t ∧
      (Quiet s [s.cpu.pc] → ∀ c n, (c, n) ∉ storeTargets (pushAddr s 0) s → (c, n) ∉ storeTargets (pushAddr s 1) s →
        (c, n) ∉ storeTargets (pushAddr s 2) s → byteAt c n t = byteAt c n s) ∧
      (s.cfg.scheme = .vanilla4k →
        t.cpu.pc.toNat =
          (s.cfg.image.read (match k with | .nmi => 0xFFA | .irq => 0xFFE)).toNat +
          256 * (s.cfg.image.read (match k with | .nmi => 0xFFB | .irq => 0xFFF)).toNat) ∧
      (s.cfg.inputs = [] → t.cpu.nmiLatch = false)

/-! ### Operands -/

/-- The effective addresses of the modes with no pointer, as numbers (R164 to R167): the zero-page add wraps modulo 256,
the absolute add modulo 65536; kinds R, W and M agree. -/
def Obligations.EffectiveAddresses : Prop :=
  ∀ (s : State) (zp : Byte) (addr : Addr) (always : Bool),
    (resolve always (.zp zp) s).1.toNat = zp.toNat ∧
    (resolve always (.zpX zp) s).1.toNat = (zp.toNat + s.cpu.x.toNat) % 256 ∧
    (resolve always (.zpY zp) s).1.toNat = (zp.toNat + s.cpu.y.toNat) % 256 ∧
    (resolve always (.abs addr) s).1 = addr ∧
    (resolve always (.absX addr) s).1.toNat = (addr.toNat + s.cpu.x.toNat) % 65536 ∧
    (resolve always (.absY addr) s).1.toNat = (addr.toNat + s.cpu.y.toNat) % 65536

/-- The effective addresses of the modes with a pointer (R168, R169): little-endian, the pointer's own address modulo 256
and its high byte at the next zero-page address modulo 256, whatever lies there. With both bytes in PIA RAM they are
the RAM's; with the low byte at 0xFF the high byte is a read of address 0, which a machine with no collision answers
with the low six bits of the byte before (R475, R487). -/
def Obligations.PointerAddresses : Prop :=
  ∀ (s : State) (zp : Byte) (always : Bool), Live s →
    let x := (zp.toNat + s.cpu.x.toNat) % 256
    let top := byteAt .pia 0x7F s
    (let l := readLow (BitVec.ofNat 16 x) (dummyRead (zext zp) s)
     let h := readCycle (BitVec.ofNat 16 ((x + 1) % 256)) l.2
     (resolve always (.indX zp) s).1.toNat = l.1.toNat + 256 * h.1.toNat) ∧
    (let l := readLow (zext zp) s
     let h := readCycle (BitVec.ofNat 16 ((zp.toNat + 1) % 256)) l.2
     (resolve always (.indY zp) s).1.toNat = (l.1.toNat + 256 * h.1.toNat + s.cpu.y.toNat) % 65536) ∧
    (0x80 ≤ x → 0x80 ≤ (x + 1) % 256 →
      (resolve always (.indX zp) s).1.toNat =
        (byteAt .pia (x - 0x80) s).toNat + 256 * (byteAt .pia (x + 1 - 0x80) s).toNat) ∧
    (0x80 ≤ zp.toNat → 0x80 ≤ (zp.toNat + 1) % 256 →
      (resolve always (.indY zp) s).1.toNat =
        ((byteAt .pia (zp.toNat - 0x80) s).toNat + 256 * (byteAt .pia (zp.toNat + 1 - 0x80) s).toNat +
          s.cpu.y.toNat) % 65536) ∧
    (s.cfg.collisionOracle = [] → s.collision = Collisions.none →
      (x = 0xFF → (resolve always (.indX zp) s).1.toNat = top.toNat + 256 * (top.toNat % 64)) ∧
      (zp = 0xFF → (resolve always (.indY zp) s).1.toNat =
        (top.toNat + 256 * (top.toNat % 64) + s.cpu.y.toNat) % 65536))

/-- What a read cycle returns, by the chip its address selects (R73 to R75), and what a read changes.
The TIA: bits 7 and 6 are two collision latches, or an input line and 0, as they stand in the CPU's slot, and the low six
bits are those of the previous bus access (R474 to R476, R485). The PIA: the RAM byte, or what the register map gives in
the CPU's slot; the read itself leaves the PIA as the map says, and no other access touches it (R490, R491, R495 to
R497). The cartridge: the byte the scheme gives, an image byte where nothing is banked, and the cartridge after its
read, then after the listener, which sees every read (R77, R520 to R525, R529, R530). The snapshot is the access's. -/
def Obligations.ReadValues : Prop :=
  ∀ (s : State) (a : Addr), Live s →
    let m : BusAddr := BitVec.ofNat 13 (a.toNat % 8192)
    let u := openRead s
    let onPia := piaRead m (linesAt u.cfg.inputs u.clock) u.pia
    let onCart := s.cart.read s.cfg s.cpu.lip s.bus.lastData m
    let v := (readCycle a s).1
    (isRam a = true → v = byteAt .pia (a.toNat % 128) s) ∧
    (a.getLsbD 12 = false → a.getLsbD 7 = true →
      v = onPia.1 ∧ (busRead a u).2.pia = onPia.2) ∧
    (a.getLsbD 12 = true ∨ a.getLsbD 7 = false → (busRead a u).2.pia = u.pia) ∧
    (a.getLsbD 12 = true → v = onCart.1 ∧ (readCycle a s).2.cart = onCart.2.sniff s.cfg m v .read) ∧
    (a.getLsbD 12 = false → (readCycle a s).2.cart = s.cart.sniff s.cfg m v .read) ∧
    (a.getLsbD 12 = true → s.cfg.scheme = .vanilla4k → v = s.cfg.image.read (a.toNat % 4096)) ∧
    (a.getLsbD 12 = true → s.cfg.scheme = .vanilla2k → v = s.cfg.image.read (a.toNat % 2048)) ∧
    (a.getLsbD 12 = false → a.getLsbD 7 = false →
      let c := u.collision
      let l := linesAt s.cfg.inputs u.clock
      v &&& 0x3F#8 = s.bus.lastData &&& 0x3F#8 ∧
      v.getLsbD 7 =
        ([c.m0p1, c.m1p0, c.p0pf, c.p1pf, c.m0pf, c.m1pf, c.blpf, c.p0p1] ++
          [l.inpt0, l.inpt1, l.inpt2, l.inpt3, l.inpt4, l.inpt5, false, false]).getD (a.toNat % 16) false ∧
      v.getLsbD 6 =
        ([c.m0p0, c.m1p1, c.p0bl, c.p1bl, c.m0bl, c.m1bl, false, c.m0m1] ++
          [false, false, false, false, false, false, false, false]).getD (a.toNat % 16) false) ∧
    ((busRead a u).2.tia = u.tia ∧ (busRead a u).2.collision = u.collision ∧ (busRead a u).2.frame = u.frame) ∧
    (readCycle a s).2.bus =
      { lastAddress := m, lastData := v,
        accessType := if a.getLsbD 12 then .cartridge else if a.getLsbD 7 then .pia else .tia }

/-! ### Loads and stores -/

/-- LDA, LDX and LDY load the operand into their register and set N and Z from it (R200 to R202). -/
def Obligations.LoadsSetRegister : Prop :=
  ∀ (i : Instr) (o : Operand) (s : State), Live s →
    let v := (readOperand o s).1
    let p := { s.cpu.p with n := v.getLsbD 7, z := v == 0#8 }
    (i.kind = .read .lda o → ∃ t, exec i s = .next t ∧ t.regs = { s.regs with a := v, p := p }) ∧
    (i.kind = .read .ldx o → ∃ t, exec i s = .next t ∧ t.regs = { s.regs with x := v, p := p }) ∧
    (i.kind = .read .ldy o → ∃ t, exec i s = .next t ∧ t.regs = { s.regs with y := v, p := p })

/-- STA, STX and STY change no register and no flag; their target byte takes the register's value, and every other
stored byte stays, where the reads before the store cannot reach a cartridge RAM write port (R203 to R205, R532). The
stored registers that are no bytes follow the selected chip's rule: the ball's fields, the VSYNC and VBLANK flags, the
PIA's ports, directions and interrupt-enable bit (R472, R483, R484, R494, R497, R498); those of the other chips stay.
That a TIA register takes the byte where R470 says "stored or ignored" (0x0B to 0x13), or does not say that the whole
byte is stored (VSYNC, VBLANK, CTRLPF), is the model's choice (log 16). -/
def Obligations.StoresWriteTarget : Prop :=
  ∀ (i : Instr) (op : WriteOp) (m : MemMode) (s : State), Live s → (s.withTag .fetch).Inv → i.kind = .write op m →
    ∃ t, exec i s = .next t ∧ t.regs = s.regs ∧
      (∀ c n, (c, n) ∈ storeTargets (writeEa m s) (writeBase m s) →
        byteAt c n t = storedByte (writeEa m s) (storedRegister op s)) ∧
      (Quiet s (resolveReads true m s) → ∀ c n, (c, n) ∉ storeTargets (writeEa m s) (writeBase m s) →
        byteAt c n t = byteAt c n s) ∧
      t.stored.elsewhere (writeEa m s) = s.stored.elsewhere (writeEa m s) ∧
      t.stored = s.stored.written (writeEa m s) (storedRegister op s) t.pia.ram t.tia.regs

/-- Every instruction of kind R leaves what only writes change: PIA RAM and ports, TIA registers, the parameters; and
the cartridge's RAM too where no address it reads is in a RAM write port (R161, R532). -/
def Obligations.ReadsStoreNothing : Prop :=
  ∀ (i : Instr) (op : ReadOp) (o : Operand) (s : State), Live s → i.kind = .read op o →
    ∃ t, exec i s = .next t ∧ t.stored = s.stored ∧ t.regs.x = (if op = .ldx then t.regs.x else s.cpu.x) ∧
      t.regs.s = s.cpu.s ∧ t.regs.pc = s.cpu.pc ∧ t.regs.lip = s.cpu.lip ∧
      (Quiet s (operandReads o s) → ∀ c n, byteAt c n t = byteAt c n s)

/-! ### Arithmetic, logic, compare -/

/-- ADC and SBC in binary mode, by the exact sum (R250, R251, R260): the result modulo 256, C the carry out (for SBC: no
borrow), V whether the signed result is out of range, N and Z of the result. -/
def Obligations.AddSubtractBinary : Prop :=
  ∀ (i : Instr) (o : Operand) (s : State), Live s → s.cpu.p.d = false →
    let a := s.cpu.a
    let v := (readOperand o s).1
    let c := s.cpu.p.c.toNat
    let borrow := 1 - c
    (i.kind = .read .adc o → ∃ t, exec i s = .next t ∧
      let r : Byte := BitVec.ofNat 8 (a.toNat + v.toNat + c)
      t.regs =
        { s.regs with
          a := r
          p :=
            { s.cpu.p with
              n := r.getLsbD 7
              z := r == 0#8
              c := decide (256 ≤ a.toNat + v.toNat + c)
              v := decide (a.toInt + v.toInt + c < -128 ∨ 127 < a.toInt + v.toInt + c) } }) ∧
    (i.kind = .read .sbc o → ∃ t, exec i s = .next t ∧
      let r : Byte := BitVec.ofInt 8 (a.toNat - v.toNat - borrow)
      t.regs =
        { s.regs with
          a := r
          p :=
            { s.cpu.p with
              n := r.getLsbD 7
              z := r == 0#8
              c := decide (v.toNat + borrow ≤ a.toNat)
              v := decide (a.toInt - v.toInt - borrow < -128 ∨ 127 < a.toInt - v.toInt - borrow) } })

/-- ADC and SBC in decimal mode (R250 to R252): on any inputs they complete and change A and N, V, Z, C only. On BCD
inputs A holds the digits of the sum or difference modulo 100, and C says that the sum reached 100 or that the difference
is not negative; N, V and Z are free values, and on other inputs A and C too (log 8); D and I are unchanged. -/
def Obligations.AddSubtractDecimal : Prop :=
  ∀ (i : Instr) (o : Operand) (s : State), Live s → s.cpu.p.d = true →
    let a := s.cpu.a
    let v := (readOperand o s).1
    let c := s.cpu.p.c.toNat
    ((i.kind = .read .adc o ∨ i.kind = .read .sbc o) → ∃ t, exec i s = .next t ∧
      t.regs =
        { s.regs with
          a := t.cpu.a
          p := { s.cpu.p with n := t.cpu.p.n, v := t.cpu.p.v, z := t.cpu.p.z, c := t.cpu.p.c } }) ∧
    (bothBcd a v → i.kind = .read .adc o → ∃ t, exec i s = .next t ∧
      t.regs =
        { s.regs with
          a := bcdByte ((decOf a + decOf v + c) % 100)
          p :=
            { s.cpu.p with
              n := t.cpu.p.n, v := t.cpu.p.v, z := t.cpu.p.z
              c := decide (100 ≤ decOf a + decOf v + c) } }) ∧
    (bothBcd a v → i.kind = .read .sbc o → ∃ t, exec i s = .next t ∧
      t.regs =
        { s.regs with
          a := bcdByte ((100 + decOf a - decOf v - (1 - c)) % 100)
          p :=
            { s.cpu.p with
              n := t.cpu.p.n, v := t.cpu.p.v, z := t.cpu.p.z
              c := decide (decOf v + (1 - c) ≤ decOf a) } })

/-- AND, ORA and EOR, bit by bit, with N and Z of the result (R253 to R255). -/
def Obligations.LogicSetsAccumulator : Prop :=
  ∀ (i : Instr) (op : ReadOp) (o : Operand) (s : State), Live s → i.kind = .read op o →
    (op = .and ∨ op = .ora ∨ op = .eor) →
    ∃ t, exec i s = .next t ∧
      (∀ k < 8, t.cpu.a.getLsbD k =
        (match op with
          | .and => s.cpu.a.getLsbD k && (readOperand o s).1.getLsbD k
          | .ora => s.cpu.a.getLsbD k || (readOperand o s).1.getLsbD k
          | _ => s.cpu.a.getLsbD k ^^ (readOperand o s).1.getLsbD k)) ∧
      t.regs =
        { s.regs with a := t.cpu.a, p := { s.cpu.p with n := t.cpu.a.getLsbD 7, z := t.cpu.a == 0#8 } }

/-- CMP, CPX and CPY (R256 to R258): C is unsigned "not below", Z equality, N bit 7 of the difference; no register
changes, and D plays no part. -/
def Obligations.ComparesSetFlags : Prop :=
  ∀ (i : Instr) (op : ReadOp) (o : Operand) (s : State), Live s → i.kind = .read op o →
    (op = .cmp ∨ op = .cpx ∨ op = .cpy) →
    let r : Byte := match op with | .cmp => s.cpu.a | .cpx => s.cpu.x | _ => s.cpu.y
    let v := (readOperand o s).1
    ∃ t, exec i s = .next t ∧
      t.regs =
        { s.regs with
          p :=
            { s.cpu.p with
              c := decide (v.toNat ≤ r.toNat)
              z := decide (r.toNat = v.toNat)
              n := decide (128 ≤ (r.toNat + 256 - v.toNat) % 256) } }

/-- BIT copies bits 7 and 6 of the operand into N and V and sets Z from `A & v` (R259). -/
def Obligations.BitTestsMemory : Prop :=
  ∀ (i : Instr) (o : Operand) (s : State), Live s → i.kind = .read .bit o →
    let v := (readOperand o s).1
    ∃ t, exec i s = .next t ∧
      t.regs =
        { s.regs with
          p := { s.cpu.p with n := v.getLsbD 7, v := v.getLsbD 6, z := decide (s.cpu.a &&& v = 0#8) } }

/-! ### Implied instructions -/

/-- The transfers: the destination takes the source's value, N and Z follow it except for TXS (R221 to R226). One byte and
two cycles, the fetch among them. -/
def Obligations.TransfersCopy : Prop :=
  ∀ (s : State), Live s →
    let nz (v : Byte) : Flags := { s.cpu.p with n := v.getLsbD 7, z := v == 0#8 }
    (encode .tax = [0xAA] ∧
      ∃ t, exec .tax s = .next t ∧ inCycles .tax 2 s t ∧ t.regs = { s.regs with x := s.cpu.a, p := nz s.cpu.a }) ∧
    (encode .tay = [0xA8] ∧
      ∃ t, exec .tay s = .next t ∧ inCycles .tay 2 s t ∧ t.regs = { s.regs with y := s.cpu.a, p := nz s.cpu.a }) ∧
    (encode .txa = [0x8A] ∧
      ∃ t, exec .txa s = .next t ∧ inCycles .txa 2 s t ∧ t.regs = { s.regs with a := s.cpu.x, p := nz s.cpu.x }) ∧
    (encode .tya = [0x98] ∧
      ∃ t, exec .tya s = .next t ∧ inCycles .tya 2 s t ∧ t.regs = { s.regs with a := s.cpu.y, p := nz s.cpu.y }) ∧
    (encode .tsx = [0xBA] ∧
      ∃ t, exec .tsx s = .next t ∧ inCycles .tsx 2 s t ∧ t.regs = { s.regs with x := s.cpu.s, p := nz s.cpu.s }) ∧
    (encode .txs = [0x9A] ∧
      ∃ t, exec .txs s = .next t ∧ inCycles .txs 2 s t ∧ t.regs = { s.regs with s := s.cpu.x })

/-- INX, INY, DEX and DEY wrap modulo 256 and set N and Z; C and V stay (R307 to R310). One byte and two
cycles, the fetch among them. -/
def Obligations.CountersWrap : Prop :=
  ∀ (s : State), Live s →
    let nz (v : Byte) : Flags := { s.cpu.p with n := v.getLsbD 7, z := v == 0#8 }
    let up (r : Byte) : Byte := BitVec.ofNat 8 ((r.toNat + 1) % 256)
    let down (r : Byte) : Byte := BitVec.ofNat 8 ((r.toNat + 255) % 256)
    (encode .inx = [0xE8] ∧
      ∃ t, exec .inx s = .next t ∧ inCycles .inx 2 s t ∧ t.regs = { s.regs with x := up s.cpu.x, p := nz (up s.cpu.x) }) ∧
    (encode .iny = [0xC8] ∧
      ∃ t, exec .iny s = .next t ∧ inCycles .iny 2 s t ∧ t.regs = { s.regs with y := up s.cpu.y, p := nz (up s.cpu.y) }) ∧
    (encode .dex = [0xCA] ∧
      ∃ t, exec .dex s = .next t ∧ inCycles .dex 2 s t ∧ t.regs = { s.regs with x := down s.cpu.x, p := nz (down s.cpu.x) }) ∧
    (encode .dey = [0x88] ∧
      ∃ t, exec .dey s = .next t ∧ inCycles .dey 2 s t ∧ t.regs = { s.regs with y := down s.cpu.y, p := nz (down s.cpu.y) })

/-- The flag instructions change their one flag, and NOP reads the next byte and changes no register, flag or memory
(R370 to R377; a read can store only through a cartridge RAM write port, R532). One byte and two cycles, the fetch among
them. -/
def Obligations.FlagInstructions : Prop :=
  ∀ (s : State), Live s →
    (encode .clc = [0x18] ∧
      ∃ t, exec .clc s = .next t ∧ inCycles .clc 2 s t ∧ t.regs = { s.regs with p := { s.cpu.p with c := false } }) ∧
    (encode .sec = [0x38] ∧
      ∃ t, exec .sec s = .next t ∧ inCycles .sec 2 s t ∧ t.regs = { s.regs with p := { s.cpu.p with c := true } }) ∧
    (encode .cli = [0x58] ∧
      ∃ t, exec .cli s = .next t ∧ inCycles .cli 2 s t ∧ t.regs = { s.regs with p := { s.cpu.p with i := false } }) ∧
    (encode .sei = [0x78] ∧
      ∃ t, exec .sei s = .next t ∧ inCycles .sei 2 s t ∧ t.regs = { s.regs with p := { s.cpu.p with i := true } }) ∧
    (encode .cld = [0xD8] ∧
      ∃ t, exec .cld s = .next t ∧ inCycles .cld 2 s t ∧ t.regs = { s.regs with p := { s.cpu.p with d := false } }) ∧
    (encode .sed = [0xF8] ∧
      ∃ t, exec .sed s = .next t ∧ inCycles .sed 2 s t ∧ t.regs = { s.regs with p := { s.cpu.p with d := true } }) ∧
    (encode .clv = [0xB8] ∧
      ∃ t, exec .clv s = .next t ∧ inCycles .clv 2 s t ∧ t.regs = { s.regs with p := { s.cpu.p with v := false } }) ∧
    (encode .nop = [0xEA] ∧
      ∃ t, exec .nop s = .next t ∧ inCycles .nop 2 s t ∧ t.regs = s.regs ∧ t.stored = s.stored ∧
        t.bus.lastAddress = BitVec.ofNat 13 (s.cpu.pc.toNat % 8192) ∧
        (Quiet s [s.cpu.pc] → ∀ c n, byteAt c n t = byteAt c n s))

/-- Implied and accumulator instructions store nothing: what only writes change stays, and the cartridge's RAM too where
PC is not in a RAM write port (R162, R377). -/
def Obligations.ImpliedStoreNothing : Prop :=
  ∀ (i : Instr) (s : State), Live s →
    ((∃ op, i.kind = .implied op) ∨ (∃ op, i.kind = .accumulator op)) →
    ∃ t, exec i s = .next t ∧ t.stored = s.stored ∧
      (Quiet s [s.cpu.pc] → ∀ c n, byteAt c n t = byteAt c n s)

/-! ### Shifts, rotates, increments and decrements -/

/-- ASL, LSR, ROL and ROR on the accumulator (R301 to R304). -/
def Obligations.AccumulatorShifts : Prop :=
  ∀ (i : Instr) (op : ModifyOp) (s : State), Live s → i.kind = .accumulator op →
    ∃ t, exec i s = .next t ∧
      t.regs = { s.regs with a := modifiedByte op s.cpu.a s.cpu.p.c, p := modifiedFlags op s.cpu.a s.cpu.p }

/-- ASL, LSR, ROL, ROR, INC and DEC on memory (R300 to R306): the target byte takes the result, the flags follow it, no
register changes, and every other stored byte stays, where the reads that form the address cannot reach a cartridge RAM
write port; the stored registers that are no bytes follow the selected chip's rule with the result (R472, R483, R484,
R494, R497), and those of the other chips stay. That a TIA register takes the byte where R470 says "stored or ignored"
(0x0B to 0x13), or does not say that the whole byte is stored (VSYNC, VBLANK, CTRLPF), is the model's choice
(log 16). -/
def Obligations.ModifyMemory : Prop :=
  ∀ (i : Instr) (op : ModifyOp) (m : MemMode) (s : State), Live s → (s.withTag .fetch).Inv →
    i.kind = .modify op m →
    let v := (readCycle (writeEa m s) (writeBase m s)).1
    ∃ t, exec i s = .next t ∧ t.regs = { s.regs with p := modifiedFlags op v s.cpu.p } ∧
      (∀ c n, (c, n) ∈ storeTargets (writeEa m s) (writeBase m s) →
        byteAt c n t = storedByte (writeEa m s) (modifiedByte op v s.cpu.p.c)) ∧
      (Quiet s (resolveReads true m s) → ∀ c n, (c, n) ∉ storeTargets (writeEa m s) (writeBase m s) →
        byteAt c n t = byteAt c n s) ∧
      t.stored.elsewhere (writeEa m s) = s.stored.elsewhere (writeEa m s) ∧
      t.stored = s.stored.written (writeEa m s) (modifiedByte op v s.cpu.p.c) t.pia.ram t.tia.regs

/-! ### Stack -/

/-- PHA and PHP (R220, R227, R228): S drops by one modulo 256, no other register changes; A, or P with B = 1 and E = 1, is
stored wherever the stack address of the old S leads (R73; what a TIA register keeps where R470 leaves it open is log 16)
and, with the stack in PIA RAM, in one byte of it; no other stored byte changes, where the discarded read at PC cannot
reach a cartridge RAM write port. -/
def Obligations.PushesWriteStack : Prop :=
  ∀ (i : Instr) (s : State), Live s → (s.withTag .fetch).Inv → (i = .pha ∨ i = .php) →
    ∃ t, exec i s = .next t ∧ t.regs = { s.regs with s := s.cpu.s - 1 } ∧
      (stackInRam 1 s → { t.stored with ram := s.pia.ram } = s.stored) ∧
      (stackInRam 1 s →
        byteAt .pia (s.cpu.s.toNat - 0x80) t = (if i = .pha then s.cpu.a else pushedP true s.cpu.p)) ∧
      Pushed [if i = .pha then s.cpu.a else pushedP true s.cpu.p] s t ∧
      (Quiet s [s.cpu.pc] → ∀ c n, (c, n) ∉ storeTargets (pushAddr s 0) s → byteAt c n t = byteAt c n s)

/-- PLA and PLP (R220, R229, R230): S rises by one modulo 256; PLA loads A and sets N and Z, PLP loads the six flags and
discards bits 5 and 4; a pulled byte in PIA RAM is the one stored there; nothing is stored. -/
def Obligations.PullsReadStack : Prop :=
  ∀ (s : State), Live s →
    let v := (pull (dummyStack (dummyFetch s))).1
    (∃ t, exec .pla s = .next t ∧ t.stored = s.stored ∧
      (Quiet s [s.cpu.pc] → ∀ c n, byteAt c n t = byteAt c n s) ∧
      t.regs =
        { s.regs with
          s := s.cpu.s + 1, a := v, p := { s.cpu.p with n := v.getLsbD 7, z := v == 0#8 } }) ∧
    (∃ t, exec .plp s = .next t ∧ t.stored = s.stored ∧
      (Quiet s [s.cpu.pc] → ∀ c n, byteAt c n t = byteAt c n s) ∧
      t.regs =
        { s.regs with
          s := s.cpu.s + 1
          p :=
            { n := v.getLsbD 7, v := v.getLsbD 6, d := v.getLsbD 3, i := v.getLsbD 2, z := v.getLsbD 1,
              c := v.getLsbD 0 } }) ∧
    (pullsInRam s 1 → v = byteAt .pia (pullIndex s 1) s)

/-! ### Jumps, subroutines, branches -/

/-- JMP absolute and indirect change PC only; the indirect form takes its high byte from the same page (R330, R331). -/
def Obligations.JumpsSetPc : Prop :=
  ∀ (addr : Addr) (s : State), Live s →
    (∃ t, exec (.jmpAbs addr) s = .next t ∧ t.regs = { s.regs with pc := addr } ∧ t.stored = s.stored ∧
      (∀ c n, byteAt c n t = byteAt c n s)) ∧
    (let hiAddr : Addr := BitVec.ofNat 16 (256 * (addr.toNat / 256) + (addr.toNat + 1) % 256)
     let l := readLow addr s
     let h := readCycle hiAddr l.2
     ∃ t, exec (.jmpInd addr) s = .next t ∧ t.stored = s.stored ∧
       t.regs = { s.regs with pc := BitVec.ofNat 16 (l.1.toNat + 256 * h.1.toNat) } ∧
       (Quiet s [addr, hiAddr] → ∀ c n, byteAt c n t = byteAt c n s))

/-- JSR (R332), with PC at its last byte: S drops by 2, PC is the target, and that PC is pushed, high byte first, wherever
the stack's addresses lead (R73; what a TIA register keeps where R470 leaves it open is log 16) and, with the stack in PIA
RAM, into two bytes of it; no other stored byte changes, where the read at PC cannot reach a cartridge RAM write port. -/
def Obligations.JsrPushesReturn : Prop :=
  ∀ (addr : Addr) (s : State), Live s → (s.withTag .fetch).Inv →
    ∃ t, exec (.jsr addr) s = .next t ∧ t.regs = { s.regs with s := s.cpu.s - 2, pc := addr } ∧
      (stackInRam 2 s → { t.stored with ram := s.pia.ram } = s.stored) ∧
      (stackInRam 2 s →
        byteAt .pia (s.cpu.s.toNat - 0x80) t = hiByte s.cpu.pc ∧
        byteAt .pia (s.cpu.s.toNat - 0x81) t = loByte s.cpu.pc) ∧
      Pushed [hiByte s.cpu.pc, loByte s.cpu.pc] s t ∧
      (Quiet s [s.cpu.pc] → ∀ c n, (c, n) ∉ storeTargets (pushAddr s 0) s → (c, n) ∉ storeTargets (pushAddr s 1) s →
        byteAt c n t = byteAt c n s)

/-- RTS (R333): S rises by 2, nothing is stored, and from a stack in PIA RAM PC is the pulled word plus one. -/
def Obligations.RtsPullsReturn : Prop :=
  ∀ (s : State), Live s →
    ∃ t, exec .rts s = .next t ∧ t.regs = { s.regs with s := s.cpu.s + 2, pc := t.cpu.pc } ∧ t.stored = s.stored ∧
      (Quiet s [s.cpu.pc, t.cpu.pc - 1] → ∀ c n, byteAt c n t = byteAt c n s) ∧
      (pullsInRam s 2 →
        t.cpu.pc.toNat =
          ((byteAt .pia (pullIndex s 1) s).toNat + 256 * (byteAt .pia (pullIndex s 2) s).toNat + 1) % 65536)

/-- RTS undoes JSR (R332, R333): run at the state JSR left, with the stack in PIA RAM, it restores S and goes on at the
address after JSR's last byte. -/
def Obligations.RtsReturnsFromJsr : Prop :=
  ∀ (addr : Addr) (s t u : State), Live s → (s.withTag .fetch).Inv → stackInRam 2 s →
    exec (.jsr addr) s = .next t → exec .rts t = .next u → u.regs = { s.regs with pc := s.cpu.pc + 1 }

/-- Every branch (R334 to R342): PC goes to the target where the condition holds and stays where it does not; no flag
and no other register changes, and nothing is stored. -/
def Obligations.BranchesTestFlag : Prop :=
  ∀ (i : Instr) (op : BranchOp) (off : Byte) (s : State), Live s → i.kind = .branch op off →
    ∃ t, exec i s = .next t ∧ t.stored = s.stored ∧
      t.regs = { s.regs with pc := if branchTaken op s.cpu.p then branchTarget off s else s.cpu.pc } ∧
      (Quiet s [s.cpu.pc, BitVec.ofNat 16 (256 * (s.cpu.pc.toNat / 256) + (branchTarget off s).toNat % 256)] →
        ∀ c n, byteAt c n t = byteAt c n s)

/-! ### BRK and RTI -/

/-- BRK (R378, R416): S drops by 3, I is set, only PC, S and I change; the pushed bytes are PC + 1 (the BRK's address + 2)
high and low, and P with B = 1 and E = 1, stored wherever the stack's addresses lead (R73; what a TIA register keeps where
R470 leaves it open is log 16) and, with the stack in PIA RAM, in three bytes of it; no other stored byte changes, where
the discarded read at PC cannot reach a cartridge RAM write port; with a `vanilla_4k` image PC is the word at 0xFFFE. -/
def Obligations.BrkEntersVector : Prop :=
  ∀ (s : State), Live s → (s.withTag .fetch).Inv →
    ∃ t, exec .brk s = .next t ∧
      t.regs = { s.regs with s := s.cpu.s - 3, pc := t.cpu.pc, p := { s.cpu.p with i := true } } ∧
      (stackInRam 3 s → { t.stored with ram := s.pia.ram } = s.stored) ∧
      (stackInRam 3 s →
        byteAt .pia (s.cpu.s.toNat - 0x80) t = hiByte (s.cpu.pc + 1) ∧
        byteAt .pia (s.cpu.s.toNat - 0x81) t = loByte (s.cpu.pc + 1) ∧
        byteAt .pia (s.cpu.s.toNat - 0x82) t = pushedP true s.cpu.p) ∧
      Pushed [hiByte (s.cpu.pc + 1), loByte (s.cpu.pc + 1), pushedP true s.cpu.p] s t ∧
      (Quiet s [s.cpu.pc] → ∀ c n, (c, n) ∉ storeTargets (pushAddr s 0) s → (c, n) ∉ storeTargets (pushAddr s 1) s →
        (c, n) ∉ storeTargets (pushAddr s 2) s → byteAt c n t = byteAt c n s) ∧
      (s.cfg.scheme = .vanilla4k →
        t.cpu.pc.toNat = (s.cfg.image.read 0xFFE).toNat + 256 * (s.cfg.image.read 0xFFF).toNat)

/-- RTI (R379, R417): S rises by 3, nothing is stored, and from a stack in PIA RAM the six flags are the first pulled
byte's and PC is the next two, low byte first, with nothing added. -/
def Obligations.RtiRestores : Prop :=
  ∀ (s : State), Live s →
    ∃ t, exec .rti s = .next t ∧
      t.regs = { s.regs with s := s.cpu.s + 3, pc := t.cpu.pc, p := t.cpu.p } ∧ t.stored = s.stored ∧
      (Quiet s [s.cpu.pc] → ∀ c n, byteAt c n t = byteAt c n s) ∧
      (pullsInRam s 3 →
        let b := byteAt .pia (pullIndex s 1) s
        t.cpu.p =
          { n := b.getLsbD 7, v := b.getLsbD 6, d := b.getLsbD 3, i := b.getLsbD 2, z := b.getLsbD 1,
            c := b.getLsbD 0 } ∧
        t.cpu.pc.toNat =
          (byteAt .pia (pullIndex s 2) s).toNat + 256 * (byteAt .pia (pullIndex s 3) s).toNat)

/-- RTI undoes BRK (R378, R379, R417): run at the state BRK left, with the stack in PIA RAM, it restores every register
and flag, I included, and goes on at the BRK's address + 2. -/
def Obligations.RtiReturnsFromBrk : Prop :=
  ∀ (s t u : State), Live s → (s.withTag .fetch).Inv → stackInRam 3 s → exec .brk s = .next t →
    exec .rti t = .next u →
    u.regs = { s.regs with pc := s.cpu.pc + 1 }

/-! ### Rules over the whole machine -/

/-- D, I and V change only by the instructions the spec names (R38, R41, R42). -/
def Obligations.FlagWriters : Prop :=
  ∀ (i : Instr) (s t : State), exec i s = .next t →
    (t.cpu.p.d ≠ s.cpu.p.d → i = .sed ∨ i = .cld ∨ i = .plp ∨ i = .rti) ∧
    (t.cpu.p.i ≠ s.cpu.p.i → i = .sei ∨ i = .cli ∨ i = .brk ∨ i = .plp ∨ i = .rti) ∧
    (t.cpu.p.v ≠ s.cpu.p.v → (∃ o, i.kind = .read .adc o ∨ i.kind = .read .sbc o ∨ i.kind = .read .bit o) ∨
      i = .clv ∨ i = .plp ∨ i = .rti)

/-- A, X, Y and S change only by the instructions the spec names (R31 to R33). -/
def Obligations.RegisterWriters : Prop :=
  ∀ (i : Instr) (s t : State), exec i s = .next t →
    (t.cpu.a ≠ s.cpu.a →
      (∃ o, i.kind = .read .lda o ∨ i.kind = .read .adc o ∨ i.kind = .read .sbc o ∨ i.kind = .read .and o ∨
        i.kind = .read .ora o ∨ i.kind = .read .eor o) ∨
      (∃ op, i.kind = .accumulator op) ∨ i = .txa ∨ i = .tya ∨ i = .pla) ∧
    (t.cpu.x ≠ s.cpu.x → (∃ o, i.kind = .read .ldx o) ∨ i = .tax ∨ i = .tsx ∨ i = .inx ∨ i = .dex) ∧
    (t.cpu.y ≠ s.cpu.y → (∃ o, i.kind = .read .ldy o) ∨ i = .tay ∨ i = .iny ∨ i = .dey) ∧
    (t.cpu.s ≠ s.cpu.s →
      i = .txs ∨ i = .pha ∨ i = .php ∨ i = .pla ∨ i = .plp ∨ (∃ addr, i = .jsr addr) ∨ i = .rts ∨ i = .brk ∨
      i = .rti)

/-- The invariant of Safety.lean is kept by every step (R464, R472, R492, R520, R527). -/
def Obligations.StepKeepsInvariant : Prop :=
  ∀ (s t : State), s.Inv → step s = .next t → t.Inv

/-- The invariant holds after reset, for every parameter that is well formed and every draw of the right form; the image
and the draws are the caller's (R600 to R602). -/
def Obligations.ResetMeetsInvariant : Prop :=
  State.reset.Inv ∧
  ∀ (p : Params) (d : Draws), p.wf = true → d.piaRam.wf = true → d.piaRam.below 128 = true →
    d.cartRam.wf = true → d.cartRam.below (extraRamSize p) = true → d.sub < d.divisor.count →
    (machineReset p d).Inv

/-- The construction parameters, the ROM image among them, never change (R30, R83, R520). -/
def Obligations.ParametersConstant : Prop :=
  ∀ (s t : State), step s = .next t → t.cfg = s.cfg

/-- Cycle counts (R172, R630): an instruction run while no write inside it halts the CPU takes its table count, plus the
page-crossing penalty or the branch's one or two, of which its fetch cycles have been made. -/
def Obligations.CycleCounts : Prop :=
  ∀ (i : Instr) (s : State), Live s → s.cpu.halted = false → (∀ a ∈ innerWrites i s, hitsWsync a = false) →
    ∃ t, exec i s = .next t ∧ t.clock + fetchedBytes i = s.clock + baseCycles i + penalty i s

/-! ### Halt -/

/-- Every halt ends within one scanline: the CPU's next slot is found within 228 or 76 board steps (R428). Under the
default order it is the first of the next line: the TIA's clock is at most 2 in it (R426, R451, R623). -/
def Obligations.HaltEnds : Prop :=
  ∀ (s : State),
    (openRead s).cpu.halted = false ∧
    (openRead s).clock ≤ s.clock + (match s.cfg.tiaClk with | .one => 228 | .three => 76) ∧
    (s.cpu.halted = false → (openRead s).clock = s.clock) ∧
    (s.cfg.order = .cpuPiaTia → s.cfg.tiaClk = .three → s.cpu.halted = true →
      (openRead s).tia.hclock.val ≤ 2 ∧ (openRead s).tia.line = s.tia.line + 1)

/-- What a bus write does at once beside storing a byte, under every mirror (R71, R73). The snapshot is the access's
(R76). The cartridge takes the write where it is selected, with the switches and the stores of its scheme (R83, R524),
and then its listener sees the access, whichever chip it selects (R77, R525). WSYNC alone halts the CPU
(R471), RESBL restarts the ball (R482), HMOVE starts its motion (R484), CXCLR clears the collision latches (R487), a
timer write loads the PIA's timer (R490, R494), and the other registers' fields follow R472, R483, R484 and R497. The
whole FrameManager: a VSYNC write that changes the bit moves it, by its state, and out of a frame the buffer is handed
out (R462, R465, R472); a VBLANK write changes its flag only (R463); any other write leaves it. That the tokens handed
out are kept in a list is the model's choice (log 20). -/
def Obligations.WritesActAtOnce : Prop :=
  ∀ (s : State) (a : Addr) (v : Byte),
    let t := busWrite a v s
    let b := s.tia.ball
    let f := s.frame
    let m : BusAddr := BitVec.ofNat 13 (a.toNat % 8192)
    t.bus =
      { lastAddress := m, lastData := v,
        accessType := if a.getLsbD 12 then .cartridge else if a.getLsbD 7 then .pia else .tia } ∧
    t.cart =
      (if a.getLsbD 12 then s.cart.write s.cfg s.cpu.lip m v else s.cart).sniff s.cfg m v .write ∧
    t.frame =
      (if selectsTia a 0x00 ∧ v.getLsbD 1 ≠ f.vsync then
        match f.state, v.getLsbD 1 with
        | .waitForVsyncStart, true | .waitForFrameStart, true | .overscan, true =>
          { f with vsync := true, state := .waitForVsyncEnd, lineInState := 0 }
        | .waitForVsyncEnd, false => { f with vsync := false, state := .waitForFrameStart, lineInState := 0 }
        | .frame, true =>
          { f with
            vsync := true, state := .waitForVsyncEnd, lineInState := 0
            emitted := f.emitted ++ f.buffer.toList, buffer := none }
        | .waitForVsyncEnd, true => { f with vsync := true }
        | .waitForVsyncStart, false | .waitForFrameStart, false | .frame, false | .overscan, false =>
          { f with vsync := false }
      else if selectsTia a 0x01 then { f with vblank := v.getLsbD 1 }
      else f) ∧
    t.cpu = { s.cpu with halted := s.cpu.halted || selectsTia a 0x02 } ∧
    t.collision = (if selectsTia a 0x2C then Collisions.none else s.collision) ∧
    t.tia.ball.counter = (if selectsTia a 0x14 then 0 else b.counter) ∧
    t.tia.ball.rendering = (selectsTia a 0x14 || b.rendering) ∧
    t.tia.ball.renderCounter = (if selectsTia a 0x14 then -4 else b.renderCounter) ∧
    t.tia.ball.moving = (selectsTia a 0x2A || b.moving) ∧
    t.tia.mactive = (selectsTia a 0x2A || s.tia.mactive) ∧
    t.tia.mclock = (if selectsTia a 0x2A then 0 else s.tia.mclock) ∧
    t.tia.hmoveExt = (s.tia.hmoveExt || (selectsTia a 0x2A && decide (s.tia.hclock.val < 68))) ∧
    t.tia.hclock = s.tia.hclock ∧ t.tia.line = s.tia.line ∧
    t.pia.countdown = (if selectsTimer a then v else s.pia.countdown) ∧
    t.pia.sub = (if selectsTimer a then 0 else s.pia.sub) ∧
    t.pia.flag = (!selectsTimer a && s.pia.flag) ∧
    t.pia.divisor.count =
      (if selectsTimer a then [1, 8, 64, 1024].getD (a.toNat % 4) 0 else s.pia.divisor.count) ∧
    t.stored = s.stored.written a v t.pia.ram t.tia.regs

/-! ### Bus, traps -/

/-- Addresses that differ only in bits 15..13 reach the same chip with the same effects (R71). -/
def Obligations.BusMirrors : Prop :=
  ∀ (s : State) (a b : Addr) (v : Byte), a.toNat % 8192 = b.toNat % 8192 →
    busRead a s = busRead b s ∧ busWrite a v s = busWrite b v s

/-- An access that traps (R400, R401, R403). With no handler the instruction stops there with that record, the last of
the log, and no register has changed: the opcode fetch of any instruction, the operand read of kinds R and M, the write
of kind W, the first write of kind M, the first push of PHA, PHP and JSR. With a handler the record is logged, the
access is complete and an instruction of kind R completes. The predicate as a table, what a stopped machine keeps and
the record's message as data are the model's choices (logs 2, 10 and 11). -/
def Obligations.TrappingAccesses : Prop :=
  ∀ (s : State) (i : Instr),
    let record (kind : AccessKind) (a : Addr) : TrapRecord :=
      .chip (route (maskAddr a)) (route (maskAddr a))
        (match kind with | .read => .invalidRead (maskAddr a) | .write => .invalidWrite (maskAddr a))
    let readTraps (a : Addr) (t : State) : Prop :=
      t.traps.fatal = false ∧ chipTraps t.cfg .read (maskAddr a) (busRead a (openRead t)).1 = true
    let writeTraps (a : Addr) (v : Byte) (t : State) : Prop :=
      t.traps.fatal = false ∧ chipTraps t.cfg .write (maskAddr a) v = true
    let stops (o : Out) (r : TrapRecord) : Prop :=
      ∃ u, o = .fault (.chipTrap r u) ∧ u.regs = s.regs ∧ u.traps.fatal = true ∧ u.traps.log.getLast? = some r
    (s.cfg.trapHandler = false →
      (readTraps s.cpu.pc s → pendingInterrupt (openRead s) = none → stops (step s) (record .read s.cpu.pc)) ∧
      (∀ op m, i.kind = .read op (.mem m) → readTraps (readEa m s) (readBase m s) →
        stops (exec i s) (record .read (readEa m s))) ∧
      (∀ op m, i.kind = .write op m → writeTraps (writeEa m s) (storedRegister op s) (writeBase m s) →
        stops (exec i s) (record .write (writeEa m s))) ∧
      (∀ op m, i.kind = .modify op m →
        let r := readCycle (writeEa m s) (writeBase m s)
        (readTraps (writeEa m s) (writeBase m s) → stops (exec i s) (record .read (writeEa m s))) ∧
        (writeTraps (writeEa m s) r.1 r.2 → stops (exec i s) (record .write (writeEa m s)))) ∧
      (i = .pha → writeTraps (pushAddr s 0) s.cpu.a (dummyFetch s) →
        stops (exec i s) (record .write (pushAddr s 0))) ∧
      (i = .php → writeTraps (pushAddr s 0) (pushedP true s.cpu.p) (dummyFetch s) →
        stops (exec i s) (record .write (pushAddr s 0))) ∧
      (∀ addr, i = .jsr addr → writeTraps (pushAddr s 0) (hiByte s.cpu.pc) (dummyStack s) →
        stops (exec i s) (record .write (pushAddr s 0)))) ∧
    (s.cfg.trapHandler = true →
      (∀ a, readTraps a s →
        (readCycle a s).2.traps = { log := s.traps.log ++ [record .read a], fatal := false }) ∧
      (∀ a v, writeTraps a v s →
        (writeCycle a v s).traps = { log := s.traps.log ++ [record .write a], fatal := false }) ∧
      (∀ op m, i.kind = .read op (.mem m) → readTraps (readEa m s) (readBase m s) →
        ∃ t, exec i s = .next t ∧ t.traps.log = (readBase m s).traps.log ++ [record .read (readEa m s)]))

/-! ### PIA and TIA -/

/-- The PIA timer after a write of `v` with divisor `d` (R493, R494): `n` ticks later the countdown is `v - n / d`, with
the flag clear, until it has been 0 for `d` ticks; the next tick's state is 0xFF, divisor 1 and the flag set. -/
def Obligations.TimerCountsDown : Prop :=
  ∀ (p : Pia) (m : BusAddr) (v : Byte), m.getLsbD 9 = true → m.getLsbD 2 = true → m.getLsbD 4 = true →
    let d := [1, 8, 64, 1024].getD (m.toNat % 4) 0
    let q (n : Nat) : Pia := Pia.tick^[n] (piaWrite m v p)
    (∀ n < d * (v.toNat + 1),
      (q n).countdown.toNat = v.toNat - n / d ∧ (q n).flag = false ∧ (q n).divisor.count = d) ∧
    (q 0).sub = 0 ∧ (q (d * (v.toNat + 1))).countdown = 0xFF ∧ (q (d * (v.toNat + 1))).divisor = .d1 ∧
    (q (d * (v.toNat + 1))).flag = true

/-- The PIA's reads (R491, R495 to R497): RAM, INTIM (which clears the flag), TIMINT, the direction registers, and the
ports, bit by bit the output register where the direction bit is 1 and the input where it is 0. -/
def Obligations.PiaReads : Prop :=
  ∀ (p : Pia) (m : BusAddr) (l : Lines),
    (m.getLsbD 9 = false → piaRead m l p = (p.ram.read (m.toNat % 128), p)) ∧
    (m.getLsbD 9 = true → m.getLsbD 2 = true → m.getLsbD 0 = false →
      piaRead m l p = (p.countdown, { p with flag := false })) ∧
    (m.getLsbD 9 = true → m.getLsbD 2 = true → m.getLsbD 0 = true →
      piaRead m l p = (if p.flag then 0x80 else 0x00, p)) ∧
    (m.getLsbD 9 = true → m.getLsbD 2 = false → m.toNat % 4 = 1 → piaRead m l p = (p.dirA, p)) ∧
    (m.getLsbD 9 = true → m.getLsbD 2 = false → m.toNat % 4 = 3 → piaRead m l p = (p.dirB, p)) ∧
    (m.getLsbD 9 = true → m.getLsbD 2 = false → m.toNat % 4 = 0 → (piaRead m l p).2 = p ∧
      ∀ k < 8, (piaRead m l p).1.getLsbD k = if p.dirA.getLsbD k then p.outA.getLsbD k else l.portA.getLsbD k) ∧
    (m.getLsbD 9 = true → m.getLsbD 2 = false → m.toNat % 4 = 2 → (piaRead m l p).2 = p ∧
      ∀ k < 8, (piaRead m l p).1.getLsbD k = if p.dirB.getLsbD k then p.outB.getLsbD k else l.portB.getLsbD k)

/-- The TIA's horizontal clock counts modulo 228 and a wrap ends the line: the line counter advances, the FrameManager is
told and a halt ends (R450, R451). Every collision latch stays set, and those the oracle names for this line and clock
become set (R485, R486); that the oracle is applied on every tick, those of the horizontal blank too, is the model's
choice (log 19). The ball makes its pixel step outside the blank, which lasts to clock 68, or to 76 after an HMOVE
(R450, R481, R484); that the pixel reads false inside it is the model's choice (log 18). While the motion is active a
clock that is a multiple of 4 makes a movement step: motion stops exactly where the count meets `hmm`, and until then a
moving ball in the blank makes an extra step, whose form is deduced (log 17); the count rises, and 16 ends the motion
(R484). Everything else of the TIA stays. -/
def Obligations.TiaTickCounts : Prop :=
  ∀ (s : State),
    (tiaTick s).tia.hclock.val = (s.tia.hclock.val + 1) % 228 ∧
    (s.tia.hclock.val = 227 →
      (tiaTick s).tia.line = s.tia.line + 1 ∧ (tiaTick s).cpu.halted = false ∧
      (tiaTick s).frame = s.frame.nextLine s.cfg.tvMode s.cfg.visibleOverscan ∧ (tiaTick s).tia.hmoveExt = false) ∧
    (s.tia.hclock.val ≠ 227 →
      (tiaTick s).tia.line = s.tia.line ∧ (tiaTick s).cpu = s.cpu ∧ (tiaTick s).frame = s.frame ∧
      (tiaTick s).tia.hmoveExt = s.tia.hmoveExt) ∧
    (∀ f ∈ collisionLatches, f (tiaTick s).collision =
      (f s.collision ||
        s.cfg.collisionOracle.any (fun e => decide (e.line = s.tia.line ∧ e.hclock = s.tia.hclock) && f e.latches))) ∧
    (tiaTick s).tia.regs = s.tia.regs ∧
    let b := s.tia.ball
    let blank := s.tia.hclock.val < 68 ∨ s.tia.hmoveExt = true ∧ s.tia.hclock.val < 76
    let width : Int := match b.width with | .w1 => 1 | .w2 => 2 | .w4 => 4 | .w8 => 8
    let enabled := if b.vdel then b.enaOld else b.enaNew
    let count (c : Ball) : Ball :=
      if c.counter.val = 159 then { c with counter := 0, rendering := true, renderCounter := -4 }
      else { c with counter := c.counter + 1 }
    let drawn : Ball :=
      { b with
        pixel := decide (b.rendering = true ∧ 0 ≤ b.renderCounter ∧ b.renderCounter < width ∧ enabled = true)
        renderCounter := if b.rendering then b.renderCounter + 1 else b.renderCounter
        rendering := decide (b.rendering = true ∧ b.renderCounter + 1 < width) }
    let shown : Ball := if blank then { b with pixel := false } else count drawn
    let moves := s.tia.mactive = true ∧ s.tia.hclock.val % 4 = 0
    (¬ moves →
      (tiaTick s).tia.ball = shown ∧ (tiaTick s).tia.mclock = s.tia.mclock ∧
      (tiaTick s).tia.mactive = s.tia.mactive) ∧
    (moves →
      (tiaTick s).tia.mclock = s.tia.mclock + 1 ∧ (tiaTick s).tia.mactive = decide (s.tia.mclock + 1 ≠ 16) ∧
      (s.tia.mclock = b.hmm.val → (tiaTick s).tia.ball = { shown with moving := false }) ∧
      (s.tia.mclock ≠ b.hmm.val → b.moving = true → blank → (tiaTick s).tia.ball = count shown) ∧
      (s.tia.mclock ≠ b.hmm.val → ¬ (b.moving = true ∧ blank) → (tiaTick s).tia.ball = shown))

/-- RESBL restarts the ball's counters; with the ball enabled and no other write its pixels are then the 5th to the
(4 + width)th of the next 160 pixel ticks (R481, R482). -/
def Obligations.BallAfterResbl : Prop :=
  (∀ b : Ball, b.resbl = { b with counter := 0, rendering := true, renderCounter := -4 }) ∧
  ∀ (b : Ball) (n : Nat), (if b.vdel then b.enaOld else b.enaNew) = true → 1 ≤ n → n ≤ 160 →
    (Ball.pixelTick^[n] b.resbl).pixel = decide (5 ≤ n ∧ (n : Int) ≤ 4 + b.width.pixels)

/-- From reset with no VSYNC write (NTSC, 20 visible overscan lines) the first frame starts at the 91st line, every
later one 313 lines after the one before, and each hands out its buffer once (R466(a), R464, R465); that the factory
gives the numbers 0, 1, 2 and so on is the model's choice (log 20). -/
def Obligations.FramesWithoutVsync : Prop :=
  ∀ (k : Nat),
    let f (n : Nat) : Frame := (Frame.nextLine .ntsc 20)^[n] Frame.reset
    (f (91 + 313 * k)).state = .frame ∧ (f (91 + 313 * k)).lineInState = 0 ∧
    (f (90 + 313 * k)).state ≠ .frame ∧ (f (91 + 313 * k)).emitted = List.range k ∧
    (f (91 + 313 * k)).buffer = some k

/-! ### Cartridge -/

/-- Repeated accesses to a hotspot leave the bank as the first did, for every scheme but F0, and but for the FE latch of
`stack_sniff`, which a sequence of two accesses sets off (R523, R540). -/
def Obligations.HotspotsIdempotent : Prop :=
  ∀ (p : Params) (lip : Addr) (m : BusAddr) (v : Byte) (k : AccessKind) (c : Cart),
    (p.scheme ≠ .f0 →
      (c.directSwitch p lip (cartOffset m)).directSwitch p lip (cartOffset m) =
        c.directSwitch p lip (cartOffset m)) ∧
    (p.scheme ≠ .fe → (c.sniff p m v k).sniff p m v k = c.sniff p m v k)

/-- The schemes that switch inside the access (R522, R524, R531, R533 to R536, R540 to R542): the hotspots of the table
select their banks, F0's advances the bank, E7's select the lower slice and the RAM block, and FE in lip mode follows LIP
bit 13, all before the data is chosen; a read of ROM returns the byte of what is mapped then, and a write there switches
the same way and stores nothing. That FE's bank is chosen before the data is the model's choice (log 15). -/
def Obligations.HotspotSwitches : Prop :=
  ∀ (p : Params) (lip : Addr) (d v : Byte) (m : BusAddr) (c : Cart),
    let o := m.toNat % 4096
    let mapped (image : Nat) (c' : Cart) : Prop := c.read p lip d m = (p.image.read image, c') ∧ c.write p lip m v = c'
    let banked (b : Nat) : Prop := mapped (4096 * b + o) { c with bank := b }
    let overlay := if p.superChip then 256 else 0
    (∀ row ∈ [(Scheme.f8, 0xFF8, 2, overlay), (.f6, 0xFF6, 4, overlay), (.f4, 0xFF4, 8, overlay), (.fa, 0xFF8, 3, 512),
        (.ef, 0xFE0, 16, 0)],
      p.scheme = row.1 → row.2.2.2 ≤ o →
        banked (if row.2.1 ≤ o ∧ o < row.2.1 + row.2.2.1 then o - row.2.1 else c.bank)) ∧
    (p.scheme = .f0 → banked (if o = 0xFF0 then (c.bank + 1) % 16 else c.bank)) ∧
    (p.scheme = .fe → banked (if p.feMode = .lip then (if lip.getLsbD 13 then 0 else 1) else c.bank)) ∧
    (p.scheme = .e7 → 0xA00 ≤ o →
      mapped (2048 * 7 + o % 2048)
        { c with
          lower := if 0xFE0 ≤ o ∧ o ≤ 0xFE7 then Fin.ofNat 8 (o - 0xFE0) else c.lower
          ramblk := if 0xFE8 ≤ o ∧ o ≤ 0xFEB then Fin.ofNat 4 (o - 0xFE8) else c.ramblk }) ∧
    (p.scheme = .e7 → o < 0x800 → c.lower ≠ 7 → mapped (2048 * c.lower.val + o) c)

/-- The schemes that switch in the listener, after the access (R524, R525, R537 to R540, R542): what E0, 3F, UA, CV and 3E
map, and how an access of E0, 3F, UA, 3E and FE's `stack_sniff` mode changes the mapping for the next one; no other
scheme's does. Two clauses are the model's choice: FE's latch (log 15), and that a write switches 3E at exactly 0x3E and
0x3F, as R544's row lists them, and not at the addresses below (log 31). -/
def Obligations.ListenerSwitches : Prop :=
  ∀ (p : Params) (lip : Addr) (d v : Byte) (m : BusAddr) (k : AccessKind) (c : Cart),
    let o := m.toNat % 4096
    let mapped (image : Nat) : Prop := c.read p lip d m = (p.image.read image, c) ∧ c.write p lip m v = c
    let next := c.sniff p m v k
    (p.scheme = .e0 →
      mapped (1024 * [c.s0.val, c.s1.val, c.s2.val, 7].getD (o / 1024) 7 + o % 1024) ∧
      next =
        { c with
          s0 := if m.getLsbD 12 ∧ 0xFE0 ≤ o ∧ o ≤ 0xFE7 then Fin.ofNat 8 (o - 0xFE0) else c.s0
          s1 := if m.getLsbD 12 ∧ 0xFE8 ≤ o ∧ o ≤ 0xFEF then Fin.ofNat 8 (o - 0xFE8) else c.s1
          s2 := if m.getLsbD 12 ∧ 0xFF0 ≤ o ∧ o ≤ 0xFF7 then Fin.ofNat 8 (o - 0xFF0) else c.s2 }) ∧
    (p.scheme = .tigervision →
      mapped (if o < 2048 then 2048 * c.bank + o else p.imageSize - 2048 + (o - 2048)) ∧
      next = { c with bank := if k = .write ∧ m.toNat ≤ 0x3F then v.toNat % (p.imageSize / 2048) else c.bank }) ∧
    (p.scheme = .ua →
      mapped (4096 * c.bank + o) ∧
      next =
        { c with
          bank :=
            if m.toNat &&& 0x1260 = 0x0220 then 0 else if m.toNat &&& 0x1260 = 0x0240 then 1 else c.bank }) ∧
    (p.scheme = .cv → 2048 ≤ o → mapped (o - 2048)) ∧
    (p.scheme = .scheme3E →
      (2048 ≤ o → mapped (p.imageSize - 2048 + (o - 2048))) ∧
      (o < 2048 → c.ramBlock = none → mapped (2048 * c.bank + o)) ∧
      (k = .write → m.toNat = 0x3E → next = { c with ramBlock := some (Fin.ofNat 32 v.toNat) }) ∧
      (k = .write → m.toNat = 0x3F → next = { c with bank := v.toNat % (p.imageSize / 2048), ramBlock := none }) ∧
      (k = .read ∨ m.toNat ≠ 0x3E ∧ m.toNat ≠ 0x3F → next = c)) ∧
    (p.scheme = .fe → p.feMode = .stackSniff →
      next =
        { c with
          bank := if c.feArmed then (if v.getLsbD 5 then 0 else 1) else c.bank
          feArmed := decide (m.toNat = 0x01FE) }) ∧
    (p.scheme ∉ [.e0, .tigervision, .ua, .scheme3E, .fe] ∨ p.scheme = .fe ∧ p.feMode = .lip → next = c)

/-- The extra RAM of a cartridge (R532 to R534, R536, R541, R542): SuperChip, FA, E7's two blocks, CV and 3E with a RAM
block mapped. The write port stores, the read port reads the byte stored, a write to the read port stores nothing, and a
read of the write port returns the last bus data and stores it (D27, for the schemes whose rule does not say so). -/
def Obligations.ExtraRam : Prop :=
  ∀ (p : Params) (lip : Addr) (d v : Byte) (m : BusAddr) (c : Cart), c.ram.wf = true →
    let o := m.toNat % 4096
    let writes (i : Nat) : Prop :=
      (c.write p lip m v).ram.read i = v ∧ (c.read p lip d m).1 = d ∧ (c.read p lip d m).2.ram.read i = d ∧
      ∀ j, j ≠ i → (c.write p lip m v).ram.read j = c.ram.read j ∧ (c.read p lip d m).2.ram.read j = c.ram.read j
    let reads (i : Nat) : Prop := (c.write p lip m v).ram = c.ram ∧ c.read p lip d m = (c.ram.read i, c)
    (p.scheme ∈ [.f8, .f6, .f4] → p.superChip = true →
      (o < 0x80 → writes o) ∧ (0x80 ≤ o → o < 0x100 → reads (o - 0x80))) ∧
    (p.scheme = .fa → (o < 0x100 → writes o) ∧ (0x100 ≤ o → o < 0x200 → reads (o - 0x100))) ∧
    (p.scheme = .e7 →
      (c.lower = 7 → o < 0x400 → writes o) ∧ (c.lower = 7 → 0x400 ≤ o → o < 0x800 → reads (o - 0x400)) ∧
      (0x800 ≤ o → o < 0x900 → writes (1024 + 256 * c.ramblk.val + (o - 0x800))) ∧
      (0x900 ≤ o → o < 0xA00 → reads (1024 + 256 * c.ramblk.val + (o - 0x900)))) ∧
    (p.scheme = .cv → (o < 0x400 → reads o) ∧ (0x400 ≤ o → o < 0x800 → writes (o - 0x400))) ∧
    (p.scheme = .scheme3E → ∀ b, c.ramBlock = some b →
      (o < 0x400 → reads (1024 * b.val + o)) ∧ (0x400 ≤ o → o < 0x800 → writes (1024 * b.val + (o - 0x400))))

/-- Construction (R529 to R544, R550): a refused name builds no machine; a name of R529 to R542 is built from an image of
its scheme's length (for 3F and 3E a multiple of 2048, and not empty, log 30) and refused at any other; what is built has
the scheme, the length and the bytes asked for and every other parameter as it was, and is well formed. -/
def Obligations.ConstructionChecks : Prop :=
  ∀ (name : SchemeName) (bytes : List Byte) (p : Params),
    (name ∈ [SchemeName.dpc, .dpcPlus, .cdf, .fa2, .pp, .supercharger, .econobanking] →
      buildParams name bytes p = .error .refusedScheme) ∧
    (∀ row ∈ [(SchemeName.vanilla2k, Scheme.vanilla2k, 2048), (.vanilla4k, .vanilla4k, 4096), (.f8, .f8, 8192),
        (.f6, .f6, 16384), (.f4, .f4, 32768), (.f0, .f0, 65536), (.fa, .fa, 12288), (.e0, .e0, 8192)] ++
        [(.ua, .ua, 8192), (.fe, .fe, 8192), (.e7, .e7, 16384), (.ef, .ef, 65536), (.cv, .cv, 2048)],
      name = row.1 →
        (bytes.length = row.2.2 → ∃ q, buildParams name bytes p = .ok q ∧ q.scheme = row.2.1) ∧
        (bytes.length ≠ row.2.2 → buildParams name bytes p = .error .wrongLength)) ∧
    (∀ row ∈ [(SchemeName.tigervision, Scheme.tigervision), (.scheme3E, .scheme3E)], name = row.1 →
      (∀ n, bytes.length = 2048 * (n + 1) → ∃ q, buildParams name bytes p = .ok q ∧ q.scheme = row.2) ∧
      (bytes.length = 0 ∨ bytes.length % 2048 ≠ 0 → buildParams name bytes p = .error .wrongLength)) ∧
    (∀ q, buildParams name bytes p = .ok q →
      q.imageSize = bytes.length ∧ (∀ k (h : k < bytes.length), q.image.read k = bytes[k]) ∧
      { q with scheme := p.scheme, imageSize := p.imageSize, image := p.image } = p ∧
      (p.budgetInRange = true → q.wf = true))

/-! ### Reset -/

/-- Machine reset (R600, R601) for every scheme, whatever the draws, the cycle order and the traps' absence: PC is the
little-endian word at 0xFFFC in the reset banks (R529 to R542, R544), I is set, S is the draw minus 3, the other
registers and flags and both RAMs are the draws, the snapshot is cycle 7's, seven board steps have been made; the stored
TIA registers, the motion state, the ports and the direction registers are 0, the ball is R480's, the FrameManager waits
for VSYNC with no buffer, and with an oracle that names none the collision latches are 0 (R487). The PIA's timer holds
draws (R601) and is left open here. The model's choices in it: FE's latch is 0 (log 15) and its `lip` mode reads the
vector from bank 0 (log 36), the pixel is false (log 18), the buffers are numbered from 0 and none is handed out
(log 20), the interrupt-enable bit is 0 (log 5), there is no co-processor (log 22), and a bank register that the
scheme does not have holds its own scheme's reset value (log 38). -/
def Obligations.ResetValues : Prop :=
  ∀ (p : Params) (d : Draws), p.chipTrap = [] →
    let s := machineReset p d
    let vector : Nat :=
      match p.scheme with
      | .vanilla2k | .cv => 0x7FC
      | .vanilla4k | .f8 | .f6 | .f4 | .f0 | .fa | .ua | .fe | .ef => 0xFFC
      | .e0 => 0x1FFC
      | .e7 => 0x3FFC
      | .tigervision | .scheme3E => p.imageSize - 2048 + 0x7FC
    s.regs =
      { a := d.a, x := d.x, y := d.y, s := d.s - 3, lip := d.lip,
        pc := BitVec.ofNat 16 ((p.image.read vector).toNat + 256 * (p.image.read (vector + 1)).toNat),
        p := { n := d.n, v := d.v, d := d.d, i := true, z := d.z, c := d.c } } ∧
    s.cpu.tag = .fetch ∧ s.cpu.halted = false ∧ s.cpu.nmiLatch = false ∧
    s.bus = { lastAddress := 0x1FFD, lastData := p.image.read (vector + 1), accessType := .cartridge } ∧
    s.traps = { log := [], fatal := false } ∧
    s.cart =
      { bank := 0, s0 := 4, s1 := 5, s2 := 6, lower := 0, ramblk := 0, ramBlock := none, feArmed := false,
        ram := d.cartRam } ∧
    s.frame =
      { state := .waitForVsyncStart, lineInState := 0, vblank := false, vsync := false, buffer := none,
        nextBuffer := 0, emitted := [] } ∧
    s.tia.ball =
      { counter := 0, rendering := false, renderCounter := -4, width := .w1, enaNew := false, enaOld := false,
        vdel := false, hmm := 8, moving := false, pixel := false } ∧
    s.tia.hmoveExt = false ∧ s.tia.mactive = false ∧ s.tia.mclock = 0 ∧ (∀ r, tiaReg r s = 0) ∧
    s.pia.ram = d.piaRam ∧ s.pia.outA = 0 ∧ s.pia.dirA = 0 ∧ s.pia.outB = 0 ∧ s.pia.dirB = 0 ∧
    s.pia.irqEnable = false ∧ s.coproc = none ∧ (p.collisionOracle = [] → s.collision = Collisions.none) ∧
    s.tia.line = 0 ∧ s.tia.hclock.val = 7 * (match p.tiaClk with | .one => 1 | .three => 3) ∧
    s.clock = 7 ∧ s.cfg = p
end

