-- ==== Sys2Proof/Laws/Memory.lean ====
section
/-! SUPPORT. The laws of a byte store: a read after a write, the canonical form and the range kept by a write, and equal
reads make equal stores. -/

namespace Sys2Proof

theorem Memory.wf_cons {k : Nat} {b : Byte} {m : Memory} :
    Memory.wf ((k, b) :: m) = true ↔ b ≠ Memory.blank ∧ (∀ c ∈ m, k < c.1) ∧ m.wf = true := by
  simp [Memory.wf, and_assoc]

/-- A store whose cells all lie above an index reads blank there. -/
theorem Memory.read_of_above {m : Memory} {i : Nat} (h : ∀ c ∈ m, i < c.1) : m.read i = Memory.blank := by
  induction m with
  | nil => rfl
  | cons c m ih =>
    obtain ⟨k, b⟩ := c
    have hk : i < k := h (k, b) (by simp)
    simp only [Memory.read, if_neg (show k ≠ i by omega)]
    exact ih (fun c hc => h c (by simp [hc]))

/-- A read after a write to the same index gives the value written. -/
theorem Memory.read_write_same {m : Memory} (h : m.wf = true) (i : Nat) (v : Byte) : (m.write i v).read i = v := by
  induction m with
  | nil =>
    simp only [Memory.write]
    split <;> simp_all [Memory.read]
  | cons c m ih =>
    obtain ⟨k, b⟩ := c
    obtain ⟨hb, hk, hm⟩ := Memory.wf_cons.1 h
    simp only [Memory.write]
    split
    · rename_i hik
      split
      · rename_i hv
        rw [hv]
        exact Memory.read_of_above (fun c hc => by
          rcases List.mem_cons.1 hc with rfl | hc
          · exact hik
          · exact hik.trans (hk c hc))
      · simp [Memory.read]
    · split
      · rename_i hik
        split
        · rename_i hv
          rw [hv]
          exact Memory.read_of_above (fun c hc => by rw [hik]; exact hk c hc)
        · simp [Memory.read]
      · simp only [Memory.read, if_neg (show k ≠ i by omega)]
        exact ih hm

/-- A write leaves every other index alone. -/
theorem Memory.read_write_other (m : Memory) {i j : Nat} (v : Byte) (h : j ≠ i) :
    (m.write i v).read j = m.read j := by
  induction m with
  | nil =>
    simp only [Memory.write]
    split <;> simp [Memory.read, h.symm]
  | cons c m ih =>
    obtain ⟨k, b⟩ := c
    simp only [Memory.write]
    split
    · split <;> simp [Memory.read, h.symm]
    · split
      · rename_i hik
        subst hik
        split <;> simp [Memory.read, h.symm]
      · simp only [Memory.read, ih]

/-- The cells of a written store are the written one and old ones. -/
theorem Memory.mem_write {m : Memory} {i : Nat} {v : Byte} {c : Host.Cell} (h : c ∈ m.write i v) :
    c = (i, v) ∨ c ∈ m := by
  induction m with
  | nil =>
    simp only [Memory.write] at h
    split at h <;> simp_all
  | cons d m ih =>
    obtain ⟨k, b⟩ := d
    simp only [Memory.write] at h
    repeat' split at h
    all_goals simp only [List.mem_cons] at h ⊢
    · exact .inr h
    · exact h
    · exact .inr (.inr h)
    · rcases h with h | h
      · exact .inl h
      · exact .inr (.inr h)
    · rcases h with h | h
      · exact .inr (.inl h)
      · exact (ih h).imp_right .inr

/-- A write keeps the canonical form. -/
theorem Memory.wf_write {m : Memory} (h : m.wf = true) (i : Nat) (v : Byte) : (m.write i v).wf = true := by
  induction m with
  | nil =>
    simp only [Memory.write]
    split
    · rfl
    · rename_i hv
      exact Memory.wf_cons.2 ⟨hv, by simp, rfl⟩
  | cons c m ih =>
    obtain ⟨k, b⟩ := c
    obtain ⟨hb, hk, hm⟩ := Memory.wf_cons.1 h
    simp only [Memory.write]
    split
    · rename_i hik
      split
      · exact h
      · rename_i hv
        refine Memory.wf_cons.2 ⟨hv, fun c hc => ?_, h⟩
        rcases List.mem_cons.1 hc with rfl | hc
        · exact hik
        · exact hik.trans (hk c hc)
    · split
      · rename_i hik
        subst hik
        split
        · exact hm
        · rename_i hv
          exact Memory.wf_cons.2 ⟨hv, hk, hm⟩
      · refine Memory.wf_cons.2 ⟨hb, fun c hc => ?_, ih hm⟩
        rcases Memory.mem_write hc with rfl | hc
        · show k < i
          omega
        · exact hk c hc

theorem Memory.below_iff {m : Memory} {n : Nat} : m.below n = true ↔ ∀ c ∈ m, c.1 < n := by
  simp [Memory.below]

/-- A write below a bound keeps the store below it. -/
theorem Memory.below_write {m : Memory} {n i : Nat} (h : m.below n = true) (hi : i < n) (v : Byte) :
    (m.write i v).below n = true := by
  rw [Memory.below_iff] at h ⊢
  intro c hc
  rcases Memory.mem_write hc with rfl | hc
  · exact hi
  · exact h c hc

/-- Every cell of a store made from bytes lies at or after its first index. -/
theorem Memory.mem_ofBytes {bs : List Byte} {i : Nat} {c : Host.Cell} (h : c ∈ Memory.ofBytes i bs) :
    i ≤ c.1 ∧ c.1 < i + bs.length := by
  induction bs generalizing i with
  | nil => simp [Memory.ofBytes] at h
  | cons b bs ih =>
    simp only [Memory.ofBytes] at h
    split at h
    · have := ih h
      simp only [List.length_cons]
      omega
    · rcases List.mem_cons.1 h with rfl | h
      · simp
      · have := ih h
        simp only [List.length_cons]
        omega

/-- A store made from bytes is in canonical form. -/
theorem Memory.wf_ofBytes (bs : List Byte) (i : Nat) : (Memory.ofBytes i bs).wf = true := by
  induction bs generalizing i with
  | nil => rfl
  | cons b bs ih =>
    simp only [Memory.ofBytes]
    split
    · exact ih _
    · rename_i hb
      exact Memory.wf_cons.2 ⟨hb, fun c hc => (Memory.mem_ofBytes hc).1, ih _⟩

/-- A store made from bytes at 0 lies below their number. -/
theorem Memory.below_ofBytes (bs : List Byte) : (Memory.ofBytes 0 bs).below bs.length = true :=
  Memory.below_iff.2 fun _ hc => by simpa using (Memory.mem_ofBytes hc).2

/-- A store made from bytes reads as those bytes. -/
theorem Memory.read_ofBytes (bs : List Byte) (i k : Nat) (h : k < bs.length) :
    (Memory.ofBytes i bs).read (i + k) = bs[k] := by
  induction bs generalizing i k with
  | nil => simp at h
  | cons b bs ih =>
    simp only [Memory.ofBytes]
    cases k with
    | zero =>
      split
      · rename_i hb
        simp only [Nat.add_zero, List.getElem_cons_zero, hb]
        exact Memory.read_of_above fun c hc => (Memory.mem_ofBytes hc).1
      · simp [Memory.read]
    | succ k =>
      have h' : k < bs.length := by simpa using h
      have := ih (i + 1) k h'
      rw [show i + 1 + k = i + (k + 1) by omega] at this
      split
      · simpa using this
      · simpa [Memory.read] using this

/-- Two stores in canonical form that read alike are equal. -/
theorem Memory.ext_read {m n : Memory} (hm : m.wf = true) (hn : n.wf = true) (h : ∀ i, m.read i = n.read i) :
    m = n := by
  induction m generalizing n with
  | nil =>
    cases n with
    | nil => rfl
    | cons d n =>
      obtain ⟨k, b⟩ := d
      exact absurd (by simpa [Memory.read] using h k) (Memory.wf_cons.1 hn).1.symm
  | cons c m ih =>
    obtain ⟨i, a⟩ := c
    obtain ⟨ha, hi, hm'⟩ := Memory.wf_cons.1 hm
    cases n with
    | nil => exact absurd (by simpa [Memory.read] using h i) ha
    | cons d n =>
      obtain ⟨k, b⟩ := d
      obtain ⟨hb, hk, hn'⟩ := Memory.wf_cons.1 hn
      have hik : i = k := by
        rcases Nat.lt_trichotomy i k with hlt | heq | hgt
        · have h0 : Memory.read ((k, b) :: n) i = Memory.blank := Memory.read_of_above fun c hc => by
            rcases List.mem_cons.1 hc with rfl | hc
            · exact hlt
            · exact hlt.trans (hk c hc)
          exact absurd (by simpa [Memory.read] using (h i).trans h0) ha
        · exact heq
        · have h0 : Memory.read ((i, a) :: m) k = Memory.blank := Memory.read_of_above fun c hc => by
            rcases List.mem_cons.1 hc with rfl | hc
            · exact hgt
            · exact hgt.trans (hi c hc)
          exact absurd (by simpa [Memory.read] using (h k).symm.trans h0) hb
      subst hik
      have hab : a = b := by simpa [Memory.read] using h i
      subst hab
      rw [ih hm' hn' fun j => ?_]
      by_cases hj : i = j
      · subst hj
        rw [Memory.read_of_above hi, Memory.read_of_above hk]
      · simpa [Memory.read, hj] using h j

end Sys2Proof
end

