-- ==== Sys2Proof/Laws/Ticks.lean ====
section
/-! SUPPORT. What time alone changes: the PIA and TIA ticks, the parts of a board step and a halt leave `still` alone.
Every access that waits for its slot is later reduced to the bus access by these lemmas. -/

namespace Sys2Proof.Machine

/-- What no tick and no waiting changes. -/
structure Still where
  stored : Stored
  regs : Regs
  bus : Bus
  cart : Cart
  traps : Traps
  lat : Latches

/-- What no tick changes, of a state. -/
def State.still (s : State) : Still :=
  { stored := s.stored, regs := s.regs, bus := s.bus, cart := s.cart, traps := s.traps, lat := s.cpu.lat }

/-- Two states that agree in all that no tick changes agree in each part of it. -/
structure SameStill (t s : State) : Prop where
  stored : t.stored = s.stored
  regs : t.regs = s.regs
  bus : t.bus = s.bus
  cart : t.cart = s.cart
  traps : t.traps = s.traps
  lat : t.cpu.lat = s.cpu.lat

theorem sameStill {t s : State} (h : t.still = s.still) : SameStill t s :=
  ⟨congrArg Still.stored h, congrArg Still.regs h, congrArg Still.bus h, congrArg Still.cart h,
    congrArg Still.traps h, congrArg Still.lat h⟩

/-- Equal `still` gives equal parameters. -/
theorem cfg_of_still {t s : State} (h : t.still = s.still) : t.cfg = s.cfg :=
  congrArg (fun x => x.stored.cfg) h

/-! ### One lemma per tick -/

@[simp] theorem Pia.tick_ram (p : Pia) : p.tick.ram = p.ram := by
  simp only [Pia.tick]; repeat' split
  all_goals rfl

theorem still_piaTick (s : State) : (piaTick s).still = s.still := by
  simp only [piaTick, Pia.tick]; repeat' split
  all_goals rfl

theorem Frame.nextLine_flags (tv : TvMode) (n : Nat) (f : Frame) :
    (f.nextLine tv n).vsync = f.vsync ∧ (f.nextLine tv n).vblank = f.vblank := by
  simp only [Frame.nextLine]
  repeat' split
  all_goals simp [Frame.goto, Frame.startFrame, Frame.finalize]

/-- The ball's fields that are registers. -/
structure BallRegs where
  width : BallWidth
  enaNew : Bool
  enaOld : Bool
  vdel : Bool
  hmm : Fin 16

def Ball.kept (b : Ball) : BallRegs :=
  { width := b.width, enaNew := b.enaNew, enaOld := b.enaOld, vdel := b.vdel, hmm := b.hmm }

theorem Ball.kept_counterStep (b : Ball) : b.counterStep.kept = b.kept := by
  simp only [Ball.counterStep]; split <;> rfl

theorem Ball.kept_pixelTick (b : Ball) : b.pixelTick.kept = b.kept := by
  simp only [Ball.pixelTick, Ball.kept_counterStep]; split <;> rfl

theorem Tia.objects_kept (t : Tia) : t.objects.ball.kept = t.ball.kept ∧ t.objects.regs = t.regs ∧
    t.objects.hclock = t.hclock ∧ t.objects.line = t.line ∧ t.objects.hmoveExt = t.hmoveExt := by
  have h1 : ∀ u : Tia, u.movementTick.ball.kept = u.ball.kept ∧ u.movementTick.regs = u.regs ∧
      u.movementTick.hclock = u.hclock ∧ u.movementTick.line = u.line ∧ u.movementTick.hmoveExt = u.hmoveExt := by
    intro u
    refine ⟨?_, rfl, rfl, rfl, rfl⟩
    simp only [Tia.movementTick]
    repeat' split
    · rfl
    · exact Ball.kept_counterStep _
    · rfl
  have h2 : (if t.hblank then { t.ball with pixel := false } else t.ball.pixelTick).kept = t.ball.kept := by
    split
    · rfl
    · exact Ball.kept_pixelTick _
  simp only [Tia.objects]
  split
  · obtain ⟨a, b, c, d, e⟩ := h1 { t with ball := if t.hblank then { t.ball with pixel := false } else t.ball.pixelTick }
    exact ⟨a.trans h2, b, c, d, e⟩
  · exact ⟨h2, rfl, rfl, rfl, rfl⟩

theorem still_tiaTick (s : State) : (tiaTick s).still = s.still := by
  obtain ⟨hk, hr, -⟩ := Tia.objects_kept s.tia
  obtain ⟨hv, hb⟩ := Frame.nextLine_flags s.cfg.tvMode s.cfg.visibleOverscan s.frame
  have h1 : s.tia.objects.ball.width = s.tia.ball.width := congrArg BallRegs.width hk
  have h2 : s.tia.objects.ball.enaNew = s.tia.ball.enaNew := congrArg BallRegs.enaNew hk
  have h3 : s.tia.objects.ball.enaOld = s.tia.ball.enaOld := congrArg BallRegs.enaOld hk
  have h4 : s.tia.objects.ball.vdel = s.tia.ball.vdel := congrArg BallRegs.vdel hk
  have h5 : s.tia.objects.ball.hmm = s.tia.ball.hmm := congrArg BallRegs.hmm hk
  simp only [tiaTick]
  split <;> simp only [State.still, State.stored, State.regs, hr, hv, hb, h1, h2, h3, h4, h5]

theorem still_tiaTicks (s : State) : (tiaTicks s).still = s.still := by
  unfold tiaTicks
  split <;> simp only [still_tiaTick]

theorem still_withNmi (s : State) (b : Bool) : (s.withNmi b).still = s.still := rfl

theorem still_latchNmi (s : State) : (latchNmi s).still = s.still := by
  unfold latchNmi
  split <;> rfl

theorem still_beginSlot (s : State) : (beginSlot s).still = s.still := by
  simp only [beginSlot]
  split <;> simp only [still_piaTick, still_tiaTicks, still_latchNmi]

theorem still_clock (s : State) (n : Nat) : ({ s with clock := n } : State).still = s.still := rfl

theorem still_endSlot (s : State) : (endSlot s).still = s.still := by
  simp only [endSlot]
  rw [still_clock]
  split <;> simp only [still_piaTick, still_tiaTicks]

theorem still_idleSlot (s : State) : (idleSlot s).still = s.still := by
  unfold idleSlot
  rw [still_endSlot, still_beginSlot]

theorem still_awaitCpu (n : Nat) (s : State) : (awaitCpu n s).still = s.still := by
  induction n generalizing s with
  | zero => exact still_beginSlot s
  | succ n ih =>
    unfold awaitCpu
    split
    · rw [ih, still_idleSlot]
    · exact still_beginSlot s

theorem still_openRead (s : State) : (openRead s).still = s.still := still_awaitCpu _ s

theorem still_openWrite (s : State) : (openWrite s).still = s.still := by
  unfold openWrite
  split
  · exact still_awaitCpu _ s
  · exact still_beginSlot s

theorem still_withTag (s : State) (t : ExecTag) : (s.withTag t).still = s.still := rfl

theorem still_endCycle (s : State) : (endCycle s).still = s.still := by
  unfold endCycle
  split
  · rfl
  · rw [still_endSlot, still_withTag]

/-! ### The parts, as rewriting rules -/

@[simp] theorem regs_openRead (s : State) : (openRead s).regs = s.regs := (sameStill (still_openRead s)).regs
@[simp] theorem stored_openRead (s : State) : (openRead s).stored = s.stored := (sameStill (still_openRead s)).stored
@[simp] theorem cfg_openRead (s : State) : (openRead s).cfg = s.cfg := cfg_of_still (still_openRead s)
@[simp] theorem bus_openRead (s : State) : (openRead s).bus = s.bus := (sameStill (still_openRead s)).bus
@[simp] theorem cart_openRead (s : State) : (openRead s).cart = s.cart := (sameStill (still_openRead s)).cart
@[simp] theorem traps_openRead (s : State) : (openRead s).traps = s.traps := (sameStill (still_openRead s)).traps

@[simp] theorem regs_openWrite (s : State) : (openWrite s).regs = s.regs := (sameStill (still_openWrite s)).regs
@[simp] theorem stored_openWrite (s : State) : (openWrite s).stored = s.stored :=
  (sameStill (still_openWrite s)).stored
@[simp] theorem cfg_openWrite (s : State) : (openWrite s).cfg = s.cfg := cfg_of_still (still_openWrite s)
@[simp] theorem bus_openWrite (s : State) : (openWrite s).bus = s.bus := (sameStill (still_openWrite s)).bus
@[simp] theorem cart_openWrite (s : State) : (openWrite s).cart = s.cart := (sameStill (still_openWrite s)).cart
@[simp] theorem traps_openWrite (s : State) : (openWrite s).traps = s.traps := (sameStill (still_openWrite s)).traps

@[simp] theorem regs_endCycle (s : State) : (endCycle s).regs = s.regs := (sameStill (still_endCycle s)).regs
@[simp] theorem stored_endCycle (s : State) : (endCycle s).stored = s.stored := (sameStill (still_endCycle s)).stored
@[simp] theorem cfg_endCycle (s : State) : (endCycle s).cfg = s.cfg := cfg_of_still (still_endCycle s)
@[simp] theorem bus_endCycle (s : State) : (endCycle s).bus = s.bus := (sameStill (still_endCycle s)).bus
@[simp] theorem cart_endCycle (s : State) : (endCycle s).cart = s.cart := (sameStill (still_endCycle s)).cart
@[simp] theorem traps_endCycle (s : State) : (endCycle s).traps = s.traps := (sameStill (still_endCycle s)).traps

/-- The stored bytes are parts of `still`. -/
theorem byteAt_of_still {t s : State} (h : t.still = s.still) (c : Chip) (i : Nat) : byteAt c i t = byteAt c i s := by
  have hs := sameStill h
  cases c
  · exact congrArg (fun m : Memory => m.read i) (congrArg Stored.tiaRegs hs.stored)
  · exact congrArg (fun m : Memory => m.read i) (congrArg Stored.ram hs.stored)
  · exact congrArg (fun c : Cart => c.ram.read i) hs.cart

/-- The bytes a write would store to depend on `still` alone. -/
theorem storeTargets_of_still {t s : State} (h : t.still = s.still) (a : Addr) : storeTargets a t = storeTargets a s := by
  have hs := sameStill h
  have hl : t.cpu.lip = s.cpu.lip := congrArg Regs.lip hs.regs
  unfold storeTargets
  rw [hs.cart, cfg_of_still h, hl]

end Sys2Proof.Machine
end

