-- ==== Sys2Proof/Laws/Access.lean ====
section
/-! SUPPORT. What one bus access and one CPU cycle can do: a read leaves registers and stored bytes alone, a write
stores at its targets only, and a live machine stays live. -/

namespace Sys2Proof.Machine

/-! ### The cartridge -/

@[simp] theorem Cart.ram_hotspots (a n o : Nat) (c : Cart) : (c.hotspots a n o).ram = c.ram := by
  unfold Cart.hotspots; split <;> rfl

@[simp] theorem Cart.ram_directSwitch (p : Params) (lip : Addr) (o : Nat) (c : Cart) :
    (c.directSwitch p lip o).ram = c.ram := by
  unfold Cart.directSwitch
  split <;> (try simp only [Cart.ram_hotspots]) <;> repeat' split
  all_goals rfl

@[simp] theorem Cart.ram_sniff (p : Params) (m : BusAddr) (v : Byte) (k : AccessKind) (c : Cart) :
    (c.sniff p m v k).ram = c.ram := by
  simp only [Cart.sniff]
  repeat' split
  all_goals rfl

/-- Outside every write-port window no bank selection maps a write port. -/
theorem Cart.port_of_quiet {p : Params} {a : Addr} (hq : inWritePort p a = false)
    (h12 : (maskAddr a).getLsbD 12 = true) (c : Cart) (i : Nat) :
    c.port p (cartOffset (maskAddr a)) ≠ .ramWrite i := by
  simp only [inWritePort, h12, Bool.true_and] at hq
  intro h
  unfold Cart.port at h
  split at h <;> rename_i hs <;> simp only [hs] at hq
  all_goals first
    | (simp at h; done)
    | (simp only [overlayPort] at h
       simp only [Bool.and_eq_false_iff, decide_eq_false_iff_not] at hq
       repeat' split at h
       all_goals first
         | (simp at h; done)
         | simp_all)
    | (repeat' split at h
       all_goals first
         | (simp at h; done)
         | simp_all)

/-- A read that can store nothing leaves the extra RAM alone. -/
theorem Cart.ram_read_of_quiet {p : Params} {a : Addr} (hq : inWritePort p a = false)
    (h12 : (maskAddr a).getLsbD 12 = true) (lip : Addr) (d : Byte) (c : Cart) :
    (c.read p lip d (maskAddr a)).2.ram = c.ram := by
  simp only [Cart.read]
  split
  · simp
  · simp
  · rename_i i h
    exact absurd h (Cart.port_of_quiet hq h12 _ i)

/-! ### The bus -/

theorem afterAccess_traps_fatal {k : AccessKind} {m : BusAddr} {v : Byte} {s : State}
    (h : s.cfg.trapHandler = true ∨ s.cfg.chipTrap = []) (hf : s.traps.fatal = false) :
    (afterAccess k m v s).traps.fatal = false := by
  simp only [afterAccess]
  split
  · rename_i ht
    rcases h with h | h
    · simp [raiseTrap, hf, h]
    · simp [chipTraps, h] at ht
  · exact hf

/-- What the listeners and the trap channel leave alone. -/
theorem afterAccess_parts (k : AccessKind) (m : BusAddr) (v : Byte) (s : State) :
    (afterAccess k m v s).cpu = s.cpu ∧ (afterAccess k m v s).stored = s.stored ∧
    (afterAccess k m v s).cart = s.cart.sniff s.cfg m v k ∧ (afterAccess k m v s).pia = s.pia ∧
    (afterAccess k m v s).tia = s.tia ∧ (afterAccess k m v s).frame = s.frame ∧
    (afterAccess k m v s).collision = s.collision ∧ (afterAccess k m v s).clock = s.clock ∧
    (afterAccess k m v s).bus = { lastAddress := m, lastData := v, accessType := route m } := by
  simp only [afterAccess]
  split
  · simp only [raiseTrap]
    split <;> exact ⟨rfl, rfl, rfl, rfl, rfl, rfl, rfl, rfl, rfl⟩
  · exact ⟨rfl, rfl, rfl, rfl, rfl, rfl, rfl, rfl, rfl⟩

theorem piaRead_parts (m : BusAddr) (l : Lines) (p : Pia) :
    (piaRead m l p).2 = p ∨ (piaRead m l p).2 = { p with flag := false } := by
  simp only [piaRead]
  repeat' split
  all_goals first
    | exact .inl rfl
    | exact .inr rfl

/-- A chip's part of a read changes the timer flag or the cartridge, nothing else. -/
theorem chipRead_parts (m : BusAddr) (s : State) :
    (chipRead m s).2.cpu = s.cpu ∧ (chipRead m s).2.stored = s.stored ∧ (chipRead m s).2.cfg = s.cfg ∧
    (chipRead m s).2.traps = s.traps ∧ (chipRead m s).2.clock = s.clock := by
  simp only [chipRead]
  split
  · exact ⟨rfl, rfl, rfl, rfl, rfl⟩
  · rcases piaRead_parts m (linesAt s.cfg.inputs s.clock) s.pia with h | h <;>
      simp only [State.stored, h, and_self]
  · exact ⟨rfl, rfl, rfl, rfl, rfl⟩

@[simp] theorem cpu_busRead (a : Addr) (s : State) : (busRead a s).2.cpu = s.cpu := by
  simp only [busRead, (afterAccess_parts _ _ _ _).1, (chipRead_parts _ _).1]

@[simp] theorem stored_busRead (a : Addr) (s : State) : (busRead a s).2.stored = s.stored := by
  simp only [busRead, (afterAccess_parts _ _ _ _).2.1, (chipRead_parts _ _).2.1]

@[simp] theorem cfg_busRead (a : Addr) (s : State) : (busRead a s).2.cfg = s.cfg :=
  congrArg Stored.cfg (stored_busRead a s)

@[simp] theorem clock_busRead (a : Addr) (s : State) : (busRead a s).2.clock = s.clock := by
  simp only [busRead, (afterAccess_parts _ _ _ _).2.2.2.2.2.2.2.1, (chipRead_parts _ _).2.2.2.2]

@[simp] theorem regs_busRead (a : Addr) (s : State) : (busRead a s).2.regs = s.regs := by
  simp only [State.regs, cpu_busRead]

@[simp] theorem lastData_busRead (a : Addr) (s : State) : (busRead a s).2.bus.lastData = (busRead a s).1 := by
  simp only [busRead, (afterAccess_parts _ _ _ _).2.2.2.2.2.2.2.2]

theorem fatal_busRead {a : Addr} {s : State} (h : Live s) : (busRead a s).2.traps.fatal = false := by
  obtain ⟨-, -, hc, ht, -⟩ := chipRead_parts (maskAddr a) s
  exact afterAccess_traps_fatal (by rw [hc]; exact h.2) (by rw [ht]; exact h.1)

theorem live_busRead {a : Addr} {s : State} (h : Live s) : Live (busRead a s).2 :=
  ⟨fatal_busRead h, by rw [cfg_busRead]; exact h.2⟩

/-- A read that can store nothing leaves the extra RAM alone. -/
theorem cartRam_busRead {a : Addr} {s : State} (hq : inWritePort s.cfg a = false) :
    (busRead a s).2.cart.ram = s.cart.ram := by
  simp only [busRead, (afterAccess_parts _ _ _ _).2.2.1, Cart.ram_sniff]
  simp only [chipRead]
  split
  · rfl
  · rfl
  · rename_i h
    have h12 : (maskAddr a).getLsbD 12 = true := by
      simp only [route] at h
      split at h
      · assumption
      · split at h <;> simp at h
    exact Cart.ram_read_of_quiet hq h12 _ _ _

/-! ### Writes -/

theorem tiaEffect_parts (reg : Nat) (v : Byte) (s : State) :
    (tiaEffect reg v s).regs = s.regs ∧ (tiaEffect reg v s).cfg = s.cfg ∧ (tiaEffect reg v s).traps = s.traps ∧
    (tiaEffect reg v s).cart = s.cart ∧ (tiaEffect reg v s).pia = s.pia ∧ (tiaEffect reg v s).clock = s.clock ∧
    (tiaEffect reg v s).bus = s.bus ∧ (tiaEffect reg v s).coproc = s.coproc ∧
    (tiaEffect reg v s).cpu = { s.cpu with halted := s.cpu.halted || reg == 2 } ∧
    (reg ≠ 0x2B → (tiaEffect reg v s).tia.regs = s.tia.regs) := by
  by_cases h2 : reg = 2
  · subst h2
    simp [tiaEffect, State.regs]
  · have hb : (reg == 2) = false := by simpa using h2
    simp only [hb, Bool.or_false]
    unfold tiaEffect
    split <;> simp_all [State.regs]

theorem tiaWrite_parts (m : BusAddr) (v : Byte) (s : State) :
    (tiaWrite m v s).regs = s.regs ∧ (tiaWrite m v s).cfg = s.cfg ∧ (tiaWrite m v s).traps = s.traps ∧
    (tiaWrite m v s).cart = s.cart ∧ (tiaWrite m v s).pia = s.pia ∧ (tiaWrite m v s).clock = s.clock ∧
    (tiaWrite m v s).bus = s.bus ∧ (tiaWrite m v s).coproc = s.coproc ∧
    (tiaWrite m v s).cpu = { s.cpu with halted := s.cpu.halted || m.toNat % 64 == 2 } := by
  obtain ⟨h1, h2, h3, h4, h5, h6, h7, h8, h9, -⟩ := tiaEffect_parts (m.toNat % 64) v
    (if tiaStores (m.toNat % 64) then { s with tia := { s.tia with regs := s.tia.regs.write (m.toNat % 64) v } } else s)
  simp only [tiaWrite]
  rw [h1, h2, h3, h4, h5, h6, h7, h8, h9]
  split <;> exact ⟨rfl, rfl, rfl, rfl, rfl, rfl, rfl, rfl, rfl⟩

theorem chipWrite_parts (m : BusAddr) (v : Byte) (s : State) :
    (chipWrite m v s).regs = s.regs ∧ (chipWrite m v s).cfg = s.cfg ∧ (chipWrite m v s).traps = s.traps ∧
    (chipWrite m v s).clock = s.clock ∧ (chipWrite m v s).coproc = s.coproc ∧
    (chipWrite m v s).cpu =
      { s.cpu with halted := s.cpu.halted || (route m == .tia && m.toNat % 64 == 2) } := by
  unfold chipWrite
  split
  · rename_i h
    obtain ⟨h1, h2, h3, -, -, h6, -, h8, h9⟩ := tiaWrite_parts m v s
    exact ⟨h1, h2, h3, h6, h8, by rw [h9, h]; rfl⟩
  · rename_i h
    exact ⟨rfl, rfl, rfl, rfl, rfl, by rw [h, show (Chip.pia == Chip.tia) = false from rfl]; simp⟩
  · rename_i h
    exact ⟨rfl, rfl, rfl, rfl, rfl, by rw [h, show (Chip.cartridge == Chip.tia) = false from rfl]; simp⟩

@[simp] theorem cpu_busWrite (a : Addr) (v : Byte) (s : State) :
    (busWrite a v s).cpu = { s.cpu with halted := s.cpu.halted || hitsWsync a } := by
  simp only [busWrite, (afterAccess_parts _ _ _ _).1, (chipWrite_parts _ _ _).2.2.2.2.2, hitsWsync]

@[simp] theorem cfg_busWrite (a : Addr) (v : Byte) (s : State) : (busWrite a v s).cfg = s.cfg := by
  have h := congrArg Stored.cfg (afterAccess_parts .write (maskAddr a) v (chipWrite (maskAddr a) v s)).2.1
  exact h.trans (chipWrite_parts _ _ _).2.1

@[simp] theorem coproc_busWrite (a : Addr) (v : Byte) (s : State) : (busWrite a v s).coproc = s.coproc := by
  have h := congrArg Stored.coproc (afterAccess_parts .write (maskAddr a) v (chipWrite (maskAddr a) v s)).2.1
  exact h.trans (chipWrite_parts _ _ _).2.2.2.2.1

@[simp] theorem clock_busWrite (a : Addr) (v : Byte) (s : State) : (busWrite a v s).clock = s.clock := by
  simp only [busWrite, (afterAccess_parts _ _ _ _).2.2.2.2.2.2.2.1, (chipWrite_parts _ _ _).2.2.2.1]

@[simp] theorem regs_busWrite (a : Addr) (v : Byte) (s : State) : (busWrite a v s).regs = s.regs := by
  simp only [State.regs, cpu_busWrite]

theorem fatal_busWrite {a : Addr} {v : Byte} {s : State} (h : Live s) : (busWrite a v s).traps.fatal = false := by
  obtain ⟨-, hc, ht, -⟩ := chipWrite_parts (maskAddr a) v s
  exact afterAccess_traps_fatal (by rw [hc]; exact h.2) (by rw [ht]; exact h.1)

theorem live_busWrite {a : Addr} {v : Byte} {s : State} (h : Live s) : Live (busWrite a v s) :=
  ⟨fatal_busWrite h, by rw [cfg_busWrite]; exact h.2⟩

/-- The bytes after the listeners and traps of a write are those after the chip's part. -/
theorem byteAt_afterAccess (k : AccessKind) (m : BusAddr) (v : Byte) (s : State) (c : Chip) (i : Nat) :
    byteAt c i (afterAccess k m v s) = byteAt c i s := by
  obtain ⟨-, -, hc, hp, ht, -⟩ := afterAccess_parts k m v s
  cases c
  · simp only [byteAt, tiaReg, ht]
  · simp only [byteAt, hp]
  · simp only [byteAt, hc, Cart.ram_sniff]

theorem piaWrite_ram (m : BusAddr) (v : Byte) (p : Pia) :
    (piaWrite m v p).ram = if m.getLsbD 9 then p.ram else p.ram.write (piaRamIndex m) v := by
  simp only [piaWrite]
  cases m.getLsbD 9
  · rfl
  · simp only [Bool.not_true]
    repeat' split
    all_goals first
      | rfl
      | simp_all

/-- A write stores at its targets only. -/
theorem byteAt_busWrite_other {a : Addr} {v : Byte} {s : State} {c : Chip} {i : Nat}
    (h : (c, i) ∉ storeTargets a s) : byteAt c i (busWrite a v s) = byteAt c i s := by
  rw [busWrite, byteAt_afterAccess]
  simp only [storeTargets] at h
  simp only [chipWrite]
  split
  · rename_i hr
    simp only [hr] at h
    obtain ⟨-, -, -, hcart, hpia, -⟩ := tiaWrite_parts (maskAddr a) v s
    cases c
    · simp only [byteAt, tiaReg, tiaWrite]
      split at h
      · rename_i hreg
        have hst : tiaStores ((maskAddr a).toNat % 64) = false := by rw [hreg]; rfl
        simp only [hreg] at hst
        simp only [hreg, hst, tiaEffect]
        simp only [List.mem_cons, Prod.mk.injEq, true_and, List.not_mem_nil, or_false, not_or] at h
        obtain ⟨h0, h1, h2, h3⟩ := h
        simp only [Bool.false_eq_true, if_false]
        rw [Memory.read_write_other _ _ h3, Memory.read_write_other _ _ h2, Memory.read_write_other _ _ h1,
          Memory.read_write_other _ _ h0]
      · rename_i hreg
        rw [(tiaEffect_parts _ v _).2.2.2.2.2.2.2.2.2 hreg]
        split
        · rename_i hst
          simp only [hst, if_true, List.mem_singleton, Prod.mk.injEq, true_and] at h
          exact Memory.read_write_other _ _ h
        · rfl
    · simp only [byteAt, hpia]
    · simp only [byteAt, hcart]
  · rename_i hr
    simp only [hr] at h
    cases c
    · rfl
    · simp only [byteAt, piaWrite_ram]
      split
      · rfl
      · rename_i h9
        simp only [h9, Bool.false_eq_true, if_false, List.mem_singleton, Prod.mk.injEq, true_and] at h
        exact Memory.read_write_other _ _ h
    · rfl
  · rename_i hr
    simp only [hr] at h
    cases c
    · rfl
    · rfl
    · simp only [byteAt, Cart.write]
      split
      · rename_i j hj
        simp only [hj, List.mem_singleton, Prod.mk.injEq, true_and] at h
        simp only [Cart.ram_directSwitch]
        exact Memory.read_write_other _ _ h
      · simp only [Cart.ram_directSwitch]
      · simp only [Cart.ram_directSwitch]

/-- A write to a RAM byte stores the byte. -/
theorem byteAt_busWrite_same {a : Addr} {v : Byte} {s : State} {c : Chip} {i : Nat}
    (hw : (match c with | .tia => s.tia.regs | .pia => s.pia.ram | .cartridge => s.cart.ram).wf = true)
    (h : (c, i) ∈ storeTargets a s) (hm : (maskAddr a).toNat % 64 = 0x2B → route (maskAddr a) ≠ .tia) :
    byteAt c i (busWrite a v s) = v := by
  rw [busWrite, byteAt_afterAccess]
  simp only [storeTargets] at h
  simp only [chipWrite]
  split
  · rename_i hr
    have hreg : (maskAddr a).toNat % 64 ≠ 0x2B := fun e => hm e hr
    simp only [hr, hreg, if_false] at h
    split at h
    · rename_i hst
      obtain ⟨rfl, rfl⟩ := by simpa using h
      simp only [byteAt, tiaReg, tiaWrite, hst, if_true, (tiaEffect_parts _ v _).2.2.2.2.2.2.2.2.2 hreg]
      exact Memory.read_write_same hw _ _
    · simp at h
  · rename_i hr
    simp only [hr] at h
    split at h
    · simp at h
    · rename_i h9
      obtain ⟨rfl, rfl⟩ := by simpa using h
      simp only [byteAt, piaWrite_ram, h9, Bool.false_eq_true, if_false]
      exact Memory.read_write_same hw _ _
  · rename_i hr
    simp only [hr] at h
    split at h
    · rename_i j hj
      obtain ⟨rfl, rfl⟩ := by simpa using h
      simp only [byteAt, Cart.write, hj, Cart.ram_directSwitch]
      exact Memory.read_write_same hw _ _
    · simp at h
    · simp at h

/-! ### One cycle of the CPU -/

theorem live_of_still {t s : State} (h : t.still = s.still) (hs : Live s) : Live t :=
  ⟨by rw [(sameStill h).traps]; exact hs.1, by rw [cfg_of_still h]; exact hs.2⟩

theorem live_openRead {s : State} (h : Live s) : Live (openRead s) := live_of_still (still_openRead s) h

theorem live_endCycle {s : State} (h : Live s) : Live (endCycle s) := live_of_still (still_endCycle s) h

@[simp] theorem regs_readHere (a : Addr) (s : State) : (readHere a s).2.regs = s.regs := by simp [readHere]

@[simp] theorem stored_readHere (a : Addr) (s : State) : (readHere a s).2.stored = s.stored := by simp [readHere]

theorem live_readHere {a : Addr} {s : State} (h : Live s) : Live (readHere a s).2 := live_endCycle (live_busRead h)

/-- A read cycle changes no register. -/
@[simp] theorem regs_readCycle (a : Addr) (s : State) : (readCycle a s).2.regs = s.regs := by
  unfold readCycle
  split
  · rfl
  · rw [regs_readHere, regs_openRead]

/-- A read cycle stores nothing, but for the extra RAM of a cartridge. -/
@[simp] theorem stored_readCycle (a : Addr) (s : State) : (readCycle a s).2.stored = s.stored := by
  unfold readCycle
  split
  · rfl
  · rw [stored_readHere, stored_openRead]

@[simp] theorem cfg_readCycle (a : Addr) (s : State) : (readCycle a s).2.cfg = s.cfg :=
  congrArg Stored.cfg (stored_readCycle a s)

theorem live_readCycle {a : Addr} {s : State} (h : Live s) : Live (readCycle a s).2 := by
  simp only [readCycle, h.1, Bool.false_eq_true, if_false]
  exact live_readHere (live_openRead h)

theorem cartRam_readCycle {a : Addr} {s : State} (hq : inWritePort s.cfg a = false) :
    (readCycle a s).2.cart.ram = s.cart.ram := by
  unfold readCycle
  split
  · rfl
  · simp only [readHere, cart_endCycle]
    rw [cartRam_busRead (by rw [cfg_openRead]; exact hq), cart_openRead]

/-- A read cycle that can store nothing leaves every stored byte alone. -/
theorem byteAt_readCycle {a : Addr} {s : State} (hq : inWritePort s.cfg a = false) (c : Chip) (i : Nat) :
    byteAt c i (readCycle a s).2 = byteAt c i s := by
  have h := stored_readCycle a s
  cases c
  · exact congrArg (fun m : Memory => m.read i) (congrArg Stored.tiaRegs h)
  · exact congrArg (fun m : Memory => m.read i) (congrArg Stored.ram h)
  · simp only [byteAt, cartRam_readCycle hq]

/-- A write cycle changes no register. -/
@[simp] theorem regs_writeCycle (a : Addr) (v : Byte) (s : State) : (writeCycle a v s).regs = s.regs := by
  unfold writeCycle
  split
  · rfl
  · rw [regs_endCycle, regs_busWrite, regs_openWrite]

@[simp] theorem cfg_writeCycle (a : Addr) (v : Byte) (s : State) : (writeCycle a v s).cfg = s.cfg := by
  unfold writeCycle
  split
  · rfl
  · rw [cfg_endCycle, cfg_busWrite, cfg_openWrite]

theorem live_writeCycle {a : Addr} {v : Byte} {s : State} (h : Live s) : Live (writeCycle a v s) := by
  simp only [writeCycle, h.1, Bool.false_eq_true, if_false]
  exact live_endCycle (live_busWrite (live_of_still (still_openWrite s) h))

/-- A write cycle stores at its targets only. -/
theorem byteAt_writeCycle_other {a : Addr} {v : Byte} {s : State} {c : Chip} {i : Nat}
    (h : (c, i) ∉ storeTargets a s) : byteAt c i (writeCycle a v s) = byteAt c i s := by
  unfold writeCycle
  split
  · rfl
  · rw [byteAt_of_still (still_endCycle _), byteAt_busWrite_other, byteAt_of_still (still_openWrite s)]
    rwa [storeTargets_of_still (still_openWrite s)]

/-- A write cycle stores its byte at its target, in a machine that has not stopped. -/
theorem byteAt_writeCycle_same {a : Addr} {v : Byte} {s : State} {c : Chip} {i : Nat} (hf : s.traps.fatal = false)
    (hw : (match c with | .tia => s.tia.regs | .pia => s.pia.ram | .cartridge => s.cart.ram).wf = true)
    (h : (c, i) ∈ storeTargets a s) (hm : (maskAddr a).toNat % 64 = 0x2B → route (maskAddr a) ≠ .tia) :
    byteAt c i (writeCycle a v s) = v := by
  have hs := sameStill (still_openWrite s)
  simp only [writeCycle, hf, Bool.false_eq_true, if_false]
  rw [byteAt_of_still (still_endCycle _)]
  refine byteAt_busWrite_same ?_ (by rwa [storeTargets_of_still (still_openWrite s)]) hm
  have h1 : (openWrite s).tia.regs = s.tia.regs := congrArg Stored.tiaRegs hs.stored
  have h2 : (openWrite s).pia.ram = s.pia.ram := congrArg Stored.ram hs.stored
  cases c
  · simpa only [h1] using hw
  · simpa only [h2] using hw
  · simpa only [hs.cart] using hw

/-! ### How operations and instructions end -/

theorem perform_of_live {s : State} (h : Live s) (f : State → State) : perform f s = f s := by
  simp [perform, h.1]

theorem finish_of_live {s : State} (h : Live s) : finish s = .next (s.withTag .fetch) := by
  simp [finish, h.1]

end Sys2Proof.Machine
end

