-- ==== Sys2Proof/Laws/State.lean ====
section
/-! SUPPORT. One lemma per field per register update of Machine/Ops.lean, all by rfl, and the updates of `regs`. -/

namespace Sys2Proof.Machine

@[simp] theorem cpu_withA (s : State) (v : Byte) : (s.withA v).cpu = { s.cpu with a := v } := rfl
@[simp] theorem cfg_withA (s : State) (v : Byte) : (s.withA v).cfg = s.cfg := rfl
@[simp] theorem clock_withA (s : State) (v : Byte) : (s.withA v).clock = s.clock := rfl
@[simp] theorem bus_withA (s : State) (v : Byte) : (s.withA v).bus = s.bus := rfl
@[simp] theorem tia_withA (s : State) (v : Byte) : (s.withA v).tia = s.tia := rfl
@[simp] theorem collision_withA (s : State) (v : Byte) : (s.withA v).collision = s.collision := rfl
@[simp] theorem frame_withA (s : State) (v : Byte) : (s.withA v).frame = s.frame := rfl
@[simp] theorem pia_withA (s : State) (v : Byte) : (s.withA v).pia = s.pia := rfl
@[simp] theorem cart_withA (s : State) (v : Byte) : (s.withA v).cart = s.cart := rfl
@[simp] theorem coproc_withA (s : State) (v : Byte) : (s.withA v).coproc = s.coproc := rfl
@[simp] theorem traps_withA (s : State) (v : Byte) : (s.withA v).traps = s.traps := rfl

@[simp] theorem cpu_withX (s : State) (v : Byte) : (s.withX v).cpu = { s.cpu with x := v } := rfl
@[simp] theorem cfg_withX (s : State) (v : Byte) : (s.withX v).cfg = s.cfg := rfl
@[simp] theorem clock_withX (s : State) (v : Byte) : (s.withX v).clock = s.clock := rfl
@[simp] theorem bus_withX (s : State) (v : Byte) : (s.withX v).bus = s.bus := rfl
@[simp] theorem tia_withX (s : State) (v : Byte) : (s.withX v).tia = s.tia := rfl
@[simp] theorem collision_withX (s : State) (v : Byte) : (s.withX v).collision = s.collision := rfl
@[simp] theorem frame_withX (s : State) (v : Byte) : (s.withX v).frame = s.frame := rfl
@[simp] theorem pia_withX (s : State) (v : Byte) : (s.withX v).pia = s.pia := rfl
@[simp] theorem cart_withX (s : State) (v : Byte) : (s.withX v).cart = s.cart := rfl
@[simp] theorem coproc_withX (s : State) (v : Byte) : (s.withX v).coproc = s.coproc := rfl
@[simp] theorem traps_withX (s : State) (v : Byte) : (s.withX v).traps = s.traps := rfl

@[simp] theorem cpu_withY (s : State) (v : Byte) : (s.withY v).cpu = { s.cpu with y := v } := rfl
@[simp] theorem cfg_withY (s : State) (v : Byte) : (s.withY v).cfg = s.cfg := rfl
@[simp] theorem clock_withY (s : State) (v : Byte) : (s.withY v).clock = s.clock := rfl
@[simp] theorem bus_withY (s : State) (v : Byte) : (s.withY v).bus = s.bus := rfl
@[simp] theorem tia_withY (s : State) (v : Byte) : (s.withY v).tia = s.tia := rfl
@[simp] theorem collision_withY (s : State) (v : Byte) : (s.withY v).collision = s.collision := rfl
@[simp] theorem frame_withY (s : State) (v : Byte) : (s.withY v).frame = s.frame := rfl
@[simp] theorem pia_withY (s : State) (v : Byte) : (s.withY v).pia = s.pia := rfl
@[simp] theorem cart_withY (s : State) (v : Byte) : (s.withY v).cart = s.cart := rfl
@[simp] theorem coproc_withY (s : State) (v : Byte) : (s.withY v).coproc = s.coproc := rfl
@[simp] theorem traps_withY (s : State) (v : Byte) : (s.withY v).traps = s.traps := rfl

@[simp] theorem cpu_withS (s : State) (v : Byte) : (s.withS v).cpu = { s.cpu with s := v } := rfl
@[simp] theorem cfg_withS (s : State) (v : Byte) : (s.withS v).cfg = s.cfg := rfl
@[simp] theorem clock_withS (s : State) (v : Byte) : (s.withS v).clock = s.clock := rfl
@[simp] theorem bus_withS (s : State) (v : Byte) : (s.withS v).bus = s.bus := rfl
@[simp] theorem tia_withS (s : State) (v : Byte) : (s.withS v).tia = s.tia := rfl
@[simp] theorem collision_withS (s : State) (v : Byte) : (s.withS v).collision = s.collision := rfl
@[simp] theorem frame_withS (s : State) (v : Byte) : (s.withS v).frame = s.frame := rfl
@[simp] theorem pia_withS (s : State) (v : Byte) : (s.withS v).pia = s.pia := rfl
@[simp] theorem cart_withS (s : State) (v : Byte) : (s.withS v).cart = s.cart := rfl
@[simp] theorem coproc_withS (s : State) (v : Byte) : (s.withS v).coproc = s.coproc := rfl
@[simp] theorem traps_withS (s : State) (v : Byte) : (s.withS v).traps = s.traps := rfl

@[simp] theorem cpu_withPc (s : State) (v : Addr) : (s.withPc v).cpu = { s.cpu with pc := v } := rfl
@[simp] theorem cfg_withPc (s : State) (v : Addr) : (s.withPc v).cfg = s.cfg := rfl
@[simp] theorem clock_withPc (s : State) (v : Addr) : (s.withPc v).clock = s.clock := rfl
@[simp] theorem bus_withPc (s : State) (v : Addr) : (s.withPc v).bus = s.bus := rfl
@[simp] theorem tia_withPc (s : State) (v : Addr) : (s.withPc v).tia = s.tia := rfl
@[simp] theorem collision_withPc (s : State) (v : Addr) : (s.withPc v).collision = s.collision := rfl
@[simp] theorem frame_withPc (s : State) (v : Addr) : (s.withPc v).frame = s.frame := rfl
@[simp] theorem pia_withPc (s : State) (v : Addr) : (s.withPc v).pia = s.pia := rfl
@[simp] theorem cart_withPc (s : State) (v : Addr) : (s.withPc v).cart = s.cart := rfl
@[simp] theorem coproc_withPc (s : State) (v : Addr) : (s.withPc v).coproc = s.coproc := rfl
@[simp] theorem traps_withPc (s : State) (v : Addr) : (s.withPc v).traps = s.traps := rfl

@[simp] theorem cpu_withP (s : State) (v : Flags) : (s.withP v).cpu = { s.cpu with p := v } := rfl
@[simp] theorem cfg_withP (s : State) (v : Flags) : (s.withP v).cfg = s.cfg := rfl
@[simp] theorem clock_withP (s : State) (v : Flags) : (s.withP v).clock = s.clock := rfl
@[simp] theorem bus_withP (s : State) (v : Flags) : (s.withP v).bus = s.bus := rfl
@[simp] theorem tia_withP (s : State) (v : Flags) : (s.withP v).tia = s.tia := rfl
@[simp] theorem collision_withP (s : State) (v : Flags) : (s.withP v).collision = s.collision := rfl
@[simp] theorem frame_withP (s : State) (v : Flags) : (s.withP v).frame = s.frame := rfl
@[simp] theorem pia_withP (s : State) (v : Flags) : (s.withP v).pia = s.pia := rfl
@[simp] theorem cart_withP (s : State) (v : Flags) : (s.withP v).cart = s.cart := rfl
@[simp] theorem coproc_withP (s : State) (v : Flags) : (s.withP v).coproc = s.coproc := rfl
@[simp] theorem traps_withP (s : State) (v : Flags) : (s.withP v).traps = s.traps := rfl

@[simp] theorem cpu_withLip (s : State) (v : Addr) : (s.withLip v).cpu = { s.cpu with lip := v } := rfl
@[simp] theorem cfg_withLip (s : State) (v : Addr) : (s.withLip v).cfg = s.cfg := rfl
@[simp] theorem clock_withLip (s : State) (v : Addr) : (s.withLip v).clock = s.clock := rfl
@[simp] theorem bus_withLip (s : State) (v : Addr) : (s.withLip v).bus = s.bus := rfl
@[simp] theorem tia_withLip (s : State) (v : Addr) : (s.withLip v).tia = s.tia := rfl
@[simp] theorem collision_withLip (s : State) (v : Addr) : (s.withLip v).collision = s.collision := rfl
@[simp] theorem frame_withLip (s : State) (v : Addr) : (s.withLip v).frame = s.frame := rfl
@[simp] theorem pia_withLip (s : State) (v : Addr) : (s.withLip v).pia = s.pia := rfl
@[simp] theorem cart_withLip (s : State) (v : Addr) : (s.withLip v).cart = s.cart := rfl
@[simp] theorem coproc_withLip (s : State) (v : Addr) : (s.withLip v).coproc = s.coproc := rfl
@[simp] theorem traps_withLip (s : State) (v : Addr) : (s.withLip v).traps = s.traps := rfl

@[simp] theorem cpu_withNmi (s : State) (v : Bool) : (s.withNmi v).cpu = { s.cpu with nmiLatch := v } := rfl
@[simp] theorem cfg_withNmi (s : State) (v : Bool) : (s.withNmi v).cfg = s.cfg := rfl
@[simp] theorem clock_withNmi (s : State) (v : Bool) : (s.withNmi v).clock = s.clock := rfl
@[simp] theorem bus_withNmi (s : State) (v : Bool) : (s.withNmi v).bus = s.bus := rfl
@[simp] theorem tia_withNmi (s : State) (v : Bool) : (s.withNmi v).tia = s.tia := rfl
@[simp] theorem collision_withNmi (s : State) (v : Bool) : (s.withNmi v).collision = s.collision := rfl
@[simp] theorem frame_withNmi (s : State) (v : Bool) : (s.withNmi v).frame = s.frame := rfl
@[simp] theorem pia_withNmi (s : State) (v : Bool) : (s.withNmi v).pia = s.pia := rfl
@[simp] theorem cart_withNmi (s : State) (v : Bool) : (s.withNmi v).cart = s.cart := rfl
@[simp] theorem coproc_withNmi (s : State) (v : Bool) : (s.withNmi v).coproc = s.coproc := rfl
@[simp] theorem traps_withNmi (s : State) (v : Bool) : (s.withNmi v).traps = s.traps := rfl

@[simp] theorem cpu_withTag (s : State) (v : ExecTag) : (s.withTag v).cpu = { s.cpu with tag := v } := rfl
@[simp] theorem cfg_withTag (s : State) (v : ExecTag) : (s.withTag v).cfg = s.cfg := rfl
@[simp] theorem clock_withTag (s : State) (v : ExecTag) : (s.withTag v).clock = s.clock := rfl
@[simp] theorem bus_withTag (s : State) (v : ExecTag) : (s.withTag v).bus = s.bus := rfl
@[simp] theorem tia_withTag (s : State) (v : ExecTag) : (s.withTag v).tia = s.tia := rfl
@[simp] theorem collision_withTag (s : State) (v : ExecTag) : (s.withTag v).collision = s.collision := rfl
@[simp] theorem frame_withTag (s : State) (v : ExecTag) : (s.withTag v).frame = s.frame := rfl
@[simp] theorem pia_withTag (s : State) (v : ExecTag) : (s.withTag v).pia = s.pia := rfl
@[simp] theorem cart_withTag (s : State) (v : ExecTag) : (s.withTag v).cart = s.cart := rfl
@[simp] theorem coproc_withTag (s : State) (v : ExecTag) : (s.withTag v).coproc = s.coproc := rfl
@[simp] theorem traps_withTag (s : State) (v : ExecTag) : (s.withTag v).traps = s.traps := rfl

@[simp] theorem cpu_withLat (s : State) (v : Latches) : (s.withLat v).cpu = { s.cpu with lat := v } := rfl
@[simp] theorem cfg_withLat (s : State) (v : Latches) : (s.withLat v).cfg = s.cfg := rfl
@[simp] theorem clock_withLat (s : State) (v : Latches) : (s.withLat v).clock = s.clock := rfl
@[simp] theorem bus_withLat (s : State) (v : Latches) : (s.withLat v).bus = s.bus := rfl
@[simp] theorem tia_withLat (s : State) (v : Latches) : (s.withLat v).tia = s.tia := rfl
@[simp] theorem collision_withLat (s : State) (v : Latches) : (s.withLat v).collision = s.collision := rfl
@[simp] theorem frame_withLat (s : State) (v : Latches) : (s.withLat v).frame = s.frame := rfl
@[simp] theorem pia_withLat (s : State) (v : Latches) : (s.withLat v).pia = s.pia := rfl
@[simp] theorem cart_withLat (s : State) (v : Latches) : (s.withLat v).cart = s.cart := rfl
@[simp] theorem coproc_withLat (s : State) (v : Latches) : (s.withLat v).coproc = s.coproc := rfl
@[simp] theorem traps_withLat (s : State) (v : Latches) : (s.withLat v).traps = s.traps := rfl

/-! ### The registers -/

@[simp] theorem regs_withA (s : State) (v : Byte) : (s.withA v).regs = { s.regs with a := v } := rfl
@[simp] theorem regs_withX (s : State) (v : Byte) : (s.withX v).regs = { s.regs with x := v } := rfl
@[simp] theorem regs_withY (s : State) (v : Byte) : (s.withY v).regs = { s.regs with y := v } := rfl
@[simp] theorem regs_withS (s : State) (v : Byte) : (s.withS v).regs = { s.regs with s := v } := rfl
@[simp] theorem regs_withPc (s : State) (v : Addr) : (s.withPc v).regs = { s.regs with pc := v } := rfl
@[simp] theorem regs_withP (s : State) (v : Flags) : (s.withP v).regs = { s.regs with p := v } := rfl
@[simp] theorem regs_withLip (s : State) (v : Addr) : (s.withLip v).regs = { s.regs with lip := v } := rfl
@[simp] theorem regs_withNmi (s : State) (v : Bool) : (s.withNmi v).regs = s.regs := rfl
@[simp] theorem regs_withTag (s : State) (v : ExecTag) : (s.withTag v).regs = s.regs := rfl
@[simp] theorem regs_withLat (s : State) (v : Latches) : (s.withLat v).regs = s.regs := rfl
@[simp] theorem cpu_a (s : State) : s.cpu.a = s.regs.a := rfl
@[simp] theorem cpu_x (s : State) : s.cpu.x = s.regs.x := rfl
@[simp] theorem cpu_y (s : State) : s.cpu.y = s.regs.y := rfl
@[simp] theorem cpu_s (s : State) : s.cpu.s = s.regs.s := rfl
@[simp] theorem cpu_pc (s : State) : s.cpu.pc = s.regs.pc := rfl
@[simp] theorem cpu_p (s : State) : s.cpu.p = s.regs.p := rfl
@[simp] theorem cpu_lip (s : State) : s.cpu.lip = s.regs.lip := rfl

/-! ### The derived updates, by what they update -/

@[simp] theorem withNZ_eq (s : State) (v : Byte) : s.withNZ v = s.withP (setNZ v s.cpu.p) := rfl
@[simp] theorem incPc_eq (s : State) : s.incPc = s.withPc (s.cpu.pc + 1) := rfl
theorem latchOpcode_eq (s : State) (v : Byte) : s.latchOpcode v = s.withLat { s.cpu.lat with opcode := v } := rfl
theorem latchLo_eq (s : State) (v : Byte) : s.latchLo v = s.withLat { s.cpu.lat with lo := v } := rfl
theorem latchHi_eq (s : State) (v : Byte) : s.latchHi v = s.withLat { s.cpu.lat with hi := v } := rfl
theorem latchEa_eq (s : State) (v : Addr) : s.latchEa v = s.withLat { s.cpu.lat with ea := v } := rfl
theorem latchOperand_eq (s : State) (v : Byte) :
    s.latchOperand v = s.withLat { s.cpu.lat with operand := v } := rfl
theorem latchOffset_eq (s : State) (v : Byte) : s.latchOffset v = s.withLat { s.cpu.lat with offset := v } := rfl

@[simp] theorem regs_latchOpcode (s : State) (v : Byte) : (s.latchOpcode v).regs = s.regs := rfl
@[simp] theorem stored_latchOpcode (s : State) (v : Byte) : (s.latchOpcode v).stored = s.stored := rfl
@[simp] theorem regs_latchLo (s : State) (v : Byte) : (s.latchLo v).regs = s.regs := rfl
@[simp] theorem stored_latchLo (s : State) (v : Byte) : (s.latchLo v).stored = s.stored := rfl
@[simp] theorem regs_latchHi (s : State) (v : Byte) : (s.latchHi v).regs = s.regs := rfl
@[simp] theorem stored_latchHi (s : State) (v : Byte) : (s.latchHi v).stored = s.stored := rfl
@[simp] theorem regs_latchEa (s : State) (v : Addr) : (s.latchEa v).regs = s.regs := rfl
@[simp] theorem stored_latchEa (s : State) (v : Addr) : (s.latchEa v).stored = s.stored := rfl
@[simp] theorem regs_latchOperand (s : State) (v : Byte) : (s.latchOperand v).regs = s.regs := rfl
@[simp] theorem stored_latchOperand (s : State) (v : Byte) : (s.latchOperand v).stored = s.stored := rfl
@[simp] theorem regs_latchOffset (s : State) (v : Byte) : (s.latchOffset v).regs = s.regs := rfl
@[simp] theorem stored_latchOffset (s : State) (v : Byte) : (s.latchOffset v).stored = s.stored := rfl
@[simp] theorem stored_withA (s : State) (v : Byte) : (s.withA v).stored = s.stored := rfl
@[simp] theorem stored_withX (s : State) (v : Byte) : (s.withX v).stored = s.stored := rfl
@[simp] theorem stored_withY (s : State) (v : Byte) : (s.withY v).stored = s.stored := rfl
@[simp] theorem stored_withS (s : State) (v : Byte) : (s.withS v).stored = s.stored := rfl
@[simp] theorem stored_withPc (s : State) (v : Addr) : (s.withPc v).stored = s.stored := rfl
@[simp] theorem stored_withP (s : State) (v : Flags) : (s.withP v).stored = s.stored := rfl
@[simp] theorem stored_withLip (s : State) (v : Addr) : (s.withLip v).stored = s.stored := rfl
@[simp] theorem stored_withNmi (s : State) (v : Bool) : (s.withNmi v).stored = s.stored := rfl
@[simp] theorem stored_withTag (s : State) (v : ExecTag) : (s.withTag v).stored = s.stored := rfl
@[simp] theorem stored_withLat (s : State) (v : Latches) : (s.withLat v).stored = s.stored := rfl

end Sys2Proof.Machine
end

