-- ==== Sys2Proof/Laws/Kinds.lean ====
section
/-! SUPPORT. The operand operations of Machine/Operands.lean, said once, and exec sorted by the kinds of R161: the
meaning of every instruction as the shared operation of its kind. -/

namespace Sys2Proof.Machine

/-! ### Operations between cycles -/

/-- An operation on registers alone: it leaves everything but the CPU as it is. -/
structure CpuOnly (f : State → State) : Prop where
  eq : ∀ s, ∃ c, f s = { s with cpu := c }

theorem CpuOnly.stored {f : State → State} (h : CpuOnly f) (s : State) : (f s).stored = s.stored := by
  obtain ⟨c, hc⟩ := h.eq s
  rw [hc]; rfl

theorem CpuOnly.byteAt {f : State → State} (h : CpuOnly f) (s : State) (c : Chip) (i : Nat) :
    byteAt c i (f s) = byteAt c i s := by
  obtain ⟨d, hd⟩ := h.eq s
  rw [hd]
  cases c <;> rfl

theorem CpuOnly.live {f : State → State} (h : CpuOnly f) {s : State} (hs : Live s) : Live (f s) := by
  obtain ⟨c, hc⟩ := h.eq s
  rw [hc]; exact hs

theorem CpuOnly.cfg {f : State → State} (h : CpuOnly f) (s : State) : (f s).cfg = s.cfg := by
  obtain ⟨c, hc⟩ := h.eq s
  rw [hc]

theorem CpuOnly.perform {f : State → State} (h : CpuOnly f) : CpuOnly (perform f) :=
  ⟨fun s => by unfold Machine.perform; split; exacts [⟨s.cpu, rfl⟩, h.eq s]⟩

theorem cpuOnly_latchEa (a : Addr) : CpuOnly (fun t => t.latchEa a) := ⟨fun _ => ⟨_, rfl⟩⟩
theorem cpuOnly_latchOperand (v : Byte) : CpuOnly (fun t => t.latchOperand v) := ⟨fun _ => ⟨_, rfl⟩⟩

/-! ### Forming an effective address -/

theorem dummyRead_eq (a : Addr) (s : State) : dummyRead a s = (readCycle a s).2 := rfl

@[simp] theorem regs_dummyRead (a : Addr) (s : State) : (dummyRead a s).regs = s.regs := regs_readCycle a s
@[simp] theorem stored_dummyRead (a : Addr) (s : State) : (dummyRead a s).stored = s.stored := stored_readCycle a s
@[simp] theorem cfg_dummyRead (a : Addr) (s : State) : (dummyRead a s).cfg = s.cfg := cfg_readCycle a s
theorem live_dummyRead {a : Addr} {s : State} (h : Live s) : Live (dummyRead a s) := live_readCycle h
@[simp] theorem regs_dummyFetch (s : State) : (dummyFetch s).regs = s.regs := regs_readCycle _ s
@[simp] theorem stored_dummyFetch (s : State) : (dummyFetch s).stored = s.stored := stored_readCycle _ s
theorem live_dummyFetch {s : State} (h : Live s) : Live (dummyFetch s) := live_readCycle h
@[simp] theorem regs_dummyStack (s : State) : (dummyStack s).regs = s.regs := regs_readCycle _ s
@[simp] theorem stored_dummyStack (s : State) : (dummyStack s).stored = s.stored := stored_readCycle _ s
theorem live_dummyStack {s : State} (h : Live s) : Live (dummyStack s) := live_readCycle h

@[simp] theorem regs_perform_latchEa (a : Addr) (s : State) : (perform (fun t => t.latchEa a) s).regs = s.regs := by
  unfold perform; split <;> rfl

@[simp] theorem stored_perform_latchEa (a : Addr) (s : State) : (perform (fun t => t.latchEa a) s).stored = s.stored :=
  (cpuOnly_latchEa a).perform.stored s

@[simp] theorem regs_readLow (a : Addr) (s : State) : (readLow a s).2.regs = s.regs := by simp [readLow]
@[simp] theorem stored_readLow (a : Addr) (s : State) : (readLow a s).2.stored = s.stored := by simp [readLow]
@[simp] theorem cfg_readLow (a : Addr) (s : State) : (readLow a s).2.cfg = s.cfg :=
  congrArg Stored.cfg (stored_readLow a s)
theorem live_readLow {a : Addr} {s : State} (h : Live s) : Live (readLow a s).2 :=
  (cpuOnly_latchEa _).perform.live (live_readCycle h)
theorem byteAt_readLow {a : Addr} {s : State} (hq : inWritePort s.cfg a = false) (c : Chip) (k : Nat) :
    byteAt c k (readLow a s).2 = byteAt c k s := by
  rw [readLow, (cpuOnly_latchEa _).perform.byteAt, byteAt_readCycle hq]

@[simp] theorem regs_indexedCycle (b : Bool) (a : Addr) (i : Byte) (s : State) :
    (indexedCycle b a i s).2.regs = s.regs := by
  simp only [indexedCycle]; split
  · exact regs_dummyRead _ _
  · rfl

@[simp] theorem stored_indexedCycle (b : Bool) (a : Addr) (i : Byte) (s : State) :
    (indexedCycle b a i s).2.stored = s.stored := by
  simp only [indexedCycle]; split
  · exact stored_dummyRead _ _
  · rfl

theorem live_indexedCycle {b : Bool} {a : Addr} {i : Byte} {s : State} (h : Live s) :
    Live (indexedCycle b a i s).2 := by
  simp only [indexedCycle]; split
  · exact live_dummyRead h
  · exact h

theorem byteAt_indexedCycle {b : Bool} {a : Addr} {i : Byte} {s : State} (hq : Quiet s (indexedReads b a i))
    (c : Chip) (k : Nat) : byteAt c k (indexedCycle b a i s).2 = byteAt c k s := by
  simp only [indexedCycle]
  split
  · rename_i h
    exact byteAt_readCycle (hq _ (by simp [indexedReads, h])) c k
  · rfl

/-- Forming an address changes no register. -/
@[simp] theorem regs_resolve (b : Bool) (m : MemMode) (s : State) : (resolve b m s).2.regs = s.regs := by
  cases m <;> simp [resolve]

/-- Forming an address stores nothing, but for the extra RAM of a cartridge. -/
@[simp] theorem stored_resolve (b : Bool) (m : MemMode) (s : State) : (resolve b m s).2.stored = s.stored := by
  cases m <;> simp [resolve]

theorem live_resolve {b : Bool} {m : MemMode} {s : State} (h : Live s) : Live (resolve b m s).2 := by
  cases m <;> simp only [resolve]
  · exact h
  · exact live_dummyRead h
  · exact live_dummyRead h
  · exact h
  · exact live_indexedCycle h
  · exact live_indexedCycle h
  · exact (cpuOnly_latchEa _).perform.live (live_readCycle (live_readLow (live_dummyRead h)))
  · exact live_indexedCycle ((cpuOnly_latchEa _).perform.live (live_readCycle (live_readLow h)))

/-- A zero-page address is never in the cartridge's window. -/
theorem inWritePort_zext (p : Params) (b : Byte) : inWritePort p (zext b) = false := by
  have : (maskAddr (zext b)).getLsbD 12 = false := by
    simp [maskAddr, zext]
  simp only [inWritePort, this, Bool.false_and]

theorem cfg_eq_of_stored {t s : State} (h : t.stored = s.stored) : t.cfg = s.cfg := congrArg Stored.cfg h

theorem y_eq_of_regs {t s : State} (h : t.regs = s.regs) : t.cpu.y = s.cpu.y := congrArg Regs.y h

/-- Forming an address by reads that can store nothing leaves every stored byte alone. -/
theorem byteAt_resolve {b : Bool} {m : MemMode} {s : State} (hq : Quiet s (resolveReads b m s)) (c : Chip) (k : Nat) :
    byteAt c k (resolve b m s).2 = byteAt c k s := by
  cases m with
  | zp | abs => rfl
  | zpX zp | zpY zp => exact byteAt_readCycle (inWritePort_zext _ _) c k
  | absX a | absY a => exact byteAt_indexedCycle hq c k
  | indX zp =>
    simp only [resolve]
    rw [(cpuOnly_latchEa _).perform.byteAt, byteAt_readCycle (inWritePort_zext _ _),
      byteAt_readLow (by exact inWritePort_zext _ _), dummyRead_eq, byteAt_readCycle (inWritePort_zext _ _)]
  | indY zp =>
    simp only [resolve]
    rw [byteAt_indexedCycle, (cpuOnly_latchEa _).perform.byteAt, byteAt_readCycle (inWritePort_zext _ _),
      byteAt_readLow (inWritePort_zext _ _)]
    intro a ha
    rw [(cpuOnly_latchEa _).perform.cfg, cfg_readCycle, cfg_readLow]
    exact hq a (by simp only [resolveReads]; exact List.mem_append_right _ ha)

@[simp] theorem regs_readBase (m : MemMode) (s : State) : (readBase m s).regs = s.regs := by simp [readBase]
@[simp] theorem regs_writeBase (m : MemMode) (s : State) : (writeBase m s).regs = s.regs := by simp [writeBase]

@[simp] theorem stored_readBase (m : MemMode) (s : State) : (readBase m s).stored = s.stored := by
  rw [readBase, (cpuOnly_latchEa _).perform.stored, stored_resolve]
@[simp] theorem stored_writeBase (m : MemMode) (s : State) : (writeBase m s).stored = s.stored := by
  rw [writeBase, (cpuOnly_latchEa _).perform.stored, stored_resolve]

theorem live_readBase {m : MemMode} {s : State} (h : Live s) : Live (readBase m s) :=
  (cpuOnly_latchEa _).perform.live (live_resolve h)
theorem live_writeBase {m : MemMode} {s : State} (h : Live s) : Live (writeBase m s) :=
  (cpuOnly_latchEa _).perform.live (live_resolve h)

theorem byteAt_readBase {m : MemMode} {s : State} (hq : Quiet s (resolveReads false m s)) (c : Chip) (k : Nat) :
    byteAt c k (readBase m s) = byteAt c k s := by
  rw [readBase, (cpuOnly_latchEa _).perform.byteAt, byteAt_resolve hq]
theorem byteAt_writeBase {m : MemMode} {s : State} (hq : Quiet s (resolveReads true m s)) (c : Chip) (k : Nat) :
    byteAt c k (writeBase m s) = byteAt c k s := by
  rw [writeBase, (cpuOnly_latchEa _).perform.byteAt, byteAt_resolve hq]

/-! ### Operands of kind R, W and M -/

@[simp] theorem regs_readMem (m : MemMode) (s : State) : (readMem m s).2.regs = s.regs := by simp [readMem]
@[simp] theorem stored_readMem (m : MemMode) (s : State) : (readMem m s).2.stored = s.stored := by simp [readMem]
theorem live_readMem {m : MemMode} {s : State} (h : Live s) : Live (readMem m s).2 := live_readCycle (live_readBase h)

@[simp] theorem regs_readOperand (o : Operand) (s : State) : (readOperand o s).2.regs = s.regs := by
  cases o
  · rfl
  · exact regs_readMem _ s
@[simp] theorem stored_readOperand (o : Operand) (s : State) : (readOperand o s).2.stored = s.stored := by
  cases o
  · rfl
  · exact stored_readMem _ s
theorem live_readOperand {o : Operand} {s : State} (h : Live s) : Live (readOperand o s).2 := by
  cases o
  · exact h
  · exact live_readMem h

/-- An operand read by accesses that can store nothing leaves every stored byte alone. -/
theorem byteAt_readOperand {o : Operand} {s : State} (hq : Quiet s (operandReads o s)) (c : Chip) (k : Nat) :
    byteAt c k (readOperand o s).2 = byteAt c k s := by
  cases o with
  | imm v => rfl
  | mem m =>
    simp only [readOperand, readMem]
    rw [byteAt_readCycle, byteAt_readBase]
    · intro a ha; exact hq a (by simp [operandReads, ha])
    · rw [cfg_eq_of_stored (stored_readBase m s)]
      exact hq _ (by simp [operandReads])

@[simp] theorem regs_writeMem (m : MemMode) (v : Byte) (s : State) : (writeMem m v s).regs = s.regs := by
  simp [writeMem]
theorem live_writeMem {m : MemMode} {v : Byte} {s : State} (h : Live s) : Live (writeMem m v s) :=
  live_writeCycle (live_writeBase h)

/-- A store changes its target bytes only, where the reads before it can store nothing. -/
theorem byteAt_writeMem_other {m : MemMode} {v : Byte} {s : State} (hq : Quiet s (resolveReads true m s)) {c : Chip}
    {k : Nat} (h : (c, k) ∉ storeTargets (writeEa m s) (writeBase m s)) :
    byteAt c k (writeMem m v s) = byteAt c k s := by
  rw [writeMem, byteAt_writeCycle_other h, byteAt_writeBase hq]

/-! ### exec by kinds -/

/-- The register a mnemonic of kind W stores. -/
def writeReg : WriteOp → State → Byte
  | .sta => fun s => s.cpu.a
  | .stx => fun s => s.cpu.x
  | .sty => fun s => s.cpu.y

theorem exec_read {i : Instr} {op : ReadOp} {o : Operand} (h : i.kind = .read op o) (s : State) :
    exec i s = finish (performRead op (readOperand o s)) := by
  cases i <;> simp only [Instr.kind, Kind.read.injEq, reduceCtorEq] at h <;> obtain ⟨rfl, rfl⟩ := h <;> rfl

theorem exec_write {i : Instr} {op : WriteOp} {m : MemMode} (h : i.kind = .write op m) (s : State) :
    exec i s = finish (writeMem m (writeReg op s) s) := by
  cases i <;> simp only [Instr.kind, Kind.write.injEq, reduceCtorEq] at h <;> obtain ⟨rfl, rfl⟩ := h <;> rfl

theorem exec_modify {i : Instr} {op : ModifyOp} {m : MemMode} (h : i.kind = .modify op m) (s : State) :
    exec i s = finish (modifyMem (modifyFun op) m s) := by
  cases i <;> simp only [Instr.kind, Kind.modify.injEq, reduceCtorEq] at h <;> obtain ⟨rfl, rfl⟩ := h <;> rfl

theorem exec_accumulator {i : Instr} {op : ModifyOp} (h : i.kind = .accumulator op) (s : State) :
    exec i s = finish (modifyAcc (modifyFun op) s) := by
  cases i <;> simp only [Instr.kind, Kind.accumulator.injEq, reduceCtorEq] at h <;> subst h <;> rfl

theorem exec_implied {i : Instr} {op : ImpliedOp} (h : i.kind = .implied op) (s : State) :
    exec i s = finish (implied (impliedFun op) s) := by
  cases i <;> simp only [Instr.kind, Kind.implied.injEq, reduceCtorEq] at h <;> subst h <;> rfl

/-- The state a stack instruction leaves. -/
def stackRun : StackOp → State → State
  | .pha => fun s => push s.cpu.a (dummyFetch s)
  | .php => fun s => push (packP true s.cpu.p) (dummyFetch s)
  | .pla => fun s => performPla (pull (dummyStack (dummyFetch s)))
  | .plp => fun s => performPlp (pull (dummyStack (dummyFetch s)))

theorem exec_stack {i : Instr} {op : StackOp} (h : i.kind = .stack op) (s : State) :
    exec i s = finish (stackRun op s) := by
  cases i <;> simp only [Instr.kind, Kind.stack.injEq, reduceCtorEq] at h <;> subst h <;> rfl

theorem exec_branch {i : Instr} {op : BranchOp} {off : Byte} (h : i.kind = .branch op off) (s : State) :
    exec i s = finish (branch (branchTaken op s.cpu.p) off s) := by
  cases i <;> simp only [Instr.kind, Kind.branch.injEq, reduceCtorEq] at h <;> obtain ⟨rfl, rfl⟩ := h <;> rfl

/-- The instructions with sequences of their own. -/
theorem control_cases {i : Instr} (h : i.kind = .control) :
    (∃ a, i = .jmpAbs a) ∨ (∃ a, i = .jmpInd a) ∨ (∃ a, i = .jsr a) ∨ i = .rts ∨ i = .brk ∨ i = .rti := by
  cases i <;> simp [Instr.kind] at h ⊢

end Sys2Proof.Machine
end

