-- ==== Sys2Proof/Laws/Stack.lean ====
section
/-! SUPPORT. The stack (R220), reads of PIA RAM and of unbanked ROM, and taking an exception (R378, R415): what each does
to the registers and to every stored byte. -/

namespace Sys2Proof.Machine

/-! ### Addresses -/

/-- The chips see the low 13 bits (R71). -/
theorem mask_bit (a : Addr) {k : Nat} (h : k < 13) : (maskAddr a).getLsbD k = a.getLsbD k := by
  simp only [maskAddr, BitVec.getLsbD_setWidth, h, decide_true, Bool.true_and]

theorem stackByte_eq (b : Byte) : (0x0100#16 ||| zext b) = BitVec.ofNat 16 (0x0100 + b.toNat) := by
  revert b; decide

/-- The stack address of a state with S lowered `k` times is the `k`-th push address. -/
theorem stackAddr_of_s {s t : State} {k : Nat} (h : t.cpu.s = s.cpu.s - BitVec.ofNat 8 k) (hk : k ≤ 255) :
    stackAddr t = pushAddr s k := by
  simp only [stackAddr, h, stackByte_eq, pushAddr]
  have := s.cpu.s.isLt
  congr 2
  simp only [BitVec.toNat_sub, BitVec.toNat_ofNat]
  omega

theorem stackAddr_bit12 (s : State) : (maskAddr (stackAddr s)).getLsbD 12 = false := by
  simp only [stackAddr]
  generalize s.cpu.s = b
  revert b; decide

theorem inWritePort_stack (p : Params) (s : State) : inWritePort p (stackAddr s) = false := by
  simp only [inWritePort, stackAddr_bit12, Bool.false_and]

/-- Outside the cartridge's window the targets of a write do not depend on the state. -/
theorem storeTargets_of_bit12 {a : Addr} (h : (maskAddr a).getLsbD 12 = false) (s t : State) :
    storeTargets a s = storeTargets a t := by
  have hr : route (maskAddr a) ≠ .cartridge := by
    simp only [route, h, Bool.false_eq_true, if_false]
    split <;> simp
  simp only [storeTargets]
  cases he : route (maskAddr a) <;> simp only
  exact absurd he hr

/-- The target of a write to PIA RAM. -/
theorem storeTargets_ram {a : Addr} (h : isRam a = true) (s : State) :
    storeTargets a s = [(.pia, a.toNat % 128)] := by
  simp only [isRam, Bool.and_eq_true, Bool.not_eq_true'] at h
  obtain ⟨⟨h12, h7⟩, h9⟩ := h
  have e12 : (maskAddr a).getLsbD 12 = false := (mask_bit a (by decide)).trans h12
  have e7 : (maskAddr a).getLsbD 7 = true := (mask_bit a (by decide)).trans h7
  have e9 : (maskAddr a).getLsbD 9 = false := (mask_bit a (by decide)).trans h9
  simp only [storeTargets, route, e12, e7, e9, Bool.false_eq_true, if_false, if_true, piaRamIndex]
  simp only [maskAddr, BitVec.toNat_setWidth]
  congr 2
  omega

/-- The stack bytes from 0x80 on are PIA RAM (R86). -/
theorem isRam_pushAddr {s : State} {k : Nat} (h : 0x80 + k ≤ s.cpu.s.toNat) :
    isRam (pushAddr s k) = true ∧ (pushAddr s k).toNat % 128 = s.cpu.s.toNat - 0x80 - k := by
  have hlt := s.cpu.s.isLt
  have e : (s.cpu.s.toNat + 256 - k) % 256 = s.cpu.s.toNat - k := by omega
  have hb : ∀ b : Byte, 0x80 ≤ b.toNat → isRam (BitVec.ofNat 16 (0x0100 + b.toNat)) = true := by decide +kernel
  constructor
  · have h1 := hb (BitVec.ofNat 8 (s.cpu.s.toNat - k))
    rw [BitVec.toNat_ofNat, Nat.mod_eq_of_lt (by omega)] at h1
    rw [pushAddr, e]
    exact h1 (by omega)
  · simp only [pushAddr, e, BitVec.toNat_ofNat]
    omega

/-! ### Reads -/

/-- A read of PIA RAM returns the stored byte (R491). -/
theorem readCycle_ram {a : Addr} {s : State} (h : Live s) (hr : isRam a = true) :
    (readCycle a s).1 = byteAt .pia (a.toNat % 128) s := by
  simp only [isRam, Bool.and_eq_true, Bool.not_eq_true'] at hr
  obtain ⟨⟨h12, h7⟩, h9⟩ := hr
  have e12 : (maskAddr a).getLsbD 12 = false := (mask_bit a (by decide)).trans h12
  have e7 : (maskAddr a).getLsbD 7 = true := (mask_bit a (by decide)).trans h7
  have e9 : (maskAddr a).getLsbD 9 = false := (mask_bit a (by decide)).trans h9
  have hram : (openRead s).pia.ram = s.pia.ram := congrArg Stored.ram (stored_openRead s)
  have hi : piaRamIndex (maskAddr a) = a.toNat % 128 := by
    simp only [piaRamIndex, maskAddr, BitVec.toNat_setWidth]; omega
  simp only [readCycle, h.1, Bool.false_eq_true, if_false, readHere, busRead, chipRead, route, e12, e7, if_true,
    piaRead, e9, Bool.not_false, hi, hram, byteAt]

/-- A read of a `vanilla_4k` cartridge returns the image's byte (R530). -/
theorem readCycle_vanilla4k {a : Addr} {s : State} (h : Live s) (hs : s.cfg.scheme = .vanilla4k)
    (h12 : a.getLsbD 12 = true) : (readCycle a s).1 = s.cfg.image.read (a.toNat % 4096) := by
  have e12 : (maskAddr a).getLsbD 12 = true := (mask_bit a (by decide)).trans h12
  have hi : cartOffset (maskAddr a) = a.toNat % 4096 := by
    simp only [cartOffset, maskAddr, BitVec.toNat_setWidth]; omega
  simp only [readCycle, h.1, Bool.false_eq_true, if_false, readHere, busRead, chipRead, route, e12, if_true,
    Cart.read, Cart.directSwitch, Cart.port, cfg_openRead, hs, hi]

/-! ### Push and pull -/

theorem push_of_live {v : Byte} {s : State} (h : Live s) :
    push v s = (writeCycle (stackAddr s) v s).withS (s.cpu.s - 1) := by
  have hs : (writeCycle (stackAddr s) v s).cpu.s = s.cpu.s := congrArg Regs.s (regs_writeCycle _ _ s)
  rw [push, perform_of_live (live_writeCycle h), hs]

theorem live_withS {s : State} (h : Live s) (v : Byte) : Live (s.withS v) := h
theorem live_withP {s : State} (h : Live s) (p : Flags) : Live (s.withP p) := h
theorem live_withPc {s : State} (h : Live s) (a : Addr) : Live (s.withPc a) := h

theorem live_push {v : Byte} {s : State} (h : Live s) : Live (push v s) := by
  rw [push_of_live h]
  exact live_writeCycle h

/-- A push lowers S and changes no other register. -/
theorem regs_push {v : Byte} {s : State} (h : Live s) : (push v s).regs = { s.regs with s := s.cpu.s - 1 } := by
  rw [push_of_live h, regs_withS, regs_writeCycle]

theorem byteAt_withS (s : State) (v : Byte) (c : Chip) (n : Nat) : byteAt c n (s.withS v) = byteAt c n s := by
  cases c <;> rfl

theorem byteAt_push_other {v : Byte} {s : State} (h : Live s) {c : Chip} {n : Nat}
    (hn : (c, n) ∉ storeTargets (stackAddr s) s) : byteAt c n (push v s) = byteAt c n s := by
  rw [push_of_live h, byteAt_withS, byteAt_writeCycle_other hn]

theorem byteAt_push_same {v : Byte} {s : State} (h : Live s) (hw : s.pia.ram.wf = true)
    (hr : isRam (stackAddr s) = true) : byteAt .pia ((stackAddr s).toNat % 128) (push v s) = v := by
  rw [push_of_live h, byteAt_withS]
  refine byteAt_writeCycle_same h.1 hw (by rw [storeTargets_ram hr]; simp) ?_
  intro _ ht
  simp only [isRam, Bool.and_eq_true, Bool.not_eq_true'] at hr
  have e7 : (maskAddr (stackAddr s)).getLsbD 7 = true := (mask_bit _ (by decide)).trans hr.1.2
  simp only [route, stackAddr_bit12, e7, Bool.false_eq_true, if_false, if_true, reduceCtorEq] at ht

/-- A push keeps PIA RAM in canonical form. -/
theorem ram_writeCycle (a : Addr) (v : Byte) (s : State) :
    (writeCycle a v s).pia.ram = s.pia.ram ∨ ∃ n < 128, (writeCycle a v s).pia.ram = s.pia.ram.write n v := by
  have h1 : (openWrite s).pia.ram = s.pia.ram := congrArg Stored.ram (stored_openWrite s)
  have h2 : ∀ t : State, (endCycle t).pia.ram = t.pia.ram := fun t => congrArg Stored.ram (stored_endCycle t)
  unfold writeCycle
  split
  · exact .inl rfl
  · rw [h2]
    simp only [busWrite, (afterAccess_parts _ _ _ _).2.2.2.1, chipWrite]
    split
    · rw [(tiaWrite_parts _ _ _).2.2.2.2.1, h1]; exact .inl rfl
    · simp only [piaWrite_ram, h1]
      split
      · exact .inl rfl
      · exact .inr ⟨_, Nat.mod_lt _ (by decide), rfl⟩
    · exact .inl h1

theorem wf_ram_writeCycle {a : Addr} {v : Byte} {s : State} (h : s.pia.ram.wf = true) :
    (writeCycle a v s).pia.ram.wf = true := by
  rcases ram_writeCycle a v s with e | ⟨n, -, e⟩ <;> rw [e]
  · exact h
  · exact Memory.wf_write h _ _

theorem wf_ram_push {v : Byte} {s : State} (hl : Live s) (h : s.pia.ram.wf = true) :
    (push v s).pia.ram.wf = true := by
  rw [push_of_live hl]
  exact wf_ram_writeCycle h

theorem pull_of_live {s : State} (h : Live s) :
    pull s = readCycle (stackAddr (s.withS (s.cpu.s + 1))) (s.withS (s.cpu.s + 1)) := by
  simp only [pull, perform_of_live h]

theorem live_pull {s : State} (h : Live s) : Live (pull s).2 := by
  rw [pull_of_live h]; exact live_readCycle (live_withS h _)

/-- A pull raises S and changes no other register. -/
theorem regs_pull {s : State} (h : Live s) : (pull s).2.regs = { s.regs with s := s.cpu.s + 1 } := by
  rw [pull_of_live h, regs_readCycle, regs_withS]

/-- A pull stores nothing. -/
theorem stored_pull {s : State} (h : Live s) : (pull s).2.stored = s.stored := by
  rw [pull_of_live h, stored_readCycle, stored_withS]

theorem byteAt_pull {s : State} (h : Live s) (c : Chip) (n : Nat) : byteAt c n (pull s).2 = byteAt c n s := by
  rw [pull_of_live h, byteAt_readCycle (inWritePort_stack _ _), byteAt_withS]

theorem pullLow_eq (s : State) : pullLow s = ((pull s).1, perform (fun t => t.latchEa (zext (pull s).1)) (pull s).2) := rfl

theorem live_pullLow {s : State} (h : Live s) : Live (pullLow s).2 := (cpuOnly_latchEa _).perform.live (live_pull h)

/-- A pull of a low byte changes what a pull changes. -/
theorem regs_pullLow {s : State} (h : Live s) : (pullLow s).2.regs = { s.regs with s := s.cpu.s + 1 } := by
  rw [pullLow_eq, regs_perform_latchEa, regs_pull h]

theorem stored_pullLow {s : State} (h : Live s) : (pullLow s).2.stored = s.stored := by
  rw [pullLow_eq, stored_perform_latchEa, stored_pull h]

theorem byteAt_pullLow {s : State} (h : Live s) (c : Chip) (n : Nat) : byteAt c n (pullLow s).2 = byteAt c n s := by
  rw [pullLow_eq, (cpuOnly_latchEa _).perform.byteAt, byteAt_pull h]

/-- A pull from PIA RAM returns the stored byte. -/
theorem pull_ram {s : State} (h : Live s) (hr : 0x80 ≤ (s.cpu.s.toNat + 1) % 256) :
    (pull s).1 = byteAt .pia ((s.cpu.s.toNat + 1) % 256 - 0x80) s := by
  have hlt := s.cpu.s.isLt
  have hs : (s.withS (s.cpu.s + 1)).cpu.s.toNat = (s.cpu.s.toNat + 1) % 256 := by
    show (s.cpu.s + 1).toNat = _
    simp [BitVec.toNat_add]
  have ha : stackAddr (s.withS (s.cpu.s + 1)) = pushAddr (s.withS (s.cpu.s + 1)) 0 :=
    stackAddr_of_s (by simp) (by decide)
  obtain ⟨h1, h2⟩ := isRam_pushAddr (s := s.withS (s.cpu.s + 1)) (k := 0) (by omega)
  rw [pull_of_live h, ha, readCycle_ram (live_withS h _) h1, h2, hs, byteAt_withS, Nat.sub_zero]

/-! ### Taking an exception -/

/-- The pushed P byte, bit by bit (R36, R39, R40). -/
theorem packP_eq_pushedP (b : Bool) (p : Flags) : packP b p = pushedP b p := by
  obtain ⟨n, v, d, i, z, c⟩ := p
  revert b n v d i z c; decide +kernel

theorem live_beginEntry {k : Interrupt} {s : State} (h : Live s) : Live (beginEntry k s) := by cases k <;> exact h
@[simp] theorem regs_beginEntry (k : Interrupt) (s : State) : (beginEntry k s).regs = s.regs := by cases k <;> rfl
@[simp] theorem stored_beginEntry (k : Interrupt) (s : State) : (beginEntry k s).stored = s.stored := by cases k <;> rfl
@[simp] theorem cfg_beginEntry (k : Interrupt) (s : State) : (beginEntry k s).cfg = s.cfg := by cases k <;> rfl
@[simp] theorem cart_beginEntry (k : Interrupt) (s : State) : (beginEntry k s).cart = s.cart := by cases k <;> rfl

/-- The three bytes an exception pushes. -/
def frameBytes (b : Bool) (s : State) : List Byte := [hiByte s.cpu.pc, loByte s.cpu.pc, packP b s.cpu.p]

/-- The state after the three pushes of an exception. -/
def pushFrame (b : Bool) (s : State) : State :=
  let t := push (loByte (push (hiByte s.cpu.pc) s).cpu.pc) (push (hiByte s.cpu.pc) s)
  push (packP b t.cpu.p) t

/-- The vector's two reads, I set between them. -/
def vectorReads (vec : Addr) (nmi : Bool) (s : State) : Byte × (Byte × State) :=
  let l := readLow vec s
  let s := perform (fun s => s.withP { s.cpu.p with i := true }) l.2
  let s := perform (fun s => if nmi then s.withNmi false else s) s
  (l.1, readCycle (vec + 1) s)

theorem enterVector_eq (b : Bool) (vec : Addr) (nmi : Bool) (s : State) :
    enterVector b vec nmi s =
      perform (fun t => t.withPc (wordOf (vectorReads vec nmi (pushFrame b s)).1
        (vectorReads vec nmi (pushFrame b s)).2.1)) (vectorReads vec nmi (pushFrame b s)).2.2 := rfl

theorem live_pushFrame {b : Bool} {s : State} (h : Live s) : Live (pushFrame b s) :=
  live_push (live_push (live_push h))

theorem regs_pushFrame {b : Bool} {s : State} (h : Live s) :
    (pushFrame b s).regs = { s.regs with s := s.cpu.s - 3 } := by
  simp only [pushFrame]
  rw [regs_push (live_push (live_push h)), regs_push (live_push h), regs_push h]
  have h1 : (push (hiByte s.cpu.pc) s).cpu.s = s.cpu.s - 1 := congrArg Regs.s (regs_push h)
  have h2 : (push (loByte (push (hiByte s.cpu.pc) s).cpu.pc) (push (hiByte s.cpu.pc) s)).cpu.s = s.cpu.s - 1 - 1 := by
    have := congrArg Regs.s (regs_push (v := loByte (push (hiByte s.cpu.pc) s).cpu.pc)
      (live_push (v := hiByte s.cpu.pc) h))
    rw [h1] at this
    exact this
  rw [h2]
  have : s.cpu.s - 1 - 1 - 1 = s.cpu.s - 3 := by bv_omega
  rw [this]

/-- The registers after the first two pushes of PC. -/
theorem regs_pushTwo {s : State} (h : Live s) (v w : Byte) :
    (push w (push v s)).regs = { s.regs with s := s.cpu.s - 2 } := by
  have h1 : (push v s).cpu.s = s.cpu.s - 1 := congrArg Regs.s (regs_push h)
  rw [regs_push (live_push h), regs_push h, h1]
  have : s.cpu.s - 1 - 1 = s.cpu.s - 2 := by bv_omega
  rw [this]

theorem pc_push {v : Byte} {s : State} (h : Live s) : (push v s).cpu.pc = s.cpu.pc := congrArg Regs.pc (regs_push h)
theorem p_push {v : Byte} {s : State} (h : Live s) : (push v s).cpu.p = s.cpu.p := congrArg Regs.p (regs_push h)
theorem s_push {v : Byte} {s : State} (h : Live s) : (push v s).cpu.s = s.cpu.s - 1 := congrArg Regs.s (regs_push h)

theorem pushFrame_eq {b : Bool} {s : State} (h : Live s) :
    pushFrame b s = push (packP b s.cpu.p) (push (loByte s.cpu.pc) (push (hiByte s.cpu.pc) s)) := by
  simp only [pushFrame]
  rw [pc_push h, p_push (live_push h), p_push h]

theorem stackAddr_zero (s : State) : stackAddr s = pushAddr s 0 := stackAddr_of_s (by simp) (by decide)
theorem stackAddr_push {v : Byte} {s : State} (h : Live s) : stackAddr (push v s) = pushAddr s 1 :=
  stackAddr_of_s (s_push h) (by decide)
theorem stackAddr_pushTwo {v w : Byte} {s : State} (h : Live s) : stackAddr (push w (push v s)) = pushAddr s 2 :=
  stackAddr_of_s (congrArg Regs.s (regs_pushTwo h v w)) (by decide)

/-- Two pushes change their target bytes only. -/
theorem byteAt_pushTwo_other {v w : Byte} {s : State} (h : Live s) {c : Chip} {n : Nat} {t : State}
    (h0 : (c, n) ∉ storeTargets (pushAddr s 0) t) (h1 : (c, n) ∉ storeTargets (pushAddr s 1) t) :
    byteAt c n (push w (push v s)) = byteAt c n s := by
  rw [byteAt_push_other (live_push h), byteAt_push_other h]
  · rw [storeTargets_of_bit12 (stackAddr_bit12 _) _ t, stackAddr_zero]; exact h0
  · rw [storeTargets_of_bit12 (stackAddr_bit12 _) _ t, stackAddr_push h]; exact h1

/-- The frame's pushes change their target bytes only. -/
theorem byteAt_pushFrame_other {b : Bool} {s : State} (h : Live s) {c : Chip} {n : Nat} {t : State}
    (h0 : (c, n) ∉ storeTargets (pushAddr s 0) t) (h1 : (c, n) ∉ storeTargets (pushAddr s 1) t)
    (h2 : (c, n) ∉ storeTargets (pushAddr s 2) t) : byteAt c n (pushFrame b s) = byteAt c n s := by
  rw [pushFrame_eq h, byteAt_push_other (live_push (live_push h)), byteAt_pushTwo_other h h0 h1]
  rw [storeTargets_of_bit12 (stackAddr_bit12 _) _ t, stackAddr_pushTwo h]; exact h2

/-- On a stack in PIA RAM a push stores its byte at S - 0x80. -/
theorem byteAt_push_ram {v : Byte} {s : State} (h : Live s) (hw : s.pia.ram.wf = true) (hr : stackInRam 1 s) :
    byteAt .pia (s.cpu.s.toNat - 0x80) (push v s) = v := by
  obtain ⟨h1, h2⟩ := isRam_pushAddr (s := s) (k := 0) (by omega)
  rw [Nat.sub_zero] at h2
  have := byteAt_push_same (v := v) h hw (by rw [stackAddr_zero]; exact h1)
  rw [stackAddr_zero, h2] at this
  exact this

/-- On a stack in PIA RAM a push leaves every other byte of the RAM alone. -/
theorem byteAt_push_ram_other {v : Byte} {s : State} (h : Live s) (hr : stackInRam 1 s) {n : Nat}
    (hn : n ≠ s.cpu.s.toNat - 0x80) : byteAt .pia n (push v s) = byteAt .pia n s := by
  obtain ⟨h1, h2⟩ := isRam_pushAddr (s := s) (k := 0) (by omega)
  rw [Nat.sub_zero] at h2
  refine byteAt_push_other h ?_
  rw [stackAddr_zero, storeTargets_ram h1, h2]
  simpa using hn

/-- On a stack in PIA RAM two pushes store their bytes, the first at the higher address. -/
theorem byteAt_pushTwo_ram {v w : Byte} {s : State} (h : Live s) (hw : s.pia.ram.wf = true) (hr : stackInRam 2 s) :
    byteAt .pia (s.cpu.s.toNat - 0x80) (push w (push v s)) = v ∧
    byteAt .pia (s.cpu.s.toNat - 0x81) (push w (push v s)) = w := by
  have hlt := s.cpu.s.isLt
  have hs : (push v s).cpu.s.toNat = s.cpu.s.toNat - 1 := by
    rw [s_push h]; simp only [stackInRam] at hr; bv_omega
  have hr1 : stackInRam 1 s := by simp only [stackInRam] at hr ⊢; omega
  have hr2 : stackInRam 1 (push v s) := by simp only [stackInRam] at hr ⊢; omega
  constructor
  · rw [byteAt_push_ram_other (live_push h) hr2 (by simp only [stackInRam] at hr; omega), byteAt_push_ram h hw hr1]
  · have := byteAt_push_ram (v := w) (live_push h) (wf_ram_push h hw) hr2
    rw [hs] at this
    rwa [show s.cpu.s.toNat - 0x81 = s.cpu.s.toNat - 1 - 0x80 by omega]

/-- On a stack in PIA RAM the frame's three bytes are PC high, PC low and P. -/
theorem byteAt_pushFrame_ram {b : Bool} {s : State} (h : Live s) (hw : s.pia.ram.wf = true) (hr : stackInRam 3 s) :
    byteAt .pia (s.cpu.s.toNat - 0x80) (pushFrame b s) = hiByte s.cpu.pc ∧
    byteAt .pia (s.cpu.s.toNat - 0x81) (pushFrame b s) = loByte s.cpu.pc ∧
    byteAt .pia (s.cpu.s.toNat - 0x82) (pushFrame b s) = packP b s.cpu.p := by
  have hlt := s.cpu.s.isLt
  rw [pushFrame_eq h]
  have hr2 : stackInRam 2 s := by simp only [stackInRam] at hr ⊢; omega
  have hl := live_push (v := loByte s.cpu.pc) (live_push (v := hiByte s.cpu.pc) h)
  have hs : (push (loByte s.cpu.pc) (push (hiByte s.cpu.pc) s)).cpu.s.toNat = s.cpu.s.toNat - 2 := by
    rw [show (push (loByte s.cpu.pc) (push (hiByte s.cpu.pc) s)).cpu.s = s.cpu.s - 2 from
      congrArg Regs.s (regs_pushTwo h _ _)]
    simp only [stackInRam] at hr; bv_omega
  have hr1 : stackInRam 1 (push (loByte s.cpu.pc) (push (hiByte s.cpu.pc) s)) := by
    simp only [stackInRam] at hr ⊢; omega
  obtain ⟨h1, h2⟩ := byteAt_pushTwo_ram (v := hiByte s.cpu.pc) (w := loByte s.cpu.pc) h hw hr2
  simp only [stackInRam] at hr
  refine ⟨?_, ?_, ?_⟩
  · rw [byteAt_push_ram_other hl hr1 (by omega), h1]
  · rw [byteAt_push_ram_other hl hr1 (by omega), h2]
  · have := byteAt_push_ram (v := packP b s.cpu.p) hl (wf_ram_push (live_push h) (wf_ram_push h hw)) hr1
    rw [hs] at this
    rwa [show s.cpu.s.toNat - 0x82 = s.cpu.s.toNat - 2 - 0x80 by omega]

theorem regs_nmiClear (b : Bool) (s : State) : (if b then s.withNmi false else s).regs = s.regs := by
  split <;> rfl

theorem vectorReads_of_live {vec : Addr} {nmi : Bool} {s : State} (h : Live s) :
    vectorReads vec nmi s =
      ((readLow vec s).1, readCycle (vec + 1)
        (let u := (readLow vec s).2.withP { (readLow vec s).2.cpu.p with i := true }
         if nmi then u.withNmi false else u)) := by
  simp only [vectorReads]
  rw [perform_of_live (live_readLow h), perform_of_live (live_withP (live_readLow h) _)]

theorem live_vectorReads {vec : Addr} {nmi : Bool} {s : State} (h : Live s) : Live (vectorReads vec nmi s).2.2 := by
  rw [vectorReads_of_live h]
  refine live_readCycle ?_
  dsimp only
  split
  · exact live_readLow h
  · exact live_readLow h

theorem regs_vectorReads {vec : Addr} {nmi : Bool} {s : State} (h : Live s) :
    (vectorReads vec nmi s).2.2.regs = { s.regs with p := { s.cpu.p with i := true } } := by
  rw [vectorReads_of_live h]
  dsimp only
  rw [regs_readCycle, regs_nmiClear, regs_withP, regs_readLow]
  have : (readLow vec s).2.cpu.p = s.cpu.p := congrArg Regs.p (regs_readLow vec s)
  rw [this]

theorem byteAt_vectorReads {vec : Addr} {nmi : Bool} {s : State} (h : Live s)
    (h0 : inWritePort s.cfg vec = false) (h1 : inWritePort s.cfg (vec + 1) = false) (c : Chip) (n : Nat) :
    byteAt c n (vectorReads vec nmi s).2.2 = byteAt c n s := by
  rw [vectorReads_of_live h]
  dsimp only
  have e : ∀ (t : State) (b : Bool), byteAt c n (if b then t.withNmi false else t) = byteAt c n t := by
    intro t b; cases b <;> cases c <;> rfl
  have e' : ∀ (t : State) (p : Flags), byteAt c n (t.withP p) = byteAt c n t := by
    intro t p; cases c <;> rfl
  rw [byteAt_readCycle, e, e', byteAt_readLow h0]
  have : ∀ (t : State) (b : Bool), (if b then t.withNmi false else t).cfg = t.cfg := by
    intro t b; cases b <;> rfl
  rw [this, cfg_withP, cfg_readLow]
  exact h1

/-- The vectors are in no RAM write port (R86, R404). -/
theorem inWritePort_vector (p : Params) (a : Addr) (h : 0xFFA ≤ (maskAddr a).toNat % 4096) :
    inWritePort p a = false := by
  have ho : 0xFFA ≤ cartOffset (maskAddr a) := h
  simp only [inWritePort]
  generalize cartOffset (maskAddr a) = o at ho
  cases (maskAddr a).getLsbD 12
  · rfl
  · simp only [Bool.true_and]
    split <;> simp <;> omega

theorem live_enterVector {b : Bool} {vec : Addr} {nmi : Bool} {s : State} (h : Live s) :
    Live (enterVector b vec nmi s) := by
  rw [enterVector_eq, perform_of_live (live_vectorReads (live_pushFrame h))]
  exact live_vectorReads (live_pushFrame h)

/-- Taking an exception changes S, I and PC, no other register (R416). -/
theorem regs_enterVector {b : Bool} {vec : Addr} {nmi : Bool} {s : State} (h : Live s) :
    (enterVector b vec nmi s).regs =
      { s.regs with
        s := s.cpu.s - 3
        p := { s.cpu.p with i := true }
        pc := wordOf (vectorReads vec nmi (pushFrame b s)).1 (vectorReads vec nmi (pushFrame b s)).2.1 } := by
  rw [enterVector_eq, perform_of_live (live_vectorReads (live_pushFrame h)), regs_withPc,
    regs_vectorReads (live_pushFrame h), regs_pushFrame h]
  have : (pushFrame b s).cpu.p = s.cpu.p := congrArg Regs.p (regs_pushFrame (b := b) h)
  rw [this]

/-- Taking an exception through a vector stores the three bytes of its frame only. -/
theorem byteAt_enterVector {b : Bool} {vec : Addr} {nmi : Bool} {s : State} (h : Live s)
    (h0 : 0xFFA ≤ (maskAddr vec).toNat % 4096) (h1 : 0xFFA ≤ (maskAddr (vec + 1)).toNat % 4096) (c : Chip) (n : Nat) :
    byteAt c n (enterVector b vec nmi s) = byteAt c n (pushFrame b s) := by
  rw [enterVector_eq, perform_of_live (live_vectorReads (live_pushFrame h))]
  have e : ∀ (t : State) (a : Addr), byteAt c n (t.withPc a) = byteAt c n t := by
    intro t a; cases c <;> rfl
  rw [e, byteAt_vectorReads (live_pushFrame h) (inWritePort_vector _ _ h0) (inWritePort_vector _ _ h1)]

theorem toNat_wordOf (l h : Byte) : (wordOf l h).toNat = l.toNat + 256 * h.toNat := by
  rw [wordOf, BitVec.toNat_append, ← Nat.shiftLeft_add_eq_or_of_lt l.isLt, Nat.shiftLeft_eq]
  omega

end Sys2Proof.Machine
end

