-- ==== Sys2Proof/Laws/Kept.lean ====
section
/-! SUPPORT. A property of states that the ticks, the bus accesses and every change of CPU registers keep is kept by
every instruction and by every step. -/

namespace Sys2Proof.Machine

/-- A property that no part of a step can break. It says nothing of the CPU: any change of the CPU keeps it. -/
structure Kept (P : State → Prop) : Prop where
  cpu : ∀ s c, P s → P { s with cpu := c }
  piaTick : ∀ s, P s → P (piaTick s)
  tiaTick : ∀ s, P s → P (tiaTick s)
  clock : ∀ s n, P s → P { s with clock := n }
  read : ∀ s a, P s → P (busRead a s).2
  write : ∀ s a v, P s → P (busWrite a v s)
  stop : ∀ s op, P s → P (raiseInvalidOpcode op s)

namespace Kept

variable {P : State → Prop} (h : Kept P)
include h

theorem cpuOnly {f : State → State} (hf : CpuOnly f) {s : State} (hs : P s) : P (f s) := by
  obtain ⟨c, hc⟩ := hf.eq s
  rw [hc]; exact h.cpu _ _ hs

theorem performs {f : State → State} (hf : CpuOnly f) {s : State} (hs : P s) : P (perform f s) :=
  h.cpuOnly hf.perform hs

theorem tiaTicks {s : State} (hs : P s) : P (tiaTicks s) := by
  unfold Machine.tiaTicks
  split
  · exact h.tiaTick _ hs
  · exact h.tiaTick _ (h.tiaTick _ (h.tiaTick _ hs))

theorem latchNmi {s : State} (hs : P s) : P (latchNmi s) := by
  unfold Machine.latchNmi
  split
  · exact h.cpu _ _ hs
  · exact hs

theorem beginSlot {s : State} (hs : P s) : P (beginSlot s) := by
  have hl := h.latchNmi hs
  simp only [Machine.beginSlot]
  split
  · exact hl
  · exact hl
  · exact h.piaTick _ hl
  · exact h.tiaTicks hl
  · exact h.tiaTicks (h.piaTick _ hl)
  · exact h.piaTick _ (h.tiaTicks hl)

theorem endSlot {s : State} (hs : P s) : P (endSlot s) := by
  simp only [Machine.endSlot]
  refine h.clock _ _ ?_
  split
  · exact h.tiaTicks (h.piaTick _ hs)
  · exact h.piaTick _ (h.tiaTicks hs)
  · exact h.tiaTicks hs
  · exact h.piaTick _ hs
  · exact hs
  · exact hs

theorem awaitCpu {s : State} (n : Nat) (hs : P s) : P (awaitCpu n s) := by
  induction n generalizing s with
  | zero => exact h.beginSlot hs
  | succ n ih =>
    unfold Machine.awaitCpu
    split
    · exact ih (h.endSlot (h.beginSlot hs))
    · exact h.beginSlot hs

theorem openRead {s : State} (hs : P s) : P (openRead s) := h.awaitCpu _ hs

theorem openWrite {s : State} (hs : P s) : P (openWrite s) := by
  unfold Machine.openWrite
  split
  · exact h.awaitCpu _ hs
  · exact h.beginSlot hs

theorem endCycle {s : State} (hs : P s) : P (endCycle s) := by
  unfold Machine.endCycle
  split
  · exact hs
  · exact h.endSlot (h.cpu _ _ hs)

theorem readHere {s : State} (a : Addr) (hs : P s) : P (readHere a s).2 := h.endCycle (h.read _ _ hs)

theorem readCycle {s : State} (a : Addr) (hs : P s) : P (readCycle a s).2 := by
  unfold Machine.readCycle
  split
  · exact hs
  · exact h.readHere a (h.openRead hs)

theorem writeCycle {s : State} (a : Addr) (v : Byte) (hs : P s) : P (writeCycle a v s) := by
  unfold Machine.writeCycle
  split
  · exact hs
  · exact h.endCycle (h.write _ _ _ (h.openWrite hs))

theorem push {s : State} (v : Byte) (hs : P s) : P (push v s) :=
  h.performs ⟨fun _ => ⟨_, rfl⟩⟩ (h.writeCycle _ _ hs)

theorem pull {s : State} (hs : P s) : P (pull s).2 :=
  h.readCycle _ (h.performs (f := fun s => s.withS (s.cpu.s + 1)) ⟨fun _ => ⟨_, rfl⟩⟩ hs)

theorem readLow {s : State} (a : Addr) (hs : P s) : P (readLow a s).2 :=
  h.performs (cpuOnly_latchEa _) (h.readCycle _ hs)

theorem pullLow {s : State} (hs : P s) : P (pullLow s).2 := h.performs (cpuOnly_latchEa _) (h.pull hs)

theorem indexedCycle {s : State} (b : Bool) (a : Addr) (i : Byte) (hs : P s) : P (indexedCycle b a i s).2 := by
  simp only [Machine.indexedCycle]
  split
  · exact h.readCycle _ hs
  · exact hs

theorem resolve {s : State} (b : Bool) (m : MemMode) (hs : P s) : P (resolve b m s).2 := by
  cases m <;> simp only [Machine.resolve]
  · exact hs
  · exact h.readCycle _ hs
  · exact h.readCycle _ hs
  · exact hs
  · exact h.indexedCycle _ _ _ hs
  · exact h.indexedCycle _ _ _ hs
  · exact h.performs (cpuOnly_latchEa _) (h.readCycle _ (h.readLow _ (h.readCycle _ hs)))
  · exact h.indexedCycle _ _ _ (h.performs (cpuOnly_latchEa _) (h.readCycle _ (h.readLow _ hs)))

theorem readBase {s : State} (m : MemMode) (hs : P s) : P (readBase m s) :=
  h.performs (cpuOnly_latchEa _) (h.resolve _ _ hs)

theorem writeBase {s : State} (m : MemMode) (hs : P s) : P (writeBase m s) :=
  h.performs (cpuOnly_latchEa _) (h.resolve _ _ hs)

theorem readOperand {s : State} (o : Operand) (hs : P s) : P (readOperand o s).2 := by
  cases o
  · exact hs
  · exact h.readCycle _ (h.readBase _ hs)

theorem modifyMem {s : State} (f : Byte → Flags → Byte × Flags) (m : MemMode) (hs : P s) : P (modifyMem f m s) := by
  refine h.performs (f := fun t => t.withP _) ⟨fun _ => ⟨_, rfl⟩⟩ ?_
  exact h.writeCycle _ _ (h.writeCycle _ _ (h.performs (cpuOnly_latchOperand _) (h.readCycle _ (h.writeBase _ hs))))

theorem performRead {op : ReadOp} {r : Byte × State} (hs : P r.2) : P (performRead op r) := by
  cases op <;> exact h.performs ⟨fun _ => ⟨_, rfl⟩⟩ hs

theorem implied {f : State → State} (hf : CpuOnly f) {s : State} (hs : P s) : P (implied f s) :=
  h.performs hf (h.readCycle _ hs)

theorem enterVector {s : State} (b : Bool) (vec : Addr) (nmi : Bool) (hs : P s) : P (enterVector b vec nmi s) := by
  refine h.performs (f := fun t => t.withPc _) ⟨fun _ => ⟨_, rfl⟩⟩ (h.readCycle _ ?_)
  refine h.performs ⟨fun t => ?_⟩ ?_
  · split
    · exact ⟨_, rfl⟩
    · exact ⟨t.cpu, rfl⟩
  · exact h.performs (f := fun s => s.withP { s.cpu.p with i := true }) ⟨fun _ => ⟨_, rfl⟩⟩
      (h.readLow _ (h.push _ (h.push _ (h.push _ hs))))

theorem branch {s : State} (b : Bool) (off : Byte) (hs : P s) : P (branch b off s) := by
  have h1 := h.performs (f := fun s => s.latchOffset off) ⟨fun _ => ⟨_, rfl⟩⟩ hs
  have hp : ∀ a : Addr, CpuOnly (fun s => s.withPc a) := fun a => ⟨fun _ => ⟨_, rfl⟩⟩
  simp only [Machine.branch]
  split
  · split
    · exact h.performs (hp _) (h.readCycle _ h1)
    · exact h.performs (hp _) (h.readCycle _ (h.readCycle _ h1))
  · exact h1

theorem jsrPushes {s : State} (hs : P s) : P (jsrPushes s) := h.push _ (h.push _ (h.readCycle _ hs))

/-- Every instruction keeps it: exec ends a state that has it. -/
theorem execBody (i : Instr) {s : State} (hs : P s) : ∃ t, exec i s = finish t ∧ P t := by
  have hp : ∀ a : Addr, CpuOnly (fun s => s.withPc a) := fun a => ⟨fun _ => ⟨_, rfl⟩⟩
  have hinc : CpuOnly State.incPc := ⟨fun _ => ⟨_, rfl⟩⟩
  rcases hk : i.kind with ⟨op, o⟩ | ⟨op, m⟩ | ⟨op, m⟩ | op | op | op | ⟨op, off⟩ | _
  · exact ⟨_, exec_read hk s, h.performRead (h.readOperand o hs)⟩
  · exact ⟨_, exec_write hk s, h.writeCycle _ _ (h.writeBase m hs)⟩
  · exact ⟨_, exec_modify hk s, h.modifyMem _ m hs⟩
  · exact ⟨_, exec_accumulator hk s, h.implied ⟨fun _ => ⟨_, rfl⟩⟩ hs⟩
  · exact ⟨_, exec_implied hk s, h.implied (by cases op <;> exact ⟨fun _ => ⟨_, rfl⟩⟩) hs⟩
  · refine ⟨_, exec_stack hk s, ?_⟩
    cases op
    · exact h.push _ (h.readCycle _ hs)
    · exact h.push _ (h.readCycle _ hs)
    · exact h.performs ⟨fun _ => ⟨_, rfl⟩⟩ (h.pull (h.readCycle _ (h.readCycle _ hs)))
    · exact h.performs ⟨fun _ => ⟨_, rfl⟩⟩ (h.pull (h.readCycle _ (h.readCycle _ hs)))
  · exact ⟨_, exec_branch hk s, h.branch _ _ hs⟩
  · rcases control_cases hk with ⟨a, rfl⟩ | ⟨a, rfl⟩ | ⟨a, rfl⟩ | rfl | rfl | rfl
    · exact ⟨_, rfl, h.performs (hp a) hs⟩
    · exact ⟨_, rfl, h.performs (hp _) (h.readCycle _ (h.readLow _ hs))⟩
    · exact ⟨_, rfl, h.performs (f := fun s => (s.latchHi (hiByte a)).withPc a) ⟨fun _ => ⟨_, rfl⟩⟩
        (h.readCycle _ (h.jsrPushes hs))⟩
    · exact ⟨_, rfl, h.performs hinc (h.readCycle _ (h.performs (hp _)
        (h.pull (h.pullLow (h.readCycle _ (h.readCycle _ hs))))))⟩
    · exact ⟨_, rfl, h.enterVector _ _ _ (h.performs hinc (h.readCycle _ hs))⟩
    · exact ⟨_, rfl, h.performs (hp _) (h.pull (h.pullLow (h.performs (f := fun s => s.withP _) ⟨fun _ => ⟨_, rfl⟩⟩
        (h.pull (h.readCycle _ (h.readCycle _ hs))))))⟩

theorem fetchOpcode {s : State} (hs : P s) : P (fetchOpcode s).2 := by
  simp only [Machine.fetchOpcode]
  refine h.endCycle ?_
  have h1 : P (perform (fun t => (((t.latchOpcode (busRead s.cpu.pc s).1).withLip s.cpu.pc).withTag
      (.mid (busRead s.cpu.pc s).1 1)).incPc) (busRead s.cpu.pc s).2) :=
    h.performs ⟨fun _ => ⟨_, rfl⟩⟩ (h.read _ _ hs)
  split
  · exact h.stop _ _ h1
  · exact h1

theorem fetchLo {s : State} (hs : P s) : P (fetchLo s).2 :=
  h.performs (f := fun t => (t.latchLo (Machine.readCycle s.cpu.pc s).1).incPc) ⟨fun _ => ⟨_, rfl⟩⟩ (h.readCycle _ hs)

theorem fetchHi {s : State} (hs : P s) : P (fetchHi s).2 :=
  h.performs (f := fun t => (t.latchHi (Machine.readCycle s.cpu.pc s).1).incPc) ⟨fun _ => ⟨_, rfl⟩⟩ (h.readCycle _ hs)

theorem fetchInstr {s : State} (hs : P s) : P (fetchInstr s).2 := by
  have h1 := h.fetchOpcode hs
  simp only [Machine.fetchInstr]
  split
  · exact h1
  · exact h1
  · exact h1
  · exact h.fetchLo h1
  · split
    · exact h.fetchLo h1
    · exact h.fetchHi (h.fetchLo h1)

theorem interruptEntry {s : State} (k : Interrupt) (hs : P s) : P (interruptEntry k s) := by
  have h0 : P (beginEntry k s) := by
    cases k
    · exact h.cpu _ _ (h.cpu _ _ hs)
    · exact h.cpu _ _ hs
  have h1 : P (Machine.dummyFetch (Machine.readHere s.cpu.pc (beginEntry k s)).2) := h.readCycle _ (h.readHere _ h0)
  simp only [Machine.interruptEntry]
  split
  · exact h.enterVector _ _ _ h1
  · exact h.enterVector _ _ _ h1

/-- Every step keeps it. -/
theorem stepBody {s t : State} (hs : P s) (ht : step s = .next t) :
    ∃ u, P u ∧ u.traps.fatal = false ∧ t = u.withTag .fetch := by
  have hfin : ∀ u, P u → finish u = .next t → ∃ u, P u ∧ u.traps.fatal = false ∧ t = u.withTag .fetch := by
    intro u hu he
    unfold finish at he
    split at he
    · simp at he
    · rename_i hf
      simp only [Host.Outcome.next.injEq] at he
      exact ⟨u, hu, by simpa using hf, he.symm⟩
  unfold step at ht
  split at ht
  · simp at ht
  · rename_i k b hb
    unfold nextAction at hb
    split at hb
    · simp at hb
    · dsimp only at hb
      split at hb
      · simp only [Action.enter.injEq] at hb
        obtain ⟨rfl, rfl⟩ := hb
        exact hfin _ (h.interruptEntry _ (h.openRead hs)) ht
      · split at hb <;> simp at hb
  · rename_i i b hb
    unfold nextAction at hb
    split at hb
    · simp at hb
    · dsimp only at hb
      split at hb
      · simp at hb
      · split at hb
        · simp only [Action.run.injEq] at hb
          obtain ⟨rfl, rfl⟩ := hb
          obtain ⟨u, hu, hP⟩ := h.execBody _ (h.fetchInstr (h.openRead hs))
          rw [hu] at ht
          exact hfin u hP ht
        · simp at hb

end Kept

end Sys2Proof.Machine
end

