-- ==== Sys2Proof/Laws/Clock.lean ====
section
/-! SUPPORT. Time: ticks count no board step and never halt the CPU, a cycle of a CPU that is not halted takes one board
step, and every halt ends within a line (R428). -/

namespace Sys2Proof.Machine

/-! ### Ticks -/

@[simp] theorem clock_piaTick (s : State) : (piaTick s).clock = s.clock := rfl
@[simp] theorem cpu_piaTick (s : State) : (piaTick s).cpu = s.cpu := rfl
@[simp] theorem tia_piaTick (s : State) : (piaTick s).tia = s.tia := rfl
@[simp] theorem frame_piaTick (s : State) : (piaTick s).frame = s.frame := rfl

@[simp] theorem clock_tiaTick (s : State) : (tiaTick s).clock = s.clock := by
  simp only [tiaTick]; split <;> rfl

@[simp] theorem pia_tiaTick (s : State) : (tiaTick s).pia = s.pia := by
  simp only [tiaTick]; split <;> rfl

@[simp] theorem cfg_tiaTick (s : State) : (tiaTick s).cfg = s.cfg := cfg_of_still (still_tiaTick s)
@[simp] theorem cfg_piaTick (s : State) : (piaTick s).cfg = s.cfg := rfl
@[simp] theorem cfg_latchNmi (s : State) : (latchNmi s).cfg = s.cfg := cfg_of_still (still_latchNmi s)

/-- What one TIA tick does to the line and to a halt. -/
theorem tiaTick_cases (s : State) :
    (s.tia.hclock.val = 227 ∧ (tiaTick s).tia.hclock.val = 0 ∧ (tiaTick s).tia.line = s.tia.line + 1 ∧
      (tiaTick s).cpu.halted = false) ∨
    (s.tia.hclock.val < 227 ∧ (tiaTick s).tia.hclock.val = s.tia.hclock.val + 1 ∧
      (tiaTick s).tia.line = s.tia.line ∧ (tiaTick s).cpu = s.cpu) := by
  obtain ⟨-, -, hh, hl, -⟩ := Tia.objects_kept s.tia
  have hlt := s.tia.hclock.isLt
  by_cases h : s.tia.hclock = 227
  · refine .inl ⟨by rw [h]; rfl, ?_, ?_, ?_⟩ <;> simp [tiaTick, hh, h, hl]
  · have hv : s.tia.hclock.val ≠ 227 := fun e => h (Fin.ext e)
    refine .inr ⟨by omega, ?_, ?_, ?_⟩ <;> (simp only [tiaTick, hh, h, if_false, hl])
    rw [Fin.val_add]
    show (s.tia.hclock.val + 1) % 228 = _
    omega

/-- A tick never halts the CPU. -/
theorem halted_tiaTick {s : State} (h : s.cpu.halted = false) : (tiaTick s).cpu.halted = false := by
  rcases tiaTick_cases s with ⟨-, -, -, h'⟩ | ⟨-, -, -, h'⟩
  · exact h'
  · rw [h']; exact h

@[simp] theorem clock_tiaTicks (s : State) : (tiaTicks s).clock = s.clock := by
  unfold tiaTicks; split <;> simp

theorem halted_tiaTicks {s : State} (h : s.cpu.halted = false) : (tiaTicks s).cpu.halted = false := by
  unfold tiaTicks; split
  · exact halted_tiaTick h
  · exact halted_tiaTick (halted_tiaTick (halted_tiaTick h))

@[simp] theorem clock_latchNmi (s : State) : (latchNmi s).clock = s.clock := by
  unfold latchNmi; split <;> rfl
@[simp] theorem halted_latchNmi (s : State) : (latchNmi s).cpu.halted = s.cpu.halted := by
  unfold latchNmi; split <;> rfl
@[simp] theorem tag_latchNmi (s : State) : (latchNmi s).cpu.tag = s.cpu.tag := by
  unfold latchNmi; split <;> rfl
@[simp] theorem tia_latchNmi (s : State) : (latchNmi s).tia = s.tia := by
  unfold latchNmi; split <;> rfl

/-! ### Parts of a board step -/

@[simp] theorem clock_beginSlot (s : State) : (beginSlot s).clock = s.clock := by
  simp only [beginSlot]; split <;> simp

theorem halted_beginSlot {s : State} (h : s.cpu.halted = false) : (beginSlot s).cpu.halted = false := by
  have h' : (latchNmi s).cpu.halted = false := by rw [halted_latchNmi]; exact h
  simp only [beginSlot]
  split
  · exact h'
  · exact h'
  · exact h'
  · exact halted_tiaTicks h'
  · exact halted_tiaTicks h'
  · exact halted_tiaTicks h'

@[simp] theorem clock_endSlot (s : State) : (endSlot s).clock = s.clock + 1 := by
  simp only [endSlot]; split <;> simp

theorem halted_endSlot {s : State} (h : s.cpu.halted = false) : (endSlot s).cpu.halted = false := by
  simp only [endSlot]
  split
  · exact halted_tiaTicks h
  · exact halted_tiaTicks h
  · exact halted_tiaTicks h
  · exact h
  · exact h
  · exact h

@[simp] theorem clock_idleSlot (s : State) : (idleSlot s).clock = s.clock + 1 := by simp [idleSlot]

theorem halted_idleSlot {s : State} (h : s.cpu.halted = false) : (idleSlot s).cpu.halted = false :=
  halted_endSlot (halted_beginSlot h)

/-- A CPU that is not halted gets the very next slot. -/
theorem awaitCpu_of_running {s : State} (h : s.cpu.halted = false) (n : Nat) : awaitCpu n s = beginSlot s := by
  cases n with
  | zero => rfl
  | succ n => simp [awaitCpu, halted_beginSlot h]

theorem openRead_of_running {s : State} (h : s.cpu.halted = false) : openRead s = beginSlot s :=
  awaitCpu_of_running h _

theorem openWrite_of_running {s : State} (h : s.cpu.halted = false) : openWrite s = beginSlot s := by
  unfold openWrite; split
  · exact awaitCpu_of_running h _
  · rfl

/-! ### Cycles of a running CPU -/

theorem endCycle_of_live {s : State} (h : s.traps.fatal = false) :
    endCycle s = endSlot (s.withTag s.cpu.tag.advance) := by simp [endCycle, h]

theorem clock_readHere {a : Addr} {s : State} (h : Live s) : (readHere a s).2.clock = s.clock + 1 := by
  simp only [readHere]
  rw [endCycle_of_live (fatal_busRead h), clock_endSlot]
  show (busRead a s).2.clock + 1 = _
  rw [clock_busRead]

theorem halted_readHere {a : Addr} {s : State} (h : s.cpu.halted = false) : (readHere a s).2.cpu.halted = false := by
  have h' : (busRead a s).2.cpu.halted = false := by rw [cpu_busRead]; exact h
  simp only [readHere, endCycle]
  split
  · exact h'
  · exact halted_endSlot h'

/-- A read cycle of a running CPU takes one board step. -/
theorem clock_readCycle {a : Addr} {s : State} (h : Live s) (hr : s.cpu.halted = false) :
    (readCycle a s).2.clock = s.clock + 1 := by
  simp only [readCycle, h.1, Bool.false_eq_true, if_false]
  rw [clock_readHere (live_openRead h), openRead_of_running hr, clock_beginSlot]

/-- A read cycle never halts the CPU. -/
theorem halted_readCycle {a : Addr} {s : State} (hr : s.cpu.halted = false) :
    (readCycle a s).2.cpu.halted = false := by
  simp only [readCycle]
  split
  · exact hr
  · exact halted_readHere (by rw [openRead_of_running hr]; exact halted_beginSlot hr)

theorem live_openWrite {s : State} (h : Live s) : Live (openWrite s) := live_of_still (still_openWrite s) h

/-- A write cycle of a running CPU takes one board step. -/
theorem clock_writeCycle {a : Addr} {v : Byte} {s : State} (h : Live s) (hr : s.cpu.halted = false) :
    (writeCycle a v s).clock = s.clock + 1 := by
  simp only [writeCycle, h.1, Bool.false_eq_true, if_false]
  rw [endCycle_of_live (fatal_busWrite (live_openWrite h)), clock_endSlot]
  show (busWrite a v (openWrite s)).clock + 1 = _
  rw [clock_busWrite, openWrite_of_running hr, clock_beginSlot]

/-- A write cycle that does not hit WSYNC leaves a running CPU running. -/
theorem halted_writeCycle {a : Addr} {v : Byte} {s : State} (hr : s.cpu.halted = false) (hw : hitsWsync a = false) :
    (writeCycle a v s).cpu.halted = false := by
  have h1 : (openWrite s).cpu.halted = false := by rw [openWrite_of_running hr]; exact halted_beginSlot hr
  have h2 : (busWrite a v (openWrite s)).cpu.halted = false := by simp [h1, hw]
  simp only [writeCycle, endCycle]
  split
  · exact hr
  · split
    · exact h2
    · exact halted_endSlot h2

/-! ### Every halt ends (R428) -/

/-- The ticks left in a halted CPU's line. -/
def ticksLeft (s : State) : Nat := if s.cpu.halted then 228 - s.tia.hclock.val else 0

/-- The TIA ticks of a board step (R420). -/
def ticksPerStep (p : Params) : Nat := match p.tiaClk with | .one => 1 | .three => 3

theorem ticksLeft_tiaTick (s : State) : ticksLeft (tiaTick s) ≤ ticksLeft s - 1 := by
  have hlt := s.tia.hclock.isLt
  unfold ticksLeft
  rcases tiaTick_cases s with ⟨h, -, -, h'⟩ | ⟨h, hn, -, h'⟩
  · simp [h']
  · rw [h', hn]
    split <;> omega

theorem ticksLeft_tiaTicks (s : State) : ticksLeft (tiaTicks s) ≤ ticksLeft s - ticksPerStep s.cfg := by
  unfold tiaTicks ticksPerStep
  split <;> rename_i hk <;> try simp only [hk]
  · exact ticksLeft_tiaTick s
  · have h1 := ticksLeft_tiaTick s
    have h2 := ticksLeft_tiaTick (tiaTick s)
    have h3 := ticksLeft_tiaTick (tiaTick (tiaTick s))
    omega

theorem ticksLeft_piaTick (s : State) : ticksLeft (piaTick s) = ticksLeft s := rfl

theorem ticksLeft_latchNmi (s : State) : ticksLeft (latchNmi s) = ticksLeft s := by simp [ticksLeft]

@[simp] theorem cfg_beginSlot (s : State) : (beginSlot s).cfg = s.cfg := cfg_of_still (still_beginSlot s)
@[simp] theorem cfg_endSlot (s : State) : (endSlot s).cfg = s.cfg := cfg_of_still (still_endSlot s)
@[simp] theorem cfg_idleSlot (s : State) : (idleSlot s).cfg = s.cfg := cfg_of_still (still_idleSlot s)

theorem ticksLeft_beginSlot (s : State) : ticksLeft (beginSlot s) ≤ ticksLeft s := by
  have h1 : ticksLeft (tiaTicks (latchNmi s)) ≤ ticksLeft s :=
    (ticksLeft_tiaTicks _).trans ((Nat.sub_le _ _).trans (ticksLeft_latchNmi s).le)
  have h2 : ticksLeft (tiaTicks (piaTick (latchNmi s))) ≤ ticksLeft s :=
    (ticksLeft_tiaTicks _).trans ((Nat.sub_le _ _).trans (ticksLeft_latchNmi s).le)
  simp only [beginSlot]
  split
  · exact (ticksLeft_latchNmi s).le
  · exact (ticksLeft_latchNmi s).le
  · exact (ticksLeft_latchNmi s).le
  · exact h1
  · exact h2
  · exact h1

theorem ticksLeft_clock (s : State) (n : Nat) : ticksLeft { s with clock := n } = ticksLeft s := rfl

/-- A board step without the CPU uses up its ticks. -/
theorem ticksLeft_idleSlot (s : State) : ticksLeft (idleSlot s) ≤ ticksLeft s - ticksPerStep s.cfg := by
  have h0 := ticksLeft_latchNmi s
  have h1 := ticksLeft_tiaTicks (latchNmi s)
  have h2 := ticksLeft_tiaTicks (piaTick (latchNmi s))
  have h3 := ticksLeft_tiaTicks (piaTick (piaTick (latchNmi s)))
  simp only [cfg_latchNmi, cfg_piaTick, ticksLeft_piaTick, h0] at h1 h2 h3
  have hc : (beginSlot s).cfg.order = s.cfg.order := by rw [cfg_beginSlot]
  simp only [idleSlot, endSlot, hc, ticksLeft_clock]
  cases ho : s.cfg.order <;> simp only [beginSlot, cfg_latchNmi, ho, ticksLeft_piaTick] <;> assumption

theorem ticksLeft_pos {s : State} (h : s.cpu.halted = true) : 0 < ticksLeft s := by
  have := s.tia.hclock.isLt
  simp only [ticksLeft, h, if_true]
  omega

theorem not_halted_of_ticksLeft {s : State} (h : ticksLeft s = 0) : s.cpu.halted = false := by
  cases hh : s.cpu.halted
  · rfl
  · exact absurd h (ticksLeft_pos hh).ne'

/-- Waiting for the CPU's slot finds it, if the bound leaves time for the ticks of the line. -/
theorem halted_awaitCpu (n : Nat) (s : State) (h : ticksLeft s ≤ n * ticksPerStep s.cfg) :
    (awaitCpu n s).cpu.halted = false := by
  induction n generalizing s with
  | zero =>
    have h0 : ticksLeft s = 0 := by omega
    exact not_halted_of_ticksLeft (Nat.le_zero.1 ((ticksLeft_beginSlot s).trans h0.le))
  | succ n ih =>
    unfold awaitCpu
    split
    · refine ih _ ?_
      have h1 := ticksLeft_idleSlot s
      rw [cfg_idleSlot]
      rw [Nat.succ_mul] at h
      omega
    · rename_i h'
      simpa using h'

theorem ticksLeft_le (s : State) : ticksLeft s ≤ 228 := by
  unfold ticksLeft; split <;> omega

/-- The CPU is never halted in its own slot: the bound on the halted steps is never exhausted (log 25). -/
theorem halted_openRead (s : State) : (openRead s).cpu.halted = false := by
  refine halted_awaitCpu _ s ((ticksLeft_le s).trans ?_)
  unfold haltBound ticksPerStep
  split <;> omega

/-- The wait is no longer than the ticks of the line take. -/
theorem clock_awaitCpu (n k : Nat) (s : State) (h : ticksLeft s ≤ k * ticksPerStep s.cfg) :
    (awaitCpu n s).clock ≤ s.clock + k := by
  induction n generalizing s k with
  | zero => simp [awaitCpu]
  | succ n ih =>
    unfold awaitCpu
    split
    · rename_i hh
      cases k with
      | zero =>
        exact absurd hh (by
          rw [not_halted_of_ticksLeft (Nat.le_zero.1 ((ticksLeft_beginSlot s).trans (by simpa using h)))]
          simp)
      | succ k =>
        have h1 := ticksLeft_idleSlot s
        have := ih k (idleSlot s) (by rw [cfg_idleSlot]; rw [Nat.succ_mul] at h; omega)
        rw [clock_idleSlot] at this
        omega
    · simp

end Sys2Proof.Machine
end

