-- ==== Sys2Proof/Laws/Targets.lean ====
section
/-! SUPPORT. The RAM write port a cartridge maps, and why no access at an address changes the targets of a write there. -/

namespace Sys2Proof.Machine

/-- The byte of extra RAM whose write port is mapped at an offset, if one is (R532, R536, R541, R542). -/
def Cart.writePort (p : Params) (c : Cart) (o : Nat) : Option Nat :=
  match c.port p o with
  | .ramWrite i => some i
  | .rom _ | .ramRead _ => none

theorem Cart.writePort_eq (p : Params) (c : Cart) (o : Nat) :
    c.writePort p o =
      match p.scheme with
      | .f8 | .f6 | .f4 => if o < (if p.superChip then 128 else 0) then some o else none
      | .fa => if o < 256 then some o else none
      | .e7 =>
        if o < 2048 then (if c.lower = 7 ∧ o < 1024 then some o else none)
        else if o < 0x900 then some (1024 + 256 * c.ramblk.val + (o - 0x800)) else none
      | .cv => if o < 1024 then none else if o < 2048 then some (o - 1024) else none
      | .scheme3E =>
        if o < 2048 then
          match c.ramBlock with
          | some b => if o < 1024 then none else some (1024 * b.val + (o - 1024))
          | none => none
        else none
      | .vanilla2k | .vanilla4k | .f0 | .e0 | .tigervision | .ua | .fe | .ef => none := by
  unfold Cart.writePort Cart.port
  cases p.scheme <;> dsimp only [overlayPort]
  case tigervision => by_cases h2 : o < 2048 <;> simp [h2]
  case scheme3E => cases c.ramBlock <;> by_cases h1 : o < 1024 <;> by_cases h2 : o < 2048 <;> simp [h1, h2]
  case e7 =>
    by_cases h1 : o < 1024 <;> by_cases h2 : o < 2048 <;> by_cases h3 : o < 0x900 <;> by_cases h4 : o < 0xA00 <;>
      by_cases h5 : c.lower = 7 <;> simp [h1, h2, h3, h4, h5]
  case cv => by_cases h1 : o < 1024 <;> by_cases h2 : o < 2048 <;> simp [h1, h2]
  case fa => by_cases h1 : o < 256 <;> by_cases h2 : o < 512 <;> simp [h1, h2]
  case f8 | f6 | f4 =>
    cases p.superChip <;> by_cases h1 : o < 128 <;> by_cases h2 : o < 256 <;> simp [h1, h2]

theorem Cart.writePort_directSwitch (p : Params) (lip : Addr) (o : Nat) (c : Cart) :
    (c.directSwitch p lip o).writePort p o = c.writePort p o := by
  simp only [Cart.writePort_eq]
  unfold Cart.directSwitch
  cases p.scheme <;> dsimp only
  case e7 =>
    by_cases h : o < 0x900
    · have h1 : ¬(0xFE0 ≤ o ∧ o ≤ 0xFE7) := by omega
      have h2 : ¬(0xFE8 ≤ o ∧ o ≤ 0xFEB) := by omega
      simp only [h1, h2, if_false]
    · have h1 : ¬ o < 2048 := by omega
      simp only [h, h1, if_false]

theorem Cart.writePort_congr {p : Params} {c d : Cart} (hl : d.lower = c.lower) (hr : d.ramblk = c.ramblk)
    (hb : d.ramBlock = c.ramBlock) (o : Nat) : d.writePort p o = c.writePort p o := by
  simp only [Cart.writePort_eq, hl, hr, hb]

/-- The listener changes no mapped write port on an access in the cartridge's window. -/
theorem Cart.writePort_sniff {m : BusAddr} (h : m.getLsbD 12 = true) (p : Params) (v : Byte) (k : AccessKind)
    (c : Cart) (o : Nat) : (c.sniff p m v k).writePort p o = c.writePort p o := by
  have hm : 4096 ≤ m.toNat := by
    by_contra hlt
    have : m.toNat.testBit 12 = false := Nat.testBit_lt_two_pow (by omega)
    rw [BitVec.getLsbD] at h; simp_all
  simp only [Cart.writePort_eq]
  cases hs : p.scheme <;> dsimp only
  case scheme3E =>
    have h1 : ¬(k = .write ∧ m.toNat = 0x3E) := by omega
    have h2 : ¬(k = .write ∧ m.toNat = 0x3F) := by omega
    unfold Cart.sniff
    rw [hs]
    simp only [h1, h2, if_false]
  case e7 => 
    have : c.sniff p m v k = c := by unfold Cart.sniff; rw [hs]
    rw [this]



/-- The targets of a write in the cartridge's window, by the mapped write port. -/
theorem storeTargets_cart {a : Addr} {s : State} (h : route (maskAddr a) = .cartridge) :
    storeTargets a s =
      ((s.cart.writePort s.cfg (cartOffset (maskAddr a))).map (fun i => (Chip.cartridge, i))).toList := by
  simp only [storeTargets, h]
  rw [← Cart.writePort_directSwitch s.cfg s.cpu.lip]
  unfold Cart.writePort
  cases (s.cart.directSwitch s.cfg s.cpu.lip (cartOffset (maskAddr a))).port s.cfg (cartOffset (maskAddr a)) <;> rfl

theorem bit12_of_route {m : BusAddr} (h : route m = .cartridge) : m.getLsbD 12 = true := by
  simp only [route] at h
  split at h
  · assumption
  · split at h <;> simp at h

theorem Cart.writePort_read (p : Params) (lip : Addr) (d : Byte) (m : BusAddr) (c : Cart) :
    (c.read p lip d m).2.writePort p (cartOffset m) = c.writePort p (cartOffset m) := by
  have h := Cart.writePort_directSwitch p lip (cartOffset m) c
  simp only [Cart.read]
  split
  · exact h
  · exact h
  · rw [← h]; exact Cart.writePort_congr rfl rfl rfl _

theorem Cart.writePort_write (p : Params) (lip : Addr) (m : BusAddr) (v : Byte) (c : Cart) :
    (c.write p lip m v).writePort p (cartOffset m) = c.writePort p (cartOffset m) := by
  have h := Cart.writePort_directSwitch p lip (cartOffset m) c
  simp only [Cart.write]
  split
  · rw [← h]; exact Cart.writePort_congr rfl rfl rfl _
  · exact h
  · exact h

theorem storeTargets_congr {a : Addr} {s t : State} (hc : t.cfg = s.cfg)
    (h : route (maskAddr a) = .cartridge → t.cart.writePort s.cfg (cartOffset (maskAddr a)) =
      s.cart.writePort s.cfg (cartOffset (maskAddr a))) : storeTargets a t = storeTargets a s := by
  by_cases hr : route (maskAddr a) = .cartridge
  · rw [storeTargets_cart hr, storeTargets_cart hr, hc, h hr]
  · have : (maskAddr a).getLsbD 12 = false := by
      simp only [route] at hr
      cases hb : (maskAddr a).getLsbD 12
      · rfl
      · simp [hb] at hr
    exact storeTargets_of_bit12 this t s

/-- A read at an address leaves the targets of a write there as they are. -/
theorem storeTargets_readCycle (a : Addr) (s : State) : storeTargets a (readCycle a s).2 = storeTargets a s := by
  refine storeTargets_congr (cfg_readCycle a s) fun hr => ?_
  unfold readCycle
  split
  · rfl
  · simp only [readHere, cart_endCycle, busRead, (afterAccess_parts _ _ _ _).2.2.1, chipRead, hr, cfg_openRead]
    rw [Cart.writePort_sniff (bit12_of_route hr), Cart.writePort_read, cart_openRead]

/-- A write leaves the targets of a write there as they are. -/
theorem storeTargets_writeCycle (a : Addr) (v : Byte) (s : State) :
    storeTargets a (writeCycle a v s) = storeTargets a s := by
  refine storeTargets_congr (cfg_writeCycle a v s) fun hr => ?_
  have hs := sameStill (still_openWrite s)
  unfold writeCycle
  split
  · rfl
  · simp only [cart_endCycle, busWrite, (afterAccess_parts _ _ _ _).2.2.1, chipWrite, hr, cfg_openWrite]
    rw [Cart.writePort_sniff (bit12_of_route hr), Cart.writePort_write, hs.cart]

/-- A read changes no byte but the targets of a write at its address. -/
theorem byteAt_readCycle_other {a : Addr} {s : State} {c : Chip} {i : Nat} (h : (c, i) ∉ storeTargets a s) :
    byteAt c i (readCycle a s).2 = byteAt c i s := by
  have hst := stored_readCycle a s
  cases c
  · exact congrArg (fun m : Memory => m.read i) (congrArg Stored.tiaRegs hst)
  · exact congrArg (fun m : Memory => m.read i) (congrArg Stored.ram hst)
  · unfold readCycle
    split
    · rfl
    · simp only [byteAt, readHere, cart_endCycle, busRead, (afterAccess_parts _ _ _ _).2.2.1, Cart.ram_sniff, chipRead]
      split
      · rw [cart_openRead]
      · rw [cart_openRead]
      · rename_i hr
        have hs := sameStill (still_openRead s)
        rw [← storeTargets_of_still (still_openRead s)] at h
        simp only [storeTargets, hr] at h
        rw [← cart_openRead s]
        simp only [Cart.read]
        split
        · simp
        · simp
        · rename_i j hj
          simp only [hj, List.mem_singleton, Prod.mk.injEq, true_and] at h
          simp only [Cart.ram_directSwitch]
          exact Memory.read_write_other _ _ h

theorem storeTargets_of_cpuOnly {f : State → State} (hf : CpuOnly f) (a : Addr) (s : State) :
    storeTargets a (f s) = storeTargets a s := by
  obtain ⟨c, hc⟩ := hf.eq s
  rw [hc]
  exact storeTargets_congr rfl fun _ => rfl

end Sys2Proof.Machine
end

