-- ==== Sys2Proof/Laws/Results.lean ====
section
/-! SUPPORT. What an instruction of each kind does in a machine that no trap can stop: exec answers a next state, with
these registers, these stored bytes and this many board steps. -/

namespace Sys2Proof.Machine

theorem byteAt_withTag (s : State) (t : ExecTag) (c : Chip) (n : Nat) : byteAt c n (s.withTag t) = byteAt c n s := by
  cases c <;> rfl

/-- A live end of an instruction is a next state that agrees with it in all but the tag. -/
theorem next_of_finish {i : Instr} {s t : State} (he : exec i s = finish t) (ht : Live t) :
    exec i s = .next (t.withTag .fetch) := by
  rw [he, finish_of_live ht]

/-- The registers after an operation of kind R on an operand (R200 to R202, R250 to R259). -/
def readRegs (op : ReadOp) (v : Byte) (r : Regs) : Regs :=
  match op with
  | .lda => { r with a := v, p := setNZ v r.p }
  | .ldx => { r with x := v, p := setNZ v r.p }
  | .ldy => { r with y := v, p := setNZ v r.p }
  | .adc => { r with a := (adc r.a v r.p).1, p := (adc r.a v r.p).2 }
  | .sbc => { r with a := (sbc r.a v r.p).1, p := (sbc r.a v r.p).2 }
  | .and => { r with a := r.a &&& v, p := setNZ (r.a &&& v) r.p }
  | .ora => { r with a := r.a ||| v, p := setNZ (r.a ||| v) r.p }
  | .eor => { r with a := r.a ^^^ v, p := setNZ (r.a ^^^ v) r.p }
  | .cmp => { r with p := compareFlags r.a v r.p }
  | .cpx => { r with p := compareFlags r.x v r.p }
  | .cpy => { r with p := compareFlags r.y v r.p }
  | .bit => { r with p := bitTest r.a v r.p }

/-- The registers after an implied operation (R221 to R226, R307 to R310, R370 to R377). -/
def impliedRegs (op : ImpliedOp) (r : Regs) : Regs :=
  match op with
  | .tax => { r with x := r.a, p := setNZ r.a r.p }
  | .tay => { r with y := r.a, p := setNZ r.a r.p }
  | .txa => { r with a := r.x, p := setNZ r.x r.p }
  | .tya => { r with a := r.y, p := setNZ r.y r.p }
  | .tsx => { r with x := r.s, p := setNZ r.s r.p }
  | .txs => { r with s := r.x }
  | .inx => { r with x := r.x + 1, p := setNZ (r.x + 1) r.p }
  | .iny => { r with y := r.y + 1, p := setNZ (r.y + 1) r.p }
  | .dex => { r with x := r.x - 1, p := setNZ (r.x - 1) r.p }
  | .dey => { r with y := r.y - 1, p := setNZ (r.y - 1) r.p }
  | .clc => { r with p := { r.p with c := false } }
  | .sec => { r with p := { r.p with c := true } }
  | .cli => { r with p := { r.p with i := false } }
  | .sei => { r with p := { r.p with i := true } }
  | .cld => { r with p := { r.p with d := false } }
  | .sed => { r with p := { r.p with d := true } }
  | .clv => { r with p := { r.p with v := false } }
  | .nop => r

theorem regs_performRead_of_live {op : ReadOp} {r : Byte × State} (h : Live r.2) :
    (performRead op r).regs = readRegs op r.1 r.2.regs := by
  cases op
  all_goals
    simp only [performRead, performLda, performLdx, performLdy, performAdc, performSbc, performAnd, performOra,
      performEor, performCmp, performCpx, performCpy, performBit, perform_of_live h]
    rfl

theorem cpuOnly_performRead (op : ReadOp) (r : Byte × State) : ∃ f, performRead op r = perform f r.2 ∧ CpuOnly f := by
  cases op <;> exact ⟨_, rfl, ⟨fun _ => ⟨_, rfl⟩⟩⟩

/-- Kind R. -/
theorem exec_read_next {i : Instr} {op : ReadOp} {o : Operand} {s : State} (hk : i.kind = .read op o) (h : Live s) :
    ∃ t, exec i s = .next t ∧ t.regs = readRegs op (readOperand o s).1 s.regs ∧ t.stored = s.stored ∧
      t.clock = (readOperand o s).2.clock ∧ (Quiet s (operandReads o s) → ∀ c n, byteAt c n t = byteAt c n s) := by
  obtain ⟨f, hf, hc⟩ := cpuOnly_performRead op (readOperand o s)
  have hl : Live (performRead op (readOperand o s)) := by rw [hf]; exact hc.perform.live (live_readOperand h)
  refine ⟨_, next_of_finish (exec_read hk s) hl, ?_, ?_, ?_, fun hq c n => ?_⟩
  · rw [regs_withTag, regs_performRead_of_live (live_readOperand h), regs_readOperand]
  · rw [stored_withTag, hf, hc.perform.stored, stored_readOperand]
  · obtain ⟨d, hd⟩ := hc.perform.eq (readOperand o s).2
    rw [clock_withTag, hf, hd]
  · rw [byteAt_withTag, hf, hc.perform.byteAt, byteAt_readOperand hq]

/-- Kind W. -/
theorem exec_write_next {i : Instr} {op : WriteOp} {m : MemMode} {s : State} (hk : i.kind = .write op m) (h : Live s) :
    ∃ t, exec i s = .next t ∧ t = (writeMem m (writeReg op s) s).withTag .fetch ∧ t.regs = s.regs := by
  refine ⟨_, next_of_finish (exec_write hk s) (live_writeMem h), rfl, ?_⟩
  rw [regs_withTag, regs_writeMem]

theorem cpuOnly_impliedFun (op : ImpliedOp) : CpuOnly (impliedFun op) := by
  cases op <;> exact ⟨fun _ => ⟨_, rfl⟩⟩

theorem regs_impliedFun (op : ImpliedOp) (s : State) : (impliedFun op s).regs = impliedRegs op s.regs := by
  cases op <;> rfl

/-- Implied instructions. -/
theorem exec_implied_next {i : Instr} {op : ImpliedOp} {s : State} (hk : i.kind = .implied op) (h : Live s) :
    ∃ t, exec i s = .next t ∧ t.regs = impliedRegs op s.regs ∧ t.stored = s.stored ∧
      t.clock = (dummyFetch s).clock ∧ (Quiet s [s.cpu.pc] → ∀ c n, byteAt c n t = byteAt c n s) := by
  have hc := cpuOnly_impliedFun op
  have he : implied (impliedFun op) s = impliedFun op (dummyFetch s) := by
    rw [implied, perform_of_live (live_dummyFetch h)]
  have hl : Live (implied (impliedFun op) s) := by rw [he]; exact hc.live (live_dummyFetch h)
  refine ⟨_, next_of_finish (exec_implied hk s) hl, ?_, ?_, ?_, fun hq c n => ?_⟩
  · rw [regs_withTag, he, regs_impliedFun, regs_dummyFetch]
  · rw [stored_withTag, he, hc.stored, stored_dummyFetch]
  · obtain ⟨d, hd⟩ := hc.eq (dummyFetch s)
    rw [clock_withTag, he, hd]
  · rw [byteAt_withTag, he, hc.byteAt, dummyFetch, dummyRead_eq, byteAt_readCycle (hq _ (by simp))]

/-- The accumulator forms. -/
theorem exec_accumulator_next {i : Instr} {op : ModifyOp} {s : State} (hk : i.kind = .accumulator op) (h : Live s) :
    ∃ t, exec i s = .next t ∧
      t.regs = { s.regs with a := (modifyFun op s.cpu.a s.cpu.p).1, p := (modifyFun op s.cpu.a s.cpu.p).2 } ∧
      t.stored = s.stored ∧ t.clock = (dummyFetch s).clock ∧
      (Quiet s [s.cpu.pc] → ∀ c n, byteAt c n t = byteAt c n s) := by
  have hr := regs_dummyFetch s
  have ha : (dummyFetch s).cpu.a = s.cpu.a := congrArg Regs.a hr
  have hp : (dummyFetch s).cpu.p = s.cpu.p := congrArg Regs.p hr
  have hl := live_dummyFetch h
  have he : modifyAcc (modifyFun op) s =
      ((dummyFetch s).withA (modifyFun op s.cpu.a s.cpu.p).1).withP (modifyFun op s.cpu.a s.cpu.p).2 := by
    rw [modifyAcc, implied, perform_of_live hl, ha, hp]
  have hl' : Live (modifyAcc (modifyFun op) s) := by rw [he]; exact hl
  refine ⟨_, next_of_finish (exec_accumulator hk s) hl', ?_, ?_, ?_, fun hq c n => ?_⟩
  · rw [regs_withTag, he, regs_withP, regs_withA, hr]
  · rw [stored_withTag, he, stored_withP, stored_withA, stored_dummyFetch]
  · rw [clock_withTag, he, clock_withP, clock_withA]
  · have e : byteAt c n (((dummyFetch s).withA (modifyFun op s.cpu.a s.cpu.p).1).withP
        (modifyFun op s.cpu.a s.cpu.p).2) = byteAt c n (dummyFetch s) := by cases c <;> rfl
    rw [byteAt_withTag, he, e, dummyFetch, dummyRead_eq, byteAt_readCycle (hq _ (by simp))]

/-! ### Read-modify-write -/

/-- The state of a read-modify-write instruction before its last write. -/
def modifyBase (m : MemMode) (s : State) : State :=
  let r := readCycle (writeEa m s) (writeBase m s)
  writeCycle (writeEa m s) r.1 (perform (fun t => t.latchOperand r.1) r.2)

theorem live_modifyBase {m : MemMode} {s : State} (h : Live s) : Live (modifyBase m s) :=
  live_writeCycle ((cpuOnly_latchOperand _).perform.live (live_readCycle (live_writeBase h)))

theorem regs_modifyBase {m : MemMode} {s : State} (h : Live s) : (modifyBase m s).regs = s.regs := by
  simp only [modifyBase]
  rw [regs_writeCycle, perform_of_live (live_readCycle (live_writeBase h)), regs_latchOperand, regs_readCycle,
    regs_writeBase]

theorem modifyMem_of_live {f : Byte → Flags → Byte × Flags} {m : MemMode} {s : State} (h : Live s) :
    modifyMem f m s =
      (writeCycle (writeEa m s) (f (readCycle (writeEa m s) (writeBase m s)).1 s.cpu.p).1 (modifyBase m s)).withP
        (f (readCycle (writeEa m s) (writeBase m s)).1 s.cpu.p).2 := by
  have hp : (modifyBase m s).cpu.p = s.cpu.p := congrArg Regs.p (regs_modifyBase h)
  show perform (fun t => t.withP (f (readCycle (writeEa m s) (writeBase m s)).1 (modifyBase m s).cpu.p).2)
    (writeCycle (writeEa m s) (f (readCycle (writeEa m s) (writeBase m s)).1 (modifyBase m s).cpu.p).1
      (modifyBase m s)) = _
  rw [perform_of_live (live_writeCycle (live_modifyBase h)), hp]

/-- Kind M. -/
theorem exec_modify_next {i : Instr} {op : ModifyOp} {m : MemMode} {s : State} (hk : i.kind = .modify op m)
    (h : Live s) :
    let q := modifyFun op (readCycle (writeEa m s) (writeBase m s)).1 s.cpu.p
    ∃ t, exec i s = .next t ∧ t.regs = { s.regs with p := q.2 } ∧
      t = ((writeCycle (writeEa m s) q.1 (modifyBase m s)).withP q.2).withTag .fetch := by
  intro q
  have he := modifyMem_of_live (f := modifyFun op) (m := m) h
  have hl : Live (modifyMem (modifyFun op) m s) := by
    rw [he]; exact live_writeCycle (live_modifyBase h)
  refine ⟨_, next_of_finish (exec_modify hk s) hl, ?_, by rw [he]⟩
  rw [regs_withTag, he, regs_withP, regs_writeCycle, regs_modifyBase h]

theorem storeTargets_modifyBase (m : MemMode) (s : State) :
    storeTargets (writeEa m s) (modifyBase m s) = storeTargets (writeEa m s) (writeBase m s) := by
  simp only [modifyBase]
  rw [storeTargets_writeCycle, storeTargets_of_cpuOnly (cpuOnly_latchOperand _).perform, storeTargets_readCycle]

/-- The read and the first write of a read-modify-write change no byte but the targets of its write. -/
theorem byteAt_modifyBase_other {m : MemMode} {s : State} (hq : Quiet s (resolveReads true m s)) {c : Chip} {i : Nat}
    (h : (c, i) ∉ storeTargets (writeEa m s) (writeBase m s)) : byteAt c i (modifyBase m s) = byteAt c i s := by
  simp only [modifyBase]
  rw [byteAt_writeCycle_other, (cpuOnly_latchOperand _).perform.byteAt, byteAt_readCycle_other h, byteAt_writeBase hq]
  rwa [storeTargets_of_cpuOnly (cpuOnly_latchOperand _).perform, storeTargets_readCycle]

/-! ### Every instruction of a live machine ends in a live machine -/

theorem live_branch {b : Bool} {off : Byte} {s : State} (h : Live s) : Live (branch b off s) := by
  have h0 : Live (perform (fun t => t.latchOffset off) s) := by rw [perform_of_live h]; exact h
  have hp : ∀ (a : Addr) {t : State}, Live t → Live (perform (fun u => u.withPc a) t) := by
    intro a t ht; rw [perform_of_live ht]; exact ht
  simp only [branch]
  split
  · split
    · exact hp _ (live_dummyFetch h0)
    · exact hp _ (live_dummyRead (live_dummyFetch h0))
  · exact h0

theorem live_stackRun {op : StackOp} {s : State} (h : Live s) : Live (stackRun op s) := by
  have h1 := live_dummyFetch h
  have h2 := live_pull (live_dummyStack h1)
  cases op
  · exact live_push h1
  · exact live_push h1
  · simp only [stackRun, performPla, perform_of_live h2]; exact h2
  · simp only [stackRun, performPlp, perform_of_live h2]; exact h2

theorem live_jsrPushes {s : State} (h : Live s) : Live (jsrPushes s) := live_push (live_push (live_dummyStack h))

/-- JSR's last cycle sets PC to the target. -/
theorem callSubroutine_of_live {addr : Addr} {s : State} (h : Live s) :
    callSubroutine addr s = ((jsrHigh s).2.latchHi (hiByte addr)).withPc addr :=
  perform_of_live (live_readCycle (live_jsrPushes h)) _

/-- RTS: the pulled word, and one more after the last dummy read. -/
theorem returnSubroutine_of_live {s : State} (h : Live s) :
    returnSubroutine s =
      (dummyFetch ((pull (pullLow (dummyStack (dummyFetch s))).2).2.withPc
        (wordOf (pullLow (dummyStack (dummyFetch s))).1 (pull (pullLow (dummyStack (dummyFetch s))).2).1))).incPc := by
  have l3 := live_pull (live_pullLow (live_dummyStack (live_dummyFetch h)))
  show perform State.incPc (dummyFetch (perform _ _)) = _
  rw [perform_of_live l3, perform_of_live (live_dummyFetch (live_withPc l3 _))]

/-- RTI: P, then PC. -/
theorem returnInterrupt_of_live {s : State} (h : Live s) :
    returnInterrupt s =
      let b := pull (dummyStack (dummyFetch s))
      let l := pullLow (b.2.withP (unpackP b.1))
      let h := pull l.2
      h.2.withPc (wordOf l.1 h.1) := by
  have l1 := live_pull (live_dummyStack (live_dummyFetch h))
  simp only [returnInterrupt]
  rw [perform_of_live l1]
  exact perform_of_live (live_pull (live_pullLow (live_withP l1 _))) _

theorem live_control {i : Instr} {s : State} (hk : i.kind = .control) (h : Live s) :
    ∃ u, exec i s = finish u ∧ Live u := by
  have h1 := live_dummyFetch h
  rcases control_cases hk with ⟨a, rfl⟩ | ⟨a, rfl⟩ | ⟨a, rfl⟩ | rfl | rfl | rfl
  · exact ⟨_, rfl, by rw [perform_of_live h]; exact h⟩
  · refine ⟨_, rfl, ?_⟩
    have h2 := live_readCycle (a := wordOf (loByte a + 1) (hiByte a)) (live_readLow (a := a) h)
    simp only [jumpIndirect, perform_of_live h2]
    exact h2
  · exact ⟨_, rfl, by rw [callSubroutine_of_live h]; exact live_readCycle (live_jsrPushes h)⟩
  · refine ⟨_, rfl, ?_⟩
    rw [returnSubroutine_of_live h]
    exact live_dummyFetch (live_withPc (live_pull (live_pullLow (live_dummyStack h1))) _)
  · refine ⟨_, rfl, live_enterVector ?_⟩
    rw [perform_of_live h1]; exact h1
  · refine ⟨_, rfl, ?_⟩
    rw [returnInterrupt_of_live h]
    exact live_pull (live_pullLow (live_withP (live_pull (live_dummyStack h1)) _))

/-- An instruction run in a live machine answers a next state, and that state is live. -/
theorem exec_of_live (i : Instr) {s : State} (h : Live s) : ∃ t, exec i s = .next t ∧ Live t := by
  have key : ∀ {u : State}, exec i s = finish u → Live u → ∃ t, exec i s = .next t ∧ Live t :=
    fun he hu => ⟨_, next_of_finish he hu, hu⟩
  rcases hk : i.kind with ⟨op, o⟩ | ⟨op, m⟩ | ⟨op, m⟩ | op | op | op | ⟨op, off⟩ | _
  · obtain ⟨f, hf, hc⟩ := cpuOnly_performRead op (readOperand o s)
    exact key (exec_read hk s) (by rw [hf]; exact hc.perform.live (live_readOperand h))
  · exact key (exec_write hk s) (live_writeMem h)
  · exact key (exec_modify hk s) (by rw [modifyMem_of_live h]; exact live_writeCycle (live_modifyBase h))
  · refine key (exec_accumulator hk s) ?_
    rw [modifyAcc, implied, perform_of_live (live_dummyFetch h)]
    exact live_dummyFetch h
  · refine key (exec_implied hk s) ?_
    rw [implied, perform_of_live (live_dummyFetch h)]
    exact (cpuOnly_impliedFun op).live (live_dummyFetch h)
  · exact key (exec_stack hk s) (live_stackRun h)
  · exact key (exec_branch hk s) (live_branch h)
  · obtain ⟨u, he, hu⟩ := live_control hk h
    exact key he hu

end Sys2Proof.Machine
end

