-- ==== Sys2Proof/Laws/Stores.lean ====
section
/-! SUPPORT. The byte stores stay in canonical form, and what a write cycle leaves at its targets, HMCLR among them. -/

namespace Sys2Proof.Machine

/-- The three byte stores are in canonical form. -/
def StoresWf (s : State) : Prop := s.tia.regs.wf = true ∧ s.pia.ram.wf = true ∧ s.cart.ram.wf = true

theorem State.Inv.storesWf {s : State} (h : s.Inv) : StoresWf s := ⟨h.tia.1, h.pia.2.1, h.cart.2.1⟩

theorem StoresWf.of_stored {s t : State} (h : StoresWf s) (hs : t.stored = s.stored) (hc : t.cart.ram.wf = true) :
    StoresWf t := by
  have h1 : t.tia.regs = s.tia.regs := congrArg Stored.tiaRegs hs
  have h2 : t.pia.ram = s.pia.ram := congrArg Stored.ram hs
  exact ⟨by rw [h1]; exact h.1, by rw [h2]; exact h.2.1, hc⟩

theorem Cart.wf_read {p : Params} {lip : Addr} {d : Byte} {m : BusAddr} {c : Cart} (h : c.ram.wf = true) :
    (c.read p lip d m).2.ram.wf = true := by
  simp only [Cart.read]
  split
  · simpa using h
  · simpa using h
  · simp only [Cart.ram_directSwitch]; exact Memory.wf_write h _ _

theorem Cart.wf_write {p : Params} {lip : Addr} {v : Byte} {m : BusAddr} {c : Cart} (h : c.ram.wf = true) :
    (c.write p lip m v).ram.wf = true := by
  simp only [Cart.write]
  split
  · simp only [Cart.ram_directSwitch]; exact Memory.wf_write h _ _
  · simpa using h
  · simpa using h

theorem wf_tiaWrite {m : BusAddr} {v : Byte} {s : State} (h : s.tia.regs.wf = true) :
    (tiaWrite m v s).tia.regs.wf = true := by
  simp only [tiaWrite]
  by_cases h2 : m.toNat % 64 = 0x2B
  · have hst : tiaStores (m.toNat % 64) = false := by rw [h2]; rfl
    rw [h2] at hst
    simp only [h2, hst, tiaEffect, Bool.false_eq_true, if_false]
    exact Memory.wf_write (Memory.wf_write (Memory.wf_write (Memory.wf_write h _ _) _ _) _ _) _ _
  · rw [(tiaEffect_parts _ v _).2.2.2.2.2.2.2.2.2 h2]
    split
    · exact Memory.wf_write h _ _
    · exact h

theorem kept_storesWf : Kept StoresWf where
  cpu _ _ h := h
  piaTick s h := h.of_stored (sameStill (still_piaTick s)).stored h.2.2
  tiaTick s h := h.of_stored (sameStill (still_tiaTick s)).stored (by rw [(sameStill (still_tiaTick s)).cart]; exact h.2.2)
  clock _ _ h := h
  read s a h := by
    refine h.of_stored (stored_busRead a s) ?_
    simp only [busRead, (afterAccess_parts _ _ _ _).2.2.1, Cart.ram_sniff, chipRead]
    split
    · exact h.2.2
    · exact h.2.2
    · exact Cart.wf_read h.2.2
  write s a v h := by
    simp only [StoresWf, busWrite, (afterAccess_parts _ _ _ _).2.2.1, (afterAccess_parts _ _ _ _).2.2.2.1,
      (afterAccess_parts _ _ _ _).2.2.2.2.1, Cart.ram_sniff, chipWrite]
    split
    · obtain ⟨-, -, -, hc, hp, -⟩ := tiaWrite_parts (maskAddr a) v s
      rw [hc, hp]
      exact ⟨wf_tiaWrite h.1, h.2.1, h.2.2⟩
    · refine ⟨h.1, ?_, h.2.2⟩
      dsimp only
      rw [piaWrite_ram]
      split
      · exact h.2.1
      · exact Memory.wf_write h.2.1 _ _
    · exact ⟨h.1, h.2.1, Cart.wf_write h.2.2⟩
  stop s op h := by unfold raiseInvalidOpcode; split <;> exact h

/-- HMCLR clears the four motion registers (R484). -/
theorem byteAt_busWrite_hmclr {a : Addr} {v : Byte} {s : State} {c : Chip} {i : Nat} (hw : s.tia.regs.wf = true)
    (h : (c, i) ∈ storeTargets a s) (hm : (maskAddr a).toNat % 64 = 0x2B) (hr : route (maskAddr a) = .tia) :
    byteAt c i (busWrite a v s) = 0 := by
  rw [busWrite, byteAt_afterAccess]
  have hst : tiaStores ((maskAddr a).toNat % 64) = false := by rw [hm]; rfl
  rw [hm] at hst
  have hk : ∀ (m : Memory) (j k : Nat), m.wf = true → (m.read j = 0 ∨ j = k) → (m.write k 0).read j = 0 := by
    intro m j k hm hj
    by_cases he : j = k
    · subst he; exact Memory.read_write_same hm _ _
    · rw [Memory.read_write_other _ _ he]; exact hj.resolve_right he
  have w1 := Memory.wf_write hw 0x20 0
  have w2 := Memory.wf_write w1 0x21 0
  have w3 := Memory.wf_write w2 0x22 0
  simp only [storeTargets, hr, hm, if_true, List.mem_cons, Prod.mk.injEq, List.not_mem_nil, or_false] at h
  simp only [chipWrite, hr, tiaWrite, hm, hst, tiaEffect, Bool.false_eq_true, if_false]
  obtain ⟨rfl, h⟩ : c = .tia ∧ (i = 0x20 ∨ i = 0x21 ∨ i = 0x22 ∨ i = 0x23) := by
    rcases h with h | h | h | h <;> exact ⟨h.1, by simp [h.2]⟩
  show (((((s.tia.regs.write 0x20 0).write 0x21 0).write 0x22 0).write 0x23 0)).read i = 0
  refine hk _ _ _ w3 ?_
  by_cases h3 : i = 0x23
  · exact .inr h3
  refine .inl (hk _ _ _ w2 ?_)
  by_cases h3 : i = 0x22
  · exact .inr h3
  refine .inl (hk _ _ _ w1 ?_)
  by_cases h3 : i = 0x21
  · exact .inr h3
  refine .inl (hk _ _ _ hw ?_)
  omega

/-- A write cycle leaves its byte, or HMCLR's 0, at every target. -/
theorem byteAt_writeCycle_target {a : Addr} {v : Byte} {s : State} {c : Chip} {i : Nat} (hl : Live s)
    (hw : StoresWf s) (h : (c, i) ∈ storeTargets a s) : byteAt c i (writeCycle a v s) = storedByte a v := by
  by_cases hm : route (maskAddr a) = .tia ∧ (maskAddr a).toNat % 64 = 0x2B
  · simp only [storedByte, hm, and_self, if_true]
    simp only [writeCycle, hl.1, Bool.false_eq_true, if_false]
    rw [byteAt_of_still (still_endCycle _)]
    refine byteAt_busWrite_hmclr ?_ (by rwa [storeTargets_of_still (still_openWrite s)]) hm.2 hm.1
    have h1 : (openWrite s).tia.regs = s.tia.regs := congrArg Stored.tiaRegs (stored_openWrite s)
    rw [h1]; exact hw.1
  · simp only [storedByte, hm, if_false]
    refine byteAt_writeCycle_same hl.1 ?_ h (fun he hr => hm ⟨hr, he⟩)
    cases c
    · exact hw.1
    · exact hw.2.1
    · exact hw.2.2

theorem Kept.modifyBase {P : State → Prop} (h : Kept P) {m : MemMode} {s : State} (hs : P s) : P (modifyBase m s) :=
  h.writeCycle _ _ (h.performs (cpuOnly_latchOperand _) (h.readCycle _ (h.writeBase _ hs)))

/-- A write to PIA RAM changes nothing stored but that RAM. -/
theorem stored_busWrite_ram {a : Addr} (h : isRam a = true) (v : Byte) (s : State) (r : Memory) :
    { (busWrite a v s).stored with ram := r } = { s.stored with ram := r } := by
  simp only [isRam, Bool.and_eq_true, Bool.not_eq_true'] at h
  obtain ⟨⟨h12, h7⟩, h9⟩ := h
  have e12 : (maskAddr a).getLsbD 12 = false := (mask_bit a (by decide)).trans h12
  have e7 : (maskAddr a).getLsbD 7 = true := (mask_bit a (by decide)).trans h7
  have e9 : (maskAddr a).getLsbD 9 = false := (mask_bit a (by decide)).trans h9
  have hr : route (maskAddr a) = .pia := by simp only [route, e12, e7, Bool.false_eq_true, if_false, if_true]
  simp only [busWrite, (afterAccess_parts _ _ _ _).2.1, chipWrite, hr, piaWrite, e9]
  rfl

theorem stored_writeCycle_ram {a : Addr} (h : isRam a = true) (v : Byte) (s : State) (r : Memory) :
    { (writeCycle a v s).stored with ram := r } = { s.stored with ram := r } := by
  unfold writeCycle
  split
  · rfl
  · rw [stored_endCycle, stored_busWrite_ram h, stored_openWrite]

theorem stored_push_ram {v : Byte} {s : State} (hl : Live s) (h : isRam (stackAddr s) = true) (r : Memory) :
    { (push v s).stored with ram := r } = { s.stored with ram := r } := by
  rw [push_of_live hl, stored_withS, stored_writeCycle_ram h]

theorem isRam_stackAddr {s : State} (h : stackInRam 1 s) : isRam (stackAddr s) = true := by
  rw [stackAddr_zero]
  exact (isRam_pushAddr (k := 0) (by simp only [stackInRam] at h; omega)).1

theorem stackInRam_push {v : Byte} {s : State} (hl : Live s) {k : Nat} (h : stackInRam (k + 1) s) :
    stackInRam k (push v s) := by
  have := s_push (v := v) hl
  have hlt := s.cpu.s.isLt
  simp only [stackInRam] at h ⊢
  rw [this]
  bv_omega

theorem stored_pushTwo_ram {v w : Byte} {s : State} (hl : Live s) (h : stackInRam 2 s) (r : Memory) :
    { (push w (push v s)).stored with ram := r } = { s.stored with ram := r } := by
  rw [stored_push_ram (live_push hl) (isRam_stackAddr (stackInRam_push hl h)),
    stored_push_ram hl (isRam_stackAddr (by simp only [stackInRam] at h ⊢; omega))]

/-- An exception's frame on a stack in PIA RAM changes nothing stored but that RAM. -/
theorem stored_pushFrame_ram {b : Bool} {s : State} (hl : Live s) (h : stackInRam 3 s) (r : Memory) :
    { (pushFrame b s).stored with ram := r } = { s.stored with ram := r } := by
  have h2 := stackInRam_push (v := hiByte s.cpu.pc) hl h
  have h1 := stackInRam_push (v := loByte s.cpu.pc) (live_push hl) h2
  rw [pushFrame_eq hl, stored_push_ram (live_push (live_push hl)) (isRam_stackAddr h1),
    stored_pushTwo_ram hl (by simp only [stackInRam] at h ⊢; omega)]

theorem stored_vectorReads {vec : Addr} {nmi : Bool} {s : State} (h : Live s) :
    (vectorReads vec nmi s).2.2.stored = s.stored := by
  rw [vectorReads_of_live h]
  dsimp only
  rw [stored_readCycle]
  split
  · exact stored_readLow vec s
  · exact stored_readLow vec s

theorem stored_enterVector_ram {b : Bool} {vec : Addr} {nmi : Bool} {s : State} (hl : Live s) (h : stackInRam 3 s)
    (r : Memory) : { (enterVector b vec nmi s).stored with ram := r } = { s.stored with ram := r } := by
  rw [enterVector_eq, perform_of_live (live_vectorReads (live_pushFrame hl)), stored_withPc,
    stored_vectorReads (live_pushFrame hl), stored_pushFrame_ram hl h]

/-- A TIA write reaches no register of another chip. -/
theorem elsewhere_tiaEffect {a : Addr} (h : route (maskAddr a) = .tia) (reg : Nat) (v : Byte) (s : State) :
    (tiaEffect reg v s).stored.elsewhere a = s.stored.elsewhere a := by
  simp only [Stored.elsewhere, h]
  unfold tiaEffect
  split <;> rfl

theorem elsewhere_chipWrite (a : Addr) (v : Byte) (s : State) :
    (chipWrite (maskAddr a) v s).stored.elsewhere a = s.stored.elsewhere a := by
  unfold chipWrite
  cases h : route (maskAddr a)
  · simp only [tiaWrite]
    rw [elsewhere_tiaEffect h]
    split
    · simp only [Stored.elsewhere, h]; rfl
    · rfl
  · simp only [Stored.elsewhere, h, piaWrite]
    cases (maskAddr a).getLsbD 9
    · rfl
    · simp only [Bool.not_true, Bool.false_eq_true, if_false, if_true]
      split
      · split <;> rfl
      · split <;> rfl
  · rfl

/-- A write reaches no stored register of a chip its address does not select. -/
theorem elsewhere_writeCycle (a : Addr) (v : Byte) (s : State) :
    (writeCycle a v s).stored.elsewhere a = s.stored.elsewhere a := by
  unfold writeCycle
  split
  · rfl
  · rw [stored_endCycle, busWrite, (afterAccess_parts _ _ _ _).2.1, elsewhere_chipWrite, stored_openWrite]

theorem elsewhere_modifyBase (m : MemMode) (s : State) :
    (modifyBase m s).stored.elsewhere (writeEa m s) = s.stored.elsewhere (writeEa m s) := by
  simp only [modifyBase]
  rw [elsewhere_writeCycle, (cpuOnly_latchOperand _).perform.stored, stored_readCycle, stored_writeBase]

end Sys2Proof.Machine
end

