-- ==== Sys2Proof/Laws/Arithmetic.lean ====
section
/-! SUPPORT. Lemmas for the provers: the arithmetic the statements speak of, against Arith.lean and Shift.lean. -/

namespace Sys2Proof.Machine

/-- N and Z of a value (R42). -/
theorem setNZ_eq (v : Byte) (p : Flags) : setNZ v p = { p with n := v.getLsbD 7, z := v == 0#8 } := by
  simp [setNZ, BitVec.msb_eq_getLsbD_last]

/-- A shift, rotate or count, as Safety.lean states it. -/
theorem modifyFun_eq (op : ModifyOp) (v : Byte) (p : Flags) : modifyFun op v p = (modifiedByte op v p.c, modifiedFlags op v p) := by
  have h1 : ∀ (op : ModifyOp) (v : Byte) (c : Bool), (modifyFun op v ⟨false, false, false, false, false, c⟩).1 = modifiedByte op v c := by
    intro op; cases op <;> decide +kernel
  have h2 : (modifyFun op v p).1 = modifiedByte op v p.c := by
    rw [← h1]; cases op <;> rfl
  apply Prod.ext
  · exact h2
  · simp only [modifiedFlags, ← h2]
    cases op <;> simp [modifyFun, asl, lsr, rol, ror, inc, dec, setNZ_eq]

/-- The overflow mask, by sign bits. -/
theorem overflowMask_eq (a r v : Byte) : (((a ^^^ r) &&& (v ^^^ r) &&& 0x80#8) != 0) = ((a.msb != r.msb) && (v.msb != r.msb)) := by
  have : ∀ x : Byte, ((x &&& 0x80#8) != 0) = x.msb := by decide
  rw [this]; simp

/-- The overflow of the sum is the signed sum out of range. -/
theorem adcOverflow_eq (a v : Byte) (c : Bool) :
   let r : Byte := BitVec.ofNat 8 (a.toNat + v.toNat + c.toNat)
   (((a ^^^ r) &&& (v ^^^ r) &&& 0x80#8) != 0) = decide (a.toInt + v.toInt + c.toNat < -128 ∨ 127 < a.toInt + v.toInt + c.toNat) := by
  intro r
  rw [overflowMask_eq]
  have ha := a.isLt
  have hv := v.isLt
  have hc : c.toNat ≤ 1 := by cases c <;> decide
  have hr : r.toNat = (a.toNat + v.toNat + c.toNat) % 256 := by simp [r]
  have hr' := r.isLt
  rw [Bool.eq_iff_iff]
  simp only [BitVec.msb_eq_decide, Bool.and_eq_true, bne_iff_ne, ne_eq, decide_eq_true_eq, decide_eq_decide, BitVec.toInt_eq_toNat_cond]
  generalize a.toNat = A at *
  generalize v.toNat = V at *
  generalize c.toNat = C at *
  generalize r.toNat = R at *
  omega

theorem bit_eq_toNat (b : Bool) : bit b = b.toNat := by cases b <;> rfl

/-- ADC in binary mode, by the exact sum (R250). -/
theorem adcBinary_eq (a v : Byte) (p : Flags) : adcBinary a v p =
      let c := p.c.toNat
      let r : Byte := BitVec.ofNat 8 (a.toNat + v.toNat + c)
     (r, { p with
              n := r.getLsbD 7
              z := r == 0#8
              c := decide (256 ≤ a.toNat + v.toNat + c)
              v := decide (a.toInt + v.toInt + c < -128 ∨ 127 < a.toInt + v.toInt + c) }) := by
  simp only [adcBinary, setNZ_eq, bit_eq_toNat, adcOverflow_eq a v p.c]

/-- SBC in binary mode, by the exact difference (R251). -/
theorem sbcBinary_bits (a v : Byte) (c : Bool) :
   let r : Byte := BitVec.ofNat 8 (a.toNat + (v ^^^ 0xFF#8).toNat + c.toNat)
   r = BitVec.ofInt 8 (a.toNat - v.toNat - (1 - c.toNat : Nat)) ∧
   decide (256 ≤ a.toNat + (v ^^^ 0xFF#8).toNat + c.toNat) = decide (v.toNat + (1 - c.toNat) ≤ a.toNat) ∧
   decide (a.toInt + (v ^^^ 0xFF#8).toInt + c.toNat < -128 ∨ 127 < a.toInt + (v ^^^ 0xFF#8).toInt + c.toNat) =
   decide (a.toInt - v.toInt - (1 - c.toNat : Nat) < -128 ∨ 127 < a.toInt - v.toInt - (1 - c.toNat : Nat)) := by
  have hx : (v ^^^ 0xFF#8).toNat = 255 - v.toNat := by revert v; decide
  have ha := a.isLt
  have hv := v.isLt
  have hc : c.toNat ≤ 1 := by cases c <;> decide
  refine ⟨?_, ?_, ?_⟩
  · apply BitVec.eq_of_toNat_eq
    simp only [BitVec.toNat_ofNat, BitVec.toNat_ofInt, hx]
    omega
  · rw [hx]; congr 1; apply propext; omega
  · simp only [BitVec.toInt_eq_toNat_cond, hx]; congr 1; apply propext; omega

theorem adcDigits_nat (ah al vh vl C : Nat) (b1 : ah ≤ 9) (b2 : al ≤ 9) (b3 : vh ≤ 9) (b4 : vl ≤ 9) (hc : C ≤ 1) :
  (let lo := al + vl + C
  let c1 := decide (9 < lo)
  let lo := if c1 then lo - 10 else lo
  let hi := ah + vh + bit c1
  let c2 := decide (9 < hi)
  let hi := if c2 then hi - 10 else hi
  (16 * hi + lo, c2)) =
  (let n := (10 * ah + al + (10 * vh + vl) + C) % 100
  (16 * (n / 10) + n % 10, decide (100 ≤ 10 * ah + al + (10 * vh + vl) + C))) := by
  dsimp only
  by_cases h1 : 9 < al + vl + C <;> simp only [h1, decide_true, decide_false, if_true, if_false, bit, Bool.false_eq_true]
  · by_cases h2 : 9 < ah + vh + 1 <;> simp only [h2, decide_true, decide_false, if_true, if_false, Bool.false_eq_true, Prod.mk.injEq]
    · refine ⟨by omega, ?_⟩; symm; simp; omega
    · refine ⟨by omega, ?_⟩; symm; simp; omega
  · by_cases h2 : 9 < ah + vh + 0 <;> simp only [h2, decide_true, decide_false, if_true, if_false, Bool.false_eq_true, Prod.mk.injEq]
    · refine ⟨by omega, ?_⟩; symm; simp; omega
    · refine ⟨by omega, ?_⟩; symm; simp; omega

/-- ADC by digits on BCD inputs is the sum modulo 100 (R250). -/
theorem adcDigits_eq (a v : Byte) (c : Bool) (hb : bothBcd a v) :
    adcDigits a v c = (bcdByte ((decOf a + decOf v + c.toNat) % 100), decide (100 ≤ decOf a + decOf v + c.toNat)) := by
  obtain ⟨b1, b2, b3, b4⟩ := hb
  have hc : c.toNat ≤ 1 := by cases c <;> decide
  have e := bit_eq_toNat c
  have k := adcDigits_nat _ _ _ _ c.toNat b1 b2 b3 b4 hc
  rw [← e] at k ⊢
  exact Prod.ext (congrArg (fun q : Nat × Bool => BitVec.ofNat 8 q.1) k) (congrArg (fun q : Nat × Bool => q.2) k)

theorem sbcDigits_nat (ah al vh vl C : Nat) (b1 : ah ≤ 9) (b2 : al ≤ 9) (b3 : vh ≤ 9) (b4 : vl ≤ 9) (hc : C ≤ 1) :
  (let lo : Int := (al : Int) - vl - (1 - C)
  let b1 := decide (lo < 0)
  let lo := if b1 then lo + 10 else lo
  let hi : Int := (ah : Int) - vh - bit b1
  let b2 := decide (hi < 0)
  let hi := if b2 then hi + 10 else hi
  ((16 * hi + lo).toNat, !b2)) =
  (let n := (100 + (10 * ah + al) - (10 * vh + vl) - (1 - C)) % 100
  (16 * (n / 10) + n % 10, decide (10 * vh + vl + (1 - C) ≤ 10 * ah + al))) := by
  dsimp only
  by_cases h1 : (al : Int) - vl - (1 - C) < 0 <;> simp only [h1, decide_true, decide_false, if_true, if_false, bit, Bool.false_eq_true]
  · by_cases h2 : (ah : Int) - vh - (1 : Nat) < 0 <;> simp only [h2, decide_true, decide_false, if_true, if_false, Bool.false_eq_true, Prod.mk.injEq]
    · refine ⟨by omega, ?_⟩; symm; simp; omega
    · refine ⟨by omega, ?_⟩; symm; simp; omega
  · by_cases h2 : (ah : Int) - vh - (0 : Nat) < 0 <;> simp only [h2, decide_true, decide_false, if_true, if_false, Bool.false_eq_true, Prod.mk.injEq]
    · refine ⟨by omega, ?_⟩; symm; simp; omega
    · refine ⟨by omega, ?_⟩; symm; simp; omega

/-- SBC by digits on BCD inputs is the difference modulo 100 (R251). -/
theorem sbcDigits_eq (a v : Byte) (c : Bool) (hb : bothBcd a v) :
    sbcDigits a v c = (bcdByte ((100 + decOf a - decOf v - (1 - c.toNat)) % 100), decide (decOf v + (1 - c.toNat) ≤ decOf a)) := by
  obtain ⟨b1, b2, b3, b4⟩ := hb
  have hc : c.toNat ≤ 1 := by cases c <;> decide
  have e := bit_eq_toNat c
  have k := sbcDigits_nat _ _ _ _ c.toNat b1 b2 b3 b4 hc
  rw [← e] at k ⊢
  exact Prod.ext (congrArg (fun q : Nat × Bool => BitVec.ofNat 8 q.1) k) (congrArg (fun q : Nat × Bool => q.2) k)

/-- ADC leaves D and I. -/
theorem adc_keeps (a v : Byte) (p : Flags) : (adc a v p).2.d = p.d ∧ (adc a v p).2.i = p.i := by
  unfold adc
  split
  · dsimp only; split <;> exact ⟨rfl, rfl⟩
  · exact ⟨rfl, rfl⟩

/-- SBC leaves D and I. -/
theorem sbc_keeps (a v : Byte) (p : Flags) : (sbc a v p).2.d = p.d ∧ (sbc a v p).2.i = p.i := by
  unfold sbc
  split
  · dsimp only; split <;> exact ⟨rfl, rfl⟩
  · exact ⟨rfl, rfl⟩

end Sys2Proof.Machine
end

