-- ==== Sys2Proof/Laws/Fetch.lean ====
section
/-! SUPPORT. The fetch cycles (R160): which bytes they read, how far PC moves, and what a step does after them. -/

namespace Sys2Proof.Machine

/-- How many bytes the fetch cycles of each opcode's instructions read, against their length (R120, R121, R332). -/
theorem opcodeShape_lengths (op : Byte) :
    match opcodeShape op with
    | .invalid => True
    | .one i => fetchedBytes i = 1 ∧ i.mode.length = 1
    | .two f => ∀ b, fetchedBytes (f b) = 2 ∧ (f b).mode.length = 2
    | .three f => ∀ a, fetchedBytes (f a) = (if op = jsrOpcode then 2 else 3) ∧ (f a).mode.length = 3 := by
  generalize hs : opcodeShape op = sh
  unfold opcodeShape at hs
  split at hs
  all_goals
    rename_i h
    subst hs
  all_goals first
    | exact trivial
    | exact ⟨rfl, rfl⟩
    | exact fun _ => ⟨rfl, rfl⟩
    | (have e : op ≠ jsrOpcode := by
         intro he; rw [he] at h; exact absurd h (by decide)
       intro a
       rw [if_neg e]
       exact ⟨rfl, rfl⟩)
    | (have e : op = jsrOpcode := BitVec.eq_of_toNat_eq h
       intro a
       rw [if_pos e]
       exact ⟨rfl, rfl⟩)

/-- The register updates of cycle 1 (R160). -/
def opcodeDone (v : Byte) (a : Addr) (s : State) : State :=
  (((s.latchOpcode v).withLip a).withTag (.mid v 1)).incPc

theorem regs_opcodeDone (v : Byte) (a : Addr) (s : State) :
    (opcodeDone v a s).regs = { s.regs with pc := s.cpu.pc + 1, lip := a } := rfl
theorem stored_opcodeDone (v : Byte) (a : Addr) (s : State) : (opcodeDone v a s).stored = s.stored := rfl
theorem clock_opcodeDone (v : Byte) (a : Addr) (s : State) : (opcodeDone v a s).clock = s.clock := rfl
theorem halted_opcodeDone (v : Byte) (a : Addr) (s : State) : (opcodeDone v a s).cpu.halted = s.cpu.halted := rfl
theorem traps_opcodeDone (v : Byte) (a : Addr) (s : State) : (opcodeDone v a s).traps = s.traps := rfl
theorem cfg_opcodeDone (v : Byte) (a : Addr) (s : State) : (opcodeDone v a s).cfg = s.cfg := rfl
theorem live_opcodeDone {v : Byte} {a : Addr} {s : State} (h : Live s) : Live (opcodeDone v a s) :=
  ⟨by rw [traps_opcodeDone]; exact h.1, by rw [cfg_opcodeDone]; exact h.2⟩

theorem fetchOpcode_fst (s : State) : (fetchOpcode s).1 = (busRead s.cpu.pc s).1 := rfl

/-- The state at the end of cycle 1 of a valid opcode. -/
theorem fetchOpcode_of_live {s : State} (h : Live s) (hv : opcodeLength (busRead s.cpu.pc s).1 ≠ none) :
    (fetchOpcode s).2 = endCycle (opcodeDone (busRead s.cpu.pc s).1 s.cpu.pc (busRead s.cpu.pc s).2) := by
  simp only [fetchOpcode]
  rw [perform_of_live (live_busRead h), if_neg hv]
  rfl

theorem live_fetchOpcode {s : State} (h : Live s) (hv : opcodeLength (busRead s.cpu.pc s).1 ≠ none) :
    Live (fetchOpcode s).2 := by
  rw [fetchOpcode_of_live h hv]
  exact live_endCycle (live_opcodeDone (live_busRead h))

/-- Cycle 1 of a valid opcode: PC passes it and LIP is its address. -/
theorem regs_fetchOpcode {s : State} (h : Live s) (hv : opcodeLength (busRead s.cpu.pc s).1 ≠ none) :
    (fetchOpcode s).2.regs = { s.regs with pc := s.cpu.pc + 1, lip := s.cpu.pc } := by
  rw [fetchOpcode_of_live h hv, regs_endCycle, regs_opcodeDone, regs_busRead, cpu_busRead]

theorem stored_fetchOpcode {s : State} (h : Live s) (hv : opcodeLength (busRead s.cpu.pc s).1 ≠ none) :
    (fetchOpcode s).2.stored = s.stored := by
  rw [fetchOpcode_of_live h hv, stored_endCycle, stored_opcodeDone, stored_busRead]

theorem clock_withTag' (s : State) (t : ExecTag) : (s.withTag t).clock = s.clock := rfl
theorem halted_withTag (s : State) (t : ExecTag) : (s.withTag t).cpu.halted = s.cpu.halted := rfl

theorem clock_fetchOpcode {s : State} (h : Live s) (hv : opcodeLength (busRead s.cpu.pc s).1 ≠ none) :
    (fetchOpcode s).2.clock = s.clock + 1 := by
  rw [fetchOpcode_of_live h hv, endCycle_of_live (live_opcodeDone (live_busRead h)).1, clock_endSlot, clock_withTag',
    clock_opcodeDone, clock_busRead]

theorem halted_fetchOpcode {s : State} (h : Live s) (hv : opcodeLength (busRead s.cpu.pc s).1 ≠ none)
    (hr : s.cpu.halted = false) : (fetchOpcode s).2.cpu.halted = false := by
  rw [fetchOpcode_of_live h hv, endCycle_of_live (live_opcodeDone (live_busRead h)).1]
  refine halted_endSlot ?_
  rw [halted_withTag, halted_opcodeDone, cpu_busRead]
  exact hr

theorem fetchLo_of_live {s : State} (h : Live s) :
    fetchLo s = ((readCycle s.cpu.pc s).1, ((readCycle s.cpu.pc s).2.latchLo (readCycle s.cpu.pc s).1).incPc) := by
  simp only [fetchLo]
  rw [perform_of_live (live_readCycle h)]

theorem fetchHi_of_live {s : State} (h : Live s) :
    fetchHi s = ((readCycle s.cpu.pc s).1, ((readCycle s.cpu.pc s).2.latchHi (readCycle s.cpu.pc s).1).incPc) := by
  simp only [fetchHi]
  rw [perform_of_live (live_readCycle h)]

theorem live_fetchLo {s : State} (h : Live s) : Live (fetchLo s).2 := by
  rw [fetchLo_of_live h]; exact live_readCycle (a := s.cpu.pc) h
theorem live_fetchHi {s : State} (h : Live s) : Live (fetchHi s).2 := by
  rw [fetchHi_of_live h]; exact live_readCycle (a := s.cpu.pc) h

theorem regs_fetchLo {s : State} (h : Live s) : (fetchLo s).2.regs = { s.regs with pc := s.cpu.pc + 1 } := by
  have hp : (readCycle s.cpu.pc s).2.cpu.pc = s.cpu.pc := congrArg Regs.pc (regs_readCycle _ s)
  have hu : ∀ (u : State) (v : Byte), (u.latchLo v).incPc.regs = { u.regs with pc := u.cpu.pc + 1 } := fun _ _ => rfl
  rw [fetchLo_of_live h, hu, regs_readCycle, hp]
theorem regs_fetchHi {s : State} (h : Live s) : (fetchHi s).2.regs = { s.regs with pc := s.cpu.pc + 1 } := by
  have hp : (readCycle s.cpu.pc s).2.cpu.pc = s.cpu.pc := congrArg Regs.pc (regs_readCycle _ s)
  have hu : ∀ (u : State) (v : Byte), (u.latchHi v).incPc.regs = { u.regs with pc := u.cpu.pc + 1 } := fun _ _ => rfl
  rw [fetchHi_of_live h, hu, regs_readCycle, hp]

theorem stored_fetchLo {s : State} (h : Live s) : (fetchLo s).2.stored = s.stored := by
  rw [fetchLo_of_live h]; exact stored_readCycle s.cpu.pc s
theorem stored_fetchHi {s : State} (h : Live s) : (fetchHi s).2.stored = s.stored := by
  rw [fetchHi_of_live h]; exact stored_readCycle s.cpu.pc s

theorem clock_fetchLo {s : State} (h : Live s) (hr : s.cpu.halted = false) : (fetchLo s).2.clock = s.clock + 1 := by
  rw [fetchLo_of_live h]; exact clock_readCycle (a := s.cpu.pc) h hr
theorem clock_fetchHi {s : State} (h : Live s) (hr : s.cpu.halted = false) : (fetchHi s).2.clock = s.clock + 1 := by
  rw [fetchHi_of_live h]; exact clock_readCycle (a := s.cpu.pc) h hr

theorem halted_fetchLo {s : State} (h : Live s) (hr : s.cpu.halted = false) :
    (fetchLo s).2.cpu.halted = false := by
  rw [fetchLo_of_live h]; exact halted_readCycle (a := s.cpu.pc) hr
theorem halted_fetchHi {s : State} (h : Live s) (hr : s.cpu.halted = false) :
    (fetchHi s).2.cpu.halted = false := by
  rw [fetchHi_of_live h]; exact halted_readCycle (a := s.cpu.pc) hr

/-- The bytes and the state of a fetch, by the opcode. -/
theorem fetchInstr_cases (s : State) :
    (opcodeLength (fetchOpcode s).1 = none ∧ fetchInstr s = ([(fetchOpcode s).1], (fetchOpcode s).2)) ∨
    (opcodeLength (fetchOpcode s).1 = some 1 ∧ fetchInstr s = ([(fetchOpcode s).1], (fetchOpcode s).2)) ∨
    (opcodeLength (fetchOpcode s).1 = some 2 ∧
      fetchInstr s = ([(fetchOpcode s).1, (fetchLo (fetchOpcode s).2).1], (fetchLo (fetchOpcode s).2).2)) ∨
    (opcodeLength (fetchOpcode s).1 = some 3 ∧ (fetchOpcode s).1 = jsrOpcode ∧
      fetchInstr s =
        ([(fetchOpcode s).1, (fetchLo (fetchOpcode s).2).1, (jsrHigh (fetchLo (fetchOpcode s).2).2).1],
          (fetchLo (fetchOpcode s).2).2)) ∨
    (opcodeLength (fetchOpcode s).1 = some 3 ∧ (fetchOpcode s).1 ≠ jsrOpcode ∧
      fetchInstr s =
        ([(fetchOpcode s).1, (fetchLo (fetchOpcode s).2).1, (fetchHi (fetchLo (fetchOpcode s).2).2).1],
          (fetchHi (fetchLo (fetchOpcode s).2).2).2)) := by
  have hl : opcodeLength (fetchOpcode s).1 = none ∨ opcodeLength (fetchOpcode s).1 = some 1 ∨
      opcodeLength (fetchOpcode s).1 = some 2 ∨ opcodeLength (fetchOpcode s).1 = some 3 := by
    unfold opcodeLength
    cases opcodeShape (fetchOpcode s).1 <;> simp
  rcases hl with h | h | h | h
  · exact .inl ⟨h, by simp only [fetchInstr, h]⟩
  · exact .inr (.inl ⟨h, by simp only [fetchInstr, h]⟩)
  · exact .inr (.inr (.inl ⟨h, by simp only [fetchInstr, h]⟩))
  · by_cases hj : (fetchOpcode s).1 = jsrOpcode
    · exact .inr (.inr (.inr (.inl ⟨h, hj, by simp only [fetchInstr, h]; rw [if_pos hj]⟩)))
    · exact .inr (.inr (.inr (.inr ⟨h, hj, by simp only [fetchInstr, h, hj, if_false]⟩)))

theorem opcodeLength_of_decode {op : Byte} {bs : List Byte} {i : Instr} {rest : List Byte}
    (h : decode (op :: bs) = some (i, rest)) : opcodeLength op ≠ none := by
  unfold decode at h
  unfold opcodeLength
  cases hs : opcodeShape op <;> simp [hs] at h ⊢

/-- The fetch cycles of a decoded instruction: PC has passed the fetched bytes, LIP is the opcode's address, nothing is
stored, and a running CPU has taken one board step for each. -/
theorem fetchInstr_of_decode {s : State} {i : Instr} {rest : List Byte} (h : Live s)
    (hd : decode (fetchInstr s).1 = some (i, rest)) :
    Live (fetchInstr s).2 ∧ (fetchInstr s).2.stored = s.stored ∧
    (fetchInstr s).2.regs = { s.regs with pc := s.cpu.pc + BitVec.ofNat 16 (fetchedBytes i), lip := s.cpu.pc } ∧
    (s.cpu.halted = false →
      (fetchInstr s).2.clock = s.clock + fetchedBytes i ∧ (fetchInstr s).2.cpu.halted = false) := by
  have hlen := opcodeShape_lengths (fetchOpcode s).1
  have hop : ∀ {bs}, decode ((fetchOpcode s).1 :: bs) = some (i, rest) →
      opcodeLength (busRead s.cpu.pc s).1 ≠ none := fun he => opcodeLength_of_decode he
  have e2 : s.cpu.pc + 1 + 1 = s.cpu.pc + BitVec.ofNat 16 2 := by bv_omega
  have e3 : s.cpu.pc + 1 + 1 + 1 = s.cpu.pc + BitVec.ofNat 16 3 := by bv_omega
  rcases fetchInstr_cases s with ⟨ho, he⟩ | ⟨ho, he⟩ | ⟨ho, he⟩ | ⟨ho, hj, he⟩ | ⟨ho, hj, he⟩
  all_goals
    rw [he] at hd ⊢
    dsimp only at hd ⊢
    have hv := hop hd
  · exact absurd ho hv
  all_goals
    have l1 := live_fetchOpcode h hv
    have r1 := regs_fetchOpcode h hv
    have s1 := stored_fetchOpcode h hv
  · have hn : fetchedBytes i = 1 := by
      unfold opcodeLength at ho
      cases hs : opcodeShape (fetchOpcode s).1 <;> simp only [hs, Option.some.injEq, reduceCtorEq] at ho hlen
      · simp only [decode, hs, Option.some.injEq, Prod.mk.injEq] at hd
        rw [← hd.1]; exact hlen.1
      · omega
      · omega
    rw [hn]
    exact ⟨l1, s1, r1, fun hr => ⟨clock_fetchOpcode h hv, halted_fetchOpcode h hv hr⟩⟩
  all_goals
    have p1 : (fetchOpcode s).2.cpu.pc = s.cpu.pc + 1 := congrArg Regs.pc r1
    have l2 := live_fetchLo l1
    have r2 := regs_fetchLo l1
    rw [r1, p1] at r2
    have s2 := (stored_fetchLo l1).trans s1
  · have hn : fetchedBytes i = 2 := by
      unfold opcodeLength at ho
      cases hs : opcodeShape (fetchOpcode s).1 <;> simp only [hs, Option.some.injEq, reduceCtorEq] at ho hlen
      · omega
      · simp only [decode, hs, Option.some.injEq, Prod.mk.injEq] at hd
        rw [← hd.1]; exact (hlen _).1
      · omega
    rw [hn, ← e2]
    refine ⟨l2, s2, r2, fun hr => ?_⟩
    have h1 := halted_fetchOpcode h hv hr
    exact ⟨by rw [clock_fetchLo l1 h1, clock_fetchOpcode h hv], halted_fetchLo l1 h1⟩
  · have hn : fetchedBytes i = 2 := by
      unfold opcodeLength at ho
      cases hs : opcodeShape (fetchOpcode s).1 <;> simp only [hs, Option.some.injEq, reduceCtorEq] at ho hlen
      · omega
      · omega
      · simp only [decode, hs, Option.some.injEq, Prod.mk.injEq] at hd
        rw [← hd.1, (hlen _).1, if_pos hj]
    rw [hn, ← e2]
    refine ⟨l2, s2, r2, fun hr => ?_⟩
    have h1 := halted_fetchOpcode h hv hr
    exact ⟨by rw [clock_fetchLo l1 h1, clock_fetchOpcode h hv], halted_fetchLo l1 h1⟩
  · have hn : fetchedBytes i = 3 := by
      unfold opcodeLength at ho
      cases hs : opcodeShape (fetchOpcode s).1 <;> simp only [hs, Option.some.injEq, reduceCtorEq] at ho hlen
      · omega
      · omega
      · simp only [decode, hs, Option.some.injEq, Prod.mk.injEq] at hd
        rw [← hd.1, (hlen _).1, if_neg hj]
    have p2 : (fetchLo (fetchOpcode s).2).2.cpu.pc = s.cpu.pc + 1 + 1 := congrArg Regs.pc r2
    have r3 := regs_fetchHi l2
    rw [r2, p2] at r3
    rw [hn, ← e3]
    refine ⟨live_fetchHi l2, (stored_fetchHi l2).trans s2, r3, fun hr => ?_⟩
    have h1 := halted_fetchOpcode h hv hr
    have h2 := halted_fetchLo l1 h1
    exact ⟨by rw [clock_fetchHi l2 h2, clock_fetchLo l1 h1, clock_fetchOpcode h hv], halted_fetchHi l2 h2⟩

end Sys2Proof.Machine
end

