-- ==== Sys2Proof/Laws/Cycles.lean ====
section
/-! SUPPORT. Counting board steps: how many each operation of a running CPU takes. -/

namespace Sys2Proof.Machine

/-- From `s`, a running live machine came to `t` in `k` board steps. -/
structure Took (k : Nat) (s t : State) : Prop where
  live : Live t
  running : t.cpu.halted = false
  clock : t.clock = s.clock + k

namespace Took

variable {k : Nat} {s t : State}

theorem zero (h : Live s) (hr : s.cpu.halted = false) : Took 0 s s := ⟨h, hr, rfl⟩

theorem read (h : Took k s t) (a : Addr) : Took (k + 1) s (readCycle a t).2 :=
  ⟨live_readCycle h.live, halted_readCycle h.running, by rw [clock_readCycle h.live h.running, h.clock]; rfl⟩

theorem write (h : Took k s t) {a : Addr} (hw : hitsWsync a = false) (v : Byte) : Took (k + 1) s (writeCycle a v t) :=
  ⟨live_writeCycle h.live, halted_writeCycle h.running hw, by rw [clock_writeCycle h.live h.running, h.clock]; rfl⟩

/-- The last write of an instruction: it may halt the CPU. -/
theorem lastWrite (h : Took k s t) (a : Addr) (v : Byte) :
    Live (writeCycle a v t) ∧ (writeCycle a v t).clock = s.clock + (k + 1) :=
  ⟨live_writeCycle h.live, by rw [clock_writeCycle h.live h.running, h.clock]; rfl⟩

theorem performs (h : Took k s t) {f : State → State} (hl : ∀ u, Live u → Live (f u))
    (hh : ∀ u, (f u).cpu.halted = u.cpu.halted) (hc : ∀ u, (f u).clock = u.clock) : Took k s (perform f t) := by
  rw [perform_of_live h.live]
  exact ⟨hl _ h.live, (hh t).trans h.running, (hc t).trans h.clock⟩

theorem withPc (h : Took k s t) (a : Addr) : Took k s (perform (fun u => u.withPc a) t) :=
  h.performs (fun _ hu => hu) (fun _ => rfl) (fun _ => rfl)

theorem incPc (h : Took k s t) : Took k s (perform State.incPc t) :=
  h.performs (fun _ hu => hu) (fun _ => rfl) (fun _ => rfl)

theorem latchEa (h : Took k s t) (a : Addr) : Took k s (perform (fun u => u.latchEa a) t) :=
  h.performs (fun _ hu => hu) (fun _ => rfl) (fun _ => rfl)

theorem latchOperand (h : Took k s t) (v : Byte) : Took k s (perform (fun u => u.latchOperand v) t) :=
  h.performs (fun _ hu => hu) (fun _ => rfl) (fun _ => rfl)

theorem push (h : Took k s t) (hw : hitsWsync (stackAddr t) = false) (v : Byte) : Took (k + 1) s (push v t) :=
  (h.write hw v).performs (fun _ hu => hu) (fun _ => rfl) (fun _ => rfl)

theorem pull (h : Took k s t) : Took (k + 1) s (pull t).2 := by
  have h1 : Took k s (perform (fun u => u.withS (u.cpu.s + 1)) t) :=
    h.performs (fun _ hu => hu) (fun _ => rfl) (fun _ => rfl)
  exact h1.read _

theorem readLow (h : Took k s t) (a : Addr) : Took (k + 1) s (readLow a t).2 := (h.read a).latchEa _

theorem pullLow (h : Took k s t) : Took (k + 1) s (pullLow t).2 := h.pull.latchEa _

theorem indexed (h : Took k s t) (b : Bool) (a : Addr) (i : Byte) :
    Took (k + (if (b || crossed a i) = true then 1 else 0)) s (indexedCycle b a i t).2 := by
  simp only [indexedCycle]
  split
  · exact h.read _
  · exact h

theorem performRead {x : Byte × State} (h : Took k s x.2) (op : ReadOp) : Took k s (performRead op x) := by
  cases op
  all_goals
    simp only [Machine.performRead, performLda, performLdx, performLdy, performAdc, performSbc, performAnd, performOra,
      performEor, performCmp, performCpx, performCpy, performBit]
    refine h.performs ?_ ?_ ?_
    · exact fun _ hu => hu
    · exact fun _ => rfl
    · exact fun _ => rfl

theorem implied (h : Took k s t) (op : ImpliedOp) : Took (k + 1) s (implied (impliedFun op) t) := by
  refine (h.read t.cpu.pc).performs (fun u hu => (cpuOnly_impliedFun op).live hu) ?_ ?_
  · intro u; cases op <;> rfl
  · intro u; cases op <;> rfl

theorem accumulator (h : Took k s t) (op : ModifyOp) : Took (k + 1) s (modifyAcc (modifyFun op) t) := by
  unfold modifyAcc Machine.implied
  refine (h.read t.cpu.pc).performs ?_ ?_ ?_
  · exact fun _ hu => hu
  · exact fun _ => rfl
  · exact fun _ => rfl

theorem pla {x : Byte × State} (h : Took k s x.2) : Took k s (performPla x) := by
  refine h.performs ?_ ?_ ?_
  · exact fun _ hu => hu
  · exact fun _ => rfl
  · exact fun _ => rfl

theorem plp {x : Byte × State} (h : Took k s x.2) : Took k s (performPlp x) := by
  refine h.performs ?_ ?_ ?_
  · exact fun _ hu => hu
  · exact fun _ => rfl
  · exact fun _ => rfl

theorem latchOffset (h : Took k s t) (off : Byte) : Took k s (perform (fun u => u.latchOffset off) t) := by
  refine h.performs ?_ ?_ ?_
  · exact fun _ hu => hu
  · exact fun _ => rfl
  · exact fun _ => rfl

theorem withP (h : Took k s t) (p : Flags) : Took k s (perform (fun u => u.withP p) t) := by
  refine h.performs ?_ ?_ ?_
  · exact fun _ hu => hu
  · exact fun _ => rfl
  · exact fun _ => rfl

/-- The last push of an instruction: it may halt the CPU. -/
theorem lastPush (h : Took k s t) (v : Byte) :
    Live (Machine.push v t) ∧ (Machine.push v t).clock = s.clock + (k + 1) := by
  obtain ⟨h1, h2⟩ := h.lastWrite (stackAddr t) v
  rw [push_of_live h.live]
  exact ⟨h1, h2⟩

/-- Taking an exception from the pushes on takes five board steps. -/
theorem enterVector (h : Took k s t) (h0 : hitsWsync (pushAddr t 0) = false) (h1 : hitsWsync (pushAddr t 1) = false)
    (h2 : hitsWsync (pushAddr t 2) = false) (b : Bool) (vec : Addr) (nmi : Bool) :
    Took (k + 5) s (enterVector b vec nmi t) := by
  rw [enterVector_eq, pushFrame_eq h.live]
  have p1 := h.push (by rw [stackAddr_zero]; exact h0) (hiByte t.cpu.pc)
  have p2 := p1.push (by rw [stackAddr_push h.live]; exact h1) (loByte t.cpu.pc)
  have p3 := p2.push (by rw [stackAddr_pushTwo h.live]; exact h2) (packP b t.cpu.p)
  simp only [vectorReads]
  refine withPc (read (performs (performs (p3.readLow vec) ?_ ?_ ?_) ?_ ?_ ?_) _) _
  · exact fun _ hu => hu
  · exact fun _ => rfl
  · exact fun _ => rfl
  · intro u hu; cases nmi <;> exact hu
  · intro u; cases nmi <;> rfl
  · intro u; cases nmi <;> rfl

/-- The end of a run of an instruction. -/
theorem finishes {i : Instr} (h : Took k s t) (he : exec i s = finish t) :
    ∃ u, exec i s = .next u ∧ u.clock = s.clock + k :=
  ⟨_, next_of_finish he h.live, by rw [clock_withTag]; exact h.clock⟩

end Took

/-- The board steps that form an operand's address. -/
def resolveCycles (always : Bool) (m : MemMode) (s : State) : Nat :=
  match m with
  | .zp _ | .abs _ => 0
  | .zpX _ | .zpY _ => 1
  | .absX a => if (always || crossed a s.cpu.x) = true then 1 else 0
  | .absY a => if (always || crossed a s.cpu.y) = true then 1 else 0
  | .indX _ => 3
  | .indY zp =>
    let l := readLow (zext zp) s
    let h := readCycle (zext (zp + 1)) l.2
    2 + (if (always || crossed (wordOf l.1 h.1) s.cpu.y) = true then 1 else 0)

theorem took_resolve {s : State} (h : Live s) (hr : s.cpu.halted = false) (always : Bool) (m : MemMode) :
    Took (resolveCycles always m s) s (resolve always m s).2 := by
  have h0 := Took.zero h hr
  cases m with
  | zp | abs => exact h0
  | zpX zp | zpY zp => exact h0.read _
  | absX a =>
    have h1 := h0.indexed always a s.cpu.x
    rw [Nat.zero_add] at h1
    exact h1
  | absY a =>
    have h1 := h0.indexed always a s.cpu.y
    rw [Nat.zero_add] at h1
    exact h1
  | indX zp => exact (((h0.read _).readLow _).read _).latchEa _
  | indY zp =>
    exact (((h0.readLow (zext zp)).read (zext (zp + 1))).latchEa _).indexed always _ _

/-- An operand of kind R. -/
theorem took_readOperand {s : State} (h : Live s) (hr : s.cpu.halted = false) (m : MemMode) :
    Took (resolveCycles false m s + 1) s (readOperand (.mem m) s).2 :=
  ((took_resolve h hr false m).latchEa (readEa m s)).read (readEa m s)

theorem took_writeBase {s : State} (h : Live s) (hr : s.cpu.halted = false) (m : MemMode) :
    Took (resolveCycles true m s) s (writeBase m s) :=
  (took_resolve h hr true m).latchEa (writeEa m s)

/-- The read and the first write of a read-modify-write instruction. -/
theorem took_modifyBase {s : State} (h : Live s) (hr : s.cpu.halted = false) {m : MemMode}
    (hw : hitsWsync (writeEa m s) = false) : Took (resolveCycles true m s + 2) s (modifyBase m s) :=
  (((took_writeBase h hr m).read (writeEa m s)).latchOperand _).write hw _

@[simp] theorem innerWrites_jsr (addr : Addr) (s : State) :
    innerWrites (.jsr addr) s = [pushAddr s 0, pushAddr s 1] := rfl
@[simp] theorem innerWrites_brk (s : State) :
    innerWrites .brk s = [pushAddr s 0, pushAddr s 1, pushAddr s 2] := rfl

/-- The bytes of a memory operand's instruction. -/
def memoryLength (m : MemMode) : Nat :=
  match m with
  | .abs _ | .absX _ | .absY _ => 3
  | .zp _ | .zpX _ | .zpY _ | .indX _ | .indY _ => 2

theorem fetchedBytes_read {i : Instr} {op : ReadOp} {m : MemMode} (h : i.kind = .read op (.mem m)) :
    fetchedBytes i = memoryLength m := by
  cases i <;> simp only [Instr.kind, Kind.read.injEq, reduceCtorEq, Operand.mem.injEq, and_false] at h <;>
    obtain ⟨rfl, rfl⟩ := h <;> rfl

theorem fetchedBytes_immediate {i : Instr} {op : ReadOp} {v : Byte} (h : i.kind = .read op (.imm v)) :
    fetchedBytes i = 2 := by
  cases i <;> simp only [Instr.kind, Kind.read.injEq, reduceCtorEq, and_false] at h <;> rfl

theorem fetchedBytes_write {i : Instr} {op : WriteOp} {m : MemMode} (h : i.kind = .write op m) :
    fetchedBytes i = memoryLength m := by
  cases i <;> simp only [Instr.kind, Kind.write.injEq, reduceCtorEq] at h <;> obtain ⟨rfl, rfl⟩ := h <;> rfl

theorem fetchedBytes_modify {i : Instr} {op : ModifyOp} {m : MemMode} (h : i.kind = .modify op m) :
    fetchedBytes i = memoryLength m := by
  cases i <;> simp only [Instr.kind, Kind.modify.injEq, reduceCtorEq] at h <;> obtain ⟨rfl, rfl⟩ := h <;> rfl

theorem fetchedBytes_implied {i : Instr} {op : ImpliedOp} (h : i.kind = .implied op) : fetchedBytes i = 1 := by
  cases i <;> simp only [Instr.kind, reduceCtorEq] at h <;> rfl

theorem fetchedBytes_accumulator {i : Instr} {op : ModifyOp} (h : i.kind = .accumulator op) : fetchedBytes i = 1 := by
  cases i <;> simp only [Instr.kind, reduceCtorEq] at h <;> rfl

theorem fetchedBytes_stack {i : Instr} {op : StackOp} (h : i.kind = .stack op) : fetchedBytes i = 1 := by
  cases i <;> simp only [Instr.kind, reduceCtorEq] at h <;> rfl

theorem fetchedBytes_branch {i : Instr} {op : BranchOp} {off : Byte} (h : i.kind = .branch op off) :
    fetchedBytes i = 2 := by
  cases i <;> simp only [Instr.kind, reduceCtorEq] at h <;> rfl

end Sys2Proof.Machine
end

