-- ==== Sys2Proof/Laws/Words.lean ====
section
/-! SUPPORT. Lemmas for the provers: bytes, words and addresses. -/

namespace Sys2Proof.Machine

/-- A word is its two bytes. -/
theorem wordOf_bytes (a : Addr) : wordOf (loByte a) (hiByte a) = a := by
  apply BitVec.eq_of_toNat_eq
  rw [toNat_wordOf]
  simp only [loByte, hiByte, BitVec.toNat_setWidth, BitVec.toNat_ushiftRight, Nat.shiftRight_eq_div_pow]
  have := a.isLt
  omega

theorem bytes_wordOf (l h : Byte) : loByte (wordOf l h) = l ∧ hiByte (wordOf l h) = h := by
  constructor <;> apply BitVec.eq_of_toNat_eq <;>
  simp only [loByte, hiByte, BitVec.toNat_setWidth, BitVec.toNat_ushiftRight, Nat.shiftRight_eq_div_pow, toNat_wordOf]
  · have := l.isLt; omega
  · have := l.isLt; have := h.isLt; omega

theorem wordOf_mod (l h : Byte) : (wordOf l h).toNat % 256 = l.toNat := by
  rw [toNat_wordOf]; have := l.isLt; omega

/-- Two addresses lie in one page. -/
theorem hiByte_eq_iff (a b : Addr) : hiByte a = hiByte b ↔ a.toNat / 256 = b.toNat / 256 := by
  constructor
  · intro h
    have := congrArg BitVec.toNat h
    simp only [hiByte, BitVec.toNat_setWidth, BitVec.toNat_ushiftRight, Nat.shiftRight_eq_div_pow] at this
    have := a.isLt; have := b.isLt
    omega
  · intro h
    apply BitVec.eq_of_toNat_eq
    simp only [hiByte, BitVec.toNat_setWidth, BitVec.toNat_ushiftRight, Nat.shiftRight_eq_div_pow]
    have := a.isLt; have := b.isLt
    omega

/-- The branch target as the model computes it and as its rule does (R334). -/
theorem pc_add_offset (off : Byte) (s : State) : s.cpu.pc + sext off = branchTarget off s := by
  apply BitVec.eq_of_toInt_eq
  simp only [branchTarget, sext, BitVec.toInt_add, BitVec.toInt_ofInt]
  rw [BitVec.toInt_signExtend_of_le (by decide)]
  simp [BitVec.toInt_eq_toNat_bmod]

/-- A branch's partial address (R334). -/
theorem partialTarget_eq (a b : Addr) : wordOf (loByte a) (hiByte b) = BitVec.ofNat 16 (256 * (b.toNat / 256) + a.toNat % 256) := by
  apply BitVec.eq_of_toNat_eq
  rw [toNat_wordOf]
  simp only [loByte, hiByte, BitVec.toNat_setWidth, BitVec.toNat_ushiftRight, Nat.shiftRight_eq_div_pow, BitVec.toNat_ofNat]
  have := a.isLt; have := b.isLt
  omega

/-- The page crossing of an indexed read (R166, R169). -/
theorem crossed_eq (a : Addr) (i : Byte) : crossed a i = decide (256 ≤ a.toNat % 256 + i.toNat) := by
  simp only [crossed, loByte, BitVec.toNat_setWidth]

/-- A cartridge address is one at or above 0x1000. -/
theorem bit12_iff (a : Addr) : a.getLsbD 12 = decide (4096 ≤ a.toNat % 8192) := by
  rw [BitVec.getLsbD, Nat.testBit_eq_decide_div_mod_eq]
  apply decide_eq_decide.mpr
  omega

/-- An address after PC inside the image window. -/
theorem pc_add_of_image {a : Addr} {k : Nat} (h12 : a.getLsbD 12 = true) (h : a.toNat % 4096 + k < 4096) :
    (a + BitVec.ofNat 16 k).getLsbD 12 = true ∧ (a + BitVec.ofNat 16 k).toNat % 4096 = a.toNat % 4096 + k := by
  rw [bit12_iff] at h12 ⊢
  simp only [decide_eq_true_eq] at h12 ⊢
  have := a.isLt
  simp only [BitVec.toNat_add, BitVec.toNat_ofNat]
  omega

/-- The upper half of page zero is PIA RAM (R491). -/
theorem isRam_zeroPage : ∀ b : Byte, 0x80 ≤ b.toNat → isRam (zext b) = true ∧ (zext b).toNat % 128 = b.toNat - 0x80 := by decide +kernel

theorem readLow_val (a : Addr) (s : State) : (readLow a s).1 = (readCycle a s).1 := rfl

theorem ite_false_or (b : Prop) [Decidable b] : (if (false || decide b) = true then 1 else 0 : Nat) = if b then 1 else 0 := by
  by_cases h : b <;> simp [h]

/-- The cycles of a read, by the table (R172). -/
theorem resolveCycles_read (m : MemMode) (s : State) : resolveCycles false m s + 1 + memoryLength m = operandCycles (.mem m) + crossing m s := by
  cases m <;> simp only [resolveCycles, memoryLength, crossing, crossed_eq, wordOf_mod, readLow_val, ite_false_or,
    operandCycles]
  all_goals omega

/-- The cycles of a store, by the table (R172). -/
theorem resolveCycles_write (m : MemMode) (s : State) : resolveCycles true m s + 1 + memoryLength m = storeCycles m := by
  cases m <;> simp [resolveCycles, memoryLength, storeCycles]

end Sys2Proof.Machine
end

