-- ==== Sys2Proof/Laws/Decoding.lean ====
section
/-! SUPPORT. Lemmas for the provers: the decoder, the encoder and the fetch. -/

namespace Sys2Proof.Machine

theorem decode_none_iff (op : Byte) (lo hi : Byte) : decode [op, lo, hi] = none ↔ opcodeLength op = none := by
  unfold decode opcodeLength
  cases hs : opcodeShape op <;> simp [hs]

/-- Fetched bytes that do not decode begin with an invalid opcode. -/
theorem opcodeLength_of_fetch {s : State} (h : decode (fetchInstr s).1 = none) : opcodeLength (busRead s.cpu.pc s).1 = none := by
  rw [← fetchOpcode_fst]
  rcases fetchInstr_cases s with ⟨ho, he⟩ | ⟨ho, he⟩ | ⟨ho, he⟩ | ⟨ho, hj, he⟩ | ⟨ho, hj, he⟩
  · exact ho
  all_goals
    rw [he] at h
    unfold opcodeLength at ho ⊢
    cases hs : opcodeShape (fetchOpcode s).1 <;> simp [hs] at ho
    simp [decode, hs] at h

/-- Fetching an invalid opcode ends the fetch (R402). -/
theorem fetchInstr_invalid {s : State} (h : Live s) (ho : opcodeLength (busRead s.cpu.pc s).1 = none) :
    (fetchInstr s).1 = [(busRead s.cpu.pc s).1] ∧
    (fetchInstr s).2 = endCycle (raiseInvalidOpcode (busRead s.cpu.pc s).1 (opcodeDone (busRead s.cpu.pc s).1 s.cpu.pc (busRead s.cpu.pc s).2)) := by
  have he : fetchInstr s = ([(fetchOpcode s).1], (fetchOpcode s).2) := by
    rcases fetchInstr_cases s with ⟨ho', he⟩ | ⟨ho', he⟩ | ⟨ho', he⟩ | ⟨ho', hj, he⟩ | ⟨ho', hj, he⟩
    · exact he
    all_goals rw [fetchOpcode_fst, ho] at ho'; cases ho'
  rw [he]
  refine ⟨rfl, ?_⟩
  simp only [fetchOpcode]
  rw [perform_of_live (live_busRead h), if_pos ho]
  rfl

theorem lip_opcodeDone (v : Byte) (a : Addr) (s : State) : (opcodeDone v a s).cpu.lip = a := rfl

theorem decode_three {op : Byte} {f : Addr → Instr} (h : opcodeShape op = .three f) (lo hi : Byte) (rest : List Byte) :
    decode (op :: lo :: hi :: rest) = some (f (wordOf lo hi), rest) := by
  simp only [decode, h]

/-- The encoder writes the opcode and operands the decoder reads. -/
theorem encode_of_shape (op : Byte) :
    match opcodeShape op with
    | .invalid => True
    | .one i => encode i = [op]
    | .two f => ∀ b, encode (f b) = [op, b]
    | .three f => ∀ a, encode (f a) = [op, loByte a, hiByte a] := by
  generalize hs : opcodeShape op = sh
  unfold opcodeShape at hs
  split at hs
  all_goals
    rename_i h
    subst hs
  all_goals first
    | exact trivial
    | (have e : op = BitVec.ofNat 8 op.toNat := by simp
       rw [h] at e
       subst e
       first | rfl | exact fun _ => rfl)

/-- Nothing switches an unbanked cartridge (R530). -/
theorem cart_busRead_vanilla4k {a : Addr} {s : State} (hs : s.cfg.scheme = .vanilla4k) : (busRead a s).2.cart = s.cart := by
  simp only [busRead, (afterAccess_parts _ _ _ _).2.2.1, chipRead]
  have hsn : ∀ (c : Cart) m v k, c.sniff s.cfg m v k = c := by intro c m v k; simp only [Cart.sniff, hs]
  split
  · exact hsn _ _ _ _
  · exact hsn _ _ _ _
  · simp only [Cart.read, Cart.directSwitch, Cart.port, hs]
    exact hsn _ _ _ _

theorem cart_readCycle_vanilla4k {a : Addr} {s : State} (hs : s.cfg.scheme = .vanilla4k) : (readCycle a s).2.cart = s.cart := by
  unfold readCycle
  split
  · rfl
  · simp only [readHere, cart_endCycle]
    rw [cart_busRead_vanilla4k (by rw [cfg_openRead]; exact hs), cart_openRead]

/-- A read of an unbanked cartridge. -/
theorem busRead_vanilla4k {a : Addr} {s : State} (hs : s.cfg.scheme = .vanilla4k)
    (h12 : a.getLsbD 12 = true) : (busRead a s).1 = s.cfg.image.read (a.toNat % 4096) := by
  have e12 : (maskAddr a).getLsbD 12 = true := (mask_bit a (by decide)).trans h12
  have hi : cartOffset (maskAddr a) = a.toNat % 4096 := by
    simp only [cartOffset, maskAddr, BitVec.toNat_setWidth]; omega
  simp only [busRead, chipRead, route, e12, if_true,
    Cart.read, Cart.directSwitch, Cart.port, hs, hi]

theorem cart_opcodeDone (v : Byte) (a : Addr) (s : State) : (opcodeDone v a s).cart = s.cart := rfl

theorem cart_latchLo (v : Byte) (s : State) : (s.latchLo v).incPc.cart = s.cart := rfl

theorem cart_latchHi (v : Byte) (s : State) : (s.latchHi v).incPc.cart = s.cart := rfl

/-- The bytes of an instruction, by its length. -/
theorem encode_of_opcodeLength {op : Byte} {i : Instr} {tl : List Byte} (h : encode i = op :: tl) (hd : decode (op :: tl) = some (i, [])) :
   (opcodeLength op = some 1 → tl = []) ∧ (opcodeLength op = some 2 → ∃ b, tl = [b]) ∧ (opcodeLength op = some 3 → ∃ a b, tl = [a, b]) := by
  unfold opcodeLength
  have hl := encode_of_shape op
  unfold decode at hd
  cases hs : opcodeShape op <;> simp only [hs] at hd hl ⊢ <;> simp only [reduceCtorEq, Option.some.injEq, false_implies, true_and, and_true, forall_const, Nat.reduceEqDiff]
  · simp at hd; exact hd.2
  · match tl, hd with
    | b :: r, hd => simp at hd; exact ⟨b, by rw [hd.2]⟩
  · match tl, hd with
    | lo :: hi :: r, hd => simp at hd; exact ⟨lo, hi, by rw [hd.2]⟩

/-- With no chip trap a read logs nothing. -/
theorem traps_busRead {a : Addr} {s : State} (h : s.cfg.chipTrap = []) : (busRead a s).2.traps = s.traps := by
  have hct : ∀ k m v, chipTraps s.cfg k m v = false := by intros; simp [chipTraps, h]
  obtain ⟨-, -, c1, c2, -⟩ := chipRead_parts (maskAddr a) s
  simp only [busRead, afterAccess]
  rw [c1, hct]
  simp only [Bool.false_eq_true, if_false, c2]

theorem traps_readCycle {a : Addr} {s : State} (h : s.cfg.chipTrap = []) : (readCycle a s).2.traps = s.traps := by
  unfold readCycle
  split
  · rfl
  · simp only [readHere, traps_endCycle]
    rw [traps_busRead (by rw [cfg_openRead]; exact h), traps_openRead]

theorem tia_busRead (a : Addr) (s : State) : (busRead a s).2.tia = s.tia ∧ (busRead a s).2.frame = s.frame := by
  simp only [busRead, (afterAccess_parts _ _ _ _).2.2.2.2.1, (afterAccess_parts _ _ _ _).2.2.2.2.2.1]
  unfold chipRead; split <;> exact ⟨rfl, rfl⟩

end Sys2Proof.Machine
end

