-- ==== Sys2Proof/Laws/Parts.lean ====
section
/-! SUPPORT. The invariants of the devices (Safety.lean), one operation of one device at a time: the PIA, the
FrameManager, the TIA and the cartridge keep theirs. -/

namespace Sys2Proof.Machine

/-! ### PIA -/

theorem Pia.inv_tick {p : Pia} (h : p.Inv) : p.tick.Inv := by
  obtain ⟨h1, h2, h3⟩ := h
  simp only [Pia.tick]
  split
  · split
    · exact ⟨show 0 < Divisor.d1.count by decide, h2, h3⟩
    · refine ⟨?_, h2, h3⟩
      show 0 < p.divisor.count
      omega
  · refine ⟨?_, h2, h3⟩
    show p.sub + 1 < p.divisor.count
    omega

theorem Pia.inv_read {m : BusAddr} {l : Lines} {p : Pia} (h : p.Inv) : (piaRead m l p).2.Inv := by
  rcases piaRead_parts m l p with e | e <;> rw [e]
  · exact h
  · exact h

theorem Divisor.count_pos (d : Divisor) : 0 < d.count := by cases d <;> decide

theorem Pia.inv_write {m : BusAddr} {v : Byte} {p : Pia} (h : p.Inv) : (piaWrite m v p).Inv := by
  obtain ⟨h1, h2, h3⟩ := h
  simp only [piaWrite]
  split
  · exact ⟨h1, Memory.wf_write h2 _ _, Memory.below_write h3 (Nat.mod_lt _ (by decide)) _⟩
  · split
    · split
      · exact ⟨Divisor.count_pos _, h2, h3⟩
      · exact ⟨h1, h2, h3⟩
    · split <;> exact ⟨h1, h2, h3⟩

/-! ### FrameManager -/

theorem Frame.inv_goto {f : Frame} {st : FrameState} (hb : f.buffer = none) (hs : st ≠ .frame) (h : f.Inv) :
    (f.goto st).Inv := by
  refine ⟨?_, h.2.1, h.2.2⟩
  simp [Frame.goto, hb, hs]

theorem Frame.inv_startFrame {f : Frame} (hb : f.buffer = none) (h : f.Inv) : f.startFrame.Inv := by
  obtain ⟨-, h2, h3⟩ := h
  simp only [hb, Option.toList_none, List.append_nil] at h2 h3
  refine ⟨by simp [Frame.startFrame, Frame.goto], ?_, ?_⟩
  · simp only [Frame.startFrame, Frame.goto, Option.toList_some]
    rw [List.pairwise_append]
    exact ⟨h2, by simp, fun a ha b hb => by simp only [List.mem_singleton] at hb; rw [hb]; exact h3 a ha⟩
  · simp only [Frame.startFrame, Frame.goto, Option.toList_some, List.mem_append, List.mem_singleton]
    rintro b (hb | rfl)
    · exact Nat.lt_succ_of_lt (h3 b hb)
    · exact Nat.lt_succ_self _

theorem Frame.inv_finalize {f : Frame} {st : FrameState} (hs : st ≠ .frame) (h : f.Inv) :
    (f.finalize.goto st).Inv := by
  obtain ⟨-, h2, h3⟩ := h
  exact ⟨by simp [Frame.finalize, Frame.goto, hs], by simpa [Frame.finalize, Frame.goto] using h2,
    by simpa [Frame.finalize, Frame.goto] using h3⟩

theorem Frame.buffer_none {f : Frame} (h : f.Inv) (hs : f.state ≠ .frame) : f.buffer = none := by
  cases hb : f.buffer with
  | none => rfl
  | some b => exact absurd (h.1.1 (by simp [hb])) hs

theorem Frame.inv_nextLine {tv : TvMode} {n : Nat} {f : Frame} (h : f.Inv) : (f.nextLine tv n).Inv := by
  have h' : Frame.Inv { f with lineInState := f.lineInState + 1 } := h
  simp only [Frame.nextLine]
  split <;> rename_i hs <;> split
  · exact Frame.inv_goto (Frame.buffer_none h (by simp [show f.state = _ from hs])) (by simp) h'
  · exact h'
  · exact Frame.inv_goto (Frame.buffer_none h (by simp [show f.state = _ from hs])) (by simp) h'
  · exact h'
  · exact Frame.inv_startFrame (Frame.buffer_none h (by simp [show f.state = _ from hs])) h'
  · exact h'
  · exact Frame.inv_finalize (by simp) h'
  · exact h'
  · exact Frame.inv_goto (Frame.buffer_none h (by simp [show f.state = _ from hs])) (by simp) h'
  · exact h'

theorem Frame.inv_writeVsync {v : Bool} {f : Frame} (h : f.Inv) : (f.writeVsync v).Inv := by
  have h' : Frame.Inv { f with vsync := v } := h
  simp only [Frame.writeVsync]
  split
  · exact h
  · simp only [Frame.setVsync]
    split <;> rename_i hs <;> split
    · exact Frame.inv_goto (Frame.buffer_none h (by simp [show f.state = _ from hs])) (by simp) h'
    · exact h'
    · exact Frame.inv_goto (Frame.buffer_none h (by simp [show f.state = _ from hs])) (by simp) h'
    · exact h'
    · exact Frame.inv_goto (Frame.buffer_none h (by simp [show f.state = _ from hs])) (by simp) h'
    · exact h'
    · exact h'
    · exact Frame.inv_goto (Frame.buffer_none h (by simp [show f.state = _ from hs])) (by simp) h'
    · exact Frame.inv_finalize (by simp) h'
    · exact h'

theorem Frame.vsync_writeVsync (v : Bool) (f : Frame) :
    (f.writeVsync v).vsync = v ∧ (f.writeVsync v).vblank = f.vblank := by
  simp only [Frame.writeVsync]
  split
  · rename_i h; exact ⟨h.symm, rfl⟩
  · simp only [Frame.setVsync]
    repeat' split
    all_goals exact ⟨rfl, rfl⟩

/-! ### TIA -/

theorem Tia.inv_objects {t : Tia} (h : t.Inv) : t.objects.Inv := by
  obtain ⟨h1, h2, h3, h4⟩ := h
  simp only [Tia.objects]
  split
  · rename_i hm
    simp only [Bool.and_eq_true, decide_eq_true_eq] at hm
    have := h4 hm.1
    refine ⟨h1, h2, ?_, ?_⟩
    · show t.mclock + 1 ≤ 16; omega
    · intro ha
      have : t.mclock + 1 ≠ 16 := by simpa [Tia.movementTick] using ha
      show t.mclock + 1 < 16; omega
  · exact ⟨h1, h2, h3, h4⟩

/-- A tick keeps the device invariants and the two flags. -/
theorem inv_tiaTick {s : State} (ht : s.tia.Inv) (hf : s.frame.Inv) :
    (tiaTick s).tia.Inv ∧ (tiaTick s).frame.Inv := by
  have h1 := Tia.inv_objects ht
  simp only [tiaTick]
  split
  · exact ⟨h1, Frame.inv_nextLine hf⟩
  · exact ⟨h1, hf⟩

theorem inv_tiaWrite {m : BusAddr} {v : Byte} {s : State} (ht : s.tia.Inv) (hf : s.frame.Inv) :
    (tiaWrite m v s).tia.Inv ∧ (tiaWrite m v s).frame.Inv := by
  obtain ⟨h1, h2, h3, h4⟩ := ht
  have h0 : ∀ t : State, t.tia.Inv → t.frame.Inv → ∀ reg, (tiaEffect reg v t).tia.Inv ∧ (tiaEffect reg v t).frame.Inv := by
    intro t hti hfi reg
    obtain ⟨g1, g2, g3, g4⟩ := hti
    unfold tiaEffect
    split
    · exact ⟨⟨g1, g2, g3, g4⟩, Frame.inv_writeVsync hfi⟩
    · exact ⟨⟨g1, g2, g3, g4⟩, hfi⟩
    · exact ⟨⟨g1, g2, g3, g4⟩, hfi⟩
    · exact ⟨⟨g1, g2, g3, g4⟩, hfi⟩
    · exact ⟨⟨g1, g2, g3, g4⟩, hfi⟩
    · exact ⟨⟨g1, g2, g3, g4⟩, hfi⟩
    · exact ⟨⟨g1, g2, g3, g4⟩, hfi⟩
    · exact ⟨⟨g1, g2, g3, g4⟩, hfi⟩
    · exact ⟨⟨g1, g2, g3, g4⟩, hfi⟩
    · exact ⟨⟨g1, g2, Nat.zero_le _, fun _ => show 0 < 16 by decide⟩, hfi⟩
    · refine ⟨⟨?_, ?_, g3, g4⟩, hfi⟩
      · exact Memory.wf_write (Memory.wf_write (Memory.wf_write (Memory.wf_write g1 _ _) _ _) _ _) _ _
      · exact Memory.below_write (Memory.below_write (Memory.below_write (Memory.below_write g2 (by decide) _)
          (by decide) _) (by decide) _) (by decide) _
    · exact ⟨⟨g1, g2, g3, g4⟩, hfi⟩
    · exact ⟨⟨g1, g2, g3, g4⟩, hfi⟩
  have hb : (s.tia.regs.write (m.toNat % 64) v).below 64 = true := Memory.below_write h2 (Nat.mod_lt _ (by decide)) _
  simp only [tiaWrite]
  split
  · apply h0
    · exact ⟨Memory.wf_write h1 _ _, hb, h3, h4⟩
    · exact hf
  · exact h0 s ⟨h1, h2, h3, h4⟩ hf _

/-- The FrameManager's flags follow the stored registers (R472). -/
structure FlagsFollow (s : State) : Prop where
  vsync : s.frame.vsync = (tiaReg 0x00 s).getLsbD 1
  vblank : s.frame.vblank = (tiaReg 0x01 s).getLsbD 1

theorem flagsFollow_tiaWrite {m : BusAddr} {v : Byte} {s : State} (hw : s.tia.regs.wf = true) (h : FlagsFollow s) :
    FlagsFollow (tiaWrite m v s) := by
  obtain ⟨h1, h2⟩ := h
  simp only [tiaReg] at h1 h2
  simp only [tiaWrite]
  generalize hr : m.toNat % 64 = reg
  by_cases r0 : reg = 0
  · subst r0
    refine ⟨?_, ?_⟩
    · simp only [tiaStores, tiaEffect, tiaReg]
      simp only [Nat.reduceLT, decide_true, if_true]
      rw [(Frame.vsync_writeVsync _ _).1, Memory.read_write_same hw]
    · simp only [tiaStores, tiaEffect, tiaReg]
      simp only [Nat.reduceLT, decide_true, if_true]
      rw [(Frame.vsync_writeVsync _ _).2, h2, Memory.read_write_other _ _ (by decide)]
  · by_cases r1 : reg = 1
    · subst r1
      refine ⟨?_, ?_⟩
      · simp only [tiaStores, tiaEffect, tiaReg]
        simp only [Nat.reduceLT, decide_true, if_true, Frame.setVblank]
        rw [h1, Memory.read_write_other _ _ (by decide)]
      · simp only [tiaStores, tiaEffect, tiaReg]
        simp only [Nat.reduceLT, decide_true, if_true, Frame.setVblank]
        rw [Memory.read_write_same hw]
    · have h0 : ∀ t : State, FlagsFollow t → FlagsFollow (tiaEffect reg v t) := by
        rintro t ⟨g1, g2⟩
        simp only [tiaReg] at g1 g2
        unfold tiaEffect
        split
        · exact absurd rfl r0
        · exact absurd rfl r1
        all_goals first
          | exact ⟨g1, g2⟩
          | (refine ⟨?_, ?_⟩
             · simp only [tiaReg, Memory.read_write_other _ _ (show (0 : Nat) ≠ 0x20 by decide),
                 Memory.read_write_other _ _ (show (0 : Nat) ≠ 0x21 by decide),
                 Memory.read_write_other _ _ (show (0 : Nat) ≠ 0x22 by decide),
                 Memory.read_write_other _ _ (show (0 : Nat) ≠ 0x23 by decide)]
               exact g1
             · simp only [tiaReg, Memory.read_write_other _ _ (show (1 : Nat) ≠ 0x20 by decide),
                 Memory.read_write_other _ _ (show (1 : Nat) ≠ 0x21 by decide),
                 Memory.read_write_other _ _ (show (1 : Nat) ≠ 0x22 by decide),
                 Memory.read_write_other _ _ (show (1 : Nat) ≠ 0x23 by decide)]
               exact g2)
      apply h0
      split
      · refine ⟨?_, ?_⟩ <;> simp only [tiaReg]
        · rw [Memory.read_write_other _ _ (Ne.symm r0)]; exact h1
        · rw [Memory.read_write_other _ _ (Ne.symm r1)]; exact h2
      · exact ⟨h1, h2⟩

/-! ### Cartridge -/

/-- A mapped RAM write port names a byte of the scheme's extra RAM. -/
theorem Cart.port_ramWrite_lt {p : Params} {c : Cart} {o i : Nat} (h : c.port p o = .ramWrite i) :
    i < extraRamSize p := by
  have hblk := c.ramblk.isLt
  unfold Cart.port at h
  unfold extraRamSize
  split at h <;> rename_i hs <;> simp only [hs]
  all_goals first
    | (simp at h; done)
    | (cases hsc : p.superChip <;> simp only [overlayPort, hsc, if_true, Bool.false_eq_true, if_false] at h ⊢ <;>
        repeat' split at h
       all_goals first
        | (simp at h; done)
        | (simp only [CartPort.ramWrite.injEq] at h; omega))
    | (repeat' split at h
       all_goals first
         | (simp at h; done)
         | (simp only [CartPort.ramWrite.injEq] at h; omega))

theorem Cart.inv_hotspots {p : Params} {c : Cart} {a n o : Nat} (hn : n ≤ bankCount p) (h : c.Inv p) :
    (c.hotspots a n o).Inv p := by
  unfold Cart.hotspots
  split
  · rename_i ho
    refine ⟨?_, h.2.1, h.2.2⟩
    show o - a < bankCount p
    omega
  · exact h

theorem Cart.inv_directSwitch {p : Params} {lip : Addr} {o : Nat} {c : Cart} (h : c.Inv p) :
    (c.directSwitch p lip o).Inv p := by
  unfold Cart.directSwitch
  split <;> rename_i hs
  · exact Cart.inv_hotspots (by simp [bankCount, hs]) h
  · exact Cart.inv_hotspots (by simp [bankCount, hs]) h
  · exact Cart.inv_hotspots (by simp [bankCount, hs]) h
  · split
    · refine ⟨?_, h.2.1, h.2.2⟩
      simp only [bankCount, hs]
      omega
    · exact h
  · exact Cart.inv_hotspots (by simp [bankCount, hs]) h
  · exact Cart.inv_hotspots (by simp [bankCount, hs]) h
  · split
    · exact ⟨h.1, h.2.1, h.2.2⟩
    · split
      · exact ⟨h.1, h.2.1, h.2.2⟩
      · exact h
  · split
    · refine ⟨?_, h.2.1, h.2.2⟩
      simp only [bankCount, hs]
      split <;> decide
    · exact h
  all_goals exact h

theorem Cart.inv_storeRam {p : Params} {c : Cart} {i : Nat} {v : Byte} (hi : i < extraRamSize p) (h : c.Inv p) :
    Cart.Inv p { c with ram := c.ram.write i v } :=
  ⟨h.1, Memory.wf_write h.2.1 _ _, Memory.below_write h.2.2 hi _⟩

theorem Cart.inv_read {p : Params} {lip : Addr} {d : Byte} {m : BusAddr} {c : Cart} (h : c.Inv p) :
    (c.read p lip d m).2.Inv p := by
  simp only [Cart.read]
  split
  · exact Cart.inv_directSwitch h
  · exact Cart.inv_directSwitch h
  · rename_i i hp
    exact Cart.inv_storeRam (Cart.port_ramWrite_lt hp) (Cart.inv_directSwitch h)

theorem Cart.inv_write {p : Params} {lip : Addr} {v : Byte} {m : BusAddr} {c : Cart} (h : c.Inv p) :
    (c.write p lip m v).Inv p := by
  simp only [Cart.write]
  split
  · rename_i i hp
    exact Cart.inv_storeRam (Cart.port_ramWrite_lt hp) (Cart.inv_directSwitch h)
  · exact Cart.inv_directSwitch h
  · exact Cart.inv_directSwitch h

theorem Params.banks_pos {p : Params} (hw : p.wf = true) (hs : p.scheme = .tigervision ∨ p.scheme = .scheme3E) :
    0 < p.imageSize / 2048 := by
  have hf : p.scheme.fits p.imageSize = true := by
    simp only [Params.wf, Bool.and_eq_true] at hw
    exact hw.1.1.1
  rcases hs with hs | hs <;> simp only [hs, Scheme.fits, Bool.and_eq_true, decide_eq_true_eq, beq_iff_eq] at hf <;> omega

theorem Cart.inv_sniff {p : Params} {m : BusAddr} {v : Byte} {k : AccessKind} {c : Cart} (hw : p.wf = true)
    (h : c.Inv p) : (c.sniff p m v k).Inv p := by
  have hb : ∀ b, b < bankCount p → Cart.Inv p { c with bank := b } := fun b hb => ⟨hb, h.2.1, h.2.2⟩
  unfold Cart.sniff
  split <;> rename_i hs
  · dsimp only
    repeat' split
    all_goals exact ⟨h.1, h.2.1, h.2.2⟩
  · split
    · refine hb _ ?_
      simp only [bankCount, hs]
      exact Nat.mod_lt _ (Params.banks_pos hw (.inl hs))
    · exact h
  · split
    · exact hb _ (by simp [bankCount, hs])
    · split
      · exact hb _ (by simp [bankCount, hs])
      · exact h
  · split
    · exact h
    · refine ⟨?_, h.2.1, h.2.2⟩
      have := h.1
      simp only [bankCount, hs] at this ⊢
      repeat' split
      all_goals omega
  · split
    · exact ⟨h.1, h.2.1, h.2.2⟩
    · split
      · refine ⟨?_, h.2.1, h.2.2⟩
        simp only [bankCount, hs]
        exact Nat.mod_lt _ (Params.banks_pos hw (.inr hs))
      · exact h
  all_goals exact h

end Sys2Proof.Machine
end

