-- ==== Sys2Proof/Laws/Invariant.lean ====
section
/-! SUPPORT. Lemmas for the provers: the invariant over all a step is made of. -/

namespace Sys2Proof.Machine

/-- The invariant of Safety.lean without the tag. -/
structure Sound (s : State) : Prop where
  cfg : s.cfg.wf = true
  pia : s.pia.Inv
  tia : s.tia.Inv
  frame : s.frame.Inv
  cart : s.cart.Inv s.cfg
  flags : FlagsFollow s

theorem flagsFollow_of {s t : State} (h : FlagsFollow s) (h1 : t.frame.vsync = s.frame.vsync) (h2 : t.frame.vblank = s.frame.vblank) (h3 : t.tia.regs = s.tia.regs) : FlagsFollow t := by
  obtain ⟨a, b⟩ := h
  simp only [tiaReg] at a b
  exact ⟨by rw [h1, a]; simp only [tiaReg, h3], by rw [h2, b]; simp only [tiaReg, h3]⟩

/-- The invariant, but for the tag, is kept by all a step is made of. -/
theorem kept_sound : Kept Sound where
  cpu s c h := ⟨h.cfg, h.pia, h.tia, h.frame, h.cart, ⟨h.flags.1, h.flags.2⟩⟩
  piaTick s h := ⟨h.cfg, Pia.inv_tick h.pia, h.tia, h.frame, h.cart, ⟨h.flags.1, h.flags.2⟩⟩
  tiaTick s h := by
    obtain ⟨h1, h2⟩ := inv_tiaTick h.tia h.frame
    have hs := (sameStill (still_tiaTick s)).stored
    have hc := (sameStill (still_tiaTick s)).cart
    refine ⟨by rw [cfg_tiaTick]; exact h.cfg, by rw [pia_tiaTick]; exact h.pia, h1, h2, by rw [cfg_tiaTick, hc]; exact h.cart, ?_⟩
    exact flagsFollow_of h.flags (congrArg Stored.vsync hs) (congrArg Stored.vblank hs) (congrArg Stored.tiaRegs hs)
  clock s n h := ⟨h.cfg, h.pia, h.tia, h.frame, h.cart, ⟨h.flags.1, h.flags.2⟩⟩
  read s a h := by
    obtain ⟨-, p2, p3, p4, p5, p6, -, -, -⟩ := afterAccess_parts .read (maskAddr a) (chipRead (maskAddr a) s).1 (chipRead (maskAddr a) s).2
    have hcfg := cfg_busRead a s
    have hs := stored_busRead a s
    have hc : (chipRead (maskAddr a) s).2.cart.Inv s.cfg := by
      simp only [chipRead]; split
      · exact h.cart
      · exact h.cart
      · exact Cart.inv_read h.cart
    refine ⟨by rw [hcfg]; exact h.cfg, ?_, ?_, ?_, ?_, ?_⟩
    · show (afterAccess _ _ _ _).pia.Inv
      rw [p4]; simp only [chipRead]; split
      · exact h.pia
      · exact Pia.inv_read h.pia
      · exact h.pia
    · show (afterAccess _ _ _ _).tia.Inv
      rw [p5]; simp only [chipRead]; split <;> exact h.tia
    · show (afterAccess _ _ _ _).frame.Inv
      rw [p6]; simp only [chipRead]; split <;> exact h.frame
    · rw [hcfg]
      show (afterAccess _ _ _ _).cart.Inv _
      have e : (chipRead (maskAddr a) s).2.cfg = s.cfg := (chipRead_parts _ _).2.2.1
      rw [p3, e]
      exact Cart.inv_sniff h.cfg hc
    · exact flagsFollow_of h.flags (congrArg Stored.vsync hs) (congrArg Stored.vblank hs) (congrArg Stored.tiaRegs hs)
  write s a v h := by
    obtain ⟨-, p2, p3, p4, p5, p6, -, -, -⟩ := afterAccess_parts .write (maskAddr a) v (chipWrite (maskAddr a) v s)
    have hcfg := cfg_busWrite a v s
    have e : (chipWrite (maskAddr a) v s).cfg = s.cfg := (chipWrite_parts _ _ _).2.1
    have hc : (chipWrite (maskAddr a) v s).cart.Inv s.cfg := by
      simp only [chipWrite]; split
      · rw [(tiaWrite_parts _ _ _).2.2.2.1]; exact h.cart
      · exact h.cart
      · exact Cart.inv_write h.cart
    have ht : (chipWrite (maskAddr a) v s).tia.Inv ∧ (chipWrite (maskAddr a) v s).frame.Inv := by
      simp only [chipWrite]; split
      · exact inv_tiaWrite h.tia h.frame
      · exact ⟨h.tia, h.frame⟩
      · exact ⟨h.tia, h.frame⟩
    have hf : FlagsFollow (chipWrite (maskAddr a) v s) := by
      simp only [chipWrite]; split
      · exact flagsFollow_tiaWrite h.tia.1 h.flags
      · exact ⟨h.flags.1, h.flags.2⟩
      · exact ⟨h.flags.1, h.flags.2⟩
    refine ⟨by rw [hcfg]; exact h.cfg, ?_, ?_, ?_, ?_, ?_⟩
    · show (afterAccess _ _ _ _).pia.Inv
      rw [p4]; simp only [chipWrite]; split
      · rw [(tiaWrite_parts _ _ _).2.2.2.2.1]; exact h.pia
      · exact Pia.inv_write h.pia
      · exact h.pia
    · show (afterAccess _ _ _ _).tia.Inv
      rw [p5]; exact ht.1
    · show (afterAccess _ _ _ _).frame.Inv
      rw [p6]; exact ht.2
    · rw [hcfg]
      show (afterAccess _ _ _ _).cart.Inv _
      rw [p3, e]
      exact Cart.inv_sniff h.cfg hc
    · exact flagsFollow_of (t := busWrite a v s) hf (congrArg Frame.vsync p6) (congrArg Frame.vblank p6) (congrArg Tia.regs p5)
  stop s op h := by
    unfold raiseInvalidOpcode; split
    · exact h
    · exact ⟨h.cfg, h.pia, h.tia, h.frame, h.cart, ⟨h.flags.1, h.flags.2⟩⟩

theorem sound_of_inv {s : State} (h : s.Inv) : Sound s := ⟨h.cfg, h.pia, h.tia, h.frame, h.cart, ⟨h.vsync, h.vblank⟩⟩

theorem inv_of_sound {s : State} (h : Sound s) (ht : s.cpu.tag = .fetch) : s.Inv := ⟨h.cfg, h.pia, h.tia, h.frame, h.cart, h.flags.1, h.flags.2, ht⟩

/-- The invariant but for the tag: what holds inside an instruction too. -/
theorem sound_of_inv_withTag {s : State} (h : (s.withTag .fetch).Inv) : Sound s :=
  kept_sound.cpu (s.withTag .fetch) s.cpu (sound_of_inv h)

theorem inv_withTag_of_sound {s : State} (h : Sound s) : (s.withTag .fetch).Inv :=
  inv_of_sound (kept_sound.cpu _ _ h) rfl

/-- The byte stores are canonical inside an instruction too. -/
theorem storesWf_of_inv_withTag {s : State} (h : (s.withTag .fetch).Inv) : StoresWf s := h.storesWf

/-- The fetch cycles of a step keep the invariant but for the tag. -/
theorem inv_fetchInstr {s : State} (h : (s.withTag .fetch).Inv) :
    ((fetchInstr (openRead s)).2.withTag .fetch).Inv :=
  inv_withTag_of_sound (kept_sound.fetchInstr (kept_sound.openRead (sound_of_inv_withTag h)))

theorem tag_tiaTick (s : State) : (tiaTick s).cpu.tag = s.cpu.tag := by
  simp only [tiaTick]; split <;> rfl

theorem tag_tiaTicks (s : State) : (tiaTicks s).cpu.tag = s.cpu.tag := by
  unfold tiaTicks; split <;> simp only [tag_tiaTick]

theorem tag_piaTick (s : State) : (piaTick s).cpu.tag = s.cpu.tag := rfl

theorem tag_beginSlot (s : State) : (beginSlot s).cpu.tag = s.cpu.tag := by
  simp only [beginSlot]; split <;> simp only [tag_tiaTicks, tag_piaTick, tag_latchNmi]

theorem tag_endSlot (s : State) : (endSlot s).cpu.tag = s.cpu.tag := by
  simp only [endSlot]; split <;> simp only [tag_tiaTicks, tag_piaTick]

theorem tag_idleSlot (s : State) : (idleSlot s).cpu.tag = s.cpu.tag := (tag_endSlot _).trans (tag_beginSlot _)

theorem tag_awaitCpu (n : Nat) (s : State) : (awaitCpu n s).cpu.tag = s.cpu.tag := by
  induction n generalizing s with
  | zero => exact tag_beginSlot s
  | succ n ih =>
    unfold awaitCpu; split
    · rw [ih, tag_idleSlot]
    · exact tag_beginSlot s

theorem tag_readCycle {a : Addr} {s : State} (h : s.cpu.tag = .fetch) : (readCycle a s).2.cpu.tag = .fetch := by
  unfold readCycle
  split
  · exact h
  · have h1 : (busRead a (openRead s)).2.cpu.tag = .fetch := by rw [cpu_busRead, openRead, tag_awaitCpu, h]
    simp only [readHere, endCycle]
    split
    · exact h1
    · rw [tag_endSlot, cpu_withTag]; dsimp only; rw [h1]; rfl

theorem tag_perform {f : State → State} (hf : ∀ u, (f u).cpu.tag = u.cpu.tag) (s : State) : (perform f s).cpu.tag = s.cpu.tag := by
  unfold perform; split
  · rfl
  · exact hf s

theorem tag_performPc (a : Addr) (s : State) : (perform (fun s => s.withPc a) s).cpu.tag = s.cpu.tag := by unfold perform; split <;> rfl

theorem tag_performI (s : State) : (perform (fun s => s.withP { s.cpu.p with i := true }) s).cpu.tag = s.cpu.tag := by unfold perform; split <;> rfl

theorem tag_resetInternal (s : State) : (resetInternal s).cpu.tag = s.cpu.tag := by
  simp only [resetInternal, cpu_withS]
  rw [tag_idleSlot, tag_idleSlot, tag_idleSlot, tag_idleSlot, tag_idleSlot]

theorem tag_resetVector {s : State} (h : s.cpu.tag = .fetch) : (resetVector s).cpu.tag = .fetch := by
  refine (tag_performPc _ _).trans (tag_readCycle ?_)
  rw [tag_performI]
  exact tag_readCycle h

theorem tag_machineReset (p : Params) (d : Draws) : (machineReset p d).cpu.tag = .fetch := by
  have h : (powerOn p d).cpu.tag = .fetch := rfl
  have := tag_resetVector (s := resetInternal (powerOn p d)) (by rw [tag_resetInternal, h])
  simp only [machineReset, cpu_withNmi]
  exact this

end Sys2Proof.Machine
end

