-- ==== Sys2Proof/Laws/Board.lean ====
section
/-! SUPPORT. Board steps (R420): what one is, and how the cycles of Machine/Cycle.lean follow each other as the operations
of a meaning do. -/

namespace Sys2Proof.Machine

/-! ### Registers and latches do not mix with ticks -/

/-- The state with these registers and latches. -/
def putCpu (r : Regs) (l : Latches) (s : State) : State :=
  { s with
    cpu := { s.cpu with a := r.a, x := r.x, y := r.y, s := r.s, pc := r.pc, p := r.p, lip := r.lip, lat := l } }

theorem tiaTick_putCpu (r : Regs) (l : Latches) (s : State) : tiaTick (putCpu r l s) = putCpu r l (tiaTick s) := by
  by_cases h : s.tia.objects.hclock = 227 <;> simp [tiaTick, putCpu, h]

theorem cfg_putCpu (r : Regs) (l : Latches) (s : State) : (putCpu r l s).cfg = s.cfg := rfl

theorem tiaTicks_putCpu (r : Regs) (l : Latches) (s : State) : tiaTicks (putCpu r l s) = putCpu r l (tiaTicks s) := by
  unfold tiaTicks
  rw [cfg_putCpu]
  cases s.cfg.tiaClk <;> simp only [tiaTick_putCpu]

theorem latchNmi_putCpu (r : Regs) (l : Latches) (s : State) : latchNmi (putCpu r l s) = putCpu r l (latchNmi s) := by
  have h : nmiEdge (putCpu r l s) = nmiEdge s := rfl
  unfold latchNmi
  rw [h]
  split <;> rfl

theorem piaTick_putCpu (r : Regs) (l : Latches) (s : State) : piaTick (putCpu r l s) = putCpu r l (piaTick s) := rfl

theorem beginSlot_putCpu (r : Regs) (l : Latches) (s : State) : beginSlot (putCpu r l s) = putCpu r l (beginSlot s) := by
  unfold beginSlot
  rw [latchNmi_putCpu]
  dsimp only
  rw [cfg_putCpu]
  cases (latchNmi s).cfg.order <;> simp only [tiaTicks_putCpu, piaTick_putCpu]

theorem endSlot_putCpu (r : Regs) (l : Latches) (s : State) : endSlot (putCpu r l s) = putCpu r l (endSlot s) := by
  unfold endSlot
  rw [cfg_putCpu]
  cases s.cfg.order <;> simp only [tiaTicks_putCpu, piaTick_putCpu] <;> rfl

theorem awaitCpu_putCpu (r : Regs) (l : Latches) (n : Nat) (s : State) :
    awaitCpu n (putCpu r l s) = putCpu r l (awaitCpu n s) := by
  induction n generalizing s with
  | zero => exact beginSlot_putCpu r l s
  | succ n ih =>
    have h : (beginSlot (putCpu r l s)).cpu.halted = (beginSlot s).cpu.halted := by rw [beginSlot_putCpu]; rfl
    have e : idleSlot (putCpu r l s) = putCpu r l (idleSlot s) := by
      unfold idleSlot; rw [beginSlot_putCpu, endSlot_putCpu]
    unfold awaitCpu
    rw [h, e, ih, beginSlot_putCpu]
    split <;> rfl

theorem putCpu_congr {s t : State} (hr : t.regs = s.regs) (hl : t.cpu.lat = s.cpu.lat) (f : Regs → Regs)
    (g : Latches → Latches) : putCpu (f t.regs) (g t.cpu.lat) t = putCpu (f s.regs) (g s.cpu.lat) t := by
  rw [hr, hl]

/-- S can be changed before the CPU's slot or in it. -/
theorem openRead_withS (s : State) (v : Byte) : openRead (s.withS v) = (openRead s).withS v := by
  have h := sameStill (still_openRead s)
  exact (awaitCpu_putCpu { s.regs with s := v } s.cpu.lat haltBound s).trans
    (putCpu_congr h.regs h.lat (fun r => { r with s := v }) id).symm

/-- An effective address can be latched before the CPU's slot or in it. -/
theorem openRead_latchEa (s : State) (a : Addr) : openRead (s.latchEa a) = (openRead s).latchEa a := by
  have h := sameStill (still_openRead s)
  exact (awaitCpu_putCpu s.regs { s.cpu.lat with ea := a } haltBound s).trans
    (putCpu_congr h.regs h.lat id (fun l => { l with ea := a })).symm

theorem openWrite_latchEa (s : State) (a : Addr) : openWrite (s.latchEa a) = (openWrite s).latchEa a := by
  have h := sameStill (still_beginSlot s)
  have hm : (s.latchEa a).cfg.haltMode = s.cfg.haltMode := rfl
  unfold openWrite
  rw [hm]
  split
  · exact openRead_latchEa s a
  · exact (beginSlot_putCpu s.regs { s.cpu.lat with ea := a } s).trans
      (putCpu_congr h.regs h.lat id (fun l => { l with ea := a })).symm

/-! ### A stopped machine -/

theorem perform_fatal {f : State → State} {s : State} (h : s.traps.fatal = true) : perform f s = s := by
  simp [perform, h]
theorem perform_running {f : State → State} {s : State} (h : s.traps.fatal = false) : perform f s = f s := by
  simp [perform, h]
theorem readCycle_fatal {a : Addr} {s : State} (h : s.traps.fatal = true) : (readCycle a s).2 = s := by
  simp [readCycle, h]
theorem readLow_fatal {a : Addr} {s : State} (h : s.traps.fatal = true) : (readLow a s).2 = s := by
  simp [readLow, readCycle_fatal h, perform_fatal h]
theorem writeCycle_fatal {a : Addr} {v : Byte} {s : State} (h : s.traps.fatal = true) : writeCycle a v s = s := by
  simp [writeCycle, h]
theorem dummyRead_fatal {a : Addr} {s : State} (h : s.traps.fatal = true) : dummyRead a s = s := readCycle_fatal h
theorem push_fatal {v : Byte} {s : State} (h : s.traps.fatal = true) : push v s = s := by
  simp [push, writeCycle_fatal h, perform_fatal h]
theorem pull_fatal {s : State} (h : s.traps.fatal = true) : (pull s).2 = s := by
  simp [pull, perform_fatal h, readCycle_fatal h]
theorem pullLow_fatal {s : State} (h : s.traps.fatal = true) : (pullLow s).2 = s := by
  simp [pullLow_eq, pull_fatal h, perform_fatal h]
theorem performRead_fatal {op : ReadOp} {x : Byte × State} (h : x.2.traps.fatal = true) : performRead op x = x.2 := by
  obtain ⟨f, hf, -⟩ := cpuOnly_performRead op x
  rw [hf, perform_fatal h]

/-- Two operations after a cycle, one after the other. -/
theorem perform_perform {f g : State → State} (hg : CpuOnly g) (s : State) :
    perform f (perform g s) = perform (fun t => f (g t)) s := by
  by_cases h : s.traps.fatal = true
  · rw [perform_fatal h, perform_fatal h, perform_fatal h]
  · have h : s.traps.fatal = false := by simpa using h
    have h' : (g s).traps.fatal = false := by
      obtain ⟨c, hc⟩ := hg.eq s
      rw [hc]; exact h
    rw [perform_running h, perform_running h', perform_running h]

theorem perform_performRead {f : State → State} {op : ReadOp} {v : Byte} (s : State) :
    perform (fun t => f (performRead op (v, t))) s = perform f (performRead op (v, s)) := by
  by_cases h : s.traps.fatal = true
  · rw [perform_fatal h, performRead_fatal h, perform_fatal h]
  · have h : s.traps.fatal = false := by simpa using h
    have hf : (performRead op (v, s)).traps.fatal = false := by
      obtain ⟨f, hf, hc⟩ := cpuOnly_performRead op (v, s)
      obtain ⟨c, hc⟩ := hc.perform.eq s
      rw [hf, hc]; exact h
    rw [perform_running h, perform_running hf]

theorem cpuOnly_complete : CpuOnly complete := ⟨fun _ => ⟨_, rfl⟩⟩

/-! ### Runs of board steps -/

/-- What a board step that ends in this state answers. -/
def outOf (t : State) : Out := if t.traps.fatal then .fault (stopReason t) else .next t

/-- The end of an instruction, as a state. -/
theorem finish_eq_outOf (s : State) : finish s = outOf (perform complete s) := by
  unfold finish outOf
  by_cases h : s.traps.fatal = true
  · rw [perform_fatal h]
    simp [h]
  · have h : s.traps.fatal = false := by simpa using h
    have h' : (complete s).traps.fatal = false := h
    rw [perform_running h]
    simp [h, complete]

theorem boardSteps_add {n : Nat} {s t : State} (h : boardSteps n s = .next t) (m : Nat) :
    boardSteps (n + m) s = boardSteps m t := by
  induction n generalizing s with
  | zero =>
    simp only [boardSteps, Host.Outcome.next.injEq] at h
    rw [h, Nat.zero_add]
  | succ n ih =>
    rw [Nat.succ_add]
    simp only [boardSteps] at h ⊢
    split at h
    · exact ih h
    · cases h
    · cases h

/-- Inside an instruction: from `s` board steps lead to `t`, or to its stop, and none of the states before `t` is at an
instruction boundary. -/
def Goes (s t : State) : Prop :=
  ∃ n, boardSteps n s = outOf t ∧ ∀ m < n, ∃ u, boardSteps m s = .next u ∧ u.cpu.tag ≠ .fetch

theorem Goes.refl {s : State} (h : s.traps.fatal = false) : Goes s s :=
  ⟨0, by simp [boardSteps, outOf, h], fun _ hm => absurd hm (Nat.not_lt_zero _)⟩

theorem Goes.trans {s t u : State} (h1 : Goes s t) (hf : t.traps.fatal = false) (h2 : Goes t u) : Goes s u := by
  obtain ⟨n, hn, hm⟩ := h1
  obtain ⟨k, hk, hm'⟩ := h2
  have hn : boardSteps n s = .next t := by rw [hn]; simp [outOf, hf]
  refine ⟨n + k, by rw [boardSteps_add hn, hk], fun j hj => ?_⟩
  by_cases h : j < n
  · exact hm j h
  · obtain ⟨i, rfl⟩ : ∃ i, j = n + i := ⟨j - n, by omega⟩
    rw [boardSteps_add hn]
    exact hm' i (by omega)

/-- A run goes on from a state that has not stopped; nothing follows a stop. -/
theorem Goes.andThen {s t u : State} (h1 : Goes s t) (h2 : t.traps.fatal = false → Goes t u)
    (h3 : t.traps.fatal = true → u = t) : Goes s u := by
  cases h : t.traps.fatal
  · exact h1.trans h (h2 h)
  · rw [h3 h]; exact h1

/-! ### One cycle -/

/-- The CPU's next cycle inside an instruction or an interrupt entry. -/
def cycleAt (s : State) : BusCycle :=
  match s.cpu.tag with
  | .fetch => idleRead s.cpu.pc
  | .mid op k => opcodeCycle op k s
  | .entry n k => entryCycle n k s

theorem pushCycle_congr {s t : State} (hs : t.cpu.s = s.cpu.s) (v : Byte) (f : State → State) :
    pushCycle v f t = pushCycle v f s := by
  simp only [pushCycle, stackAddr, hs]

theorem pullCycle_congr {s t : State} (hs : t.cpu.s = s.cpu.s) (f : Byte → State → State) :
    pullCycle f t = pullCycle f s := by
  have h : stackAddr (t.withS (t.cpu.s + 1)) = stackAddr (s.withS (s.cpu.s + 1)) := by rw [hs]; rfl
  simp only [pullCycle, h]

theorem vectorTail_congr {s t : State} (hr : t.regs = s.regs) (b : Bool) (vec : Addr)
    (nmi : Bool) (k : Nat) : vectorTail b vec nmi k t = vectorTail b vec nmi k s := by
  have hs : t.cpu.s = s.cpu.s := congrArg Regs.s hr
  have hpc : t.cpu.pc = s.cpu.pc := congrArg Regs.pc hr
  have hp : t.cpu.p = s.cpu.p := congrArg Regs.p hr
  simp only [vectorTail, pushCycle_congr hs, hpc, hp]

theorem controlTail_congr {s t : State} (hr : t.regs = s.regs) (i : Instr) (j : Nat) :
    controlTail i j t = controlTail i j s := by
  have hs : t.cpu.s = s.cpu.s := congrArg Regs.s hr
  have hpc : t.cpu.pc = s.cpu.pc := congrArg Regs.pc hr
  have hst : stackAddr t = stackAddr s := by simp only [stackAddr, hs]
  cases i
  case jmpInd => rfl
  case jsr => show callTail j t = callTail j s; simp only [callTail, hst, hpc, pushCycle_congr hs]
  case rts => show subroutineTail j t = subroutineTail j s; simp only [subroutineTail, hst, hpc, pullCycle_congr hs]
  case rti => show interruptTail j t = interruptTail j s; simp only [interruptTail, hst, hpc, pullCycle_congr hs]
  case brk => show breakTail j t = breakTail j s; simp only [breakTail, hpc, vectorTail_congr hr]
  all_goals exact congrArg idleRead hpc

/-- Which cycle comes next depends on the registers, the latches and the tag alone. -/
theorem tailCycle_congr {s t : State} (hr : t.regs = s.regs) (hl : t.cpu.lat = s.cpu.lat) (i : Instr) (j : Nat) :
    tailCycle i j t = tailCycle i j s := by
  have ha : t.cpu.a = s.cpu.a := congrArg Regs.a hr
  have hx : t.cpu.x = s.cpu.x := congrArg Regs.x hr
  have hy : t.cpu.y = s.cpu.y := congrArg Regs.y hr
  have hs : t.cpu.s = s.cpu.s := congrArg Regs.s hr
  have hpc : t.cpu.pc = s.cpu.pc := congrArg Regs.pc hr
  have hp : t.cpu.p = s.cpu.p := congrArg Regs.p hr
  have hst : stackAddr t = stackAddr s := by simp only [stackAddr, hs]
  have hac : ∀ b m, addressCycle b m j t = addressCycle b m j s := by
    intro b m; simp only [addressCycle, hx, hy, hl]
  have hea : ∀ m, formedEa m t = formedEa m s := by intro m; simp only [formedEa, hx, hy, hl]
  have hsr : ∀ op, storedRegister op t = storedRegister op s := by intro op; simp only [storedRegister, ha, hx, hy]
  unfold tailCycle
  split
  · simp only [readTail, hac, hea]
  · simp only [hpc]
  · simp only [writeTail, hac, hea, hsr]
  · simp only [modifyTail, hac, hea, hp, hl]
  · simp only [hpc]
  · simp only [hpc]
  · unfold stackTail
    split <;> simp only [ha, hp, hpc, hst, pushCycle_congr hs, pullCycle_congr hs]
  · simp only [branchTail, hpc]
  · exact controlTail_congr hr i j

theorem cycleAt_congr {s t : State} (hr : t.regs = s.regs) (hl : t.cpu.lat = s.cpu.lat) (ht : t.cpu.tag = s.cpu.tag) :
    cycleAt t = cycleAt s := by
  have hpc : t.cpu.pc = s.cpu.pc := congrArg Regs.pc hr
  simp only [cycleAt, opcodeCycle, entryCycle, ht, hl, hpc, vectorTail_congr hr, tailCycle_congr hr hl]

theorem cycleAt_beginSlot (s : State) : cycleAt (beginSlot s) = cycleAt s := by
  have h := sameStill (still_beginSlot s)
  exact cycleAt_congr h.regs h.lat (tag_beginSlot s)

theorem cycleAt_idleSlot (s : State) : cycleAt (idleSlot s) = cycleAt s := by
  have h := sameStill (still_idleSlot s)
  exact cycleAt_congr h.regs h.lat (tag_idleSlot s)

theorem cpuCycle_of_mid {s : State} (h : s.cpu.tag ≠ .fetch) : cpuCycle s = (cycleAt s).run s := by
  unfold cpuCycle cycleAt
  cases h' : s.cpu.tag with
  | fetch => exact absurd h' h
  | mid op k => rfl
  | entry n k => rfl

theorem nextIsWrite_of_mid {s : State} (h : s.cpu.tag ≠ .fetch) : nextIsWrite s = (cycleAt s).data.isSome := by
  unfold nextIsWrite cycleAt
  cases h' : s.cpu.tag with
  | fetch => exact absurd h' h
  | mid op k => rfl
  | entry n k => rfl

theorem traps_beginSlot (s : State) : (beginSlot s).traps = s.traps := (sameStill (still_beginSlot s)).traps
theorem traps_idleSlot (s : State) : (idleSlot s).traps = s.traps := (sameStill (still_idleSlot s)).traps

/-- A board step in which a halt holds the CPU (R425). -/
theorem boardStep_held {s : State} (hf : s.traps.fatal = false) (h : heldByHalt (beginSlot s) = true) :
    boardStep s = .next (idleSlot s) := by
  have hf' : (endSlot (beginSlot s)).traps.fatal = false := by
    show (idleSlot s).traps.fatal = false
    rw [traps_idleSlot]; exact hf
  simp only [boardStep, hf, Bool.false_eq_true, if_false, h, if_true, hf']
  rfl

/-- A board step in which the CPU runs a cycle (R420). -/
theorem boardStep_running {s : State} (hf : s.traps.fatal = false) (h : heldByHalt (beginSlot s) = false) :
    boardStep s = outOf (cpuCycle (beginSlot s)) := by
  simp only [boardStep, hf, Bool.false_eq_true, if_false, h, outOf]

theorem boardSteps_one (s : State) : boardSteps 1 s = boardStep s := by
  simp only [boardSteps]
  split <;> simp_all

/-- A cycle that is not held back is one board step. -/
theorem goes_slot {s : State} (hf : s.traps.fatal = false) (ht : s.cpu.tag ≠ .fetch)
    (h : heldByHalt (beginSlot s) = false) : Goes s ((cycleAt s).run (beginSlot s)) := by
  have ht' : (beginSlot s).cpu.tag ≠ .fetch := by rw [tag_beginSlot]; exact ht
  refine ⟨1, ?_, fun m hm => ?_⟩
  · rw [boardSteps_one, boardStep_running hf h, cpuCycle_of_mid ht', cycleAt_beginSlot]
  · obtain rfl : m = 0 := by omega
    exact ⟨s, rfl, ht⟩

/-- A board step that holds the CPU goes on inside the instruction. -/
theorem goes_idle {s : State} (hf : s.traps.fatal = false) (ht : s.cpu.tag ≠ .fetch)
    (h : heldByHalt (beginSlot s) = true) : Goes s (idleSlot s) := by
  refine ⟨1, ?_, fun m hm => ?_⟩
  · rw [boardSteps_one, boardStep_held hf h, outOf, traps_idleSlot, hf]; rfl
  · obtain rfl : m = 0 := by omega
    exact ⟨s, rfl, ht⟩

/-- A cycle that a halt holds back (every read, and a write with `HALT_MODE = immediate`) runs in the CPU's next slot. -/
theorem goes_await {s : State} (hf : s.traps.fatal = false) (ht : s.cpu.tag ≠ .fetch)
    (hh : s.cfg.haltMode = .immediate ∨ (cycleAt s).data = none) : Goes s ((cycleAt s).run (openRead s)) := by
  have hfin := halted_openRead s
  unfold openRead at hfin ⊢
  generalize haltBound = n at hfin ⊢
  induction n generalizing s with
  | zero =>
    exact goes_slot hf ht (by simp only [heldByHalt, awaitCpu] at hfin ⊢; rw [hfin]; rfl)
  | succ n ih =>
    unfold awaitCpu at hfin ⊢
    have hheld : heldByHalt (beginSlot s) = (beginSlot s).cpu.halted := by
      have hc : (beginSlot s).cfg.haltMode = s.cfg.haltMode := by rw [cfg_beginSlot]
      have hw : nextIsWrite (beginSlot s) = (cycleAt s).data.isSome := by
        rw [nextIsWrite_of_mid (by rw [tag_beginSlot]; exact ht), cycleAt_beginSlot]
      simp only [heldByHalt, hc, hw]
      rcases hh with hh | hh <;> rw [hh]
      · simp
      · cases s.cfg.haltMode <;> simp
    split at hfin
    · rename_i hb
      rw [if_pos hb]
      have hf' : (idleSlot s).traps.fatal = false := by rw [traps_idleSlot]; exact hf
      refine (goes_idle hf ht (hheld.trans hb)).trans hf' ?_
      have := ih hf' (by rw [tag_idleSlot]; exact ht) (by rw [cfg_idleSlot, cycleAt_idleSlot]; exact hh) hfin
      rwa [cycleAt_idleSlot] at this
    · rename_i hb
      rw [if_neg hb]
      exact goes_slot hf ht (by rw [hheld]; simpa using hb)

/-- A write cycle runs in the slot `openWrite` finds. -/
theorem goes_write {s : State} (hf : s.traps.fatal = false) (ht : s.cpu.tag ≠ .fetch)
    (hw : (cycleAt s).data.isSome = true) : Goes s ((cycleAt s).run (openWrite s)) := by
  unfold openWrite
  split
  · rename_i hm
    exact goes_await hf ht (.inl hm)
  · rename_i hm
    refine goes_slot hf ht ?_
    have h1 : (beginSlot s).cfg.haltMode = .readsOnly := by rw [cfg_beginSlot]; exact hm
    have h2 : nextIsWrite (beginSlot s) = true := by
      rw [nextIsWrite_of_mid (by rw [tag_beginSlot]; exact ht), cycleAt_beginSlot]; exact hw
    simp [heldByHalt, h2, hm]

/-! ### The forms of a cycle -/

/-- A read with what follows it. -/
theorem goes_read {s : State} (hf : s.traps.fatal = false) (ht : s.cpu.tag ≠ .fetch) {a : Addr}
    {f : Byte → State → State} (hc : cycleAt s = { addr := a, after := f }) :
    Goes s (perform (f (readCycle a s).1) (readCycle a s).2) := by
  have h := goes_await hf ht (.inr (by rw [hc]))
  rw [hc] at h
  have e : readCycle a s = readHere a (openRead s) := by simp [readCycle, hf]
  rw [e]
  exact h

/-- A read of an operand whose address is latched in its slot. -/
theorem goes_readEa {s : State} (hf : s.traps.fatal = false) (ht : s.cpu.tag ≠ .fetch) {a : Addr}
    {f : Byte → State → State} (hc : cycleAt s = { before := fun t => t.latchEa a, addr := a, after := f }) :
    Goes s (perform (f (readCycle a (perform (fun t => t.latchEa a) s)).1)
      (readCycle a (perform (fun t => t.latchEa a) s)).2) := by
  have h := goes_await hf ht (.inr (by rw [hc]))
  rw [hc] at h
  have e : readCycle a (s.latchEa a) = readHere a ((openRead s).latchEa a) := by
    have : (s.latchEa a).traps.fatal = false := hf
    simp [readCycle, this, openRead_latchEa]
  rw [perform_running hf, e]
  exact h

/-- A pull with what follows it. -/
theorem goes_pull {s : State} (hf : s.traps.fatal = false) (ht : s.cpu.tag ≠ .fetch) {f : Byte → State → State}
    (hc : cycleAt s = pullCycle f s) : Goes s (perform (f (pull s).1) (pull s).2) := by
  have h := goes_await hf ht (.inr (by rw [hc]; rfl))
  rw [hc] at h
  have hs : (openRead s).cpu.s = s.cpu.s := congrArg Regs.s (regs_openRead s)
  have e : pull s = readHere (stackAddr (s.withS (s.cpu.s + 1))) ((openRead s).withS (s.cpu.s + 1)) := by
    have : (s.withS (s.cpu.s + 1)).traps.fatal = false := hf
    simp only [pull, perform_running hf, readCycle, this, Bool.false_eq_true, if_false, openRead_withS]
  rw [e]
  have hb : (pullCycle f s).run (openRead s) =
      perform (f (readHere (stackAddr (s.withS (s.cpu.s + 1))) ((openRead s).withS (s.cpu.s + 1))).1)
        (readHere (stackAddr (s.withS (s.cpu.s + 1))) ((openRead s).withS (s.cpu.s + 1))).2 := by
    show perform (f (readHere _ ((openRead s).withS ((openRead s).cpu.s + 1))).1)
      (readHere _ ((openRead s).withS ((openRead s).cpu.s + 1))).2 = _
    rw [hs]
    rfl
  rw [← hb]
  exact h

/-- A write with what follows it. -/
theorem goes_writes {s : State} (hf : s.traps.fatal = false) (ht : s.cpu.tag ≠ .fetch) {a : Addr} {v : Byte}
    {f : Byte → State → State} (hc : cycleAt s = { addr := a, data := some v, after := f }) :
    Goes s (perform (f v) (writeCycle a v s)) := by
  have h := goes_write hf ht (by rw [hc]; rfl)
  rw [hc] at h
  have e : writeCycle a v s = endCycle (busWrite a v (openWrite s)) := by simp [writeCycle, hf]
  rw [e]
  exact h

/-- A store whose address is latched in its slot. -/
theorem goes_writeEa {s : State} (hf : s.traps.fatal = false) (ht : s.cpu.tag ≠ .fetch) {a : Addr} {v : Byte}
    {f : Byte → State → State}
    (hc : cycleAt s = { before := fun t => t.latchEa a, addr := a, data := some v, after := f }) :
    Goes s (perform (f v) (writeCycle a v (perform (fun t => t.latchEa a) s))) := by
  have h := goes_write hf ht (by rw [hc]; rfl)
  rw [hc] at h
  have e : writeCycle a v (s.latchEa a) = endCycle (busWrite a v ((openWrite s).latchEa a)) := by
    have : (s.latchEa a).traps.fatal = false := hf
    simp [writeCycle, this, openWrite_latchEa]
  rw [perform_running hf, e]
  exact h

/-- A push with what follows it. -/
theorem goes_push {s : State} (hf : s.traps.fatal = false) (ht : s.cpu.tag ≠ .fetch) {v : Byte} {f : State → State}
    (hc : cycleAt s = pushCycle v f s) : Goes s (perform f (push v s)) := by
  have h := goes_writes hf ht hc
  have e : perform f (push v s) = perform (fun t => f (t.withS (t.cpu.s - 1))) (writeCycle (stackAddr s) v s) :=
    perform_perform (g := fun t => t.withS (t.cpu.s - 1)) ⟨fun _ => ⟨_, rfl⟩⟩ _
  rw [e]
  exact h

end Sys2Proof.Machine
end

