-- ==== Sys2Proof/Laws/Lines.lean ====
section
/-! SUPPORT. With no driven input line no NMI is latched: a clear latch stays clear through every read cycle. -/

namespace Sys2Proof.Machine

/-- No input line is ever driven, and the NMI latch is clear. -/
structure Calm (s : State) : Prop where
  inputs : s.cfg.inputs = []
  latch : s.cpu.nmiLatch = false

theorem linesAt_nil (n : Nat) : linesAt [] n = Lines.idle := rfl

theorem latchNmi_of_undriven {s : State} (h : s.cfg.inputs = []) : latchNmi s = s := by
  simp [latchNmi, nmiEdge, h, linesAt_nil, Lines.idle]

namespace Calm

theorem tiaTick {s : State} (h : Calm s) : Calm (tiaTick s) := by
  refine ⟨by rw [cfg_tiaTick]; exact h.1, ?_⟩
  simp only [Machine.tiaTick]
  split <;> exact h.2

theorem tiaTicks {s : State} (h : Calm s) : Calm (tiaTicks s) := by
  unfold Machine.tiaTicks
  split
  · exact h.tiaTick
  · exact h.tiaTick.tiaTick.tiaTick

theorem piaTick {s : State} (h : Calm s) : Calm (piaTick s) := ⟨h.1, h.2⟩

theorem beginSlot {s : State} (h : Calm s) : Calm (beginSlot s) := by
  simp only [Machine.beginSlot, latchNmi_of_undriven h.1]
  split
  · exact h
  · exact h
  · exact h.piaTick
  · exact h.tiaTicks
  · exact h.piaTick.tiaTicks
  · exact h.tiaTicks.piaTick

theorem endSlot {s : State} (h : Calm s) : Calm (endSlot s) := by
  have clock : ∀ {u : State} (n : Nat), Calm u → Calm { u with clock := n } := fun _ hu => ⟨hu.1, hu.2⟩
  simp only [Machine.endSlot]
  refine clock _ ?_
  split
  · exact h.piaTick.tiaTicks
  · exact h.tiaTicks.piaTick
  · exact h.tiaTicks
  · exact h.piaTick
  · exact h
  · exact h

theorem awaitCpu {s : State} (n : Nat) (h : Calm s) : Calm (awaitCpu n s) := by
  induction n generalizing s with
  | zero => exact h.beginSlot
  | succ n ih =>
    unfold Machine.awaitCpu
    split
    · exact ih h.beginSlot.endSlot
    · exact h.beginSlot

theorem openRead {s : State} (h : Calm s) : Calm (openRead s) := h.awaitCpu _

theorem busRead {s : State} (a : Addr) (h : Calm s) : Calm (busRead a s).2 :=
  ⟨by rw [cfg_busRead]; exact h.1, by rw [cpu_busRead]; exact h.2⟩

theorem endCycle {s : State} (h : Calm s) : Calm (endCycle s) := by
  unfold Machine.endCycle
  split
  · exact h
  · exact endSlot ⟨h.1, h.2⟩

theorem readCycle {s : State} (a : Addr) (h : Calm s) : Calm (readCycle a s).2 := by
  unfold Machine.readCycle
  split
  · exact h
  · exact (h.openRead.busRead a).endCycle

end Calm

/-- In a machine with no driven line and a clear latch no interrupt is pending in the next slot (R410 to R414). -/
theorem pendingInterrupt_openRead {s : State} (h : Calm s) : pendingInterrupt (openRead s) = none := by
  have ho := h.openRead
  simp [pendingInterrupt, ho.2, h.1, linesAt_nil, Lines.idle]

end Sys2Proof.Machine
end

