-- ==== Sys2Proof/Laws/Devices.lean ====
section
/-! SUPPORT. Lemmas for the provers: the PIA timer, the ball, a tick's parts, the FrameManager, the beam, the first board
steps and the reset vector. -/

namespace Sys2Proof.Machine

/-- The position counter is modulo 160, and a new copy starts where it wraps (R481). -/
theorem Ball.counterStep_eq (b : Ball) : b.counterStep =
    if b.counter.val = 159 then { b with counter := 0, rendering := true, renderCounter := -4 }
    else { b with counter := b.counter + 1 } := by
  have hi : b.counter + 1 = 0 ↔ b.counter.val = 159 := by
    have := b.counter.isLt
    constructor
    · intro h
      have := congrArg Fin.val h
      rw [Fin.val_add] at this
      simp at this
      omega
    · intro h
      apply Fin.ext
      rw [Fin.val_add, h]
      rfl
  simp only [Ball.counterStep]
  by_cases h : b.counter.val = 159
  · rw [if_pos (hi.2 h), if_pos h, hi.2 h]
  · rw [if_neg (fun e => h (hi.1 e)), if_neg h]

/-- The blank as R450 and R484 give it. -/
theorem Tia.hblank_iff (t : Tia) :
    t.hblank = true ↔ t.hclock.val < 68 ∨ t.hmoveExt = true ∧ t.hclock.val < 76 := by simp [Tia.hblank]

/-- A tick moves the ball and the motion as `Tia.objects` says, on a wrap too (R451). -/
theorem tiaTick_objects (s : State) :
    (tiaTick s).tia.ball = s.tia.objects.ball ∧ (tiaTick s).tia.mclock = s.tia.objects.mclock ∧
    (tiaTick s).tia.mactive = s.tia.objects.mactive ∧ (tiaTick s).tia.regs = s.tia.regs := by
  obtain ⟨-, hr, -⟩ := Tia.objects_kept s.tia
  simp only [tiaTick]
  split <;> exact ⟨rfl, rfl, rfl, hr⟩

/-- The ball after RESBL, tick by tick (R481, R482). -/
theorem ballPixel_after (b : Ball) (he : (if b.vdel then b.enaOld else b.enaNew) = true) (n : Nat) (hn : n ≤ 159) :
   let q := Ball.pixelTick^[n] b.resbl
   q.counter.val = n ∧ q.width = b.width ∧ (if q.vdel then q.enaOld else q.enaNew) = true ∧
   q.rendering = decide ((n : Int) < 4 + b.width.pixels) ∧ (q.rendering = true → q.renderCounter = (n : Int) - 4) := by
  intro q
  induction n with
  | zero =>
    refine ⟨rfl, rfl, he, ?_, fun _ => rfl⟩
    have : (0 : Int) < 4 + b.width.pixels := by cases b.width <;> decide
    simp [q, Ball.resbl, this]
  | succ n ih =>
    obtain ⟨h1, h2, h3, h4, h5⟩ := ih (by omega)
    have hq : q = (Ball.pixelTick^[n] b.resbl).pixelTick := by simp only [q, Function.iterate_succ', Function.comp]
    generalize Ball.pixelTick^[n] b.resbl = r at *
    rw [hq]
    have hc : ¬ (r.counter + 1 = 0) := by
      intro h
      have := congrArg Fin.val h
      rw [Fin.val_add] at this
      simp [h1] at this
      omega
    cases hr : r.rendering
    · rw [hr] at h4
      have h4 : ¬ ((n : Int) < 4 + b.width.pixels) := by simpa using h4.symm
      simp only [Ball.pixelTick, hr, Ball.counterStep, hc, if_false, Bool.false_eq_true]
      refine ⟨?_, h2, h3, ?_, ?_⟩
      · rw [Fin.val_add, h1]; show (n + 1) % 160 = _; omega
      · simp; push_cast at *; omega
      · simp
    · rw [hr] at h4
      have h4 : ((n : Int) < 4 + b.width.pixels) := by simpa using h4.symm
      have h5 := h5 hr
      simp only [Ball.pixelTick, hr, Ball.counterStep, hc, if_false, if_true]
      refine ⟨?_, h2, h3, ?_, ?_⟩
      · rw [Fin.val_add, h1]; show (n + 1) % 160 = _; omega
      · rw [h5, h2]; apply decide_eq_decide.mpr; push_cast; omega
      · intro _; rw [h5]; push_cast; omega

/-- A hotspot access repeated changes nothing more (R523). -/
theorem hotspots_twice (a n o : Nat) (c : Cart) : (c.hotspots a n o).hotspots a n o = c.hotspots a n o := by
  unfold Cart.hotspots; split <;> simp_all

/-- Lines inside one state of the FrameManager. -/
theorem nextLine_stay (g : Frame) (st : FrameState) (L : Nat)
   (h : ∀ j < L, Frame.nextLine .ntsc 20 { g with state := st, lineInState := j } = { g with state := st, lineInState := j + 1 }) (n : Nat) (hn : n ≤ L) :
   (Frame.nextLine .ntsc 20)^[n] { g with state := st, lineInState := 0 } = { g with state := st, lineInState := n } := by
  induction n with
  | zero => rfl
  | succ n ih => rw [Function.iterate_succ', Function.comp, ih (by omega), h n (by omega)]

/-- From the wait for VSYNC to the frame (R466). -/
theorem frames_to_frame (g : Frame) (n : Nat) :
   (n ≤ 50 → (Frame.nextLine .ntsc 20)^[n] { g with state := .waitForVsyncStart, lineInState := 0 } = { g with state := .waitForVsyncStart, lineInState := n }) ∧
   (n < 40 → (Frame.nextLine .ntsc 20)^[51 + n] { g with state := .waitForVsyncStart, lineInState := 0 } = { g with state := .waitForFrameStart, lineInState := n }) ∧
   (Frame.nextLine .ntsc 20)^[91] { g with state := .waitForVsyncStart, lineInState := 0 } = { g with buffer := some g.nextBuffer, nextBuffer := g.nextBuffer + 1, state := .frame, lineInState := 0 } := by
  have hA : ∀ n ≤ 50, (Frame.nextLine .ntsc 20)^[n] { g with state := .waitForVsyncStart, lineInState := 0 } = { g with state := .waitForVsyncStart, lineInState := n } := by
    apply nextLine_stay
    intro j hj
    have : ¬ (50 < j + 1) := by omega
    simp only [Frame.nextLine, vsyncLimit, this, if_false]
  have h51 : (Frame.nextLine .ntsc 20)^[51] { g with state := .waitForVsyncStart, lineInState := 0 } = { g with state := .waitForFrameStart, lineInState := 0 } := by
    rw [Function.iterate_succ', Function.comp, hA 50 (by omega)]
    rfl
  have hB : ∀ n ≤ 39, (Frame.nextLine .ntsc 20)^[n] { g with state := .waitForFrameStart, lineInState := 0 } = { g with state := .waitForFrameStart, lineInState := n } := by
    apply nextLine_stay
    intro j hj
    have : ¬ (40 ≤ j + 1) := by omega
    simp only [Frame.nextLine, vblankLines, this, if_false]
  refine ⟨fun h => hA n h, fun h => ?_, ?_⟩
  · rw [Nat.add_comm, Function.iterate_add, Function.comp, h51, hB n (by omega)]
  · rw [show 91 = 40 + 51 from rfl, Function.iterate_add, Function.comp, h51, Function.iterate_succ', Function.comp, hB 39 (by omega)]
    rfl

/-- From the frame to the wait for VSYNC. -/
theorem frames_to_wait (g : Frame) :
   (Frame.nextLine .ntsc 20)^[222] { g with state := .frame, lineInState := 0 } = { g with state := .waitForVsyncStart, lineInState := 0, emitted := g.emitted ++ g.buffer.toList, buffer := none } := by
  have hA : ∀ n ≤ 211, (Frame.nextLine .ntsc 20)^[n] { g with state := .frame, lineInState := 0 } = { g with state := .frame, lineInState := n } := by
    apply nextLine_stay
    intro j hj
    have : ¬ (192 + 20 ≤ j + 1) := by omega
    simp only [Frame.nextLine, kernelLines, this, if_false]
  have h212 : (Frame.nextLine .ntsc 20)^[212] { g with state := .frame, lineInState := 0 } = { g with state := .overscan, lineInState := 0, emitted := g.emitted ++ g.buffer.toList, buffer := none } := by
    rw [Function.iterate_succ', Function.comp, hA 211 (by omega)]
    rfl
  have hB : ∀ (g : Frame), ∀ n ≤ 9, (Frame.nextLine .ntsc 20)^[n] { g with state := .overscan, lineInState := 0 } = { g with state := .overscan, lineInState := n } := by
    intro g
    apply nextLine_stay
    intro j hj
    have : ¬ (30 - 20 ≤ j + 1) := by omega
    simp only [Frame.nextLine, overscanLines, this, if_false]
  rw [show 222 = 10 + 212 from rfl, Function.iterate_add, Function.comp, h212, Function.iterate_succ', Function.comp]
  rw [hB { g with emitted := g.emitted ++ g.buffer.toList, buffer := none } 9 (by omega)]
  rfl

theorem divisor_count_pos (d : Divisor) : 0 < d.count := by cases d <;> decide

/-- The PIA timer, tick by tick (R493, R494). -/
theorem piaTick_iterate (p : Pia) (d : Divisor) (v : Byte) (hd : p.divisor = d) (hc : p.countdown = v) (hs : p.sub = 0) (hf : p.flag = false) (n : Nat)
    (hn : n < d.count * (v.toNat + 1)) :
   (Pia.tick^[n] p).countdown.toNat = v.toNat - n / d.count ∧ (Pia.tick^[n] p).flag = false ∧ (Pia.tick^[n] p).divisor = d ∧ (Pia.tick^[n] p).sub = n % d.count := by
  induction n with
  | zero => simp [hd, hc, hs, hf]
  | succ n ih =>
    obtain ⟨h1, h2, h3, h4⟩ := ih (by omega)
    rw [Function.iterate_succ', Function.comp]
    generalize Pia.tick^[n] p = q at *
    have hdp := divisor_count_pos d
    have hm := Nat.div_add_mod n d.count
    have hlt := Nat.mod_lt n hdp
    have hq : n / d.count ≤ v.toNat := by
      have : n / d.count < v.toNat + 1 := (Nat.div_lt_iff_lt_mul hdp).2 (by rw [Nat.mul_comm]; omega)
      omega
    by_cases hw : n % d.count + 1 = d.count
    · have hdiv : (n + 1) / d.count = n / d.count + 1 := by
        have : n + 1 = d.count * (n / d.count + 1) := by rw [Nat.mul_add, Nat.mul_one]; omega
        rw [this, Nat.mul_div_cancel_left _ hdp]
      have hmod : (n + 1) % d.count = 0 := by
        have : n + 1 = d.count * (n / d.count + 1) := by rw [Nat.mul_add, Nat.mul_one]; omega
        rw [this, Nat.mul_mod_right]
      have hne : n / d.count < v.toNat := by
        have : (n + 1) / d.count < v.toNat + 1 := (Nat.div_lt_iff_lt_mul hdp).2 (by rw [Nat.mul_comm]; omega)
        omega
      have hz : ¬ q.countdown = 0 := by intro e; rw [e] at h1; simp at h1; omega
      simp only [Pia.tick, h3, h4, hw, if_true, hz, if_false]
      refine ⟨?_, h2, trivial, hmod.symm⟩
      have := q.countdown.isLt
      rw [hdiv]
      bv_omega
    · have hdiv : (n + 1) / d.count = n / d.count := by
        have e : n + 1 = (n % d.count + 1) + d.count * (n / d.count) := by omega
        rw [e, Nat.add_mul_div_left _ _ hdp, Nat.div_eq_of_lt (by omega), Nat.zero_add]
      have hmod : (n + 1) % d.count = n % d.count + 1 := by
        have e : n + 1 = (n % d.count + 1) + d.count * (n / d.count) := by omega
        rw [e, Nat.add_mul_mod_self_left, Nat.mod_eq_of_lt (by omega)]
      simp only [Pia.tick, h3, h4, hw, if_false]
      exact ⟨by rw [hdiv]; exact h1, h2, trivial, hmod.symm⟩

theorem idleSlot_three (s : State) (h : s.cpu.halted = true) :
   ((tiaTick (tiaTick (tiaTick s))).cpu.halted = true ∧ (tiaTick (tiaTick (tiaTick s))).tia.line = s.tia.line ∧ (tiaTick (tiaTick (tiaTick s))).tia.hclock.val = s.tia.hclock.val + 3) ∨
   ((tiaTick (tiaTick (tiaTick s))).cpu.halted = false ∧ (tiaTick (tiaTick (tiaTick s))).tia.line = s.tia.line + 1 ∧ (tiaTick (tiaTick (tiaTick s))).tia.hclock.val ≤ 2) := by
  rcases tiaTick_cases s with ⟨a1, a2, a3, a4⟩ | ⟨a1, a2, a3, a4⟩ <;>
  rcases tiaTick_cases (tiaTick s) with ⟨b1, b2, b3, b4⟩ | ⟨b1, b2, b3, b4⟩ <;>
  rcases tiaTick_cases (tiaTick (tiaTick s)) with ⟨c1, c2, c3, c4⟩ | ⟨c1, c2, c3, c4⟩ <;>
  first
    | omega
    | (left; refine ⟨?_, by omega, by omega⟩; simp only [c4, b4, a4, h])
    | (right; refine ⟨?_, by omega, by omega⟩; simp only [c4, b4, a4])

/-- A halt ends in the first slot of a line (R426). -/
theorem awaitCpu_resume (n : Nat) (s : State) (h1 : s.cfg.order = .cpuPiaTia) (h2 : s.cfg.tiaClk = .three) (h : s.cpu.halted = true)
   (hn : 228 - s.tia.hclock.val ≤ 3 * n) :
   (awaitCpu n s).tia.hclock.val ≤ 2 ∧ (awaitCpu n s).tia.line = s.tia.line + 1 := by
  induction n generalizing s with
  | zero => have := s.tia.hclock.isLt; omega
  | succ n ih =>
    have hb : beginSlot s = latchNmi s := by simp only [beginSlot, cfg_latchNmi, h1]
    have hi : (idleSlot s).tia = (tiaTick (tiaTick (tiaTick (piaTick (latchNmi s))))).tia ∧ (idleSlot s).cpu.halted = (tiaTick (tiaTick (tiaTick (piaTick (latchNmi s))))).cpu.halted := by
      simp only [idleSlot, hb, endSlot, cfg_latchNmi, h1, tiaTicks, cfg_piaTick, h2, and_self]
    unfold awaitCpu
    rw [hb, halted_latchNmi, h]
    simp only [if_true]
    have hh : (piaTick (latchNmi s)).cpu.halted = true := by rw [cpu_piaTick, halted_latchNmi, h]
    have ht : (piaTick (latchNmi s)).tia = s.tia := by rw [tia_piaTick, tia_latchNmi]
    rcases idleSlot_three _ hh with ⟨k1, k2, k3⟩ | ⟨k1, k2, k3⟩
    · rw [← hi.1, ht] at k2 k3
      rw [← hi.2] at k1
      obtain ⟨r1, r2⟩ := ih (idleSlot s) (by rw [cfg_idleSlot, h1]) (by rw [cfg_idleSlot, h2]) k1 (by omega)
      exact ⟨r1, by rw [r2, k2]⟩
    · rw [← hi.1] at k2 k3
      rw [ht] at k2
      rw [← hi.2] at k1
      rw [awaitCpu_of_running k1]
      have hb2 : (beginSlot (idleSlot s)).tia = (idleSlot s).tia := by
        simp only [beginSlot, cfg_latchNmi, cfg_idleSlot, h1, tia_latchNmi]
      rw [hb2]
      exact ⟨k3, k2⟩

/-- Colour clocks per board step (R61). -/
def colourClocks (c : TiaClocks) : Nat := match c with | .one => 1 | .three => 3

/-- The motion state and the ball of R601 and R480, before any write. -/
structure Tia.AtRest (t : Tia) : Prop where
  hmoveExt : t.hmoveExt = false
  mactive : t.mactive = false
  mclock : t.mclock = 0
  ball : t.ball = Ball.reset

/-- Nothing moves and nothing is drawn in the horizontal blank of an idle line (R450, R481, R484). -/
theorem Tia.objects_atRest {t : Tia} (h : t.AtRest) (hk : t.hclock.val < 68) : t.objects = t := by
  have hb : t.hblank = true := by simp [Tia.hblank, hk]
  obtain ⟨hc, l, rg, he, ma, mc, b⟩ := t
  obtain ⟨-, rfl, -, rfl⟩ := h
  simp only [Tia.objects, hb, if_true, Bool.false_and, Bool.false_eq_true, if_false]
  rfl

/-- The machine `k` board steps into reset (R600). -/
structure Early (k : Nat) (p : Params) (s : State) : Prop where
  cfg : s.cfg = p
  hclock : s.tia.hclock.val = k * colourClocks p.tiaClk
  line : s.tia.line = 0
  frame : s.frame = Frame.reset
  rest : s.tia.AtRest
  halted : s.cpu.halted = false
  clock : s.clock = k

/-- The beam `k` colour clocks into line 0. -/
structure Beam (k : Nat) (s : State) : Prop where
  hclock : s.tia.hclock.val = k
  line : s.tia.line = 0
  frame : s.frame = Frame.reset
  rest : s.tia.AtRest

theorem beam_tick {k : Nat} {s : State} (h : Beam k s) (hk : k < 68) : Beam (k + 1) (tiaTick s) := by
  rcases tiaTick_cases s with ⟨h1, -⟩ | ⟨h1, h2, h3, h4⟩
  · have := h.hclock; omega
  · have hne : s.tia.hclock ≠ 227 := fun e => by rw [e] at h1; exact absurd h1 (by decide)
    have ho := Tia.objects_atRest h.rest (by rw [h.hclock]; exact hk)
    have hf : (tiaTick s).frame = s.frame := by simp [tiaTick, ho, hne]
    have ht : (tiaTick s).tia = { s.tia with hclock := s.tia.hclock + 1 } := by simp [tiaTick, ho, hne]
    refine ⟨by rw [h2, h.hclock], by rw [h3, h.line], by rw [hf, h.frame], ?_⟩
    rw [ht]
    exact ⟨h.rest.1, h.rest.2, h.rest.3, h.rest.4⟩

theorem beam_ticks {k : Nat} {s : State} (h : Beam k s) (hk : k < 60) : Beam (k + colourClocks s.cfg.tiaClk) (tiaTicks s) := by
  unfold tiaTicks colourClocks
  cases hc : s.cfg.tiaClk
  · exact beam_tick h (by omega)
  · exact beam_tick (beam_tick (beam_tick h (by omega)) (by omega)) (by omega)

theorem beam_pia {k : Nat} {s : State} (h : Beam k s) : Beam k (piaTick s) := ⟨h.1, h.2, h.3, h.4⟩

theorem beam_nmi {k : Nat} {s : State} (h : Beam k s) : Beam k (latchNmi s) := by
  unfold latchNmi; split
  · exact ⟨h.1, h.2, h.3, h.4⟩
  · exact h

theorem early_slot {k : Nat} {p : Params} {s : State} (h : Early k p s) (hk : k < 15) (f : State → State)
   (hf : ∀ u : State, (f u).tia = u.tia ∧ (f u).frame = u.frame ∧ (f u).cfg = u.cfg ∧ (f u).clock = u.clock ∧ (u.cpu.halted = false → (f u).cpu.halted = false)) :
   Early (k + 1) p (endSlot (f (beginSlot s))) := by
  have hb : Beam (k * colourClocks p.tiaClk) s := ⟨h.hclock, h.line, h.frame, h.rest⟩
  have hT : colourClocks p.tiaClk ≤ 3 := by unfold colourClocks; split <;> omega
  have hK : k * colourClocks p.tiaClk < 60 := by have := Nat.mul_le_mul (Nat.le_of_lt_succ (show k < 15 from hk) : k ≤ 14) hT; omega
  have hbf : ∀ {j u}, Beam j u → Beam j (f u) := fun {j u} hu => by
    obtain ⟨f1, f2, -⟩ := hf u
    exact ⟨by rw [f1]; exact hu.1, by rw [f1]; exact hu.2, by rw [f2]; exact hu.3, by rw [f1]; exact hu.4⟩
  have hcfg : (f (beginSlot s)).cfg = p := by rw [(hf _).2.2.1, cfg_beginSlot, h.cfg]
  have hB : Beam ((k + 1) * colourClocks p.tiaClk) (endSlot (f (beginSlot s))) := by
    have e : (k + 1) * colourClocks p.tiaClk = k * colourClocks p.tiaClk + colourClocks p.tiaClk := by rw [Nat.add_mul, Nat.one_mul]
    rw [e]
    have tk : ∀ {u : State}, u.cfg = p → Beam (k * colourClocks p.tiaClk) u → Beam (k * colourClocks p.tiaClk + colourClocks p.tiaClk) (tiaTicks u) := by
      intro u hc hu
      have := beam_ticks hu hK
      rwa [hc] at this
    have ck : ∀ {j : Nat} {u : State} (n : Nat), Beam j u → Beam j { u with clock := n } := fun n hu => ⟨hu.1, hu.2, hu.3, hu.4⟩
    have hn := beam_nmi hb
    have hnc : (latchNmi s).cfg = p := by rw [cfg_latchNmi, h.cfg]
    simp only [endSlot, hcfg]
    refine ck _ ?_
    cases ho : p.order with
    | cpuPiaTia =>
      have e1 : beginSlot s = latchNmi s := by simp only [beginSlot, hnc, ho]
      rw [e1] at hcfg ⊢
      exact tk (u := piaTick _) hcfg (beam_pia (hbf hn))
    | cpuTiaPia =>
      have e1 : beginSlot s = latchNmi s := by simp only [beginSlot, hnc, ho]
      rw [e1] at hcfg ⊢
      exact beam_pia (tk hcfg (hbf hn))
    | piaCpuTia =>
      have e1 : beginSlot s = piaTick (latchNmi s) := by simp only [beginSlot, hnc, ho]
      rw [e1] at hcfg ⊢
      exact tk hcfg (hbf (beam_pia hn))
    | tiaCpuPia =>
      have e1 : beginSlot s = tiaTicks (latchNmi s) := by simp only [beginSlot, hnc, ho]
      rw [e1]
      exact beam_pia (hbf (tk hnc hn))
    | piaTiaCpu =>
      have e1 : beginSlot s = tiaTicks (piaTick (latchNmi s)) := by simp only [beginSlot, hnc, ho]
      rw [e1]
      exact hbf (tk (u := piaTick _) hnc (beam_pia hn))
    | tiaPiaCpu =>
      have e1 : beginSlot s = piaTick (tiaTicks (latchNmi s)) := by simp only [beginSlot, hnc, ho]
      rw [e1]
      exact hbf (beam_pia (tk hnc hn))
  exact ⟨by rw [cfg_endSlot, hcfg], hB.1, hB.2, hB.3, hB.4, halted_endSlot ((hf _).2.2.2.2 (halted_beginSlot h.halted)), by rw [clock_endSlot, (hf _).2.2.2.1, clock_beginSlot, h.clock]⟩

theorem early_idle {k : Nat} {p : Params} {s : State} (h : Early k p s) (hk : k < 15) : Early (k + 1) p (idleSlot s) :=
  early_slot h hk id fun _ => ⟨rfl, rfl, rfl, rfl, id⟩

theorem early_read {k : Nat} {p : Params} {s : State} (h : Early k p s) (hk : k < 15) (hl : Live s) (a : Addr) : Early (k + 1) p (readCycle a s).2 := by
  simp only [readCycle, hl.1, Bool.false_eq_true, if_false, readHere]
  rw [openRead_of_running h.halted]
  have hlb : Live (beginSlot s) := live_of_still (still_beginSlot s) hl
  rw [endCycle_of_live (fatal_busRead hlb)]
  refine early_slot h hk (fun u => (busRead a u).2.withTag (busRead a (beginSlot s)).2.cpu.tag.advance) fun u => ?_
  refine ⟨(tia_busRead a u).1, (tia_busRead a u).2, cfg_busRead a u, clock_busRead a u, fun hu => ?_⟩
  show (busRead a u).2.cpu.halted = false
  rw [cpu_busRead]; exact hu

theorem bus_endSlot (s : State) : (endSlot s).bus = s.bus := (sameStill (still_endSlot s)).bus

theorem live_powerOn {p : Params} {d : Draws} (h : p.chipTrap = []) : Live (powerOn p d) := ⟨rfl, .inr h⟩

theorem idle_still (s : State) : SameStill (idleSlot s) s := sameStill (still_idleSlot s)

/-! ### The reset vector -/

/-- Where the reset banks map the reset vector in the image (R529 to R542, R544). -/
def vectorIndex (p : Params) : Nat :=
  match p.scheme with
  | .vanilla2k | .cv => 0x7FC
  | .vanilla4k | .f8 | .f6 | .f4 | .f0 | .fa | .ua | .fe | .ef => 0xFFC
  | .e0 => 0x1FFC
  | .e7 => 0x3FFC
  | .tigervision | .scheme3E => p.imageSize - 2048 + 0x7FC

/-- Reading the reset vector leaves the reset banks mapped, for every scheme (R544, R603; log 36). -/
theorem Cart.read_vector (p : Params) (d : Byte) (r : Memory) (k : Nat) (hk : k < 2) :
    (Cart.reset r).read p vectorReset d (BitVec.ofNat 13 (0x1FFC + k)) =
      (p.image.read (vectorIndex p + k), Cart.reset r) := by
  have h : k = 0 ∨ k = 1 := by omega
  rcases h with rfl | rfl <;>
    (cases hs : p.scheme <;> cases hf : p.feMode <;> cases hc : p.superChip <;>
      simp [Cart.read, Cart.directSwitch, Cart.hotspots, Cart.port, overlayPort, Cart.slice, cartOffset, Cart.reset,
        vectorIndex, hs, hf, hc, vectorReset])

/-- The listener sees no hotspot in the reset vector's reads (R525, R603). -/
theorem Cart.sniff_vector (p : Params) (v : Byte) (r : Memory) (k : Nat) (hk : k < 2) :
    (Cart.reset r).sniff p (BitVec.ofNat 13 (0x1FFC + k)) v .read = Cart.reset r := by
  have h : k = 0 ∨ k = 1 := by omega
  rcases h with rfl | rfl <;>
    (cases hs : p.scheme <;> cases hf : p.feMode <;> simp [Cart.sniff, Cart.reset, cartOffset, hs, hf])

/-- A read of the reset vector with the reset banks mapped (R600, R603). -/
theorem readCycle_vector {s : State} {r : Memory} (h : Live s) (hc : s.cart = Cart.reset r)
    (hl : s.cpu.lip = vectorReset) {k : Nat} (hk : k < 2) {a : Addr} (ha : maskAddr a = BitVec.ofNat 13 (0x1FFC + k)) :
    (readCycle a s).1 = s.cfg.image.read (vectorIndex s.cfg + k) ∧ (readCycle a s).2.cart = s.cart := by
  have hr : route (BitVec.ofNat 13 (0x1FFC + k)) = .cartridge := by
    have h2 : k = 0 ∨ k = 1 := by omega
    rcases h2 with rfl | rfl <;> decide
  have h1 : (openRead s).cpu.lip = vectorReset := (congrArg Regs.lip (regs_openRead s)).trans hl
  simp only [readCycle, h.1, Bool.false_eq_true, if_false, readHere, cart_endCycle, busRead,
    (afterAccess_parts _ _ _ _).2.2.1, chipRead, ha, hr, h1, cfg_openRead, cart_openRead, hc,
    Cart.read_vector _ _ _ k hk, Cart.sniff_vector _ _ _ k hk, and_self]

end Sys2Proof.Machine
end

