-- ==== Sys2Proof/Laws/Effects.lean ====
section
/-! SUPPORT. What a write does beside storing a byte: the TIA's registers field by field, the PIA's, and which of them an
address selects; what an access leaves in the snapshot, the cartridge, the PIA and the TIA. -/

namespace Sys2Proof.Machine

/-- The FrameManager after a VSYNC write with this bit, by its state (R462, R465, R472). -/
theorem writeVsync_eq (b : Bool) (f : Frame) : f.writeVsync b =
    if b ≠ f.vsync then
      match f.state, b with
      | .waitForVsyncStart, true | .waitForFrameStart, true | .overscan, true =>
        { f with vsync := true, state := .waitForVsyncEnd, lineInState := 0 }
      | .waitForVsyncEnd, false => { f with vsync := false, state := .waitForFrameStart, lineInState := 0 }
      | .frame, true =>
        { f with
          vsync := true, state := .waitForVsyncEnd, lineInState := 0
          emitted := f.emitted ++ f.buffer.toList, buffer := none }
      | .waitForVsyncEnd, true => { f with vsync := true }
      | .waitForVsyncStart, false | .waitForFrameStart, false | .frame, false | .overscan, false =>
        { f with vsync := false }
    else f := by
  obtain ⟨st, l, vb, vs, bu, nb, em⟩ := f
  cases st <;> cases b <;> cases vs <;> rfl

/-- What a TIA write does beside storing its byte, field by field (R470 to R473, R482 to R484, R487). -/
structure TiaEffects (reg : Nat) (v : Byte) (s t : State) : Prop where
  collision : t.collision = if reg = 0x2C then Collisions.none else s.collision
  counter : t.tia.ball.counter = if reg = 0x14 then 0 else s.tia.ball.counter
  rendering : t.tia.ball.rendering = (decide (reg = 0x14) || s.tia.ball.rendering)
  renderCounter : t.tia.ball.renderCounter = if reg = 0x14 then -4 else s.tia.ball.renderCounter
  moving : t.tia.ball.moving = (decide (reg = 0x2A) || s.tia.ball.moving)
  mactive : t.tia.mactive = (decide (reg = 0x2A) || s.tia.mactive)
  mclock : t.tia.mclock = if reg = 0x2A then 0 else s.tia.mclock
  hmoveExt : t.tia.hmoveExt = (s.tia.hmoveExt || (decide (reg = 0x2A) && decide (s.tia.hclock.val < 68)))
  hclock : t.tia.hclock = s.tia.hclock
  line : t.tia.line = s.tia.line
  pia : t.pia = s.pia
  frame : t.frame =
    if reg = 0x00 then s.frame.writeVsync (v.getLsbD 1)
    else if reg = 0x01 then { s.frame with vblank := v.getLsbD 1 } else s.frame
  vsync : t.frame.vsync = if reg = 0x00 then v.getLsbD 1 else s.frame.vsync
  vblank : t.frame.vblank = if reg = 0x01 then v.getLsbD 1 else s.frame.vblank
  width : t.tia.ball.width = if reg = 0x0A then ballWidthOf v else s.tia.ball.width
  enaOld : t.tia.ball.enaOld = if reg = 0x1C then s.tia.ball.enaNew else s.tia.ball.enaOld
  enaNew : t.tia.ball.enaNew = if reg = 0x1F then v.getLsbD 1 else s.tia.ball.enaNew
  hmm : t.tia.ball.hmm =
    if reg = 0x24 then Fin.ofNat 16 (v.toNat / 16 + 8) else if reg = 0x2B then 8 else s.tia.ball.hmm
  vdel : t.tia.ball.vdel = if reg = 0x27 then v.getLsbD 0 else s.tia.ball.vdel

theorem writeVsync_flags (f : Frame) (b : Bool) : (f.writeVsync b).vsync = b ∧ (f.writeVsync b).vblank = f.vblank := by
  simp only [Frame.writeVsync]
  split
  · rename_i h; exact ⟨h.symm, rfl⟩
  · simp only [Frame.setVsync]
    repeat' split
    all_goals simp [Frame.goto, Frame.finalize]

theorem tiaEffects_tiaEffect (reg : Nat) (v : Byte) (s : State) : TiaEffects reg v s (tiaEffect reg v s) := by
  unfold tiaEffect
  split <;> constructor <;> simp [(writeVsync_flags _ _).1, (writeVsync_flags _ _).2, Ball.resbl, Frame.setVblank] <;>
    first
    | (intro h; exfalso; revert h; assumption)
    | (rw [if_neg (by assumption), if_neg (by assumption)])

theorem tiaEffects_tiaWrite (m : BusAddr) (v : Byte) (s : State) : TiaEffects (m.toNat % 64) v s (tiaWrite m v s) := by
  simp only [tiaWrite]
  split
  · obtain ⟨h1, h2, h3, h4, h5, h6, h7, h8, h9, h10, h11, h12, h13, h14, h15, h16, h17, h18, h19⟩ := tiaEffects_tiaEffect (m.toNat % 64) v
      { s with tia := { s.tia with regs := s.tia.regs.write (m.toNat % 64) v } }
    exact ⟨h1, h2, h3, h4, h5, h6, h7, h8, h9, h10, h11, h12, h13, h14, h15, h16, h17, h18, h19⟩
  · exact tiaEffects_tiaEffect _ v s

theorem selectsTia_eq (a : Addr) (r : Nat) :
    selectsTia a r = (decide (route (maskAddr a) = .tia) && decide ((maskAddr a).toNat % 64 = r)) := by
  have e12 := mask_bit a (k := 12) (by decide)
  have e7 := mask_bit a (k := 7) (by decide)
  have em : (maskAddr a).toNat % 64 = a.toNat % 64 := by simp [maskAddr, BitVec.toNat_setWidth]
  simp only [selectsTia, route, e12, e7, em]
  cases a.getLsbD 12 <;> cases a.getLsbD 7 <;> simp

theorem hmm_xor : ∀ v : Byte, Fin.ofNat 16 (v.toNat / 16 + 8) = Fin.ofNat 16 (v.toNat / 16 ^^^ 8) := by decide

theorem width_eq : ∀ v : Byte, ballWidthOf v = [BallWidth.w1, .w2, .w4, .w8].getD (v.toNat / 16 % 4) .w1 := by decide

/-- The PIA after a write, register by register. -/
theorem piaWrite_fields (m : BusAddr) (v : Byte) (p : Pia) (h9 : m.getLsbD 9 = true) :
    let t := piaWrite m v p
    let timer := m.getLsbD 2 && m.getLsbD 4
    let port (k : Nat) : Bool := !m.getLsbD 2 && decide (m.toNat % 4 = k)
    t.outA = (if port 0 then v else p.outA) ∧ t.dirA = (if port 1 then v else p.dirA) ∧
    t.outB = (if port 2 then v else p.outB) ∧ t.dirB = (if port 3 then v else p.dirB) ∧
    t.irqEnable = (if timer then m.getLsbD 3 else p.irqEnable) ∧
    t.countdown = (if timer then v else p.countdown) ∧ t.sub = (if timer then 0 else p.sub) ∧
    t.flag = (!timer && p.flag) ∧
    t.divisor.count = (if timer then [1, 8, 64, 1024].getD (m.toNat % 4) 0 else p.divisor.count) := by
  have e : m.toNat % 4 = (if m.getLsbD 1 then 2 else 0) + (if m.getLsbD 0 then 1 else 0) := by
    simp only [BitVec.getLsbD, Nat.testBit_eq_decide_div_mod_eq, decide_eq_true_eq]
    split <;> split <;> omega
  simp only [piaWrite, h9, divisorOf, e]
  cases m.getLsbD 2 <;> cases m.getLsbD 4 <;> cases m.getLsbD 1 <;> cases m.getLsbD 0 <;> simp [Divisor.count]

theorem mask_mod4 (a : Addr) : (maskAddr a).toNat % 4 = a.toNat % 4 := by simp [maskAddr, BitVec.toNat_setWidth]

theorem selectsPort_eq (a : Addr) (k : Nat) : selectsPort a k = (decide (route (maskAddr a) = .pia) &&
    (maskAddr a).getLsbD 9 && (!(maskAddr a).getLsbD 2 && decide ((maskAddr a).toNat % 4 = k))) := by
  simp only [selectsPort, route, mask_bit a (k := 12) (by decide), mask_bit a (k := 7) (by decide),
    mask_bit a (k := 9) (by decide), mask_bit a (k := 2) (by decide), mask_mod4]
  cases a.getLsbD 12 <;> cases a.getLsbD 7 <;> simp [Bool.and_assoc]

theorem selectsTimer_eq (a : Addr) : selectsTimer a = (decide (route (maskAddr a) = .pia) &&
    (maskAddr a).getLsbD 9 && ((maskAddr a).getLsbD 2 && (maskAddr a).getLsbD 4)) := by
  simp only [selectsTimer, route, mask_bit a (k := 12) (by decide), mask_bit a (k := 7) (by decide),
    mask_bit a (k := 9) (by decide), mask_bit a (k := 2) (by decide), mask_bit a (k := 4) (by decide)]
  cases a.getLsbD 12 <;> cases a.getLsbD 7 <;> simp [Bool.and_assoc]

theorem selects_of_tia {a : Addr} (h : route (maskAddr a) = .tia) :
    (∀ r, selectsTia a r = decide ((maskAddr a).toNat % 64 = r)) ∧ (∀ k, selectsPort a k = false) ∧
    selectsTimer a = false := by
  simp [selectsTia_eq, selectsPort_eq, selectsTimer_eq, h]

theorem selects_of_pia {a : Addr} (h : route (maskAddr a) = .pia) :
    (∀ r, selectsTia a r = false) ∧
    (∀ k, selectsPort a k = ((maskAddr a).getLsbD 9 && (!(maskAddr a).getLsbD 2 && decide ((maskAddr a).toNat % 4 = k)))) ∧
    selectsTimer a = ((maskAddr a).getLsbD 9 && ((maskAddr a).getLsbD 2 && (maskAddr a).getLsbD 4)) := by
  simp [selectsTia_eq, selectsPort_eq, selectsTimer_eq, h]

theorem selects_of_cartridge {a : Addr} (h : route (maskAddr a) = .cartridge) :
    (∀ r, selectsTia a r = false) ∧ (∀ k, selectsPort a k = false) ∧ selectsTimer a = false := by
  simp [selectsTia_eq, selectsPort_eq, selectsTimer_eq, h]

/-- Two equal descriptions of the stored registers. -/
theorem stored_eq {x : Stored} {s : State} (h1 : x.cfg = s.cfg) (h2 : x.ram = s.pia.ram) (h3 : x.outA = s.pia.outA)
    (h4 : x.dirA = s.pia.dirA) (h5 : x.outB = s.pia.outB) (h6 : x.dirB = s.pia.dirB) (h7 : x.irqEnable = s.pia.irqEnable)
    (h8 : x.tiaRegs = s.tia.regs) (h9 : x.width = s.tia.ball.width) (h10 : x.enaNew = s.tia.ball.enaNew)
    (h11 : x.enaOld = s.tia.ball.enaOld) (h12 : x.vdel = s.tia.ball.vdel) (h13 : x.hmm = s.tia.ball.hmm)
    (h14 : x.vsync = s.frame.vsync) (h15 : x.vblank = s.frame.vblank) (h16 : x.coproc = s.coproc) : s.stored = x := by
  cases x; simp_all [State.stored]

theorem piaWrite_ramOnly (m : BusAddr) (v : Byte) (p : Pia) (h9 : m.getLsbD 9 = false) :
    piaWrite m v p = { p with ram := p.ram.write (piaRamIndex m) v } := by
  simp only [piaWrite, h9]; rfl

/-! ### A bus write -/

/-- What a bus write does beside storing a byte, under every mirror (R71, R73). -/
structure WriteEffects (a : Addr) (v : Byte) (s t : State) : Prop where
  collision : t.collision = if selectsTia a 0x2C then Collisions.none else s.collision
  counter : t.tia.ball.counter = if selectsTia a 0x14 then 0 else s.tia.ball.counter
  rendering : t.tia.ball.rendering = (selectsTia a 0x14 || s.tia.ball.rendering)
  renderCounter : t.tia.ball.renderCounter = if selectsTia a 0x14 then -4 else s.tia.ball.renderCounter
  moving : t.tia.ball.moving = (selectsTia a 0x2A || s.tia.ball.moving)
  mactive : t.tia.mactive = (selectsTia a 0x2A || s.tia.mactive)
  mclock : t.tia.mclock = if selectsTia a 0x2A then 0 else s.tia.mclock
  hmoveExt : t.tia.hmoveExt = (s.tia.hmoveExt || (selectsTia a 0x2A && decide (s.tia.hclock.val < 68)))
  frame : t.frame =
    if selectsTia a 0x00 then s.frame.writeVsync (v.getLsbD 1)
    else if selectsTia a 0x01 then { s.frame with vblank := v.getLsbD 1 } else s.frame
  hclock : t.tia.hclock = s.tia.hclock
  line : t.tia.line = s.tia.line
  countdown : t.pia.countdown = if selectsTimer a then v else s.pia.countdown
  sub : t.pia.sub = if selectsTimer a then 0 else s.pia.sub
  flag : t.pia.flag = (!selectsTimer a && s.pia.flag)
  divisor : t.pia.divisor.count =
    if selectsTimer a then [1, 8, 64, 1024].getD (a.toNat % 4) 0 else s.pia.divisor.count
  stored : t.stored = s.stored.written a v t.pia.ram t.tia.regs

theorem writeEffects_chipWrite (a : Addr) (v : Byte) (s : State) : WriteEffects a v s (chipWrite (maskAddr a) v s) := by
  cases h : route (maskAddr a)
  · have e : chipWrite (maskAddr a) v s = tiaWrite (maskAddr a) v s := by simp only [chipWrite, h]
    obtain ⟨e1, e2, e3⟩ := selects_of_tia h
    have t := tiaEffects_tiaWrite (maskAddr a) v s
    obtain ⟨-, hc, -, -, -, -, -, hp, -⟩ := tiaWrite_parts (maskAddr a) v s
    rw [e]
    refine ⟨by rw [e1, t.collision]; simp, by rw [e1, t.counter]; simp, by rw [e1, t.rendering],
      by rw [e1, t.renderCounter]; simp, by rw [e1, t.moving], by rw [e1, t.mactive], by rw [e1, t.mclock]; simp,
      by rw [e1, t.hmoveExt], by rw [e1, e1, t.frame]; simp, t.hclock, t.line, by rw [e3, t.pia]; rfl, by rw [e3, t.pia]; rfl, by rw [e3, t.pia]; rfl,
      by rw [e3, t.pia]; rfl, ?_⟩
    apply stored_eq <;> simp only [Stored.written, e1, e2, e3, hc, hp, t.pia, t.width, t.enaNew, t.enaOld, t.vdel, t.hmm,
      t.vsync, t.vblank, decide_eq_true_eq, Bool.false_eq_true, if_false] <;> first | rfl | skip
    · rw [width_eq]; rfl
    · rw [hmm_xor]; rfl
  · have e : chipWrite (maskAddr a) v s = { s with pia := piaWrite (maskAddr a) v s.pia } := by simp only [chipWrite, h]
    obtain ⟨e1, e2, e3⟩ := selects_of_pia h
    rw [e]
    cases h9 : (maskAddr a).getLsbD 9
    · rw [piaWrite_ramOnly _ _ _ h9]
      rw [h9] at e2 e3
      constructor <;> simp [e1, e3]
      apply stored_eq <;> simp [Stored.written, e1, e2, e3] <;> rfl
    · obtain ⟨f1, f2, f3, f4, f5, f6, f7, f8, f9⟩ := piaWrite_fields (maskAddr a) v s.pia h9
      have e3' : selectsTimer a = ((maskAddr a).getLsbD 2 && (maskAddr a).getLsbD 4) := by rw [e3, h9]; rfl
      have e2' : ∀ k, selectsPort a k = (!(maskAddr a).getLsbD 2 && decide ((maskAddr a).toNat % 4 = k)) := by
        intro k; rw [e2, h9]; rfl
      have b3 : a.getLsbD 3 = (maskAddr a).getLsbD 3 := (mask_bit a (by decide)).symm
      refine ⟨by rw [e1]; rfl, by rw [e1]; rfl, by rw [e1]; rfl, by rw [e1]; rfl, by rw [e1]; rfl, by rw [e1]; rfl,
        by rw [e1]; rfl, by rw [e1]; simp, by rw [e1, e1]; rfl, rfl, rfl, by rw [e3']; exact f6, by rw [e3']; exact f7, by rw [e3']; exact f8,
        by rw [e3', ← mask_mod4]; exact f9, ?_⟩
      apply stored_eq <;> simp only [Stored.written, e1, e2', e3', f1, f2, f3, f4, f5, b3] <;> rfl
  · have e : chipWrite (maskAddr a) v s = { s with cart := s.cart.write s.cfg s.cpu.lip (maskAddr a) v } := by
      simp only [chipWrite, h]
    obtain ⟨e1, e2, e3⟩ := selects_of_cartridge h
    rw [e]
    constructor <;> simp [e1, e3]
    apply stored_eq <;> simp [Stored.written, e1, e2, e3] <;> rfl

theorem writeEffects_busWrite (a : Addr) (v : Byte) (s : State) : WriteEffects a v s (busWrite a v s) := by
  have h := writeEffects_chipWrite a v s
  obtain ⟨-, p2, -, p4, p5, p6, p7, -, -⟩ := afterAccess_parts .write (maskAddr a) v (chipWrite (maskAddr a) v s)
  have q4 : (busWrite a v s).pia = _ := p4
  have q5 : (busWrite a v s).tia = _ := p5
  have q6 : (busWrite a v s).frame = _ := p6
  have q7 : (busWrite a v s).collision = _ := p7
  have q2 : (busWrite a v s).stored = _ := p2
  exact ⟨by rw [q7]; exact h.collision, by rw [q5]; exact h.counter, by rw [q5]; exact h.rendering,
    by rw [q5]; exact h.renderCounter, by rw [q5]; exact h.moving, by rw [q5]; exact h.mactive,
    by rw [q5]; exact h.mclock, by rw [q5]; exact h.hmoveExt, by rw [q6]; exact h.frame, by rw [q5]; exact h.hclock, by rw [q5]; exact h.line,
    by rw [q4]; exact h.countdown, by rw [q4]; exact h.sub, by rw [q4]; exact h.flag, by rw [q4]; exact h.divisor,
    by rw [q2, q4, q5]; exact h.stored⟩

/-! ### The snapshot, the listener and the chips' parts of an access -/

/-- The masked address as a number (R71). -/
theorem mask_eq (a : Addr) : maskAddr a = BitVec.ofNat 13 (a.toNat % 8192) := by
  apply BitVec.eq_of_toNat_eq; simp [maskAddr, BitVec.toNat_setWidth]

/-- The cartridge after a bus read: its own read where it is selected, then the listener (R77, R521). -/
theorem cart_busRead (a : Addr) (s : State) : (busRead a s).2.cart =
    (if a.getLsbD 12 then (s.cart.read s.cfg s.cpu.lip s.bus.lastData (maskAddr a)).2 else s.cart).sniff s.cfg
      (maskAddr a) (busRead a s).1 .read := by
  have e12 := mask_bit a (k := 12) (by decide)
  simp only [busRead, (afterAccess_parts _ _ _ _).2.2.1, chipRead, route, e12]
  cases a.getLsbD 12
  · simp only [Bool.false_eq_true, if_false]
    cases (maskAddr a).getLsbD 7 <;> rfl
  · rfl

/-- The snapshot is the access's (R75, R76). -/
theorem snapshot_eq (k : AccessKind) (a : Addr) (v : Byte) (s : State) : (afterAccess k (maskAddr a) v s).bus =
    { lastAddress := maskAddr a, lastData := v,
      accessType := if a.getLsbD 12 then .cartridge else if a.getLsbD 7 then .pia else .tia } := by
  rw [(afterAccess_parts _ _ _ _).2.2.2.2.2.2.2.2]
  simp only [route, mask_bit a (k := 12) (by decide), mask_bit a (k := 7) (by decide)]

theorem bus_busRead (a : Addr) (s : State) : (busRead a s).2.bus =
    { lastAddress := maskAddr a, lastData := (busRead a s).1,
      accessType := if a.getLsbD 12 then .cartridge else if a.getLsbD 7 then .pia else .tia } :=
  snapshot_eq _ _ _ _

theorem bus_busWrite (a : Addr) (v : Byte) (s : State) : (busWrite a v s).bus =
    { lastAddress := maskAddr a, lastData := v,
      accessType := if a.getLsbD 12 then .cartridge else if a.getLsbD 7 then .pia else .tia } :=
  snapshot_eq _ _ _ _

/-- What the PIA does in a bus read: its own read where it is selected, and nothing else (R73, R474). -/
theorem pia_busRead (a : Addr) (s : State) :
    (a.getLsbD 12 = false → a.getLsbD 7 = true →
      (busRead a s).1 = (piaRead (maskAddr a) (linesAt s.cfg.inputs s.clock) s.pia).1 ∧
      (busRead a s).2.pia = (piaRead (maskAddr a) (linesAt s.cfg.inputs s.clock) s.pia).2) ∧
    (a.getLsbD 12 = true ∨ a.getLsbD 7 = false → (busRead a s).2.pia = s.pia) := by
  have e12 := mask_bit a (k := 12) (by decide)
  have e7 := mask_bit a (k := 7) (by decide)
  have e : (busRead a s).2.pia = (chipRead (maskAddr a) s).2.pia := (afterAccess_parts _ _ _ _).2.2.2.1
  have e1 : (busRead a s).1 = (chipRead (maskAddr a) s).1 := rfl
  rw [e, e1]
  simp only [chipRead, route, e12, e7]
  cases a.getLsbD 12 <;> cases a.getLsbD 7 <;> simp

/-- A read changes nothing of the TIA (R474). -/
theorem tiaSide_busRead (a : Addr) (s : State) :
    (busRead a s).2.tia = s.tia ∧ (busRead a s).2.collision = s.collision ∧ (busRead a s).2.frame = s.frame := by
  obtain ⟨-, -, -, -, h1, h2, h3, -⟩ := afterAccess_parts .read (maskAddr a) (chipRead (maskAddr a) s).1 (chipRead (maskAddr a) s).2
  have e : ∀ m, (chipRead m s).2.tia = s.tia ∧ (chipRead m s).2.collision = s.collision ∧ (chipRead m s).2.frame = s.frame := by
    intro m; unfold chipRead; split <;> exact ⟨rfl, rfl, rfl⟩
  obtain ⟨e1, e2, e3⟩ := e (maskAddr a)
  exact ⟨h1.trans e1, h3.trans e2, h2.trans e3⟩

/-- The byte of a cartridge read (R521). -/
theorem busRead_cartridge {a : Addr} {s : State} (h : a.getLsbD 12 = true) :
    (busRead a s).1 = (s.cart.read s.cfg s.cpu.lip s.bus.lastData (maskAddr a)).1 := by
  have e12 := (mask_bit a (k := 12) (by decide)).trans h
  simp only [busRead, chipRead, route, e12, if_true]

/-- The cartridge after a bus write (R76, R77, R521). -/
theorem cart_busWrite (a : Addr) (v : Byte) (s : State) : (busWrite a v s).cart =
    (if a.getLsbD 12 then s.cart.write s.cfg s.cpu.lip (maskAddr a) v else s.cart).sniff s.cfg (maskAddr a) v .write := by
  have e12 := mask_bit a (k := 12) (by decide)
  have hc : (chipWrite (maskAddr a) v s).cfg = s.cfg := by
    have := cfg_busWrite a v s
    have h2 := congrArg Stored.cfg (afterAccess_parts .write (maskAddr a) v (chipWrite (maskAddr a) v s)).2.1
    exact h2.symm.trans this
  have e : (busWrite a v s).cart = (chipWrite (maskAddr a) v s).cart.sniff s.cfg (maskAddr a) v .write := by
    rw [← hc]; exact (afterAccess_parts .write (maskAddr a) v (chipWrite (maskAddr a) v s)).2.2.1
  rw [e]
  congr 1
  simp only [chipWrite, route, e12]
  cases a.getLsbD 12
  · simp only [Bool.false_eq_true, if_false]
    cases (maskAddr a).getLsbD 7
    · exact (tiaWrite_parts (maskAddr a) v s).2.2.2.1
    · rfl
  · rfl

/-- R474's table, by position. -/
theorem tiaDriven_table (c : Collisions) (l : Lines) (n : Nat) (hn : n < 16) : tiaDriven n c l =
    (([c.m0p1, c.m1p0, c.p0pf, c.p1pf, c.m0pf, c.m1pf, c.blpf, c.p0p1] ++
          [l.inpt0, l.inpt1, l.inpt2, l.inpt3, l.inpt4, l.inpt5, false, false]).getD n false,
      ([c.m0p0, c.m1p1, c.p0bl, c.p1bl, c.m0bl, c.m1bl, false, c.m0m1] ++
          [false, false, false, false, false, false, false, false]).getD n false) := by
  interval_cases n <;> rfl

theorem driven_bits (d1 d2 : Bool) (x : Byte) :
    let r : Byte := (if d1 then 0x80#8 else 0#8) ||| (if d2 then 0x40#8 else 0#8) ||| (x &&& 0x3F#8)
    r &&& 0x3F#8 = x &&& 0x3F#8 ∧ r.getLsbD 7 = d1 ∧ r.getLsbD 6 = d2 := by
  cases d1 <;> cases d2 <;> revert x <;> decide

end Sys2Proof.Machine
end

