-- ==== Sys2Proof/Laws/Collision.lean ====
section
/-! SUPPORT. The collision latches: what the oracle sets in a tick (R485, R486), and that a machine whose oracle is empty
keeps them clear. -/

namespace Sys2Proof.Machine

theorem collision_tiaTick (s : State) :
    (tiaTick s).collision = oracleSet s.cfg.collisionOracle s.tia.line s.tia.hclock s.collision := by
  simp only [tiaTick]; split <;> rfl

theorem latch_union {f : Collisions → Bool} (hf : f ∈ collisionLatches) (a b : Collisions) :
    f (Collisions.union a b) = (f a || f b) := by
  simp only [collisionLatches, List.cons_append, List.nil_append, List.mem_cons, List.not_mem_nil, or_false] at hf
  rcases hf with h | h | h | h | h | h | h | h | h | h | h | h | h | h | h <;> subst h <;> rfl

/-- A latch after the oracle's entries: it stays set, and becomes set where an entry of this line and clock names it. -/
theorem latch_oracleSet {f : Collisions → Bool} (hf : f ∈ collisionLatches) (es : List OracleEntry) (l : Nat) (h : Fin 228)
    (c : Collisions) :
    f (oracleSet es l h c) =
      (f c || es.any (fun e => decide (e.line = l ∧ e.hclock = h) && f e.latches)) := by
  induction es generalizing c with
  | nil => simp [oracleSet]
  | cons e rest ih =>
    rw [oracleSet, ih]
    by_cases he : e.line = l ∧ e.hclock = h
    · rw [if_pos he, latch_union hf, List.any_cons, decide_eq_true he, Bool.true_and, Bool.or_assoc]
    · rw [if_neg he, List.any_cons, decide_eq_false he, Bool.false_and, Bool.false_or]

/-- No latch is ever set under the empty oracle. -/
structure NoCollision (s : State) : Prop where
  oracle : s.cfg.collisionOracle = []
  none : s.collision = Collisions.none

theorem kept_noCollision : Kept NoCollision where
  cpu _ _ h := ⟨h.oracle, h.none⟩
  piaTick _ h := ⟨h.oracle, h.none⟩
  tiaTick s h := by
    refine ⟨by rw [cfg_tiaTick]; exact h.oracle, ?_⟩
    have : (tiaTick s).collision = oracleSet s.cfg.collisionOracle s.tia.line s.tia.hclock s.collision := by
      simp only [tiaTick]; split <;> rfl
    rw [this, h.oracle]
    exact h.none
  clock _ _ h := ⟨h.oracle, h.none⟩
  read s a h := by
    refine ⟨by rw [cfg_busRead]; exact h.oracle, ?_⟩
    show (afterAccess _ _ _ _).collision = _
    rw [(afterAccess_parts _ _ _ _).2.2.2.2.2.2.1]
    simp only [chipRead]
    split <;> exact h.none
  write s a v h := by
    refine ⟨by rw [cfg_busWrite]; exact h.oracle, ?_⟩
    rw [(writeEffects_busWrite a v s).collision, h.none]
    split <;> rfl
  stop s op h := by
    unfold raiseInvalidOpcode
    split
    · exact h
    · exact ⟨h.oracle, h.none⟩

end Sys2Proof.Machine
end

