-- ==== Sys2Proof/Laws/Frames.lean ====
section
/-! SUPPORT. Lemmas for the provers: subroutine and exception frames on the stack. -/

namespace Sys2Proof.Machine

theorem s_of_regs {s t : State} (h : t.regs = s.regs) : t.cpu.s = s.cpu.s := congrArg Regs.s h

theorem pc_of_regs {s t : State} (h : t.regs = s.regs) : t.cpu.pc = s.cpu.pc := congrArg Regs.pc h

theorem p_of_regs {s t : State} (h : t.regs = s.regs) : t.cpu.p = s.cpu.p := congrArg Regs.p h

theorem pia_of_stored {s t : State} (h : t.stored = s.stored) (n : Nat) : byteAt .pia n t = byteAt .pia n s :=
  congrArg (fun m : Memory => m.read n) (congrArg Stored.ram h)

theorem ram_of_stored {s t : State} (h : t.stored = s.stored) : t.pia.ram = s.pia.ram := congrArg Stored.ram h

theorem pushAddr_of_s {s t : State} (h : t.cpu.s = s.cpu.s) (k : Nat) : pushAddr t k = pushAddr s k := by
  simp only [pushAddr, h]

/-- A dummy fetch changes no byte. -/
theorem byteAt_dummyFetch {s : State} (hq : Quiet s [s.cpu.pc]) (c : Chip) (n : Nat) :
    byteAt c n (dummyFetch s) = byteAt c n s := byteAt_readCycle (hq _ (by simp)) c n

/-- A dummy stack read changes no byte. -/
theorem byteAt_dummyStack (s : State) (c : Chip) (n : Nat) :
    byteAt c n (dummyStack s) = byteAt c n s := byteAt_readCycle (inWritePort_stack _ _) c n

theorem byteAt_withPc (s : State) (a : Addr) (c : Chip) (n : Nat) : byteAt c n (s.withPc a) = byteAt c n s := by
  cases c <;> rfl

theorem byteAt_withP (s : State) (a : Flags) (c : Chip) (n : Nat) : byteAt c n (s.withP a) = byteAt c n s := by
  cases c <;> rfl

theorem regs_jsrPushes {s : State} (h : Live s) : (jsrPushes s).regs = { s.regs with s := s.cpu.s - 2 } := by
  rw [jsrPushes, regs_pushTwo (live_dummyStack h), regs_dummyStack, s_of_regs (regs_dummyStack s)]

theorem pull_index_two (n : Nat) : ((n + 1) % 256 + 1) % 256 = (n + 2) % 256 := by omega

theorem pull_index_word_lo (n : Nat) (h : 0x7F + 2 ≤ n) (h' : n < 256) : (n - 2 + 1) % 256 - 0x80 = n - 0x81 := by omega

theorem pull_index_word_hi (n : Nat) (h : 0x7F + 2 ≤ n) (h' : n < 256) : (n - 2 + 2) % 256 - 0x80 = n - 0x80 := by omega

theorem pull_index_three (n : Nat) : (((n + 1) % 256 + 1) % 256 + 1) % 256 = (n + 3) % 256 := by omega

theorem pull_index_frame (n : Nat) (h : 0x7F + 3 ≤ n) (h' : n < 256) : (n - 3 + 1) % 256 - 0x80 = n - 0x82 ∧ (n - 3 + 2) % 256 - 0x80 = n - 0x81 ∧ (n - 3 + 3) % 256 - 0x80 = n - 0x80 := by omega

theorem pull_index_in_ram (n : Nat) (h : 0x7F + 3 ≤ n) (h' : n < 256) (j) (hj : j < 3) : 0x80 ≤ (n - 3 + (j + 1)) % 256 := by omega

theorem cpuOnly_offset (off : Byte) : CpuOnly (fun s => s.latchOffset off) := ⟨fun _ => ⟨_, rfl⟩⟩

theorem live_brkIncPc {s : State} (h : Live s) : Live (perform State.incPc (dummyFetch s)) := by
  rw [perform_of_live (live_dummyFetch h)]; exact live_dummyFetch h

theorem brkIncPc_eq {s : State} (h : Live s) : perform State.incPc (dummyFetch s) = (dummyFetch s).incPc := perform_of_live (live_dummyFetch h) _

/-- The vector of a `vanilla_4k` image (R404, R530). -/
theorem vectorReads_vanilla4k {vec : Addr} {nmi : Bool} {s : State} (h : Live s) (hs : s.cfg.scheme = .vanilla4k)
    (h1 : vec.getLsbD 12 = true) (h2 : (vec + 1).getLsbD 12 = true) :
    (vectorReads vec nmi s).1 = s.cfg.image.read (vec.toNat % 4096) ∧
    (vectorReads vec nmi s).2.1 = s.cfg.image.read ((vec + 1).toNat % 4096) := by
  rw [vectorReads_of_live h]
  dsimp only
  have hl := live_readLow (a := vec) h
  have e : ∀ (t : State) (b : Bool), (if b then t.withNmi false else t).cfg = t.cfg := by intro t b; cases b <;> rfl
  have e' : ∀ (t : State) (b : Bool), Live t → Live (if b then t.withNmi false else t) := by intro t b ht; cases b <;> exact ht
  refine ⟨readCycle_vanilla4k h hs h1, ?_⟩
  have := readCycle_vanilla4k (a := vec + 1) (e' ((readLow vec s).2.withP { (readLow vec s).2.cpu.p with i := true }) nmi (live_withP hl _))
    (by rw [e, cfg_withP, cfg_readLow]; exact hs) h2
  rw [this, e, cfg_withP, cfg_readLow]

theorem cfg_pushFrame (b : Bool) (s : State) : (pushFrame b s).cfg = s.cfg := by
  have hk : Kept (fun u => u.cfg = s.cfg) := by
    refine ⟨fun _ _ h => h, fun _ h => h, fun u h => ?_, fun _ _ h => h, fun u a h => ?_, fun u a v h => ?_, fun u op h => ?_⟩
    · rw [cfg_tiaTick]; exact h
    · rw [cfg_busRead]; exact h
    · rw [cfg_busWrite]; exact h
    · unfold raiseInvalidOpcode; split <;> exact h
  exact hk.push _ (hk.push _ (hk.push _ rfl))

/-- What the frame and the vector leave (R378, R415, R416). -/
theorem enterVector_spec {b : Bool} {vec : Addr} {nmi : Bool} {s : State} (h : Live s) (hw : s.pia.ram.wf = true)
    (hv : vec = 0xFFFA ∨ vec = 0xFFFE) :
    (stackInRam 3 s →
        byteAt .pia (s.cpu.s.toNat - 0x80) (enterVector b vec nmi s) = hiByte s.cpu.pc ∧
        byteAt .pia (s.cpu.s.toNat - 0x81) (enterVector b vec nmi s) = loByte s.cpu.pc ∧
        byteAt .pia (s.cpu.s.toNat - 0x82) (enterVector b vec nmi s) = pushedP b s.cpu.p) ∧
    (∀ c n (t : State), (c, n) ∉ storeTargets (pushAddr s 0) t → (c, n) ∉ storeTargets (pushAddr s 1) t →
        (c, n) ∉ storeTargets (pushAddr s 2) t → byteAt c n (enterVector b vec nmi s) = byteAt c n s) ∧
    (s.cfg.scheme = .vanilla4k → (enterVector b vec nmi s).cpu.pc.toNat = (s.cfg.image.read (vec.toNat % 4096)).toNat + 256 * (s.cfg.image.read ((vec + 1).toNat % 4096)).toNat) := by
  have h0 : 0xFFA ≤ (maskAddr vec).toNat % 4096 := by rcases hv with rfl | rfl <;> decide
  have h1 : 0xFFA ≤ (maskAddr (vec + 1)).toNat % 4096 := by rcases hv with rfl | rfl <;> decide
  have b0 : vec.getLsbD 12 = true := by rcases hv with rfl | rfl <;> decide
  have b1 : (vec + 1).getLsbD 12 = true := by rcases hv with rfl | rfl <;> decide
  refine ⟨fun hr => ?_, fun c n t n0 n1 n2 => ?_, fun hs => ?_⟩
  · rw [← packP_eq_pushedP]
    rw [byteAt_enterVector h h0 h1, byteAt_enterVector h h0 h1, byteAt_enterVector h h0 h1]
    exact byteAt_pushFrame_ram h hw hr
  · rw [byteAt_enterVector h h0 h1, byteAt_pushFrame_other h n0 n1 n2]
  · have := congrArg Regs.pc (regs_enterVector (b := b) (vec := vec) (nmi := nmi) h)
    change (enterVector b vec nmi s).cpu.pc = _ at this
    obtain ⟨v1, v2⟩ := vectorReads_vanilla4k (vec := vec) (nmi := nmi) (live_pushFrame (b := b) h) (by rw [cfg_pushFrame]; exact hs) b0 b1
    rw [this]
    dsimp only
    rw [toNat_wordOf, v1, v2, cfg_pushFrame]

/-- What RTI does on a live machine (R379, R417). -/
theorem returnInterrupt_spec {s : State} (h : Live s) :
    Live (returnInterrupt s) ∧ (returnInterrupt s).stored = s.stored ∧
    (returnInterrupt s).regs = { s.regs with s := s.cpu.s + 3, pc := (returnInterrupt s).cpu.pc, p := (returnInterrupt s).cpu.p } ∧
    (Quiet s [s.cpu.pc] → ∀ c n, byteAt c n (returnInterrupt s) = byteAt c n s) ∧
    (pullsInRam s 3 → (returnInterrupt s).cpu.p = unpackP (byteAt .pia (pullIndex s 1) s) ∧
      (returnInterrupt s).cpu.pc = wordOf (byteAt .pia (pullIndex s 2) s) (byteAt .pia (pullIndex s 3) s)) := by
  have l1 := live_dummyStack (live_dummyFetch h)
  have e1 : (dummyStack (dummyFetch s)).regs = s.regs := by rw [regs_dummyStack, regs_dummyFetch]
  have es : (dummyStack (dummyFetch s)).stored = s.stored := by rw [stored_dummyStack, stored_dummyFetch]
  have lb := live_pull l1
  have rb := regs_pull l1
  rw [e1, s_of_regs e1] at rb
  have sb := (stored_pull l1).trans es
  generalize hA : dummyStack (dummyFetch s) = A at *
  have lw := live_withP lb (unpackP (pull A).1)
  have rw' : ((pull A).2.withP (unpackP (pull A).1)).regs = { s.regs with s := s.cpu.s + 1, p := unpackP (pull A).1 } := by
    rw [regs_withP, rb]
  have sw : ((pull A).2.withP (unpackP (pull A).1)).stored = s.stored := by rw [stored_withP, sb]
  have bw : ∀ c n, byteAt c n ((pull A).2.withP (unpackP (pull A).1)) = byteAt c n (pull A).2 := fun c n => byteAt_withP _ _ c n
  have heq := returnInterrupt_of_live h
  rw [hA] at heq
  dsimp only at heq
  generalize hB : (pull A).2.withP (unpackP (pull A).1) = B at *
  have ll := live_pullLow lw
  have rl := regs_pullLow lw
  have sl := (stored_pullLow lw).trans sw
  have lh := live_pull ll
  have rh := regs_pull ll
  have sh := (stored_pull ll).trans sl
  have esB : B.cpu.s = s.cpu.s + 1 := congrArg Regs.s rw'
  rw [rw', esB] at rl
  have esL : (pullLow B).2.cpu.s = s.cpu.s + 1 + 1 := congrArg Regs.s rl
  rw [rl, esL] at rh
  have hp : (returnInterrupt s).cpu.p = unpackP (pull A).1 := by
    rw [heq, cpu_withPc]; exact congrArg Regs.p rh
  have hpc : (returnInterrupt s).cpu.pc = wordOf (pullLow B).1 (pull (pullLow B).2).1 := by rw [heq]; rfl
  refine ⟨?_, ?_, ?_, ?_, ?_⟩
  · rw [heq]; exact lh
  · rw [heq]; exact sh
  · rw [hp, hpc, heq]
    rw [regs_withPc, rh]
    have : s.cpu.s + 1 + 1 + 1 = s.cpu.s + 3 := by bv_omega
    rw [this]
  · intro hq c n
    rw [heq]
    rw [byteAt_withPc, byteAt_pull ll, byteAt_pullLow lw, bw, byteAt_pull l1, ← hA, byteAt_dummyStack, byteAt_dummyFetch hq]
  · intro hr
    have p1 : 0x80 ≤ (s.cpu.s.toNat + 1) % 256 := hr 0 (by decide)
    have p2 : 0x80 ≤ (s.cpu.s.toNat + 2) % 256 := hr 1 (by decide)
    have p3 : 0x80 ≤ (s.cpu.s.toNat + 3) % 256 := hr 2 (by decide)
    have nA : A.cpu.s.toNat = s.cpu.s.toNat := by rw [s_of_regs e1]
    have nB : B.cpu.s.toNat = (s.cpu.s.toNat + 1) % 256 := by rw [esB]; simp [BitVec.toNat_add]
    have nL : (pullLow B).2.cpu.s.toNat = ((s.cpu.s.toNat + 1) % 256 + 1) % 256 := by rw [esL]; simp [BitVec.toNat_add]
    have q1 := pull_ram l1 (by rw [nA]; exact p1)
    rw [nA, pia_of_stored es] at q1
    have q2 := pull_ram lw (by rw [nB, pull_index_two]; exact p2)
    rw [nB, pull_index_two, pia_of_stored sw] at q2
    change (pullLow B).1 = _ at q2
    have q3 := pull_ram ll (by rw [nL, pull_index_three]; exact p3)
    rw [nL, pull_index_three, pia_of_stored sl] at q3
    rw [hp, hpc, q1, q2, q3]
    exact ⟨rfl, rfl⟩

/-- Pulling P back gives the flags pushed (R228, R230). -/
theorem unpackP_pushedP (b : Bool) (p : Flags) : unpackP (pushedP b p) = p := by
  rw [← packP_eq_pushedP]
  obtain ⟨n, v, d, i, z, c⟩ := p
  revert b n v d i z c; decide +kernel

end Sys2Proof.Machine
end

