-- ==== Sys2Proof/Laws/Pushes.lean ====
section
/-! SUPPORT. What a write and the pushes of a frame leave stored, wherever the stack's addresses lead: `Pushed` of
Safety.lean for each push, and for taking an exception. -/

namespace Sys2Proof.Machine

/-- What a write cycle leaves in the stored registers that are no bytes. -/
theorem stored_writeCycle_written {a : Addr} {v : Byte} {s : State} (h : Live s) :
    (writeCycle a v s).stored = s.stored.written a v (writeCycle a v s).pia.ram (writeCycle a v s).tia.regs := by
  have e : writeCycle a v s = endCycle (busWrite a v (openWrite s)) := by simp [writeCycle, h.1]
  have hs : (writeCycle a v s).stored = (busWrite a v (openWrite s)).stored := by rw [e, stored_endCycle]
  have w := (writeEffects_busWrite a v (openWrite s)).stored
  rw [stored_openWrite] at w
  have e3 : (writeCycle a v s).pia.ram = (busWrite a v (openWrite s)).pia.ram := congrArg Stored.ram hs
  have e4 : (writeCycle a v s).tia.regs = (busWrite a v (openWrite s)).tia.regs := congrArg Stored.tiaRegs hs
  rw [hs, e3, e4]
  exact w

/-- A push's address does not select the cartridge. -/
theorem pushAddr_bit12 (s : State) (k : Nat) : (maskAddr (pushAddr s k)).getLsbD 12 = false := by
  have hb : ∀ b : Byte, (maskAddr (BitVec.ofNat 16 (0x0100 + b.toNat))).getLsbD 12 = false := by decide
  have := hb (BitVec.ofNat 8 ((s.cpu.s.toNat + 256 - k) % 256))
  rwa [BitVec.toNat_ofNat, Nat.mod_mod] at this

/-- No push stores to the cartridge's RAM. -/
theorem cartridge_not_pushed (s t : State) (k n : Nat) : (Chip.cartridge, n) ∉ storeTargets (pushAddr s k) t := by
  have hr : route (maskAddr (pushAddr s k)) ≠ .cartridge := by
    simp only [route, pushAddr_bit12, Bool.false_eq_true, if_false]
    split <;> simp
  simp only [storeTargets]
  cases he : route (maskAddr (pushAddr s k)) <;> simp only
  · split
    · simp
    · split <;> simp
  · split <;> simp
  · exact absurd he hr

/-- Two of three successive pushes store to different bytes. -/
theorem pushes_disjoint {s t : State} {j k : Nat} (hjk : j < k) (hk : k ≤ 2) {c : Chip} {n : Nat}
    (h : (c, n) ∈ storeTargets (pushAddr s j) t) : (c, n) ∉ storeTargets (pushAddr s k) t := by
  have key : ∀ b : Byte, ([(0, 1), (0, 2), (1, 2)] : List (Nat × Nat)).all (fun q =>
      (storeTargets (BitVec.ofNat 16 (0x0100 + (b.toNat + 256 - q.1) % 256)) State.reset).all (fun x =>
        !(storeTargets (BitVec.ofNat 16 (0x0100 + (b.toNat + 256 - q.2) % 256)) State.reset).contains x)) = true := by
    decide +kernel
  rw [storeTargets_of_bit12 (pushAddr_bit12 s j) t State.reset] at h
  rw [storeTargets_of_bit12 (pushAddr_bit12 s k) t State.reset]
  have hq : (j, k) ∈ ([(0, 1), (0, 2), (1, 2)] : List (Nat × Nat)) := by
    have : (j = 0 ∧ k = 1) ∨ (j = 0 ∧ k = 2) ∨ (j = 1 ∧ k = 2) := by omega
    rcases this with ⟨rfl, rfl⟩ | ⟨rfl, rfl⟩ | ⟨rfl, rfl⟩ <;> decide
  have := List.all_eq_true.mp (List.all_eq_true.mp (key s.cpu.s) _ hq) _ h
  intro hm
  rw [show pushAddr s k = BitVec.ofNat 16 (0x0100 + (s.cpu.s.toNat + 256 - k) % 256) from rfl] at hm
  rw [List.contains_iff_mem.mpr hm] at this
  cases this

theorem pushed_nil (s : State) : Pushed [] s s := ⟨fun k v h => by simp at h, rfl⟩

/-- What is stored decides `Pushed`, and of the first state S and what is stored. -/
theorem Pushed.congr {vs : List Byte} {s t s' t' : State} (h : Pushed vs s t) (hs : s'.stored = s.stored)
    (hS : s'.cpu.s = s.cpu.s) (ht : t'.stored = t.stored) : Pushed vs s' t' := by
  have ha : ∀ k, pushAddr s' k = pushAddr s k := fun k => by simp only [pushAddr, hS]
  have hb : ∀ c n, c ≠ .cartridge → byteAt c n t' = byteAt c n t := by
    intro c n hc
    cases c
    · exact congrArg (fun m : Memory => m.read n) (congrArg Stored.tiaRegs ht)
    · exact congrArg (fun m : Memory => m.read n) (congrArg Stored.ram ht)
    · exact absurd rfl hc
  have e1 : t'.pia.ram = t.pia.ram := congrArg Stored.ram ht
  have e2 : t'.tia.regs = t.tia.regs := congrArg Stored.tiaRegs ht
  refine ⟨fun k v hv c n hm => ?_, ?_⟩
  · rw [ha, storeTargets_of_bit12 (pushAddr_bit12 s k) s' s] at hm
    rw [ha, hb c n ?_]
    · exact h.bytes k v hv c n hm
    · rintro rfl; exact cartridge_not_pushed _ _ _ _ hm
  · simp only [ht, hs, ha, e1, e2]
    exact h.registers

/-- One more push, of at most three. -/
theorem Pushed.push {vs : List Byte} {s t : State} (h : Pushed vs s t) (hl : Live t) (hw : StoresWf t)
    (hS : t.cpu.s = s.cpu.s - BitVec.ofNat 8 vs.length) (hn : vs.length ≤ 2) (v : Byte) :
    Pushed (vs ++ [v]) s (push v t) := by
  have ha : stackAddr t = pushAddr s vs.length := stackAddr_of_s hS (by omega)
  have e : Machine.push v t = (writeCycle (pushAddr s vs.length) v t).withS (t.cpu.s - 1) := by
    rw [push_of_live hl, ha]
  have hb : ∀ c n, byteAt c n (Machine.push v t) = byteAt c n (writeCycle (pushAddr s vs.length) v t) := by
    intro c n; rw [e, byteAt_withS]
  refine ⟨fun k w hk c n hm => ?_, ?_⟩
  · rw [hb]
    by_cases hlt : k < vs.length
    · rw [List.getElem?_append_left hlt] at hk
      rw [byteAt_writeCycle_other, h.bytes k w hk c n hm]
      rw [storeTargets_of_bit12 (pushAddr_bit12 s _) t s]
      exact pushes_disjoint hlt hn hm
    · rw [List.getElem?_append_right (by omega)] at hk
      obtain ⟨h0, rfl⟩ : k - vs.length = 0 ∧ v = w := by
        cases hd : k - vs.length with
        | zero => rw [hd] at hk; exact ⟨rfl, by simpa using hk⟩
        | succ m => rw [hd] at hk; simp at hk
      obtain rfl : k = vs.length := by omega
      rw [storeTargets_of_bit12 (pushAddr_bit12 s _) s t] at hm
      exact byteAt_writeCycle_target hl hw hm
  · have hs : (Machine.push v t).stored = (writeCycle (pushAddr s vs.length) v t).stored := by rw [e, stored_withS]
    have e1 : (Machine.push v t).pia.ram = _ := congrArg Stored.ram hs
    have e2 : (Machine.push v t).tia.regs = _ := congrArg Stored.tiaRegs hs
    have free : ∀ (ws : List (Byte × Nat)) (x y : Stored) (r r' m m' r2 m2 : Memory) (a : Addr) (w : Byte),
        (∀ a w, x.written a w r2 m2 = y.written a w r2 m2) →
        (ws.foldl (fun x v => x.written (pushAddr s v.2) v.1 r m) x).written a w r2 m2 =
          (ws.foldl (fun x v => x.written (pushAddr s v.2) v.1 r' m') y).written a w r2 m2 := by
      intro ws
      induction ws with
      | nil => intro x y r r' m m' r2 m2 a w hxy; exact hxy a w
      | cons hd tl ih =>
        intro x y r r' m m' r2 m2 a w hxy
        simp only [List.foldl_cons]
        refine ih _ _ r r' m m' r2 m2 a w (fun b u => ?_)
        have := congrArg (fun z : Stored => z.written b u r2 m2) (hxy (pushAddr s hd.2) hd.1)
        exact this
    rw [hs, e1, e2, stored_writeCycle_written hl, h.registers, List.zipIdx_append, List.foldl_append]
    simp only [List.zipIdx_cons, List.zipIdx_nil, List.foldl_cons, List.foldl_nil, Nat.zero_add]
    exact free _ _ _ _ _ _ _ _ _ _ _ (fun _ _ => rfl)

/-- What the vector leaves stored is what the frame's pushes left. -/
theorem stored_enterVector {b : Bool} {vec : Addr} {nmi : Bool} {s : State} (h : Live s) :
    (enterVector b vec nmi s).stored = (pushFrame b s).stored := by
  rw [enterVector_eq, perform_of_live (live_vectorReads (live_pushFrame h)), stored_withPc,
    stored_vectorReads (live_pushFrame h)]

theorem pushed_one {s : State} (h : Live s) (hw : StoresWf s) (v : Byte) : Pushed [v] s (push v s) :=
  (pushed_nil s).push h hw (by simp) (by simp) v

/-- JSR's two pushes. -/
theorem pushed_two {s : State} (h : Live s) (hw : StoresWf s) (v w : Byte) : Pushed [v, w] s (push w (push v s)) :=
  (pushed_one h hw v).push (live_push h) (kept_storesWf.push v hw) (s_push h) (by simp) w

/-- The frame of an exception (R378, R415). -/
theorem pushed_enterVector {b : Bool} {vec : Addr} {nmi : Bool} {s : State} (h : Live s) (hw : StoresWf s) :
    Pushed [hiByte s.cpu.pc, loByte s.cpu.pc, pushedP b s.cpu.p] s (enterVector b vec nmi s) := by
  have h3 := (pushed_two h hw (hiByte s.cpu.pc) (loByte s.cpu.pc)).push (live_push (live_push h))
    (kept_storesWf.push _ (kept_storesWf.push _ hw)) (congrArg Regs.s (regs_pushTwo h _ _)) (by simp) (packP b s.cpu.p)
  rw [packP_eq_pushedP] at h3
  refine h3.congr rfl rfl ?_
  rw [stored_enterVector h, pushFrame_eq h, packP_eq_pushedP]

end Sys2Proof.Machine
end

