-- ==== Sys2Proof/Laws/Runs.lean ====
section
/-! SUPPORT. The board steps of a whole instruction: the cycles of Machine/Cycle.lean, run one by one, end where the
meaning that `exec` calls ends. -/

namespace Sys2Proof.Machine

/-! ### Places inside an instruction or an interrupt entry -/

/-- A place in a sequence of cycles, given by the tag and the latched operand bytes. -/
structure Place (P : Nat → State → Prop) (c : Nat → State → BusCycle) : Prop where
  mid : ∀ {j s}, P j s → s.cpu.tag ≠ .fetch
  cycle : ∀ {j s}, P j s → cycleAt s = c j s
  advance : ∀ {j s t}, P j s → t.cpu.tag = s.cpu.tag.advance → t.cpu.lat.lo = s.cpu.lat.lo →
    t.cpu.lat.hi = s.cpu.lat.hi → P (j + 1) t
  keep : ∀ {j s t}, P j s → t.cpu.tag = s.cpu.tag → t.cpu.lat.lo = s.cpu.lat.lo → t.cpu.lat.hi = s.cpu.lat.hi → P j t

/-- An operation that leaves the place as it is. -/
structure KeepsPlace (f : State → State) : Prop where
  tag : ∀ s, (f s).cpu.tag = s.cpu.tag
  lo : ∀ s, (f s).cpu.lat.lo = s.cpu.lat.lo
  hi : ∀ s, (f s).cpu.lat.hi = s.cpu.lat.hi

theorem KeepsPlace.perform {f : State → State} (h : KeepsPlace f) : KeepsPlace (perform f) := by
  refine ⟨fun s => ?_, fun s => ?_, fun s => ?_⟩ <;> unfold Machine.perform <;> split
  exacts [rfl, h.tag s, rfl, h.lo s, rfl, h.hi s]

theorem keepsPlace_id : KeepsPlace (fun t => t) := ⟨fun _ => rfl, fun _ => rfl, fun _ => rfl⟩

theorem tag_endCycle {s : State} (h : s.traps.fatal = false) : (endCycle s).cpu.tag = s.cpu.tag.advance := by
  simp only [endCycle, h, Bool.false_eq_true, if_false, tag_endSlot]
  rfl

theorem lat_readHere (a : Addr) (s : State) : (readHere a s).2.cpu.lat = s.cpu.lat := by
  simp only [readHere, (sameStill (still_endCycle _)).lat, cpu_busRead]

theorem tag_readHere {a : Addr} {s : State} (hf : (readHere a s).2.traps.fatal = false) :
    (readHere a s).2.cpu.tag = s.cpu.tag.advance := by
  simp only [readHere, traps_endCycle] at hf ⊢
  rw [tag_endCycle hf, cpu_busRead]

theorem tag_openRead (s : State) : (openRead s).cpu.tag = s.cpu.tag := tag_awaitCpu _ s

theorem lat_readCycle (a : Addr) (s : State) : (readCycle a s).2.cpu.lat = s.cpu.lat := by
  unfold readCycle
  split
  · rfl
  · rw [lat_readHere, (sameStill (still_openRead s)).lat]

theorem fatal_of_readCycle {a : Addr} {s : State} (hf : (readCycle a s).2.traps.fatal = false) :
    s.traps.fatal = false := by
  cases h : s.traps.fatal
  · rfl
  · rw [readCycle_fatal h, h] at hf; cases hf

theorem tag_readCycle_of {a : Addr} {s : State} (hf : (readCycle a s).2.traps.fatal = false) :
    (readCycle a s).2.cpu.tag = s.cpu.tag.advance := by
  have h := fatal_of_readCycle hf
  have e : readCycle a s = readHere a (openRead s) := by simp [readCycle, h]
  rw [e] at hf ⊢
  rw [tag_readHere hf, tag_openRead]

theorem lat_writeCycle (a : Addr) (v : Byte) (s : State) : (writeCycle a v s).cpu.lat = s.cpu.lat := by
  unfold writeCycle
  split
  · rfl
  · rw [(sameStill (still_endCycle _)).lat, cpu_busWrite, (sameStill (still_openWrite s)).lat]

theorem fatal_of_writeCycle {a : Addr} {v : Byte} {s : State} (hf : (writeCycle a v s).traps.fatal = false) :
    s.traps.fatal = false := by
  cases h : s.traps.fatal
  · rfl
  · rw [writeCycle_fatal h, h] at hf; cases hf

theorem tag_openWrite (s : State) : (openWrite s).cpu.tag = s.cpu.tag := by
  unfold openWrite
  split
  · exact tag_awaitCpu _ s
  · exact tag_beginSlot s

theorem tag_writeCycle {a : Addr} {v : Byte} {s : State} (hf : (writeCycle a v s).traps.fatal = false) :
    (writeCycle a v s).cpu.tag = s.cpu.tag.advance := by
  have h := fatal_of_writeCycle hf
  have e : writeCycle a v s = endCycle (busWrite a v (openWrite s)) := by simp [writeCycle, h]
  rw [e] at hf ⊢
  rw [traps_endCycle] at hf
  rw [tag_endCycle hf, cpu_busWrite, tag_openWrite]

theorem fatal_of_perform {f : State → State} {s : State} (hf : (perform f s).traps.fatal = false) :
    s.traps.fatal = false := by
  cases h : s.traps.fatal
  · rfl
  · rw [perform_fatal h, h] at hf; cases hf

/-! ### Segments -/

/-- From place `j`, the board steps from `s` lead to `t`; from a stopped machine they lead nowhere. -/
structure Ends (P : Nat → State → Prop) (j : Nat) (s t : State) : Prop where
  goes : s.traps.fatal = false → P j s → Goes s t
  stuck : s.traps.fatal = true → t = s

/-- The same, and place `k` is reached unless the machine has stopped. -/
structure Seg (P : Nat → State → Prop) (j k : Nat) (s t : State) : Prop extends Ends P j s t where
  place : t.traps.fatal = false → P j s → P k t

variable {P : Nat → State → Prop} {c : Nat → State → BusCycle} {j k l : Nat} {s t u : State}

theorem Seg.refl (P : Nat → State → Prop) (j : Nat) (s : State) : Seg P j j s s :=
  ⟨⟨fun h _ => Goes.refl h, fun _ => rfl⟩, fun _ h => h⟩

theorem Seg.ends (h1 : Seg P j k s t) (h2 : Ends P k t u) : Ends P j s u := by
  refine ⟨fun hf hp => ?_, fun hf => ?_⟩
  · exact (h1.goes hf hp).andThen (fun ht => h2.goes ht (h1.place ht hp)) h2.stuck
  · obtain rfl := h1.stuck hf
    exact h2.stuck hf

theorem Seg.trans (h1 : Seg P j k s t) (h2 : Seg P k l t u) : Seg P j l s u := by
  refine ⟨h1.ends h2.toEnds, fun hf hp => h2.place hf (h1.place ?_ hp)⟩
  cases h : t.traps.fatal
  · rfl
  · rw [h2.stuck h, h] at hf; cases hf

/-! ### One cycle as a segment -/

theorem ends_read (hP : Place P c) {a : Addr} {f : Byte → State → State}
    (hc : s.traps.fatal = false → P j s → c j s = { addr := a, after := f }) :
    Ends P j s (perform (f (readCycle a s).1) (readCycle a s).2) := by
  refine ⟨fun hf hp => goes_read hf (hP.mid hp) ((hP.cycle hp).trans (hc hf hp)), fun hf => ?_⟩
  rw [readCycle_fatal hf, perform_fatal hf]

theorem place_read (hP : Place P c) {a : Addr} {f : State → State} (hk : KeepsPlace f)
    (hf : (perform f (readCycle a s).2).traps.fatal = false) (hp : P j s) :
    P (j + 1) (perform f (readCycle a s).2) := by
  have h := fatal_of_perform hf
  exact hP.advance hp ((hk.perform.tag _).trans (tag_readCycle_of h))
    ((hk.perform.lo _).trans (congrArg Latches.lo (lat_readCycle _ _)))
    ((hk.perform.hi _).trans (congrArg Latches.hi (lat_readCycle _ _)))

theorem seg_read (hP : Place P c) {a : Addr} {f : Byte → State → State} (hk : ∀ v, KeepsPlace (f v))
    (hc : s.traps.fatal = false → P j s → c j s = { addr := a, after := f }) :
    Seg P j (j + 1) s (perform (f (readCycle a s).1) (readCycle a s).2) :=
  ⟨ends_read hP hc, place_read hP (hk _)⟩

theorem perform_id (s : State) : perform (fun t => t) s = s := by unfold perform; split <;> rfl

theorem seg_dummy (hP : Place P c) {a : Addr} (hc : s.traps.fatal = false → P j s → c j s = idleRead a) :
    Seg P j (j + 1) s (dummyRead a s) := by
  have h := seg_read hP (fun _ => keepsPlace_id) hc
  rwa [perform_id] at h

theorem keepsPlace_latchEa (a : Addr) : KeepsPlace (fun t => t.latchEa a) :=
  ⟨fun _ => rfl, fun _ => rfl, fun _ => rfl⟩

theorem seg_readLow (hP : Place P c) {a : Addr}
    (hc : s.traps.fatal = false → P j s → c j s = { addr := a, after := latchLow }) :
    Seg P j (j + 1) s (readLow a s).2 :=
  seg_read hP (fun _ => keepsPlace_latchEa _) hc

/-- A read whose address was latched: the operand of kinds R and M. -/
theorem ends_readEa (hP : Place P c) {a : Addr} {f : Byte → State → State}
    (hc : s.traps.fatal = false → P j s → c j s = { before := fun t => t.latchEa a, addr := a, after := f }) :
    Ends P j s (perform (f (readCycle a (perform (fun t => t.latchEa a) s)).1)
      (readCycle a (perform (fun t => t.latchEa a) s)).2) := by
  refine ⟨fun hf hp => goes_readEa hf (hP.mid hp) ((hP.cycle hp).trans (hc hf hp)), fun hf => ?_⟩
  rw [perform_fatal hf, readCycle_fatal hf, perform_fatal hf]

theorem Place.perform (hP : Place P c) {f : State → State} (hk : KeepsPlace f) (hp : P j s) : P j (perform f s) :=
  hP.keep hp (hk.perform.tag s) (hk.perform.lo s) (hk.perform.hi s)

theorem seg_readEa (hP : Place P c) {a : Addr} {f : Byte → State → State} (hk : ∀ v, KeepsPlace (f v))
    (hc : s.traps.fatal = false → P j s → c j s = { before := fun t => t.latchEa a, addr := a, after := f }) :
    Seg P j (j + 1) s (perform (f (readCycle a (perform (fun t => t.latchEa a) s)).1)
      (readCycle a (perform (fun t => t.latchEa a) s)).2) :=
  ⟨ends_readEa hP hc, fun hf hp => place_read hP (hk _) hf (hP.perform (keepsPlace_latchEa a) hp)⟩

theorem ends_writes (hP : Place P c) {a : Addr} {v : Byte} {f : Byte → State → State}
    (hc : s.traps.fatal = false → P j s → c j s = { addr := a, data := some v, after := f }) :
    Ends P j s (perform (f v) (writeCycle a v s)) := by
  refine ⟨fun hf hp => goes_writes hf (hP.mid hp) ((hP.cycle hp).trans (hc hf hp)), fun hf => ?_⟩
  rw [writeCycle_fatal hf, perform_fatal hf]

theorem ends_writeEa (hP : Place P c) {a : Addr} {v : Byte} {f : Byte → State → State}
    (hc : s.traps.fatal = false → P j s →
      c j s = { before := fun t => t.latchEa a, addr := a, data := some v, after := f }) :
    Ends P j s (perform (f v) (writeCycle a v (perform (fun t => t.latchEa a) s))) := by
  refine ⟨fun hf hp => goes_writeEa hf (hP.mid hp) ((hP.cycle hp).trans (hc hf hp)), fun hf => ?_⟩
  rw [perform_fatal hf, writeCycle_fatal hf, perform_fatal hf]

theorem place_write (hP : Place P c) {a : Addr} {v : Byte} {f : State → State} (hk : KeepsPlace f)
    (hf : (perform f (writeCycle a v s)).traps.fatal = false) (hp : P j s) :
    P (j + 1) (perform f (writeCycle a v s)) := by
  have h := fatal_of_perform hf
  exact hP.advance hp ((hk.perform.tag _).trans (tag_writeCycle h))
    ((hk.perform.lo _).trans (congrArg Latches.lo (lat_writeCycle _ _ _)))
    ((hk.perform.hi _).trans (congrArg Latches.hi (lat_writeCycle _ _ _)))

theorem seg_write (hP : Place P c) {a : Addr} {v : Byte}
    (hc : s.traps.fatal = false → P j s → c j s = { addr := a, data := some v }) :
    Seg P j (j + 1) s (writeCycle a v s) := by
  have h := ends_writes hP hc
  rw [perform_id] at h
  refine ⟨h, fun hf hp => ?_⟩
  have := place_write hP keepsPlace_id (s := s) (a := a) (v := v) (by rwa [perform_id]) hp
  rwa [perform_id] at this

theorem ends_push (hP : Place P c) {v : Byte} {f : State → State}
    (hc : s.traps.fatal = false → P j s → c j s = pushCycle v f s) : Ends P j s (perform f (push v s)) := by
  refine ⟨fun hf hp => goes_push hf (hP.mid hp) ((hP.cycle hp).trans (hc hf hp)), fun hf => ?_⟩
  rw [push_fatal hf, perform_fatal hf]

theorem seg_push (hP : Place P c) {v : Byte}
    (hc : s.traps.fatal = false → P j s → c j s = pushCycle v (fun t => t) s) : Seg P j (j + 1) s (push v s) := by
  have h := ends_push hP hc
  rw [perform_id] at h
  exact ⟨h, place_write hP (f := fun t => t.withS (t.cpu.s - 1)) ⟨fun _ => rfl, fun _ => rfl, fun _ => rfl⟩⟩

theorem ends_pull (hP : Place P c) {f : Byte → State → State}
    (hc : s.traps.fatal = false → P j s → c j s = pullCycle f s) : Ends P j s (perform (f (pull s).1) (pull s).2) := by
  refine ⟨fun hf hp => goes_pull hf (hP.mid hp) ((hP.cycle hp).trans (hc hf hp)), fun hf => ?_⟩
  rw [pull_fatal hf, perform_fatal hf]

theorem seg_pull (hP : Place P c) {f : Byte → State → State} (hk : ∀ v, KeepsPlace (f v))
    (hc : s.traps.fatal = false → P j s → c j s = pullCycle f s) :
    Seg P j (j + 1) s (perform (f (pull s).1) (pull s).2) := by
  refine ⟨ends_pull hP hc, fun hf hp => ?_⟩
  have h := fatal_of_perform hf
  have hs : KeepsPlace (perform (fun s => s.withS (s.cpu.s + 1))) :=
    KeepsPlace.perform ⟨fun _ => rfl, fun _ => rfl, fun _ => rfl⟩
  refine hP.advance hp (((hk _).perform.tag _).trans ((tag_readCycle_of h).trans ?_))
    (((hk _).perform.lo _).trans ((congrArg Latches.lo (lat_readCycle _ _)).trans (hs.lo s)))
    (((hk _).perform.hi _).trans ((congrArg Latches.hi (lat_readCycle _ _)).trans (hs.hi s)))
  rw [hs.tag s]

theorem seg_pullLow (hP : Place P c) (hc : s.traps.fatal = false → P j s → c j s = pullCycle latchLow s) :
    Seg P j (j + 1) s (pullLow s).2 := by
  rw [pullLow_eq]
  exact seg_pull hP (fun _ => keepsPlace_latchEa _) hc

/-! ### Forming an effective address -/

theorem lat_readLow {a : Addr} (hf : (readLow a s).2.traps.fatal = false) :
    (readLow a s).2.cpu.lat.ea = zext (readLow a s).1 := by
  have h := fatal_of_perform hf
  simp only [readLow]
  rw [perform_running h]
  rfl

theorem latchedWord_zext {b : Byte} (h : t.cpu.lat.ea = zext b) (v : Byte) : latchedWord v t = wordOf b v := by
  simp only [latchedWord, h]
  congr 1
  simp [loByte, zext]

/-- What follows the high byte: the word made of the latched low byte and this one. -/
theorem perform_latched {f : Addr → State → State} {b v : Byte} (h : t.traps.fatal = false → t.cpu.lat.ea = zext b) :
    perform (fun u => f (latchedWord v u) u) t = perform (fun u => f (wordOf b v) u) t := by
  cases hf : t.traps.fatal
  · rw [perform_running hf, perform_running hf, latchedWord_zext (h hf)]
  · rw [perform_fatal hf, perform_fatal hf]

/-- The latched low byte is still there after the read of the high byte. -/
theorem ea_readCycle {a : Addr} {b : Byte} (h : s.traps.fatal = false → s.cpu.lat.ea = zext b) :
    (readCycle a s).2.traps.fatal = false → (readCycle a s).2.cpu.lat.ea = zext b := fun hf => by
  rw [lat_readCycle]
  exact h (fatal_of_readCycle hf)

/-- The cycle at the uncorrected address of an indexed mode, or none. -/
theorem seg_indexed (hP : Place P c) {always : Bool} {base : Addr} {i : Byte}
    (hc : s.traps.fatal = false → P j s → ∀ b, indexedFix always base i = some b → c j s = b) :
    ∃ k, Seg P j k s (indexedCycle always base i s).2 ∧
      k = if (always || crossed base i) = true then j + 1 else j := by
  simp only [indexedCycle]
  refine ⟨_, ?_, rfl⟩
  split
  · rename_i h
    exact seg_dummy hP (fun hf hp => hc hf hp _ (by simp [indexedFix, h]))
  · exact Seg.refl P j s

/-- The cycles that form an effective address, run one by one, form the address `resolve` gives. -/
theorem seg_resolve (hP : Place P c) {always : Bool} {m : MemMode}
    (hc : ∀ {j s b}, s.traps.fatal = false → P j s → addressCycle always m j s = some b → c j s = b) (s : State) :
    ∃ k, Seg P 1 k s (resolve always m s).2 ∧ (always = true → k = addressCount m + 1) ∧
      ((resolve always m s).2.traps.fatal = false →
        addressCycle always m k (resolve always m s).2 = none ∧
          formedEa m (resolve always m s).2 = (resolve always m s).1) := by
  have hx : (resolve always m s).2.cpu.x = s.cpu.x := congrArg Regs.x (regs_resolve always m s)
  have hy : (resolve always m s).2.cpu.y = s.cpu.y := congrArg Regs.y (regs_resolve always m s)
  cases m with
  | zp z => exact ⟨1, Seg.refl P 1 s, fun _ => rfl, fun _ => ⟨rfl, rfl⟩⟩
  | abs a => exact ⟨1, Seg.refl P 1 s, fun _ => rfl, fun _ => ⟨rfl, rfl⟩⟩
  | zpX z => exact ⟨2, seg_dummy hP (fun hf hp => hc hf hp rfl), fun _ => rfl, fun _ => ⟨rfl, congrArg (zpIndexed z) hx⟩⟩
  | zpY z => exact ⟨2, seg_dummy hP (fun hf hp => hc hf hp rfl), fun _ => rfl, fun _ => ⟨rfl, congrArg (zpIndexed z) hy⟩⟩
  | absX a =>
    obtain ⟨k, hs, rfl⟩ := seg_indexed (s := s) (j := 1) (base := a) (i := s.cpu.x) hP (fun hf hp b hb => hc hf hp hb)
    refine ⟨_, hs, fun ha => by simp [ha, addressCount], fun _ => ⟨?_, congrArg (fun x => a + zext x) hx⟩⟩
    split
    · rfl
    · rename_i h
      show indexedFix always a _ = none
      rw [hx, indexedFix, if_neg h]
  | absY a =>
    obtain ⟨k, hs, rfl⟩ := seg_indexed (s := s) (j := 1) (base := a) (i := s.cpu.y) hP (fun hf hp b hb => hc hf hp hb)
    refine ⟨_, hs, fun ha => by simp [ha, addressCount], fun _ => ⟨?_, congrArg (fun x => a + zext x) hy⟩⟩
    split
    · rfl
    · rename_i h
      show indexedFix always a _ = none
      rw [hy, indexedFix, if_neg h]
  | indX z =>
    have h1 : Seg P 1 2 s (dummyRead (zext z) s) := seg_dummy hP (fun hf hp => hc hf hp rfl)
    have e1 : (dummyRead (zext z) s).cpu.x = s.cpu.x := congrArg Regs.x (regs_dummyRead _ _)
    have h2 := seg_readLow (s := dummyRead (zext z) s) (j := 2) (a := zpIndexed z s.cpu.x) hP
      (fun hf hp => hc hf hp (by simp only [addressCycle, e1]))
    generalize hl : readLow (zpIndexed z s.cpu.x) (dummyRead (zext z) s) = l at h2
    have e2 : l.2.cpu.x = s.cpu.x := by rw [← hl]; exact (congrArg Regs.x (regs_readLow _ _)).trans e1
    have h3 := seg_read (s := l.2) (j := 3) (a := zext (z + s.cpu.x + 1)) hP
      (f := fun v t => t.latchEa (latchedWord v t)) (fun _ => ⟨fun _ => rfl, fun _ => rfl, fun _ => rfl⟩)
      (fun hf hp => hc hf hp (by simp only [addressCycle, e2]))
    rw [perform_latched (f := fun a t => t.latchEa a) (b := l.1)
      (ea_readCycle (fun hf => by rw [← hl] at hf ⊢; exact lat_readLow hf))] at h3
    have e : resolve always (.indX z) s = (wordOf l.1 (readCycle (zext (z + s.cpu.x + 1)) l.2).1,
        perform (fun t => t.latchEa (wordOf l.1 (readCycle (zext (z + s.cpu.x + 1)) l.2).1))
          (readCycle (zext (z + s.cpu.x + 1)) l.2).2) := by
      simp only [resolve, hl]
    rw [e]
    refine ⟨4, (h1.trans h2).trans h3, fun _ => rfl, fun hf => ⟨rfl, ?_⟩⟩
    simp only [formedEa]
    rw [perform_running (fatal_of_perform hf)]
    rfl
  | indY z =>
    have h1 := seg_readLow (s := s) (j := 1) (a := zext z) hP (fun hf hp => hc hf hp rfl)
    generalize hl : readLow (zext z) s = l at h1
    have h2 := seg_read (s := l.2) (j := 2) (a := zext (z + 1)) hP
      (f := fun v t => t.latchEa (latchedWord v t)) (fun _ => ⟨fun _ => rfl, fun _ => rfl, fun _ => rfl⟩)
      (fun hf hp => hc hf hp rfl)
    rw [perform_latched (f := fun a t => t.latchEa a) (b := l.1)
      (ea_readCycle (fun hf => by rw [← hl] at hf ⊢; exact lat_readLow hf))] at h2
    generalize hb : wordOf l.1 (readCycle (zext (z + 1)) l.2).1 = base at h2
    generalize ht : perform (fun t => t.latchEa base) (readCycle (zext (z + 1)) l.2).2 = t at h2
    have ey : t.cpu.y = s.cpu.y := by
      rw [← ht, ← hl]
      exact congrArg Regs.y ((regs_perform_latchEa _ _).trans ((regs_readCycle _ _).trans (regs_readLow _ _)))
    have ee : t.traps.fatal = false → t.cpu.lat.ea = base := by
      intro hf
      rw [← ht] at hf ⊢
      rw [perform_running (fatal_of_perform hf)]
      rfl
    have e : resolve always (.indY z) s = indexedCycle always base s.cpu.y t := by
      simp only [resolve, hl, hb, ht]
    obtain ⟨k, hs, rfl⟩ := seg_indexed (s := t) (j := 3) (base := base) (i := s.cpu.y) hP
      (fun hf hp b hb => hc hf hp (by simp only [addressCycle, ee hf, ey]; exact hb))
    rw [e] at hy ⊢
    have ee' : (indexedCycle always base s.cpu.y t).2.traps.fatal = false →
        (indexedCycle always base s.cpu.y t).2.cpu.lat.ea = base := by
      simp only [indexedCycle]
      split
      · exact fun hf => by
          rw [dummyRead_eq] at hf ⊢
          rw [lat_readCycle]; exact ee (fatal_of_readCycle hf)
      · exact ee
    refine ⟨_, (h1.trans h2).trans hs, fun ha => by simp [ha, addressCount], fun hf => ⟨?_, ?_⟩⟩
    · split
      · rfl
      · rename_i h
        show indexedFix always _ _ = none
        rw [ee' hf, hy, indexedFix, if_neg h]
    · simp only [formedEa]
      rw [ee' hf, hy]
      rfl

/-! ### The cycles of an instruction after its fetch -/

/-- At the `j`-th cycle after the fetch. -/
def At (i : Instr) (j : Nat) (s : State) : Prop :=
  1 ≤ j ∧ ∃ op rest, s.cpu.tag = .mid op (fetchedBytes i + j) ∧
    decode [op, s.cpu.lat.lo, s.cpu.lat.hi] = some (i, rest)

theorem place_at (i : Instr) : Place (At i) (tailCycle i) where
  mid := fun ⟨_, _, _, ht, _⟩ => by rw [ht]; exact fun h => nomatch h
  cycle := fun {j s} ⟨hj, op, rest, ht, hd⟩ => by
    simp only [cycleAt, ht, opcodeCycle, hd]
    rw [if_neg (by omega), Nat.add_sub_cancel_left]
  advance := fun ⟨_, op, rest, ht, hd⟩ h1 h2 h3 =>
    ⟨Nat.succ_pos _, op, rest, by rw [h1, ht]; rfl, by rw [h2, h3]; exact hd⟩
  keep := fun ⟨hj, op, rest, ht, hd⟩ h1 h2 h3 => ⟨hj, op, rest, by rw [h1, ht], by rw [h2, h3]; exact hd⟩

/-- The operation of an instruction after its last access. -/
theorem perform_complete {f : State → State} (hg : CpuOnly f) (s : State) :
    perform complete (perform f s) = perform (fun t => complete (f t)) s := perform_perform hg s

theorem ends_readKind {i : Instr} {op : ReadOp} {m : MemMode} (hk : i.kind = .read op (.mem m)) (s : State) :
    Ends (At i) 1 s (perform complete (performRead op (readMem m s))) := by
  have hc : tailCycle i = readTail op m := by funext j s; simp only [tailCycle, hk]
  have hP := place_at i
  rw [hc] at hP
  obtain ⟨k, hs, -, hn⟩ := seg_resolve hP (always := false) (m := m)
    (fun _ _ h => by simp only [readTail, h, Option.getD_some]) s
  have h := hs.ends (ends_readEa hP (a := readEa m s) (f := fun v t => complete (performRead op (v, t)))
    (fun hf _ => by simp only [readTail, (hn hf).1, (hn hf).2, Option.getD_none]; rfl))
  rw [perform_performRead (f := complete)] at h
  exact h

theorem storedRegister_eq {op : WriteOp} (h : t.regs = s.regs) : storedRegister op t = writeReg op s := by
  cases op
  · exact congrArg Regs.a h
  · exact congrArg Regs.x h
  · exact congrArg Regs.y h

theorem ends_writeKind {i : Instr} {op : WriteOp} {m : MemMode} (hk : i.kind = .write op m) (s : State) :
    Ends (At i) 1 s (perform complete (writeMem m (writeReg op s) s)) := by
  have hc : tailCycle i = writeTail op m := by funext j s; simp only [tailCycle, hk]
  have hP := place_at i
  rw [hc] at hP
  obtain ⟨k, hs, -, hn⟩ := seg_resolve hP (always := true) (m := m)
    (fun _ _ h => by simp only [writeTail, h, Option.getD_some]) s
  exact hs.ends (ends_writeEa hP (a := writeEa m s) (v := writeReg op s) (f := fun _ t => complete t)
    (fun hf _ => by
      simp only [writeTail, (hn hf).1, (hn hf).2, Option.getD_none, storedRegister_eq (regs_resolve true m s)]
      rfl))

/-- Once the address is formed, no cycle forms it. -/
theorem addressCycle_done {m : MemMode} (h : addressCount m < j) : addressCycle true m j s = none := by
  have h3 : ∀ n, 3 < n → n ≠ 1 ∧ n ≠ 2 ∧ n ≠ 3 := fun n h => by omega
  cases m <;> simp only [addressCount] at h <;> unfold addressCycle <;> split <;> simp_all

theorem ends_modifyKind {i : Instr} {op : ModifyOp} {m : MemMode} (hk : i.kind = .modify op m) (s : State) :
    Ends (At i) 1 s (perform complete (modifyMem (modifyFun op) m s)) := by
  have hc : tailCycle i = modifyTail op m := by funext j s; simp only [tailCycle, hk]
  have hP := place_at i
  rw [hc] at hP
  obtain ⟨k, hs, hcount, hn⟩ := seg_resolve hP (always := true) (m := m)
    (fun _ _ h => by simp only [modifyTail, h, Option.getD_some]) s
  obtain rfl := hcount rfl
  have h1 := seg_readEa hP (s := (resolve true m s).2) (j := addressCount m + 1) (a := writeEa m s)
    (f := fun v t => t.latchOperand v) (fun _ => ⟨fun _ => rfl, fun _ => rfl, fun _ => rfl⟩)
    (fun hf _ => by simp only [modifyTail, (hn hf).1, (hn hf).2, Option.getD_none, if_true]; rfl)
  generalize hr : readCycle (writeEa m s) (perform (fun t => t.latchEa (writeEa m s)) (resolve true m s).2) = r at h1
  generalize ht : perform (fun t => t.latchOperand r.1) r.2 = t at h1
  have hlat : t.traps.fatal = false → t.cpu.lat.ea = writeEa m s ∧ t.cpu.lat.operand = r.1 := by
    intro hf
    have h2 : r.2.traps.fatal = false := by rw [← ht] at hf; exact fatal_of_perform hf
    rw [← ht, perform_running h2]
    refine ⟨?_, rfl⟩
    show r.2.cpu.lat.ea = _
    rw [← hr] at h2 ⊢
    rw [lat_readCycle, perform_running (fatal_of_perform (fatal_of_readCycle h2))]
    rfl
  have h2 := seg_write hP (s := t) (j := addressCount m + 2) (a := writeEa m s) (v := r.1)
    (fun hf _ => by
      obtain ⟨e1, e2⟩ := hlat hf
      simp only [modifyTail, addressCycle_done (show addressCount m < addressCount m + 2 by omega), Option.getD_none,
        e1, e2]
      rw [if_neg (by omega), if_pos trivial])
  generalize hu : writeCycle (writeEa m s) r.1 t = u at h2
  have hlat' : u.traps.fatal = false → u.cpu.lat.ea = writeEa m s ∧ u.cpu.lat.operand = r.1 := by
    intro hf
    rw [← hu] at hf ⊢
    rw [lat_writeCycle]
    exact hlat (fatal_of_writeCycle hf)
  have h3 := ends_writes hP (s := u) (j := addressCount m + 3) (a := writeEa m s) (v := (modifyFun op r.1 u.cpu.p).1)
    (f := fun _ t => complete (t.withP (modifyFun op r.1 u.cpu.p).2))
    (fun hf _ => by
      obtain ⟨e1, e2⟩ := hlat' hf
      simp only [modifyTail, addressCycle_done (show addressCount m < addressCount m + 3 by omega), Option.getD_none,
        e1, e2]
      rw [if_neg (by omega), if_neg (by omega)])
  have h := ((hs.trans h1).trans h2).ends h3
  have e : perform complete (modifyMem (modifyFun op) m s) =
      perform (fun t => complete (t.withP (modifyFun op r.1 u.cpu.p).2))
        (writeCycle (writeEa m s) (modifyFun op r.1 u.cpu.p).1 u) := by
    simp only [modifyMem, writeBase, hr, ht, hu]
    exact perform_complete ⟨fun _ => ⟨_, rfl⟩⟩ _
  rw [e]
  exact h

theorem ends_accumulatorKind {i : Instr} {op : ModifyOp} (hk : i.kind = .accumulator op) (s : State) :
    Ends (At i) 1 s (perform complete (modifyAcc (modifyFun op) s)) := by
  have h := ends_read (place_at i) (s := s) (j := 1) (a := s.cpu.pc)
    (f := fun _ t => complete ((t.withA (modifyFun op t.cpu.a t.cpu.p).1).withP (modifyFun op t.cpu.a t.cpu.p).2))
    (fun _ _ => by simp only [tailCycle, hk])
  have e : perform complete (modifyAcc (modifyFun op) s) = perform
      (fun t => complete ((t.withA (modifyFun op t.cpu.a t.cpu.p).1).withP (modifyFun op t.cpu.a t.cpu.p).2))
        (readCycle s.cpu.pc s).2 :=
    perform_complete (f := fun t => (t.withA (modifyFun op t.cpu.a t.cpu.p).1).withP (modifyFun op t.cpu.a t.cpu.p).2)
      ⟨fun _ => ⟨_, rfl⟩⟩ _
  rw [e]
  exact h

theorem ends_impliedKind {i : Instr} {op : ImpliedOp} (hk : i.kind = .implied op) (s : State) :
    Ends (At i) 1 s (perform complete (implied (impliedFun op) s)) := by
  have h := ends_read (place_at i) (s := s) (j := 1) (a := s.cpu.pc) (f := fun _ t => complete (impliedFun op t))
    (fun _ _ => by simp only [tailCycle, hk])
  have e : perform complete (implied (impliedFun op) s) =
      perform (fun t => complete (impliedFun op t)) (readCycle s.cpu.pc s).2 :=
    perform_complete (by cases op <;> exact ⟨fun _ => ⟨_, rfl⟩⟩) _
  rw [e]
  exact h

theorem ends_stackKind {i : Instr} {op : StackOp} (hk : i.kind = .stack op) (s : State) :
    Ends (At i) 1 s (perform complete (stackRun op s)) := by
  have hc : tailCycle i = stackTail op := by funext j s; simp only [tailCycle, hk]
  have hP := place_at i
  rw [hc] at hP
  have h1 : Seg (At i) 1 2 s (dummyFetch s) := seg_dummy hP (fun _ _ => by simp only [stackTail])
  have hr := regs_dummyFetch s
  cases op with
  | pha =>
    exact h1.ends (ends_push hP (fun _ _ => by simp only [stackTail]; exact congrArg (fun v => pushCycle v _ _) (congrArg Regs.a hr)))
  | php =>
    exact h1.ends (ends_push hP (fun _ _ => by
      simp only [stackTail]; exact congrArg (fun p => pushCycle (packP true p) _ _) (congrArg Regs.p hr)))
  | pla =>
    have h2 : Seg (At i) 2 3 _ (dummyStack (dummyFetch s)) := seg_dummy hP (fun _ _ => by simp only [stackTail])
    have h3 := ends_pull hP (s := dummyStack (dummyFetch s)) (j := 3) (f := fun v t => complete (performPla (v, t)))
      (fun _ _ => by simp only [stackTail])
    rw [show perform (fun t => complete (performPla ((pull (dummyStack (dummyFetch s))).1, t))) _ = _ from
      perform_performRead (op := .lda) _] at h3
    exact (h1.trans h2).ends h3
  | plp =>
    have h2 : Seg (At i) 2 3 _ (dummyStack (dummyFetch s)) := seg_dummy hP (fun _ _ => by simp only [stackTail])
    have h3 := ends_pull hP (s := dummyStack (dummyFetch s)) (j := 3) (f := fun v t => complete (performPlp (v, t)))
      (fun _ _ => by simp only [stackTail])
    have e : ∀ v (t : State), perform (fun t => complete (performPlp (v, t))) t = perform complete (performPlp (v, t)) := by
      intro v t
      cases hf : t.traps.fatal
      · simp only [performPlp, perform_running hf]
        exact (perform_running (f := complete) (s := t.withP (unpackP v)) hf).symm
      · simp only [performPlp, perform_fatal hf]
    rw [e] at h3
    exact (h1.trans h2).ends h3

theorem ends_branchKind {i : Instr} {op : BranchOp} {off : Byte} (hk : i.kind = .branch op off) (s : State) :
    Ends (At i) 1 (perform (fun t => t.latchOffset off) s) (perform complete (branch true off s)) := by
  have hP := place_at i
  rw [show tailCycle i = branchTail off by funext j s; simp only [tailCycle, hk]] at hP
  simp only [branch, if_true]
  generalize perform (fun t => t.latchOffset off) s = u
  have hw : ∀ t, perform complete (perform (fun s => s.withPc (u.cpu.pc + sext off)) t) =
      perform (fun t => complete (t.withPc (u.cpu.pc + sext off))) t := perform_complete ⟨fun _ => ⟨_, rfl⟩⟩
  split
  · rename_i h
    rw [hw]
    exact ends_read hP (f := fun _ t => complete (t.withPc (u.cpu.pc + sext off)))
      (fun _ _ => by simp only [branchTail, if_true, h])
  · rename_i h
    rw [hw]
    have h1 : Seg (At i) 1 2 u (dummyFetch u) := seg_dummy hP (fun _ _ => by simp only [branchTail, if_true, h, if_false]; rfl)
    refine h1.ends (ends_read hP (f := fun _ t => complete (t.withPc (u.cpu.pc + sext off))) (fun _ _ => ?_))
    have hpc : (dummyFetch u).cpu.pc = u.cpu.pc := congrArg Regs.pc (regs_dummyFetch u)
    simp only [branchTail, hpc]
    rw [if_neg (by omega)]

/-! ### Exceptions, jumps and returns -/

theorem complete_withPc (a : Addr) (s : State) :
    perform complete (perform (fun t => t.withPc a) s) = perform (fun t => complete (t.withPc a)) s :=
  perform_complete ⟨fun _ => ⟨_, rfl⟩⟩ s

/-- A push leaves PC, of a stopped machine too. -/
theorem pc_afterPush (v : Byte) (s : State) : (push v s).cpu.pc = s.cpu.pc := by
  have h : (writeCycle (stackAddr s) v s).cpu.pc = s.cpu.pc := congrArg Regs.pc (regs_writeCycle _ _ s)
  rw [← h]
  simp only [push]
  unfold perform; split <;> rfl

theorem lat_push (v : Byte) (s : State) : (push v s).cpu.lat = s.cpu.lat := by
  rw [← lat_writeCycle (stackAddr s) v s]
  simp only [push]
  unfold perform; split <;> rfl

theorem keepsPlace_vector (nmi : Bool) (v : Byte) : KeepsPlace (fun t =>
    let t := (latchLow v t).withP { t.cpu.p with i := true }
    if nmi then t.withNmi false else t) := by
  cases nmi <;> exact ⟨fun _ => rfl, fun _ => rfl, fun _ => rfl⟩

/-- The last five cycles of BRK and of an interrupt entry. -/
theorem ends_vector (hP : Place P c) {b nmi : Bool} {vec : Addr} {j0 : Nat}
    (hc : ∀ {j s}, P (j0 + j) s → 1 ≤ j → c (j0 + j) s = vectorTail b vec nmi j s) (s : State) :
    Ends P (j0 + 1) s (perform complete (enterVector b vec nmi s)) := by
  have h1 : Seg P (j0 + 1) (j0 + 2) s (push (hiByte s.cpu.pc) s) :=
    seg_push hP (fun _ hp => by rw [hc hp (by omega)]; rfl)
  simp only [enterVector]
  generalize push (hiByte s.cpu.pc) s = s1 at h1
  have h2 : Seg P (j0 + 2) (j0 + 3) s1 (push (loByte s1.cpu.pc) s1) :=
    seg_push hP (fun _ hp => by rw [hc hp (by omega)]; rfl)
  generalize push (loByte s1.cpu.pc) s1 = s2 at h2
  have h3 : Seg P (j0 + 3) (j0 + 4) s2 (push (packP b s2.cpu.p) s2) :=
    seg_push hP (fun _ hp => by rw [hc hp (by omega)]; rfl)
  generalize push (packP b s2.cpu.p) s2 = s3 at h3
  have h4 := seg_read hP (s := s3) (j := j0 + 4) (a := vec)
    (f := fun v t =>
      let t := (latchLow v t).withP { t.cpu.p with i := true }
      if nmi then t.withNmi false else t) (keepsPlace_vector nmi) (fun _ hp => by rw [hc hp (by omega)]; rfl)
  have e4 : perform (fun s => if nmi then s.withNmi false else s)
      (perform (fun s => s.withP { s.cpu.p with i := true }) (readLow vec s3).2) =
      perform (fun t =>
        let t := (latchLow (readCycle vec s3).1 t).withP { t.cpu.p with i := true }
        if nmi then t.withNmi false else t) (readCycle vec s3).2 := by
    simp only [readLow]
    rw [perform_perform (g := fun s => s.withP { s.cpu.p with i := true }) ⟨fun _ => ⟨_, rfl⟩⟩,
      perform_perform (g := fun t => t.latchEa (zext (readCycle vec s3).1)) ⟨fun _ => ⟨_, rfl⟩⟩]
    rfl
  rw [show (readLow vec s3).1 = (readCycle vec s3).1 from rfl, e4]
  have ea : (perform (fun t =>
        let t := (latchLow (readCycle vec s3).1 t).withP { t.cpu.p with i := true }
        if nmi then t.withNmi false else t) (readCycle vec s3).2).traps.fatal = false →
      (perform (fun t =>
        let t := (latchLow (readCycle vec s3).1 t).withP { t.cpu.p with i := true }
        if nmi then t.withNmi false else t) (readCycle vec s3).2).cpu.lat.ea = zext (readCycle vec s3).1 := by
    intro hf
    rw [perform_running (fatal_of_perform hf)]
    cases nmi <;> rfl
  generalize perform (fun t =>
        let t := (latchLow (readCycle vec s3).1 t).withP { t.cpu.p with i := true }
        if nmi then t.withNmi false else t) (readCycle vec s3).2 = s4 at h4 ea
  have h5 := ends_read hP (s := s4) (j := j0 + 5) (a := vec + 1)
    (f := fun v t => complete (t.withPc (latchedWord v t))) (fun _ hp => by rw [hc hp (by omega)]; rfl)
  rw [perform_latched (f := fun a t => complete (t.withPc a)) (ea_readCycle ea)] at h5
  rw [complete_withPc]
  exact (((h1.trans h2).trans h3).trans h4).ends h5

theorem lat_pull (s : State) : (pull s).2.cpu.lat = s.cpu.lat := by
  simp only [pull, lat_readCycle]
  unfold perform; split <;> rfl

theorem ea_pull {b : Byte} (h : s.traps.fatal = false → s.cpu.lat.ea = zext b) :
    (pull s).2.traps.fatal = false → (pull s).2.cpu.lat.ea = zext b := fun hf => by
  rw [lat_pull]
  exact h (fatal_of_perform (fatal_of_readCycle hf))

theorem lat_pullLow (hf : (pullLow s).2.traps.fatal = false) : (pullLow s).2.cpu.lat.ea = zext (pullLow s).1 :=
  lat_readLow hf

theorem ends_brk (s : State) :
    Ends (At .brk) 1 s (perform complete (enterVector true vectorIrq false (perform State.incPc (dummyFetch s)))) := by
  have hP := place_at .brk
  have h1 := seg_read hP (s := s) (j := 1) (a := s.cpu.pc) (f := fun _ t => t.incPc)
    (fun _ => ⟨fun _ => rfl, fun _ => rfl, fun _ => rfl⟩) (fun _ _ => rfl)
  refine h1.ends (ends_vector hP (j0 := 1) (fun {j s} _ hj => ?_) _)
  show breakTail (1 + j) s = _
  simp only [breakTail]
  rw [if_neg (by omega), Nat.add_sub_cancel_left]

theorem ends_jmpInd (addr : Addr) (s : State) : Ends (At (.jmpInd addr)) 1 s (perform complete (jumpIndirect addr s)) := by
  have hP := place_at (.jmpInd addr)
  have h1 := seg_readLow hP (s := s) (j := 1) (a := addr) (fun _ _ => rfl)
  have h2 := ends_read hP (s := (readLow addr s).2) (j := 2) (a := wordOf (loByte addr + 1) (hiByte addr))
    (f := fun v t => complete (t.withPc (latchedWord v t))) (fun _ _ => rfl)
  rw [perform_latched (f := fun a t => complete (t.withPc a)) (ea_readCycle lat_readLow)] at h2
  simp only [jumpIndirect]
  rw [complete_withPc]
  exact h1.ends h2

theorem ends_rts (s : State) : Ends (At .rts) 1 s (perform complete (returnSubroutine s)) := by
  have hP := place_at .rts
  have h1 : Seg (At .rts) 1 2 s (dummyFetch s) := seg_dummy hP (fun _ _ => rfl)
  have h2 : Seg (At .rts) 2 3 _ (dummyStack (dummyFetch s)) := seg_dummy hP (fun _ _ => rfl)
  simp only [returnSubroutine]
  generalize dummyStack (dummyFetch s) = s2 at h2
  have h3 := seg_pullLow hP (s := s2) (j := 3) (fun _ _ => rfl)
  have h4 := seg_pull hP (s := (pullLow s2).2) (j := 4) (f := fun v t => t.withPc (latchedWord v t))
    (fun _ => ⟨fun _ => rfl, fun _ => rfl, fun _ => rfl⟩) (fun _ _ => rfl)
  rw [perform_latched (f := fun a t => t.withPc a) (ea_pull lat_pullLow)] at h4
  have h5 := fun t => ends_read hP (s := t) (j := 5) (a := t.cpu.pc) (f := fun _ t => complete t.incPc) (fun _ _ => rfl)
  rw [perform_complete (f := State.incPc) ⟨fun _ => ⟨_, rfl⟩⟩]
  exact (((h1.trans h2).trans h3).trans h4).ends (h5 _)

theorem ends_rti (s : State) : Ends (At .rti) 1 s (perform complete (returnInterrupt s)) := by
  have hP := place_at .rti
  have h1 : Seg (At .rti) 1 2 s (dummyFetch s) := seg_dummy hP (fun _ _ => rfl)
  have h2 : Seg (At .rti) 2 3 _ (dummyStack (dummyFetch s)) := seg_dummy hP (fun _ _ => rfl)
  simp only [returnInterrupt]
  generalize dummyStack (dummyFetch s) = s2 at h2
  have h3 := seg_pull hP (s := s2) (j := 3) (f := fun v t => t.withP (unpackP v))
    (fun _ => ⟨fun _ => rfl, fun _ => rfl, fun _ => rfl⟩) (fun _ _ => rfl)
  generalize perform (fun t => t.withP (unpackP (pull s2).1)) (pull s2).2 = s3 at h3
  have h4 := seg_pullLow hP (s := s3) (j := 4) (fun _ _ => rfl)
  have h5 := ends_pull hP (s := (pullLow s3).2) (j := 5) (f := fun v t => complete (t.withPc (latchedWord v t)))
    (fun _ _ => rfl)
  rw [perform_latched (f := fun a t => complete (t.withPc a)) (ea_pull lat_pullLow)] at h5
  rw [complete_withPc]
  exact (((h1.trans h2).trans h3).trans h4).ends h5

/-- JSR: the low byte of the target is latched, and the high byte is the one the last cycle reads. -/
theorem ends_jsr (a : Addr) (s : State) : Ends (At (.jsr a)) 1 s
    (perform complete (callSubroutine (wordOf s.cpu.lat.lo (jsrHigh s).1) s)) := by
  have hP := place_at (.jsr a)
  have h1 : Seg (At (.jsr a)) 1 2 s (dummyStack s) := seg_dummy hP (fun _ _ => rfl)
  have p1 : (dummyStack s).cpu.pc = s.cpu.pc := congrArg Regs.pc (regs_dummyStack s)
  have h2 : Seg (At (.jsr a)) 2 3 _ (push (hiByte s.cpu.pc) (dummyStack s)) :=
    seg_push hP (fun _ _ => congrArg (fun p => pushCycle (hiByte p) (fun t => t) (dummyStack s)) p1)
  have p2 : (push (hiByte s.cpu.pc) (dummyStack s)).cpu.pc = s.cpu.pc := by
    rw [pc_afterPush]; exact p1
  have h3 : Seg (At (.jsr a)) 3 4 _ (jsrPushes s) :=
    seg_push hP (fun _ _ => congrArg (fun p => pushCycle (loByte p) (fun t => t) (push (hiByte s.cpu.pc) (dummyStack s))) p2)
  have h4 := ends_read hP (s := jsrPushes s) (j := 4) (a := (jsrPushes s).cpu.pc)
    (f := fun v t => complete ((t.latchHi v).withPc (wordOf t.cpu.lat.lo v))) (fun _ _ => rfl)
  have h := ((h1.trans h2).trans h3).ends h4
  have hl : (jsrHigh s).2.cpu.lat.lo = s.cpu.lat.lo := by
    rw [jsrHigh, lat_readCycle, jsrPushes, lat_push, lat_push, dummyStack, dummyRead_eq, lat_readCycle]
  have e : perform complete (callSubroutine (wordOf s.cpu.lat.lo (jsrHigh s).1) s) =
      perform (fun t => complete ((t.latchHi (jsrHigh s).1).withPc (wordOf t.cpu.lat.lo (jsrHigh s).1))) (jsrHigh s).2 := by
    simp only [callSubroutine]
    rw [(bytes_wordOf _ _).2, perform_complete (f := fun t =>
      (t.latchHi (jsrHigh s).1).withPc (wordOf s.cpu.lat.lo (jsrHigh s).1)) ⟨fun _ => ⟨_, rfl⟩⟩]
    cases hf : (jsrHigh s).2.traps.fatal
    · rw [perform_running hf, perform_running hf, hl]
    · rw [perform_fatal hf, perform_fatal hf]
  rw [e]
  exact h

/-! ### Whole instructions -/

/-- The last fetch cycle of an instruction has ended at `s`: either the instruction is complete with it, or board steps
lead on from there to the end of its meaning. A stopped machine stays as it is. -/
structure Whole (i : Instr) (s y : State) : Prop where
  exec : exec i s = outOf y
  stuck : s.traps.fatal = true → y = s
  run : s.traps.fatal = false → settle i s = y ∨
    ((settle i s).cpu.tag = s.cpu.tag ∧ (settle i s).cpu.lat.lo = s.cpu.lat.lo ∧
      (settle i s).cpu.lat.hi = s.cpu.lat.hi ∧ (settle i s).traps = s.traps ∧ Ends (At i) 1 (settle i s) y)

theorem whole_of_ends {i : Instr} {x : State} (he : exec i s = finish x) (hs : settle i s = s)
    (h : Ends (At i) 1 s (perform complete x)) : Whole i s (perform complete x) :=
  ⟨by rw [he, finish_eq_outOf], h.stuck, fun _ => .inr (by rw [hs]; exact ⟨rfl, rfl, rfl, rfl, h⟩)⟩

theorem whole_read {i : Instr} {op : ReadOp} {o : Operand} (hk : i.kind = .read op o) (s : State) :
    ∃ y, Whole i s y := by
  cases o with
  | imm v =>
    refine ⟨perform complete (performRead op (v, s)), ?_, fun hf => ?_, fun hf => .inl ?_⟩
    · rw [exec_read hk, finish_eq_outOf]; rfl
    · rw [performRead_fatal hf, perform_fatal hf]
    · have h : (performRead op (v, s)).traps.fatal = false := by
        obtain ⟨f, h1, h2⟩ := cpuOnly_performRead op (v, s)
        obtain ⟨c, h3⟩ := h2.perform.eq s
        rw [h1, h3]; exact hf
      rw [perform_running h]
      simp only [settle, hk]
  | mem m =>
    exact ⟨_, whole_of_ends (exec_read hk s) (by simp only [settle, hk]) (ends_readKind hk s)⟩

theorem branch_fatal {taken : Bool} {off : Byte} (h : s.traps.fatal = true) : branch taken off s = s := by
  simp only [branch, perform_fatal h, dummyFetch, dummyRead_fatal h]
  split
  · split <;> rfl
  · rfl

theorem whole_branch {i : Instr} {op : BranchOp} {off : Byte} (hk : i.kind = .branch op off) (s : State) :
    ∃ y, Whole i s y := by
  refine ⟨perform complete (branch (branchTaken op s.cpu.p) off s), ?_, fun hf => ?_, fun hf => ?_⟩
  · rw [exec_branch hk, finish_eq_outOf]
  · rw [branch_fatal hf, perform_fatal hf]
  · have hp : (s.latchOffset off).cpu.p = s.cpu.p := rfl
    have ht : (s.latchOffset off).traps.fatal = false := hf
    have hs : settle i s = if branchTaken op s.cpu.p then s.latchOffset off else complete (s.latchOffset off) := by
      simp only [settle, hk, hp]
    rw [hs]
    cases hb : branchTaken op s.cpu.p
    · refine .inl ?_
      simp only [branch, perform_running hf, Bool.false_eq_true, if_false]
      exact (perform_running (f := complete) ht).symm
    · refine .inr ⟨rfl, rfl, rfl, rfl, ?_⟩
      have h := ends_branchKind hk s
      rw [perform_running hf] at h
      exact h

/-- Every instruction but JSR, from the end of its fetch. -/
theorem whole_all {i : Instr} (hj : ∀ a, i ≠ .jsr a) (s : State) : ∃ y, Whole i s y := by
  cases hk : i.kind with
  | read op o => exact whole_read hk s
  | write op m => exact ⟨_, whole_of_ends (exec_write hk s) (by simp only [settle, hk]) (ends_writeKind hk s)⟩
  | modify op m => exact ⟨_, whole_of_ends (exec_modify hk s) (by simp only [settle, hk]) (ends_modifyKind hk s)⟩
  | accumulator op =>
    exact ⟨_, whole_of_ends (exec_accumulator hk s) (by simp only [settle, hk]) (ends_accumulatorKind hk s)⟩
  | implied op => exact ⟨_, whole_of_ends (exec_implied hk s) (by simp only [settle, hk]) (ends_impliedKind hk s)⟩
  | stack op => exact ⟨_, whole_of_ends (exec_stack hk s) (by simp only [settle, hk]) (ends_stackKind hk s)⟩
  | branch op off => exact whole_branch hk s
  | control =>
    rcases control_cases hk with ⟨a, rfl⟩ | ⟨a, rfl⟩ | ⟨a, rfl⟩ | rfl | rfl | rfl
    · refine ⟨perform complete (perform (fun s => s.withPc a) s), finish_eq_outOf _, fun hf => ?_, fun hf => .inl ?_⟩
      · rw [perform_fatal hf, perform_fatal hf]
      · rw [perform_running hf]
        exact (perform_running (f := complete) (s := s.withPc a) hf).symm
    · exact ⟨_, whole_of_ends (x := jumpIndirect a s) rfl rfl (ends_jmpInd a s)⟩
    · exact absurd rfl (hj a)
    · exact ⟨_, whole_of_ends (x := returnSubroutine s) rfl rfl (ends_rts s)⟩
    · exact ⟨_, whole_of_ends (x := enterVector true vectorIrq false (perform State.incPc (dummyFetch s))) rfl rfl
        (ends_brk s)⟩
    · exact ⟨_, whole_of_ends (x := returnInterrupt s) rfl rfl (ends_rti s)⟩

/-! ### The fetch cycles -/

theorem settle_one {i : Instr} (h : i.mode.length = 1) (s : State) : settle i s = s := by
  cases i <;> first | rfl | (simp [Instr.mode, Mode.length] at h)

/-- The cycle that fetches the last byte, and what the instruction does after it. -/
theorem goes_settled {i : Instr} {t r y : State} {g : State → State} (hg : ∀ u, (g u).traps = u.traps)
    (hgoes : Goes t (perform (fun u => settle i (g u)) r)) (hat : r.traps.fatal = false → At i 1 (g r))
    (h : Whole i (perform g r) y) : Goes t y := by
  cases hf : r.traps.fatal
  · rw [perform_running hf] at hgoes h
    have hf' : (g r).traps.fatal = false := by rw [hg]; exact hf
    rcases h.run hf' with h1 | ⟨h1, h2, h3, h4, h5⟩
    · rwa [h1] at hgoes
    · have hf'' : (settle i (g r)).traps.fatal = false := by rw [h4]; exact hf'
      exact hgoes.trans hf'' (h5.goes hf'' ((place_at i).keep (hat hf) h1 h2 h3))
  · rw [perform_fatal hf] at hgoes h
    rwa [h.stuck hf]

theorem fatal_endCycle (s : State) : (endCycle s).traps.fatal = s.traps.fatal := by rw [traps_endCycle]

/-- After cycle 1 of a machine that goes on: the opcode is valid, and the tag names it. -/
theorem fetchOpcode_running (hf : (fetchOpcode s).2.traps.fatal = false) :
    opcodeLength (fetchOpcode s).1 ≠ none ∧ (fetchOpcode s).2.cpu.tag = .mid (fetchOpcode s).1 2 := by
  rw [fetchOpcode_fst]
  have e : (fetchOpcode s).2 = endCycle (if opcodeLength (busRead s.cpu.pc s).1 = none then
      raiseInvalidOpcode (busRead s.cpu.pc s).1 (perform (opcodeDone (busRead s.cpu.pc s).1 s.cpu.pc) (busRead s.cpu.pc s).2)
    else perform (opcodeDone (busRead s.cpu.pc s).1 s.cpu.pc) (busRead s.cpu.pc s).2) := rfl
  rw [e] at hf ⊢
  rw [fatal_endCycle] at hf
  split at hf
  · simp only [raiseInvalidOpcode] at hf
    split at hf
    · rename_i h; rw [h] at hf; cases hf
    · cases hf
  · rename_i h
    have h' := fatal_of_perform hf
    refine ⟨h, ?_⟩
    rw [if_neg h, tag_endCycle hf, perform_running h']
    rfl

theorem decode_one {op : Byte} {i : Instr} (h : opcodeShape op = .one i) (rest : List Byte) :
    decode (op :: rest) = some (i, rest) := by simp only [decode, h]

theorem decode_two {op : Byte} {f : Byte → Instr} (h : opcodeShape op = .two f) (b : Byte) (rest : List Byte) :
    decode (op :: b :: rest) = some (f b, rest) := by simp only [decode, h]

theorem jsr_shape : opcodeShape jsrOpcode = .three .jsr := rfl

/-- The opcode an instruction was decoded from is the first byte of its encoding. -/
theorem encode_head {op lo hi : Byte} {i : Instr} {rest : List Byte} (hd : decode [op, lo, hi] = some (i, rest)) :
    (encode i).head? = some op := by
  have he := encode_of_shape op
  cases hs : opcodeShape op <;> rw [hs] at he <;> simp only [decode, hs, Option.some.injEq, Prod.mk.injEq, reduceCtorEq] at hd
  · rw [← hd.1, he]; rfl
  · rw [← hd.1, he]; rfl
  · rw [← hd.1, he]; rfl

/-- No opcode but its own is JSR's. -/
theorem ne_jsr {op lo hi : Byte} (h : op ≠ jsrOpcode) {i : Instr} {rest : List Byte}
    (hd : decode [op, lo, hi] = some (i, rest)) (a : Addr) : i ≠ .jsr a := by
  rintro rfl
  exact h (Option.some.inj (encode_head hd)).symm

/-- The cycle that fetches the low operand byte. -/
theorem goes_fetchLo {t : State} {op : Byte} {i : Instr} {rest : List Byte} (hf : t.traps.fatal = false)
    (ht : t.cpu.tag = .mid op 2) (hd : decode [op, t.cpu.lat.lo, t.cpu.lat.hi] = some (i, rest)) (h2 : 2 ≤ fetchedBytes i) :
    Goes t (perform (fun u =>
      let u := (u.latchLo (readCycle t.cpu.pc t).1).incPc
      if fetchedBytes i = 2 then settleBytes op (readCycle t.cpu.pc t).1 u.cpu.lat.hi u else u)
        (readCycle t.cpu.pc t).2) := by
  refine goes_read hf (by rw [ht]; exact fun h => nomatch h) (f := fun v u =>
    let u := (u.latchLo v).incPc
    if fetchedBytes i = 2 then settleBytes op v u.cpu.lat.hi u else u) ?_
  simp only [cycleAt, ht, opcodeCycle, hd]
  rw [if_pos h2, if_pos trivial]

/-- The cycle that fetches the high operand byte. -/
theorem goes_fetchHi {t : State} {op : Byte} {i : Instr} {rest : List Byte} (hf : t.traps.fatal = false)
    (ht : t.cpu.tag = .mid op 3) (hd : decode [op, t.cpu.lat.lo, t.cpu.lat.hi] = some (i, rest)) (h3 : 3 ≤ fetchedBytes i) :
    Goes t (perform (fun u => settleBytes op u.cpu.lat.lo (readCycle t.cpu.pc t).1
      (u.latchHi (readCycle t.cpu.pc t).1).incPc) (readCycle t.cpu.pc t).2) := by
  refine goes_read hf (by rw [ht]; exact fun h => nomatch h) (f := fun v u =>
    settleBytes op u.cpu.lat.lo v (u.latchHi v).incPc) ?_
  simp only [cycleAt, ht, opcodeCycle, hd]
  rw [if_pos h3, if_neg (by decide)]

/-- What the bytes fetched from the open slot of a boundary mean, and where their instruction leads. -/
theorem goes_instr {t : State} {op : Byte} (hf : t.traps.fatal = false) (ht : t.cpu.tag = .mid op 2)
    (hv : opcodeLength op ≠ none) :
    (∃ i rest y, opcodeLength op = some 1 ∧ decode [op] = some (i, rest) ∧ exec i t = outOf y ∧ Goes t y) ∨
    (∃ i rest y, opcodeLength op = some 2 ∧ decode [op, (fetchLo t).1] = some (i, rest) ∧
      exec i (fetchLo t).2 = outOf y ∧ Goes t y) ∨
    (∃ i rest y, opcodeLength op = some 3 ∧ op = jsrOpcode ∧
      decode [op, (fetchLo t).1, (jsrHigh (fetchLo t).2).1] = some (i, rest) ∧
      exec i (fetchLo t).2 = outOf y ∧ Goes t y) ∨
    (∃ i rest y, opcodeLength op = some 3 ∧ op ≠ jsrOpcode ∧
      decode [op, (fetchLo t).1, (fetchHi (fetchLo t).2).1] = some (i, rest) ∧
      exec i (fetchHi (fetchLo t).2).2 = outOf y ∧ Goes t y) := by
  have hlen := opcodeShape_lengths op
  cases hs : opcodeShape op with
  | invalid => exact absurd (by simp only [opcodeLength, hs]) hv
  | one i =>
    rw [hs] at hlen
    have hat : At i 1 t := ⟨Nat.le_refl 1, op, _, by rw [ht, hlen.1], decode_one hs _⟩
    have hne : ∀ a, i ≠ .jsr a := by rintro a rfl; exact absurd hlen.2 (by simp [Instr.mode, Mode.length])
    obtain ⟨y, hw⟩ := whole_all hne t
    have hset := settle_one hlen.2 t
    refine .inl ⟨i, [], y, by simp only [opcodeLength, hs], decode_one hs _, hw.exec, ?_⟩
    rcases hw.run hf with h1 | ⟨-, -, -, -, h5⟩
    · rw [← h1, hset]; exact Goes.refl hf
    · rw [hset] at h5; exact h5.goes hf hat
  | two f =>
    rw [hs] at hlen
    have hgo := goes_fetchLo hf ht (decode_two hs _ _) (by rw [(hlen _).1])
    simp only [(hlen _).1, if_true] at hgo
    have hv : ∀ v hi u, settleBytes op v hi u = settle (f v) u := fun v hi u => by
      simp only [settleBytes, decode_two hs]
    simp only [hv] at hgo
    have hne : ∀ v a, f v ≠ .jsr a := fun v a h => by
      have := (hlen v).2
      rw [h] at this
      exact absurd this (by simp [Instr.mode, Mode.length])
    obtain ⟨y, hw⟩ := whole_all (hne (fetchLo t).1) (fetchLo t).2
    refine .inr (.inl ⟨_, [], y, by simp only [opcodeLength, hs], decode_two hs _ _, hw.exec, ?_⟩)
    refine goes_settled (g := fun u => (u.latchLo (readCycle t.cpu.pc t).1).incPc) (fun _ => rfl) hgo (fun hr => ?_) hw
    exact ⟨Nat.le_refl 1, op, _, by
      show (readCycle t.cpu.pc t).2.cpu.tag = _
      rw [tag_readCycle_of hr, ht, (hlen _).1]; rfl, decode_two hs _ _⟩
  | three f =>
    rw [hs] at hlen
    have hgo := goes_fetchLo hf ht (decode_three hs _ _ _) (by rw [(hlen _).1]; split <;> decide)
    have hv : ∀ lo hi u, settleBytes op lo hi u = settle (f (wordOf lo hi)) u := fun lo hi u => by
      simp only [settleBytes, decode_three hs]
    have hu : (fetchLo t).2 = perform (fun u => (u.latchLo (readCycle t.cpu.pc t).1).incPc) (readCycle t.cpu.pc t).2 := rfl
    have htag : (fetchLo t).2.traps.fatal = false →
        (fetchLo t).2.cpu.tag = .mid op 3 ∧ (fetchLo t).2.cpu.lat.lo = (fetchLo t).1 := by
      intro hfu
      rw [hu] at hfu ⊢
      have hr := fatal_of_perform hfu
      rw [perform_running hr]
      exact ⟨(tag_readCycle_of hr).trans (by rw [ht]; rfl), rfl⟩
    by_cases hj : op = jsrOpcode
    · have hfj : f = .jsr := by
        rw [hj] at hs
        exact Shape.three.inj (hs.symm.trans jsr_shape)
      subst hfj
      have hl : ∀ a, fetchedBytes (.jsr a) = 2 := fun _ => rfl
      have hst : ∀ a u, settle (.jsr a) u = u := fun _ _ => rfl
      simp only [hl, if_true, hv, hst] at hgo
      rw [← hu] at hgo
      generalize (fetchLo t).1 = v at htag
      generalize (fetchLo t).2 = u at hgo htag
      refine .inr (.inr (.inl ⟨_, [], perform complete (callSubroutine (wordOf v (jsrHigh u).1) u), by
        simp only [opcodeLength, hs], hj, decode_three hs _ _ _, finish_eq_outOf _, ?_⟩))
      refine hgo.andThen (fun hfu => ?_) (fun hfu => ?_)
      · obtain ⟨h1, h2⟩ := htag hfu
        have h := ends_jsr (wordOf v u.cpu.lat.hi) u
        rw [h2] at h
        exact h.goes hfu ⟨Nat.le_refl 1, op, _, h1, by rw [h2]; exact decode_three hs _ _ _⟩
      · have hp : ∀ b, push b u = u := fun _ => push_fatal hfu
        have e : (jsrHigh u).2 = u := by
          simp only [jsrHigh, jsrPushes, dummyStack, dummyRead_fatal hfu, hp, readCycle_fatal hfu]
        simp only [callSubroutine, e, perform_fatal hfu]
    · have hl : ∀ a, fetchedBytes (f a) = 3 := fun a => by rw [(hlen a).1, if_neg hj]
      simp only [hl, show ¬ (3 = 2) by decide, if_false] at hgo
      rw [← hu] at hgo
      have hne : ∀ lo hi a, f (wordOf lo hi) ≠ .jsr a := fun lo hi a => ne_jsr hj (decode_three hs lo hi []) a
      generalize (fetchLo t).1 = v at htag
      generalize (fetchLo t).2 = u at hgo htag
      obtain ⟨y, hw⟩ := whole_all (hne v (fetchHi u).1) (fetchHi u).2
      refine .inr (.inr (.inr ⟨_, [], y, by simp only [opcodeLength, hs], hj, decode_three hs _ _ _, hw.exec, ?_⟩))
      refine hgo.andThen (fun hfu => ?_) (fun hfu => ?_)
      · obtain ⟨h1, h2⟩ := htag hfu
        have hgo := goes_fetchHi hfu h1 (decode_three hs _ _ _) (by rw [hl])
        refine goes_settled (i := f (wordOf v (readCycle u.cpu.pc u).1))
          (g := fun w => (w.latchHi (readCycle u.cpu.pc u).1).incPc) (fun _ => rfl) ?_ (fun hr => ?_) hw
        · have e : ∀ r : State, r.cpu.lat.lo = v →
              perform (fun w => settleBytes op w.cpu.lat.lo (readCycle u.cpu.pc u).1
                (w.latchHi (readCycle u.cpu.pc u).1).incPc) r =
              perform (fun w => settle (f (wordOf v (readCycle u.cpu.pc u).1))
                (w.latchHi (readCycle u.cpu.pc u).1).incPc) r := fun r hr => by
            simp only [perform, hv, hr]
          rwa [e _ ((congrArg Latches.lo (lat_readCycle _ _)).trans h2)] at hgo
        · refine ⟨Nat.le_refl 1, op, [], ?_, ?_⟩
          · show (readCycle u.cpu.pc u).2.cpu.tag = _
            rw [tag_readCycle_of hr, h1, hl]; rfl
          · show decode [op, (readCycle u.cpu.pc u).2.cpu.lat.lo, _] = _
            rw [lat_readCycle, h2]
            exact decode_three hs _ _ _
      · have e : (fetchHi u).2 = u := by simp only [fetchHi, readCycle_fatal hfu, perform_fatal hfu]
        rw [e] at hw
        exact hw.stuck hfu

/-- An instruction answers a next state or a stop, never a refusal. -/
theorem exec_outOf (i : Instr) (s : State) : ∃ y, exec i s = outOf y := by
  by_cases hj : ∃ a, i = .jsr a
  · obtain ⟨a, rfl⟩ := hj
    exact ⟨_, finish_eq_outOf (callSubroutine a s)⟩
  · obtain ⟨y, hw⟩ := whole_all (fun a ha => hj ⟨a, ha⟩) s
    exact ⟨y, hw.exec⟩

/-- A stopped machine runs no instruction. -/
theorem exec_fatal (i : Instr) (h : s.traps.fatal = true) : exec i s = outOf s := by
  by_cases hj : ∃ a, i = .jsr a
  · obtain ⟨a, rfl⟩ := hj
    have hp : ∀ b, push b s = s := fun _ => push_fatal h
    have e : (jsrHigh s).2 = s := by
      simp only [jsrHigh, jsrPushes, dummyStack, dummyRead_fatal h, hp, readCycle_fatal h]
    refine (finish_eq_outOf (callSubroutine a s)).trans ?_
    simp only [callSubroutine, e, perform_fatal h]
  · obtain ⟨y, hw⟩ := whole_all (fun a ha => hj ⟨a, ha⟩) s
    rw [hw.exec, hw.stuck h]

theorem fetchLo_fatal (h : s.traps.fatal = true) : (fetchLo s).2 = s := by
  simp only [fetchLo, readCycle_fatal h, perform_fatal h]

theorem fetchHi_fatal (h : s.traps.fatal = true) : (fetchHi s).2 = s := by
  simp only [fetchHi, readCycle_fatal h, perform_fatal h]

/-! ### Interrupt entries, and the wait at a boundary -/

theorem place_entry (n : Interrupt) : Place (fun k s => s.cpu.tag = .entry n k) (entryCycle n) where
  mid := fun {j s} ht => by
    have ht : s.cpu.tag = .entry n j := ht
    rw [ht]; exact fun h => nomatch h
  cycle := fun {j s} ht => by
    have ht : s.cpu.tag = .entry n j := ht
    simp only [cycleAt, ht]
  advance := fun {j s t} ht h1 _ _ => by
    have ht : s.cpu.tag = .entry n j := ht
    show t.cpu.tag = _
    rw [h1, ht]; rfl
  keep := fun {j s t} ht h1 _ _ => h1.trans ht

/-- An interrupt entry after its cycle 1. -/
theorem ends_entry (n : Interrupt) (b : State) :
    Ends (fun k s => s.cpu.tag = .entry n k) 2 (readHere b.cpu.pc (beginEntry n b)).2
      (perform complete (interruptEntry n b)) := by
  have hP := place_entry n
  have h1 : Seg (fun k s => s.cpu.tag = .entry n k) 2 3 (readHere b.cpu.pc (beginEntry n b)).2
      (dummyFetch (readHere b.cpu.pc (beginEntry n b)).2) := seg_dummy hP (fun _ _ => rfl)
  cases n
  · refine h1.ends (ends_vector hP (j0 := 2) (b := false) (nmi := true) (vec := vectorNmi) (fun {j s} _ hj => ?_) _)
    simp only [entryCycle]
    rw [if_neg (by omega), Nat.add_sub_cancel_left]
  · refine h1.ends (ends_vector hP (j0 := 2) (b := false) (nmi := false) (vec := vectorIrq) (fun {j s} _ hj => ?_) _)
    simp only [entryCycle]
    rw [if_neg (by omega), Nat.add_sub_cancel_left]

/-- Cycle 1 of an interrupt entry. -/
theorem tag_beginEntry (n : Interrupt) (b : State) : (beginEntry n b).cpu.tag = .entry n 1 := by cases n <;> rfl

theorem tag_entryOne {n : Interrupt} {b : State} (hf : (readHere b.cpu.pc (beginEntry n b)).2.traps.fatal = false) :
    (readHere b.cpu.pc (beginEntry n b)).2.cpu.tag = .entry n 2 := by
  rw [tag_readHere hf, tag_beginEntry]; rfl

theorem traps_idleSlots (w : Nat) (s : State) : (idleSlot^[w] s).traps = s.traps := by
  induction w with
  | zero => rfl
  | succ w ih => rw [Function.iterate_succ_apply', traps_idleSlot, ih]

theorem tag_idleSlots (w : Nat) (s : State) : (idleSlot^[w] s).cpu.tag = s.cpu.tag := by
  induction w with
  | zero => rfl
  | succ w ih => rw [Function.iterate_succ_apply', tag_idleSlot, ih]

/-- The CPU's next slot is the first in which it is not halted. -/
theorem awaitCpu_eq (n : Nat) (s : State) : ∃ w, awaitCpu n s = beginSlot (idleSlot^[w] s) ∧
    ∀ m < w, (beginSlot (idleSlot^[m] s)).cpu.halted = true := by
  induction n generalizing s with
  | zero => exact ⟨0, rfl, fun _ h => absurd h (Nat.not_lt_zero _)⟩
  | succ n ih =>
    unfold awaitCpu
    split
    · rename_i h
      obtain ⟨w, hw, hm⟩ := ih (idleSlot s)
      refine ⟨w + 1, hw, fun m hm' => ?_⟩
      cases m with
      | zero => exact h
      | succ m => exact hm m (by omega)
    · exact ⟨0, rfl, fun _ h => absurd h (Nat.not_lt_zero _)⟩

theorem heldByHalt_boundary (ht : s.cpu.tag = .fetch) : heldByHalt s = s.cpu.halted := by
  have h : nextIsWrite s = false := by unfold nextIsWrite; rw [ht]
  simp only [heldByHalt, h]
  cases s.cfg.haltMode <;> simp

/-- Board steps at an instruction boundary while a halt holds the CPU. -/
theorem boardSteps_waiting {s : State} (hf : s.traps.fatal = false) (ht : s.cpu.tag = .fetch) {w : Nat}
    (h : ∀ m < w, (beginSlot (idleSlot^[m] s)).cpu.halted = true) : boardSteps w s = .next (idleSlot^[w] s) := by
  induction w with
  | zero => rfl
  | succ w ih =>
    rw [boardSteps_add (ih (fun m hm => h m (by omega))) 1, boardSteps_one, Function.iterate_succ_apply']
    refine boardStep_held (by rw [traps_idleSlots]; exact hf) ?_
    rw [heldByHalt_boundary (by rw [tag_beginSlot, tag_idleSlots]; exact ht)]
    exact h w (by omega)

/-- The board step in which an interrupt entry or an instruction begins. -/
theorem boardStep_begins {s : State} (hf : s.traps.fatal = false) (ht : s.cpu.tag = .fetch)
    (h : (beginSlot s).cpu.halted = false) : boardStep s = outOf (cpuCycle (beginSlot s)) :=
  boardStep_running hf ((heldByHalt_boundary (by rw [tag_beginSlot]; exact ht)).trans h)

end Sys2Proof.Machine
end

