-- ==== Sys2Proof/Laws/Slots.lean ====
section
/-! SUPPORT. What one board step can do: every cycle of the CPU is one access between two changes of the CPU alone, so
the step keeps what `Kept` keeps, counts itself, and moves the tag. -/

namespace Sys2Proof.Machine

/-- A CPU operation that keeps the tag or ends the instruction, leaves the halt alone, and clears the NMI latch where it
is marked. -/
structure Moves (f : State → State) (clears : Bool := false) : Prop where
  cpu : CpuOnly f
  tag : ∀ s, (f s).cpu.tag = s.cpu.tag ∨ (f s).cpu.tag = .fetch
  halted : ∀ s, (f s).cpu.halted = s.cpu.halted
  nmi : ∀ s, (f s).cpu.nmiLatch = (s.cpu.nmiLatch && !clears)

/-- An operation that leaves the latch and the halt, by the CPU it leaves. -/
theorem moves_of {f : State → State} (h : ∀ s, ∃ d : Cpu, f s = { s with cpu := d } ∧
    (d.tag = s.cpu.tag ∨ d.tag = .fetch) ∧ d.halted = s.cpu.halted ∧ d.nmiLatch = s.cpu.nmiLatch) : Moves f := by
  refine ⟨⟨fun s => ?_⟩, fun s => ?_, fun s => ?_, fun s => ?_⟩ <;> obtain ⟨d, hd, h1, h2, h3⟩ := h s
  · exact ⟨d, hd⟩
  · rw [hd]; exact h1
  · rw [hd]; exact h2
  · rw [hd, Bool.not_false, Bool.and_true]; exact h3

theorem Moves.latch {f : State → State} (h : Moves f) (s : State) : (f s).cpu.nmiLatch = s.cpu.nmiLatch := by
  rw [h.nmi, Bool.not_false, Bool.and_true]

theorem Moves.performed {f : State → State} (h : Moves f) : Moves (perform f) := by
  refine ⟨h.cpu.perform, fun s => ?_, fun s => ?_, fun s => ?_⟩ <;> unfold perform <;> split
  · exact .inl rfl
  · exact h.tag s
  · rfl
  · exact h.halted s
  · simp
  · exact h.nmi s

theorem Moves.comp {f g : State → State} (hf : Moves f) (hg : Moves g) : Moves (fun s => f (g s)) := by
  refine ⟨⟨fun s => ?_⟩, fun s => ?_, fun s => (hf.halted _).trans (hg.halted s), fun s => ?_⟩
  · obtain ⟨c, hc⟩ := hg.cpu.eq s
    obtain ⟨d, hd⟩ := hf.cpu.eq (g s)
    exact ⟨d, by show f (g s) = _; rw [hd, hc]⟩
  · rcases hf.tag (g s) with h | h
    · rcases hg.tag s with h' | h'
      · exact .inl (h.trans h')
      · exact .inr (h.trans h')
    · exact .inr h
  · rw [hf.latch, hg.nmi]

theorem moves_id : Moves (fun s => s) := moves_of fun _ => ⟨_, rfl, .inl rfl, rfl, rfl⟩
theorem moves_complete : Moves complete := moves_of fun _ => ⟨_, rfl, .inr rfl, rfl, rfl⟩

theorem moves_performRead (op : ReadOp) (v : Byte) : Moves (fun s => performRead op (v, s)) := by
  cases op <;> exact Moves.performed (f := _) (moves_of fun _ => ⟨_, rfl, .inl rfl, rfl, rfl⟩)

theorem moves_impliedFun (op : ImpliedOp) : Moves (impliedFun op) := by
  cases op <;> exact moves_of fun _ => ⟨_, rfl, .inl rfl, rfl, rfl⟩

theorem moves_ite {f g : State → State} {b : State → Bool} (hf : Moves f) (hg : Moves g) :
    Moves (fun s => if b s then f s else g s) := by
  refine ⟨⟨fun s => ?_⟩, fun s => ?_, fun s => ?_, fun s => ?_⟩ <;> split
  · exact hf.cpu.eq s
  · exact hg.cpu.eq s
  · exact hf.tag s
  · exact hg.tag s
  · exact hf.halted s
  · exact hg.halted s
  · exact hf.nmi s
  · exact hg.nmi s

/-- A cycle that changes the CPU alone before its access, without the tag, the halt and the NMI latch, and after it. -/
structure Plain (c : BusCycle) (clears : Bool := false) : Prop where
  before : ∀ s, ∃ d : Cpu, c.before s = { s with cpu := d } ∧ d.tag = s.cpu.tag ∧ d.halted = s.cpu.halted ∧
    d.nmiLatch = s.cpu.nmiLatch
  after : ∀ v, Moves (c.after v) clears

theorem plain_idle (a : Addr) : Plain (idleRead a) := ⟨fun _ => ⟨_, rfl, rfl, rfl, rfl⟩, fun _ => moves_id⟩

theorem moves_settle (i : Instr) : Moves (settle i) := by
  unfold settle
  split
  · exact moves_complete.comp (moves_performRead _ _)
  · rename_i op off _
    have h1 : Moves (fun s => s.latchOffset off) := moves_of fun _ => ⟨_, rfl, .inl rfl, rfl, rfl⟩
    exact Moves.comp (f := fun t => if branchTaken op t.cpu.p then t else complete t)
      (moves_ite (b := fun t => branchTaken op t.cpu.p) moves_id moves_complete) h1
  · split
    · exact moves_of fun _ => ⟨_, rfl, .inr rfl, rfl, rfl⟩
    · exact moves_id
  all_goals exact moves_id

theorem moves_settleBytes (op lo hi : Byte) : Moves (settleBytes op lo hi) := by
  unfold settleBytes
  split
  · exact moves_settle _
  · exact moves_id

theorem plain_push (v : Byte) {f : State → State} (hf : Moves f) (s : State) : Plain (pushCycle v f s) := by
  refine ⟨fun _ => ⟨_, rfl, rfl, rfl, rfl⟩, fun _ => ?_⟩
  exact Moves.comp (f := f) hf (g := fun t => t.withS (t.cpu.s - 1)) (moves_of fun _ => ⟨_, rfl, .inl rfl, rfl, rfl⟩)

theorem plain_pull {f : Byte → State → State} (hf : ∀ v, Moves (f v)) (s : State) : Plain (pullCycle f s) :=
  ⟨fun _ => ⟨_, rfl, rfl, rfl, rfl⟩, hf⟩

theorem plain_address {b : Bool} {m : MemMode} {j : Nat} {s : State} {c : BusCycle}
    (h : addressCycle b m j s = some c) : Plain c := by
  have hi : ∀ {a i}, indexedFix b a i = some c → Plain c := by
    intro a i h
    unfold indexedFix at h
    split at h
    · simp only [Option.some.injEq] at h; subst h; exact plain_idle _
    · cases h
  unfold addressCycle at h
  split at h <;> first
    | exact hi h
    | cases h
  all_goals first
    | exact plain_idle _
    | exact ⟨fun _ => ⟨_, rfl, rfl, rfl, rfl⟩, fun _ => moves_of fun _ => ⟨_, rfl, .inl rfl, rfl, rfl⟩⟩

theorem plain_getD {o : Option BusCycle} {c : BusCycle} (h : ∀ d, o = some d → Plain d) (hc : Plain c) :
    Plain (o.getD c) := by
  cases o
  · exact hc
  · exact h _ rfl

/-- The entry's cycle 6, the fourth of these, clears the NMI latch for an NMI (R415). -/
theorem plain_vector (b : Bool) (vec : Addr) (nmi : Bool) (j : Nat) (s : State) :
    Plain (vectorTail b vec nmi j s) (nmi && j == 4) := by
  by_cases hj : j = 4
  · subst hj
    refine ⟨fun _ => ⟨_, rfl, rfl, rfl, rfl⟩, fun v => ?_⟩
    cases nmi
    · exact moves_of fun _ => ⟨_, rfl, .inl rfl, rfl, rfl⟩
    · exact ⟨⟨fun _ => ⟨_, rfl⟩⟩, fun _ => .inl rfl, fun _ => rfl, fun s => by
        rw [show (true && (4 == 4)) = true from rfl, Bool.not_true, Bool.and_false]; rfl⟩
  · have hc : (nmi && j == 4) = false := by simp [hj]
    rw [hc]
    unfold vectorTail
    split
    · exact plain_push _ moves_id _
    · exact plain_push _ moves_id _
    · exact plain_push _ moves_id _
    · exact absurd rfl hj
    · exact ⟨fun _ => ⟨_, rfl, rfl, rfl, rfl⟩, fun _ => moves_of fun _ => ⟨_, rfl, .inr rfl, rfl, rfl⟩⟩

theorem plain_control (i : Instr) (j : Nat) (s : State) : Plain (controlTail i j s) := by
  cases i
  case jmpInd addr =>
    show Plain (jumpTail addr j)
    unfold jumpTail
    split
    · exact ⟨fun _ => ⟨_, rfl, rfl, rfl, rfl⟩, fun _ => moves_of fun _ => ⟨_, rfl, .inl rfl, rfl, rfl⟩⟩
    · exact ⟨fun _ => ⟨_, rfl, rfl, rfl, rfl⟩, fun _ => moves_of fun _ => ⟨_, rfl, .inr rfl, rfl, rfl⟩⟩
  case jsr =>
    show Plain (callTail j s)
    unfold callTail
    split
    · exact plain_idle _
    · exact plain_push _ moves_id _
    · exact plain_push _ moves_id _
    · exact ⟨fun _ => ⟨_, rfl, rfl, rfl, rfl⟩, fun _ => moves_of fun _ => ⟨_, rfl, .inr rfl, rfl, rfl⟩⟩
  case rts =>
    show Plain (subroutineTail j s)
    unfold subroutineTail
    split
    · exact plain_idle _
    · exact plain_idle _
    · refine plain_pull (fun _ => ?_) _
      exact moves_of fun _ => ⟨_, rfl, .inl rfl, rfl, rfl⟩
    · refine plain_pull (fun _ => ?_) _
      exact moves_of fun _ => ⟨_, rfl, .inl rfl, rfl, rfl⟩
    · exact ⟨fun _ => ⟨_, rfl, rfl, rfl, rfl⟩, fun _ => moves_of fun _ => ⟨_, rfl, .inr rfl, rfl, rfl⟩⟩
  case rti =>
    show Plain (interruptTail j s)
    unfold interruptTail
    split
    · exact plain_idle _
    · exact plain_idle _
    · refine plain_pull (fun _ => ?_) _
      exact moves_of fun _ => ⟨_, rfl, .inl rfl, rfl, rfl⟩
    · refine plain_pull (fun _ => ?_) _
      exact moves_of fun _ => ⟨_, rfl, .inl rfl, rfl, rfl⟩
    · refine plain_pull (fun _ => ?_) _
      exact moves_of fun _ => ⟨_, rfl, .inr rfl, rfl, rfl⟩
  case brk =>
    show Plain (breakTail j s)
    unfold breakTail
    split
    · exact ⟨fun _ => ⟨_, rfl, rfl, rfl, rfl⟩, fun _ => moves_of fun _ => ⟨_, rfl, .inl rfl, rfl, rfl⟩⟩
    · exact plain_vector _ _ _ _ _
  all_goals exact plain_idle _

theorem plain_tail (i : Instr) (j : Nat) (s : State) : Plain (tailCycle i j s) := by
  unfold tailCycle
  split
  · exact plain_getD (fun _ h => plain_address h)
      ⟨fun _ => ⟨_, rfl, rfl, rfl, rfl⟩, fun v => moves_complete.comp (moves_performRead _ v)⟩
  · exact plain_idle _
  · exact plain_getD (fun _ h => plain_address h)
      ⟨fun _ => ⟨_, rfl, rfl, rfl, rfl⟩, fun _ => moves_of fun _ => ⟨_, rfl, .inr rfl, rfl, rfl⟩⟩
  · refine plain_getD (fun _ h => plain_address h) ?_
    split
    · exact ⟨fun _ => ⟨_, rfl, rfl, rfl, rfl⟩, fun _ => moves_of fun _ => ⟨_, rfl, .inl rfl, rfl, rfl⟩⟩
    · split
      · exact ⟨fun _ => ⟨_, rfl, rfl, rfl, rfl⟩, fun _ => moves_of fun _ => ⟨_, rfl, .inl rfl, rfl, rfl⟩⟩
      · exact ⟨fun _ => ⟨_, rfl, rfl, rfl, rfl⟩, fun _ => moves_of fun _ => ⟨_, rfl, .inr rfl, rfl, rfl⟩⟩
  · exact ⟨fun _ => ⟨_, rfl, rfl, rfl, rfl⟩, fun _ => moves_of fun _ => ⟨_, rfl, .inr rfl, rfl, rfl⟩⟩
  · exact ⟨fun _ => ⟨_, rfl, rfl, rfl, rfl⟩, fun _ => moves_complete.comp (moves_impliedFun _)⟩
  · unfold stackTail
    split
    · exact plain_idle _
    · exact plain_push _ moves_complete _
    · exact plain_push _ moves_complete _
    · exact plain_idle _
    · exact plain_idle _
    · refine plain_pull (fun v => moves_complete.comp (g := fun t => performPla (v, t)) ?_) _
      exact Moves.performed (f := _) (moves_of fun _ => ⟨_, rfl, .inl rfl, rfl, rfl⟩)
    · refine plain_pull (fun v => moves_complete.comp (g := fun t => performPlp (v, t)) ?_) _
      exact Moves.performed (f := _) (moves_of fun _ => ⟨_, rfl, .inl rfl, rfl, rfl⟩)
  · unfold branchTail
    dsimp only
    split
    · refine ⟨fun _ => ⟨_, rfl, rfl, rfl, rfl⟩, fun v => ?_⟩
      dsimp only
      split
      · exact moves_of fun _ => ⟨_, rfl, .inr rfl, rfl, rfl⟩
      · exact moves_id
    · exact ⟨fun _ => ⟨_, rfl, rfl, rfl, rfl⟩, fun _ => moves_of fun _ => ⟨_, rfl, .inr rfl, rfl, rfl⟩⟩
  · exact plain_control i j s

theorem plain_entry (n : Interrupt) (k : Nat) (s : State) : Plain (entryCycle n k s) (n == .nmi && k == 6) := by
  unfold entryCycle
  split
  · rename_i h
    have : (k == 6) = false := by simp; omega
    rw [this, Bool.and_false]
    exact plain_idle _
  · rename_i h
    have : (k == 6) = (k - 2 == 4) := by
      by_cases h6 : k = 6
      · subst h6; rfl
      · rw [beq_false_of_ne h6, beq_false_of_ne (by omega)]
    cases n
    · rw [this]; exact plain_vector _ _ _ _ _
    · exact plain_vector _ _ false _ _

theorem plain_opcode (op : Byte) (k : Nat) (s : State) : Plain (opcodeCycle op k s) := by
  unfold opcodeCycle
  split
  · exact plain_idle _
  · rename_i i _ _
    split
    · split
      · refine ⟨fun _ => ⟨_, rfl, rfl, rfl, rfl⟩, fun v => ?_⟩
        dsimp only
        split
        · have hm := fun s : State => moves_settleBytes op v (s.latchLo v).incPc.cpu.lat.hi
          exact ⟨⟨fun s => (hm s).cpu.eq (s.latchLo v).incPc⟩, fun s => (hm s).tag (s.latchLo v).incPc,
            fun s => (hm s).halted (s.latchLo v).incPc, fun s => (hm s).nmi (s.latchLo v).incPc⟩
        · exact moves_of fun _ => ⟨_, rfl, .inl rfl, rfl, rfl⟩
      · refine ⟨fun _ => ⟨_, rfl, rfl, rfl, rfl⟩, fun v => ?_⟩
        have hm := fun s : State => moves_settleBytes op s.cpu.lat.lo v
        exact ⟨⟨fun s => (hm s).cpu.eq (s.latchHi v).incPc⟩, fun s => (hm s).tag (s.latchHi v).incPc,
          fun s => (hm s).halted (s.latchHi v).incPc, fun s => (hm s).nmi (s.latchHi v).incPc⟩
    · exact plain_tail _ _ _

/-- Does the CPU's cycle in this slot clear the NMI latch: the one that begins an NMI entry, and the entry's cycle 6
(R411, R415; log 12)? -/
def clearsNmi (b : State) : Bool :=
  match b.cpu.tag with
  | .fetch => pendingInterrupt b == some .nmi
  | .mid _ _ => false
  | .entry n k => n == .nmi && k == 6

/-- Every cycle of every instruction and of an interrupt entry is one access between two changes of the CPU. -/
theorem plain_cycleAt {s : State} (h : s.cpu.tag ≠ .fetch) : Plain (cycleAt s) (clearsNmi s) := by
  unfold cycleAt clearsNmi
  cases ht : s.cpu.tag with
  | fetch => exact absurd ht h
  | mid op k => exact plain_opcode _ _ _
  | entry n k => exact plain_entry _ _ _

/-- What a slot of the CPU does to the machine before the agents after it. -/
structure Slot (b x : State) : Prop where
  clock : x.clock = b.clock
  cfg : x.cfg = b.cfg
  hclock : x.tia.hclock = b.tia.hclock
  sound : Sound b → Sound x
  live : Live b → Live x

theorem Slot.cpu (b : State) (d : Cpu) : Slot b { b with cpu := d } :=
  ⟨rfl, rfl, rfl, fun h => kept_sound.cpu _ _ h, fun h => h⟩

theorem Slot.trans {a b c : State} (h : Slot a b) (h' : Slot b c) : Slot a c :=
  ⟨h'.clock.trans h.clock, h'.cfg.trans h.cfg, h'.hclock.trans h.hclock,
    fun x => h'.sound (h.sound x), fun x => h'.live (h.live x)⟩

theorem slot_read (a : Addr) (b : State) : Slot b (busRead a b).2 := by
  refine ⟨?_, cfg_busRead a b, ?_, fun h => kept_sound.read _ _ h, fun h => live_busRead h⟩
  · have := (chipRead_parts (maskAddr a) b).2.2.2.2
    show (afterAccess _ _ _ _).clock = _
    rw [(afterAccess_parts _ _ _ _).2.2.2.2.2.2.2.1, this]
  · show (afterAccess _ _ _ _).tia.hclock = _
    rw [(afterAccess_parts _ _ _ _).2.2.2.2.1]
    unfold chipRead; split <;> rfl

theorem slot_write (a : Addr) (v : Byte) (b : State) : Slot b (busWrite a v b) := by
  refine ⟨?_, cfg_busWrite a v b, (writeEffects_busWrite a v b).hclock,
    fun h => kept_sound.write _ _ _ h, fun h => live_busWrite h⟩
  have := (chipWrite_parts (maskAddr a) v b).2.2.2.1
  show (afterAccess _ _ _ _).clock = _
  rw [(afterAccess_parts _ _ _ _).2.2.2.2.2.2.2.1, this]

theorem hclock_tiaTick (s : State) : (tiaTick s).tia.hclock.val = (s.tia.hclock.val + 1) % 228 := by
  obtain ⟨-, -, hh, hl, -⟩ := Tia.objects_kept s.tia
  have hlt := s.tia.hclock.isLt
  rcases tiaTick_cases s with ⟨h1, h2, -⟩ | ⟨h1, h2, -⟩ <;> omega

theorem hclock_tiaTicks (s : State) :
    (tiaTicks s).tia.hclock.val = (s.tia.hclock.val + (match s.cfg.tiaClk with | .one => 1 | .three => 3)) % 228 := by
  unfold tiaTicks
  cases s.cfg.tiaClk
  · exact hclock_tiaTick s
  · dsimp only; rw [hclock_tiaTick, hclock_tiaTick, hclock_tiaTick]; omega

theorem hclock_slot {s x : State} (h : Slot (beginSlot s) x) :
    (endSlot x).tia.hclock.val = (s.tia.hclock.val + (match s.cfg.tiaClk with | .one => 1 | .three => 3)) % 228 := by
  have hc : x.cfg = s.cfg := by rw [h.cfg, cfg_beginSlot]
  have hh := h.hclock
  have hlt := s.tia.hclock.isLt
  have e0 : (latchNmi s).tia.hclock = s.tia.hclock := by unfold latchNmi; split <;> rfl
  have ec : (latchNmi s).cfg = s.cfg := cfg_latchNmi s
  unfold endSlot
  unfold beginSlot at hh
  rw [hc]
  cases ho : s.cfg.order <;> simp only [ec, ho] at hh ⊢
  · rw [hclock_tiaTicks]
    show (x.tia.hclock.val + (match x.cfg.tiaClk with | .one => 1 | .three => 3)) % 228 = _
    rw [hc, hh, e0]
  · show (tiaTicks x).tia.hclock.val = _; rw [hclock_tiaTicks, hc, hh, e0]
  · rw [hclock_tiaTicks, hc, hh]; show ((latchNmi s).tia.hclock.val + _) % 228 = _; rw [e0]
  · show x.tia.hclock.val = _; rw [hh, hclock_tiaTicks, ec, e0]
  · rw [hh, hclock_tiaTicks]
    show ((latchNmi s).tia.hclock.val + (match (latchNmi s).cfg.tiaClk with | .one => 1 | .three => 3)) % 228 = _
    rw [ec, e0]
  · rw [hh]; show (tiaTicks (latchNmi s)).tia.hclock.val = _; rw [hclock_tiaTicks, ec, e0]

theorem perform_run {f : State → State} (hf : CpuOnly f) {s : State} (h : (perform f s).traps.fatal = false) :
    s.traps.fatal = false := by
  obtain ⟨c, hc⟩ := hf.perform.eq s
  rw [hc] at h; exact h

theorem endCycle_run {x : State} (h : (endCycle x).traps.fatal = false) :
    endCycle x = endSlot (x.withTag x.cpu.tag.advance) := by
  rw [traps_endCycle] at h
  simp only [endCycle, h, Bool.false_eq_true, if_false]

theorem advance_ne {t : ExecTag} (h : t ≠ .fetch) : t.advance ≠ t := by
  cases t
  · exact absurd rfl h
  · simp [ExecTag.advance]
  · simp [ExecTag.advance]

theorem nmi_endSlot (s : State) : (endSlot s).cpu.nmiLatch = s.cpu.nmiLatch := by
  have h0 : ∀ u : State, (tiaTick u).cpu.nmiLatch = u.cpu.nmiLatch := by
    intro u; simp only [tiaTick]; split <;> rfl
  have h1 : ∀ u : State, (piaTick u).cpu.nmiLatch = u.cpu.nmiLatch := fun _ => rfl
  have h2 : ∀ u : State, (tiaTicks u).cpu.nmiLatch = u.cpu.nmiLatch := by
    intro u; unfold tiaTicks; split <;> simp only [h0]
  unfold endSlot
  dsimp only
  split <;> simp only [h1, h2]

/-- `z` is the board `b` after exactly one bus access of the CPU (R72, R75, R76), between changes of the CPU's own
registers that leave its halted flag. -/
def OneAccess (b z : State) : Prop :=
  ∃ (c d : Cpu) (x : State), c.halted = b.cpu.halted ∧
    ((∃ a, x = (busRead a { b with cpu := c }).2) ∨ ∃ a v, x = busWrite a v { b with cpu := c }) ∧
    d.halted = x.cpu.halted ∧ z = { x with cpu := d }

theorem OneAccess.slot {b z : State} (h : OneAccess b z) : Slot b z := by
  obtain ⟨c, d, x, -, hx, -, rfl⟩ := h
  have h1 : Slot { b with cpu := c } x := by
    rcases hx with ⟨a, rfl⟩ | ⟨a, v, rfl⟩
    · exact slot_read a _
    · exact slot_write a v _
  exact ((Slot.cpu b c).trans h1).trans (Slot.cpu x d)

/-- What a slot in which the CPU runs leaves: one access, the agents after the CPU, and a CPU with another tag and the
latch of R411. -/
structure Ran (b r : State) (clears : Bool) (z : State) (e : Cpu) : Prop where
  access : OneAccess b z
  eq : r = { endSlot z with cpu := e }
  halted : e.halted = (endSlot z).cpu.halted
  tag : e.tag ≠ b.cpu.tag
  nmi : e.nmiLatch = (b.cpu.nmiLatch && !clears)

/-- A cycle inside an instruction after its access, where it does not stop the machine. -/
theorem ran_access {f : State → State} {k : Bool} {b x : State} {c : Cpu} (hm : Moves f k) (hc1 : c.tag = b.cpu.tag)
    (hc2 : c.halted = b.cpu.halted) (hc3 : c.nmiLatch = b.cpu.nmiLatch)
    (hx : (∃ a, x = (busRead a { b with cpu := c }).2) ∨ ∃ a v, x = busWrite a v { b with cpu := c })
    (hn : b.cpu.tag ≠ .fetch) (hf : (perform f (endCycle x)).traps.fatal = false) :
    ∃ z e, Ran b (perform f (endCycle x)) k z e := by
  have ht : x.cpu.tag = b.cpu.tag ∧ x.cpu.nmiLatch = b.cpu.nmiLatch := by
    rcases hx with ⟨a, rfl⟩ | ⟨a, v, rfl⟩
    · rw [cpu_busRead]; exact ⟨hc1, hc3⟩
    · rw [cpu_busWrite]; exact ⟨hc1, hc3⟩
  have h1 := perform_run hm.cpu hf
  rw [perform_running h1, endCycle_run h1]
  obtain ⟨e, he⟩ := hm.cpu.eq (endSlot (x.withTag x.cpu.tag.advance))
  have hec : (f (endSlot (x.withTag x.cpu.tag.advance))).cpu = e := by rw [he]
  have et : (endSlot (x.withTag x.cpu.tag.advance)).cpu.tag = b.cpu.tag.advance := by
    rw [tag_endSlot]; show x.cpu.tag.advance = _; rw [ht.1]
  refine ⟨x.withTag x.cpu.tag.advance, e,
    ⟨c, (x.withTag x.cpu.tag.advance).cpu, x, hc2, hx, rfl, rfl⟩, he, ?_, ?_, ?_⟩
  · rw [← hec]; exact hm.halted _
  · rw [← hec]
    rcases hm.tag (endSlot (x.withTag x.cpu.tag.advance)) with h | h
    · rw [h, et]; exact advance_ne hn
    · rw [h]; exact fun h => hn h.symm
  · rw [← hec, hm.nmi, nmi_endSlot]
    show (x.cpu.nmiLatch && _) = _
    rw [ht.2]

/-- A cycle inside an instruction, where it does not stop the machine. -/
theorem ran_run {c : BusCycle} {k : Bool} (hpl : Plain c k) {b : State} (hn : b.cpu.tag ≠ .fetch)
    (hf : (c.run b).traps.fatal = false) : ∃ z e, Ran b (c.run b) k z e := by
  obtain ⟨d, hd, h1, h2, h3⟩ := hpl.before b
  cases hdat : c.data with
  | none =>
    have e : c.run b =
        perform (c.after (busRead c.addr (c.before b)).1) (endCycle (busRead c.addr (c.before b)).2) := by
      unfold BusCycle.run; rw [hdat]; rfl
    rw [e] at hf ⊢
    exact ran_access (hpl.after _) h1 h2 h3 (.inl ⟨_, by rw [hd]⟩) hn hf
  | some v =>
    have e : c.run b = perform (c.after v) (endCycle (busWrite c.addr v (c.before b))) := by
      unfold BusCycle.run; rw [hdat]
    rw [e] at hf ⊢
    exact ran_access (hpl.after _) h1 h2 h3 (.inr ⟨_, _, by rw [hd]⟩) hn hf

/-- The fetch of a valid opcode, where it does not stop the machine. -/
theorem ran_fetch {b : State} (ht : b.cpu.tag = .fetch) (hv : opcodeLength (busRead b.cpu.pc b).1 ≠ none)
    (hr : (fetchOpcode b).2.traps.fatal = false) : ∃ z e, Ran b (fetchOpcode b).2 false z e := by
  have hfo : (fetchOpcode b).2 =
      endCycle (perform (opcodeDone (busRead b.cpu.pc b).1 b.cpu.pc) (busRead b.cpu.pc b).2) := by
    simp only [fetchOpcode, hv, if_false]; rfl
  have hco : CpuOnly (opcodeDone (busRead b.cpu.pc b).1 b.cpu.pc) := ⟨fun _ => ⟨_, rfl⟩⟩
  rw [hfo] at hr ⊢
  have hrun := perform_run hco (by rw [← traps_endCycle]; exact hr)
  rw [perform_running hrun] at hr ⊢
  rw [endCycle_run hr]
  have htag : ∀ v a s, (opcodeDone v a s).cpu.tag = .mid v 1 := fun _ _ _ => rfl
  have hhal : ∀ v a s, (opcodeDone v a s).cpu.halted = s.cpu.halted := fun _ _ _ => rfl
  have hnmi : ∀ v a s, (opcodeDone v a s).cpu.nmiLatch = s.cpu.nmiLatch := fun _ _ _ => rfl
  generalize hv' : (busRead b.cpu.pc b).1 = v at *
  obtain ⟨d, hd⟩ := hco.eq (busRead b.cpu.pc b).2
  have hx : (busRead b.cpu.pc b).2.cpu = b.cpu := cpu_busRead _ _
  have hz : ∀ o : State, o = opcodeDone v b.cpu.pc (busRead b.cpu.pc b).2 →
      ∃ z e, Ran b (endSlot (o.withTag o.cpu.tag.advance)) false z e := by
    intro o ho
    have h1 : o.cpu.tag = .mid v 1 := by rw [ho]; exact htag _ _ _
    have h2 : o.cpu.halted = (busRead b.cpu.pc b).2.cpu.halted := by rw [ho]; exact hhal _ _ _
    have h3 : o.cpu.nmiLatch = b.cpu.nmiLatch := by rw [ho, hnmi, hx]
    have h4 : o = { (busRead b.cpu.pc b).2 with cpu := o.cpu } := by rw [ho, hd]
    refine ⟨o.withTag o.cpu.tag.advance, (endSlot (o.withTag o.cpu.tag.advance)).cpu,
      ⟨b.cpu, (o.withTag o.cpu.tag.advance).cpu, (busRead b.cpu.pc b).2, rfl, .inl ⟨_, rfl⟩, h2, ?_⟩, rfl, rfl, ?_, ?_⟩
    · exact congrArg (fun u : State => { u with cpu := (o.withTag o.cpu.tag.advance).cpu }) h4
    · rw [tag_endSlot, ht]
      show o.cpu.tag.advance ≠ _
      rw [h1]; simp [ExecTag.advance]
    · rw [nmi_endSlot]
      show o.cpu.nmiLatch = _
      rw [h3]; simp
  exact hz _ rfl

/-- A board step that runs the CPU, not stopped. -/
theorem ran_cpuCycle {b : State} (hf : (cpuCycle b).traps.fatal = false) :
    ∃ z e, Ran b (cpuCycle b) (clearsNmi b) z e ∧
      (b.cpu.tag = .fetch → pendingInterrupt b = some .nmi → e.tag = .entry .nmi 2) := by
  by_cases hm : b.cpu.tag = .fetch
  · have hk : clearsNmi b = (pendingInterrupt b == some .nmi) := by simp only [clearsNmi, hm]
    cases hp : pendingInterrupt b with
    | some n =>
      rw [hp] at hk
      have hc' : cpuCycle b = endCycle (busRead b.cpu.pc (beginEntry n b)).2 := by
        simp only [cpuCycle, hm, hp, readHere]
      have hb : beginEntry n b = { b with cpu := (beginEntry n b).cpu } := by cases n <;> rfl
      have e := endCycle_run (by rw [← hc']; exact hf)
      have hcpu : (busRead b.cpu.pc (beginEntry n b)).2.cpu = (beginEntry n b).cpu := cpu_busRead _ _
      rw [hc', e, hk]
      let z := (busRead b.cpu.pc (beginEntry n b)).2.withTag (busRead b.cpu.pc (beginEntry n b)).2.cpu.tag.advance
      refine ⟨z, (endSlot z).cpu, ⟨⟨(beginEntry n b).cpu, z.cpu, (busRead b.cpu.pc (beginEntry n b)).2,
        by cases n <;> rfl, .inl ⟨b.cpu.pc, by rw [← hb]⟩, rfl, rfl⟩, rfl, rfl, ?_, ?_⟩, fun _ hn => ?_⟩
      · rw [tag_endSlot, hm]
        show ExecTag.advance _ ≠ _
        rw [hcpu]; cases n <;> simp [beginEntry, ExecTag.advance]
      · rw [nmi_endSlot]; show (busRead _ _).2.cpu.nmiLatch = _; rw [hcpu]
        cases n <;> simp [beginEntry]
      · simp only [Option.some.injEq] at hn
        subst hn
        rw [tag_endSlot]; show ExecTag.advance _ = _; rw [hcpu]; rfl
    | none =>
      rw [hp] at hk
      have hc : cpuCycle b = (fetchOpcode b).2 := by simp only [cpuCycle, hm, hp]
      have hr : (fetchOpcode b).2.traps.fatal = false := by rw [← hc]; exact hf
      have hv : opcodeLength (busRead b.cpu.pc b).1 ≠ none := by
        intro hn
        simp only [fetchOpcode, hn, if_true, traps_endCycle] at hr
        unfold raiseInvalidOpcode at hr
        split at hr
        · rename_i h; rw [h] at hr; cases hr
        · cases hr
      obtain ⟨z, e, h⟩ := ran_fetch hm hv hr
      rw [hc, hk]
      exact ⟨z, e, h, fun _ h => by cases h⟩
  · have hc : cpuCycle b = (cycleAt b).run b := cpuCycle_of_mid hm
    rw [hc] at hf ⊢
    obtain ⟨z, e, h⟩ := ran_run (plain_cycleAt hm) hm hf
    exact ⟨z, e, h, fun h => absurd h hm⟩

/-! ### The CPU's slot exactly: the access by its address and data, and what the cycle leaves -/

/-- One bus access: a write where data is given, a read where it is not (R75, R76). -/
def busAccess (a : Addr) (data : Option Byte) (u : State) : Byte × State :=
  match data with
  | none => busRead a u
  | some v => (v, busWrite a v u)

/-- A cycle of an instruction or an interrupt entry, where it does not stop the machine. -/
theorem run_running {c : BusCycle} {k : Bool} (hpl : Plain c k) {b : State} (hf : (c.run b).traps.fatal = false) :
    c.run b = c.after (busAccess c.addr c.data (c.before b)).1
      (endSlot ((busAccess c.addr c.data (c.before b)).2.withTag b.cpu.tag.advance)) := by
  have hbt : (c.before b).cpu.tag = b.cpu.tag := by
    obtain ⟨d, hd, ht, -⟩ := hpl.before b
    rw [hd]; exact ht
  have key : ∀ (v : Byte) (x : State), x.cpu.tag = b.cpu.tag →
      (perform (c.after v) (endCycle x)).traps.fatal = false →
      perform (c.after v) (endCycle x) = c.after v (endSlot (x.withTag b.cpu.tag.advance)) := by
    intro v x hx h
    have h1 := perform_run (hpl.after v).cpu h
    rw [perform_running h1, endCycle_run h1, hx]
  cases hdat : c.data with
  | none =>
    have e : c.run b =
        perform (c.after (busRead c.addr (c.before b)).1) (endCycle (busRead c.addr (c.before b)).2) := by
      unfold BusCycle.run; rw [hdat]; rfl
    rw [e] at hf ⊢
    exact key _ _ (by rw [cpu_busRead, hbt]) hf
  | some v =>
    have e : c.run b = perform (c.after v) (endCycle (busWrite c.addr v (c.before b))) := by
      unfold BusCycle.run; rw [hdat]
    rw [e] at hf ⊢
    exact key _ _ (by rw [cpu_busWrite]; exact hbt) hf

/-- An opcode fetch that does not stop the machine (R160). -/
theorem fetch_running {b : State} (hr : (fetchOpcode b).2.traps.fatal = false) :
    (fetchOpcode b).2 = endSlot ((opcodeDone (busRead b.cpu.pc b).1 b.cpu.pc (busRead b.cpu.pc b).2).withTag
      (.mid (busRead b.cpu.pc b).1 2)) := by
  have hv : opcodeLength (busRead b.cpu.pc b).1 ≠ none := by
    intro hn
    simp only [fetchOpcode, hn, if_true, traps_endCycle] at hr
    unfold raiseInvalidOpcode at hr
    split at hr
    · rename_i h; rw [h] at hr; cases hr
    · cases hr
  have hfo : (fetchOpcode b).2 =
      endCycle (perform (opcodeDone (busRead b.cpu.pc b).1 b.cpu.pc) (busRead b.cpu.pc b).2) := by
    simp only [fetchOpcode, hv, if_false]; rfl
  have hco : CpuOnly (opcodeDone (busRead b.cpu.pc b).1 b.cpu.pc) := ⟨fun _ => ⟨_, rfl⟩⟩
  have htag : ∀ v a s, (opcodeDone v a s).cpu.tag = .mid v 1 := fun _ _ _ => rfl
  rw [hfo] at hr ⊢
  have hrun := perform_run hco (by rw [← traps_endCycle]; exact hr)
  rw [perform_running hrun] at hr ⊢
  rw [endCycle_run hr, htag]
  rfl

/-- The first cycle of an interrupt entry, where it does not stop the machine (R413, R415). -/
theorem entry_running {n : Interrupt} {b : State} (hf : (readHere b.cpu.pc (beginEntry n b)).2.traps.fatal = false) :
    (readHere b.cpu.pc (beginEntry n b)).2 =
      endSlot ((busRead b.cpu.pc (beginEntry n b)).2.withTag (.entry n 2)) := by
  have hcpu : (busRead b.cpu.pc (beginEntry n b)).2.cpu.tag = .entry n 1 := by rw [cpu_busRead]; cases n <;> rfl
  simp only [readHere] at hf ⊢
  rw [endCycle_run hf, hcpu]
  rfl

/-- The edge as one update of the latch (R411). -/
theorem latchNmi_eq (s : State) :
    latchNmi s = { s with cpu := { s.cpu with nmiLatch := s.cpu.nmiLatch || nmiEdge s } } := by
  unfold latchNmi State.withNmi
  cases nmiEdge s
  · rw [Bool.or_false]; rfl
  · rw [Bool.or_true]; rfl

/-- The NMI latch in the CPU's slot (R411). -/
theorem nmi_beginSlot (s : State) : (beginSlot s).cpu.nmiLatch = (s.cpu.nmiLatch || nmiEdge s) := by
  have h0 : ∀ u : State, (tiaTick u).cpu.nmiLatch = u.cpu.nmiLatch := by
    intro u; simp only [tiaTick]; split <;> rfl
  have h1 : ∀ u : State, (piaTick u).cpu.nmiLatch = u.cpu.nmiLatch := fun _ => rfl
  have h2 : ∀ u : State, (tiaTicks u).cpu.nmiLatch = u.cpu.nmiLatch := by
    intro u; unfold tiaTicks; split <;> simp only [h0]
  have h3 : (latchNmi s).cpu.nmiLatch = (s.cpu.nmiLatch || nmiEdge s) := by rw [latchNmi_eq]
  unfold beginSlot
  dsimp only
  split <;> simp only [h1, h2, h3]

theorem pia_tiaTicks (s : State) : (tiaTicks s).pia = s.pia := by
  have h0 : ∀ u : State, (tiaTick u).pia = u.pia := by
    intro u; simp only [tiaTick]; split <;> rfl
  unfold tiaTicks; split <;> simp only [h0]

/-- The PIA's part of a board step is one tick, in every order (R420, R493). -/
theorem pia_idleSlot (s : State) : (idleSlot s).pia = s.pia.tick := by
  have h1 : (latchNmi s).pia = s.pia := by unfold latchNmi; split <;> rfl
  have h2 : ∀ u : State, (piaTick u).pia = u.pia.tick := fun _ => rfl
  have hc : (beginSlot s).cfg = s.cfg := cfg_beginSlot s
  simp only [idleSlot, endSlot, hc]
  cases ho : s.cfg.order <;> simp only [beginSlot, cfg_latchNmi, ho, pia_tiaTicks, h2, h1]

/-- A board step of a machine no trap can stop, inside an instruction. -/
theorem live_cpuCycle {b : State} (h : Live b) (hm : b.cpu.tag ≠ .fetch) : Live (cpuCycle b) := by
  rw [cpuCycle_of_mid hm]
  have hpl := plain_cycleAt hm
  have hperf : ∀ v, CpuOnly (perform ((cycleAt b).after v)) := fun v => (hpl.after v).cpu.perform
  generalize cycleAt b = c at *
  obtain ⟨d, hd, -⟩ := hpl.before b
  have hB : Live (c.before b) := by rw [hd]; exact h
  unfold BusCycle.run
  cases c.data with
  | none => exact (hperf _).live (live_endCycle (live_busRead hB))
  | some v => exact (hperf _).live (live_endCycle (live_busWrite hB))

end Sys2Proof.Machine
end

