-- ==== Sys2Proof/Laws/Traps.lean ====
section
/-! SUPPORT. An access that traps (R400, R403): the log and the stop, for a bus access and for a CPU cycle. -/

namespace Sys2Proof.Machine

/-- The record of a chip trap at an address (R401, R403). -/
def chipRecord (kind : AccessKind) (a : Addr) : TrapRecord :=
  .chip (route (maskAddr a)) (route (maskAddr a))
    (match kind with | .read => .invalidRead (maskAddr a) | .write => .invalidWrite (maskAddr a))

theorem busRead_trap {a : Addr} {b : State} (hf : b.traps.fatal = false)
    (h : chipTraps b.cfg .read (maskAddr a) (busRead a b).1 = true) :
    (busRead a b).2.traps = { log := b.traps.log ++ [chipRecord .read a], fatal := !b.cfg.trapHandler } := by
  obtain ⟨-, -, c1, c2, -⟩ := chipRead_parts (maskAddr a) b
  have h' : chipTraps b.cfg .read (maskAddr a) (chipRead (maskAddr a) b).1 = true := h
  simp only [busRead, afterAccess]
  rw [c1, h']
  simp only [if_true, raiseTrap, c2, hf, Bool.false_eq_true, if_false]
  rfl

theorem busWrite_trap {a : Addr} {v : Byte} {b : State} (hf : b.traps.fatal = false)
    (h : chipTraps b.cfg .write (maskAddr a) v = true) :
    (busWrite a v b).traps = { log := b.traps.log ++ [chipRecord .write a], fatal := !b.cfg.trapHandler } := by
  obtain ⟨-, c1, c2, -⟩ := chipWrite_parts (maskAddr a) v b
  simp only [busWrite, afterAccess]
  rw [c1, h]
  simp only [if_true, raiseTrap, c2, hf, Bool.false_eq_true, if_false]
  rfl

theorem readCycle_trap {a : Addr} {s : State} (hf : s.traps.fatal = false)
    (h : chipTraps s.cfg .read (maskAddr a) (busRead a (openRead s)).1 = true) :
    (readCycle a s).2.traps = { log := s.traps.log ++ [chipRecord .read a], fatal := !s.cfg.trapHandler } := by
  simp only [readCycle, hf, Bool.false_eq_true, if_false, readHere, traps_endCycle]
  rw [busRead_trap (by rw [traps_openRead, hf]) (by rw [cfg_openRead]; exact h), traps_openRead, cfg_openRead]

theorem writeCycle_trap {a : Addr} {v : Byte} {s : State} (hf : s.traps.fatal = false)
    (h : chipTraps s.cfg .write (maskAddr a) v = true) :
    (writeCycle a v s).traps = { log := s.traps.log ++ [chipRecord .write a], fatal := !s.cfg.trapHandler } := by
  simp only [writeCycle, hf, Bool.false_eq_true, if_false, traps_endCycle]
  rw [busWrite_trap (by rw [traps_openWrite, hf]) (by rw [cfg_openWrite]; exact h), traps_openWrite, cfg_openWrite]

/-- What a stopped machine answers: its last record. -/
theorem stopReason_of_chip {u : State} {l : List TrapRecord} {k : AccessKind} {a : Addr}
    (ht : u.traps = { log := l ++ [chipRecord k a], fatal := true }) :
    stopReason u = .chipTrap (chipRecord k a) u ∧ u.traps.log.getLast? = some (chipRecord k a) := by
  have e : u.traps.log.getLast? = some (chipRecord k a) := by rw [ht]; simp
  exact ⟨by unfold stopReason; rw [e]; rfl, e⟩

end Sys2Proof.Machine
end

