-- ==== Sys2Proof/Laws/Writers.lean ====
section
/-! SUPPORT. Lemmas for the provers: which instruction writes which register. -/

namespace Sys2Proof.Machine

variable {α : Type} (g : Regs → α)

theorem proj_perform {f : State → State} (hf : ∀ u, g (f u).regs = g u.regs) (s : State) : g (perform f s).regs = g s.regs := by
  unfold perform; split
  · rfl
  · exact hf s

theorem proj_performRead {op : ReadOp} (ho : ∀ v r, g (readRegs op v r) = g r) (x : Byte × State) :
    g (performRead op x).regs = g x.2.regs := by
  cases op
  all_goals
    simp only [performRead, performLda, performLdx, performLdy, performAdc, performSbc, performAnd, performOra,
      performEor, performCmp, performCpx, performCpy, performBit]
    refine proj_perform g (fun u => ?_) x.2
    exact ho x.1 u.regs

theorem proj_implied {op : ImpliedOp} (ho : ∀ r, g (impliedRegs op r) = g r) (s : State) :
    g (implied (impliedFun op) s).regs = g s.regs := by
  unfold implied
  rw [proj_perform g (fun u => by rw [regs_impliedFun, ho]), regs_dummyFetch]

theorem proj_acc {op : ModifyOp} (ho : ∀ (r : Regs) v p, p.d = r.p.d → p.i = r.p.i → p.v = r.p.v → g { r with a := v, p := p } = g r) (s : State) :
    g (modifyAcc (modifyFun op) s).regs = g s.regs := by
  unfold modifyAcc implied
  rw [proj_perform g (fun u => by
    show g { u.regs with a := (modifyFun op u.cpu.a u.cpu.p).1, p := (modifyFun op u.cpu.a u.cpu.p).2 } = _
    refine ho _ _ _ ?_ ?_ ?_ <;> cases op <;> rfl), regs_dummyFetch]

theorem proj_modify {op : ModifyOp} {m : MemMode} (ho : ∀ (r : Regs) p, p.d = r.p.d → p.i = r.p.i → p.v = r.p.v → g { r with p := p } = g r) (s : State) :
    g (modifyMem (modifyFun op) m s).regs = g s.regs := by
  have hb : (modifyBase m s).regs = s.regs := by
    simp only [modifyBase]
    rw [regs_writeCycle]
    have : ∀ (v : Byte) (u : State), (perform (fun t => t.latchOperand v) u).regs = u.regs := by
      intro v u; unfold perform; split <;> rfl
    rw [this, regs_readCycle, regs_writeBase]
  have hp : (modifyBase m s).cpu.p = s.cpu.p := congrArg Regs.p hb
  have key : ∀ (W : State) (v : Byte), W.regs = s.regs →
      g (perform (fun t => t.withP (modifyFun op v (modifyBase m s).cpu.p).2) W).regs = g s.regs := by
    intro W v hW
    unfold perform
    split
    · rw [hW]
    · rw [regs_withP, hW, hp]
      refine ho _ _ ?_ ?_ ?_ <;> cases op <;> rfl
  exact key _ _ (by rw [regs_writeCycle]; exact hb)

theorem proj_push (ho : ∀ (r : Regs) v, g { r with s := v } = g r) (v : Byte) (s : State) : g (push v s).regs = g s.regs := by
  unfold push
  rw [proj_perform g (fun u => by rw [regs_withS, ho]), regs_writeCycle]

theorem proj_pull (ho : ∀ (r : Regs) v, g { r with s := v } = g r) (s : State) : g (pull s).2.regs = g s.regs := by
  simp only [pull]
  rw [regs_readCycle, proj_perform g (fun u => by rw [regs_withS, ho])]

theorem proj_pullLow (ho : ∀ (r : Regs) v, g { r with s := v } = g r) (s : State) :
    g (pullLow s).2.regs = g s.regs := by
  rw [pullLow_eq, regs_perform_latchEa, proj_pull g ho]

theorem proj_branch (ho : ∀ (r : Regs) v, g { r with pc := v } = g r) (b : Bool) (off : Byte) (s : State) : g (branch b off s).regs = g s.regs := by
  have h0 : ∀ s : State, g (perform (fun s => s.latchOffset off) s).regs = g s.regs := proj_perform g fun _ => rfl
  have h1 : ∀ a (s : State), g (perform (fun s => s.withPc a) s).regs = g s.regs := fun a => proj_perform g fun _ => by rw [regs_withPc, ho]
  simp only [branch]
  split
  · split
    · rw [h1, regs_dummyFetch, h0]
    · rw [h1, regs_dummyRead, regs_dummyFetch, h0]
  · exact h0 s

theorem proj_enter (hs : ∀ (r : Regs) v, g { r with s := v } = g r) (hp : ∀ (r : Regs) v, g { r with pc := v } = g r)
   (hi : ∀ (r : Regs), g { r with p := { r.p with i := true } } = g r) (b vec nmi) (s : State) :
   g (enterVector b vec nmi s).regs = g s.regs := by
  simp only [enterVector]
  rw [proj_perform g (fun u => by rw [regs_withPc, hp]), regs_readCycle, proj_perform g (fun u => by rw [regs_nmiClear]),
    proj_perform g (fun u => by rw [regs_withP]; exact hi _), regs_readLow, proj_push g hs, proj_push g hs, proj_push g hs]

theorem proj_incPc (ho : ∀ (r : Regs) v, g { r with pc := v } = g r) (s : State) : g (perform State.incPc s).regs = g s.regs :=
  proj_perform g (fun u => by simp only [State.incPc]; rw [regs_withPc, ho]) s

theorem proj_rts (hs : ∀ (r : Regs) v, g { r with s := v } = g r) (hp : ∀ (r : Regs) v, g { r with pc := v } = g r) (s : State) :
    g (returnSubroutine s).regs = g s.regs := by
  simp only [returnSubroutine]
  rw [proj_incPc g hp, regs_dummyFetch, proj_perform g (fun u => by rw [regs_withPc, hp]), proj_pull g hs, proj_pullLow g hs, regs_dummyStack, regs_dummyFetch]

theorem proj_rti (hs : ∀ (r : Regs) v, g { r with s := v } = g r) (hp : ∀ (r : Regs) v, g { r with pc := v } = g r)
    (hf : ∀ (r : Regs) v, g { r with p := v } = g r) (s : State) :
    g (returnInterrupt s).regs = g s.regs := by
  simp only [returnInterrupt]
  rw [proj_perform g (fun u => by rw [regs_withPc, hp]), proj_pull g hs, proj_pullLow g hs, proj_perform g (fun u => by rw [regs_withP, hf]), proj_pull g hs, regs_dummyStack, regs_dummyFetch]

theorem proj_jsr (hs : ∀ (r : Regs) v, g { r with s := v } = g r) (hp : ∀ (r : Regs) v, g { r with pc := v } = g r) (a : Addr) (s : State) :
    g (callSubroutine a s).regs = g s.regs := by
  simp only [callSubroutine, jsrHigh, jsrPushes]
  rw [proj_perform g (fun u => by rw [regs_withPc]; exact hp _ _), regs_readCycle, proj_push g hs, proj_push g hs, regs_dummyStack]

theorem proj_jmp (hp : ∀ (r : Regs) v, g { r with pc := v } = g r) (a : Addr) (s : State) :
    g (jumpIndirect a s).regs = g s.regs := by
  simp only [jumpIndirect]
  rw [proj_perform g (fun u => by rw [regs_withPc]; exact hp _ _), regs_readCycle, regs_readLow]

theorem next_of_exec {i : Instr} {s t u : State} (h : exec i s = .next t) (he : exec i s = finish u) : t = u.withTag .fetch := by
  rw [he] at h
  unfold finish at h
  split at h
  · cases h
  · simpa using h.symm

/-- A projection of the registers is kept by an instruction that does not write it. -/
theorem proj_exec {i : Instr} {s t : State} (h : exec i s = .next t)
    (hr : ∀ op o, i.kind = .read op o → ∀ v r, g (readRegs op v r) = g r)
    (hm : ∀ op m, i.kind = .modify op m → ∀ (r : Regs) p, p.d = r.p.d → p.i = r.p.i → p.v = r.p.v → g { r with p := p } = g r)
    (ha : ∀ op, i.kind = .accumulator op → ∀ (r : Regs) v p, p.d = r.p.d → p.i = r.p.i → p.v = r.p.v → g { r with a := v, p := p } = g r)
    (hi : ∀ op, i.kind = .implied op → ∀ r, g (impliedRegs op r) = g r)
    (hs : (∃ op, i.kind = .stack op) ∨ (∃ a, i = .jsr a) ∨ i = .rts ∨ i = .brk ∨ i = .rti → ∀ (r : Regs) v, g { r with s := v } = g r)
    (hpla : i = .pla → ∀ (r : Regs) v p, p.d = r.p.d → p.i = r.p.i → p.v = r.p.v → g { r with a := v, p := p } = g r)
    (hp : i = .plp ∨ i = .rti → ∀ (r : Regs) p, g { r with p := p } = g r)
    (hb : i = .brk → ∀ (r : Regs), g { r with p := { r.p with i := true } } = g r)
    (hpc : ∀ (r : Regs) v, g { r with pc := v } = g r) : g t.regs = g s.regs := by
  have hfin : ∀ u, exec i s = finish u → g t.regs = g u.regs := fun u he => by rw [next_of_exec h he]; rfl
  rcases hk : i.kind with ⟨op, o⟩ | ⟨op, m⟩ | ⟨op, m⟩ | op | op | op | ⟨op, off⟩ | _
  · rw [hfin _ (exec_read hk s), proj_performRead g (hr op o hk), regs_readOperand]
  · rw [hfin _ (exec_write hk s), regs_writeMem]
  · rw [hfin _ (exec_modify hk s), proj_modify g (hm op m hk)]
  · rw [hfin _ (exec_accumulator hk s), proj_acc g (ha op hk)]
  · rw [hfin _ (exec_implied hk s), proj_implied g (hi op hk)]
  · have hs' := hs (.inl ⟨op, hk⟩)
    rw [hfin _ (exec_stack hk s)]
    cases op
    · exact (proj_push g hs' _ _).trans (congrArg g (regs_dummyFetch s))
    · exact (proj_push g hs' _ _).trans (congrArg g (regs_dummyFetch s))
    · have hi : i = .pla := by cases i <;> simp [Instr.kind] at hk ⊢
      refine (proj_perform g (fun u => ?_) _).trans ((proj_pull g hs' _).trans ?_)
      · rw [State.withNZ, regs_withP, regs_withA]; exact hpla hi u.regs _ (setNZ _ u.cpu.p) rfl rfl rfl
      · rw [regs_dummyStack, regs_dummyFetch]
    · have hi : i = .plp := by cases i <;> simp [Instr.kind] at hk ⊢
      refine (proj_perform g (fun u => ?_) _).trans ((proj_pull g hs' _).trans ?_)
      · rw [regs_withP]; exact hp (.inl hi) _ _
      · rw [regs_dummyStack, regs_dummyFetch]
  · rw [hfin _ (exec_branch hk s), proj_branch g hpc]
  · rcases control_cases hk with ⟨a, rfl⟩ | ⟨a, rfl⟩ | ⟨a, rfl⟩ | rfl | rfl | rfl
    · exact (hfin _ rfl).trans (proj_perform g (fun u => by rw [regs_withPc, hpc]) _)
    · exact (hfin _ rfl).trans (proj_jmp g hpc _ _)
    · exact (hfin _ rfl).trans (proj_jsr g (hs (by simp)) hpc _ _)
    · exact (hfin _ rfl).trans (proj_rts g (hs (by simp)) hpc _)
    · exact (hfin _ rfl).trans ((proj_enter g (hs (by simp)) hpc (hb rfl) _ _ _ _).trans ((proj_incPc g hpc _).trans (congrArg g (regs_dummyFetch s))))
    · exact (hfin _ rfl).trans (proj_rti g (hs (by simp)) hpc (hp (.inr rfl)) _)

end Sys2Proof.Machine
end

