-- ==== Sys2Proof/Tests/Slice0.lean ====
section
/-! SUPPORT. Tests of the model: the ill-formed parameters, the words of spec/30_encoding.md R121 to R124, the vectors of
spec/95_test_vectors.md section 2 (each test names its row), and for every obligation with hypotheses a witness that
meets them. The expected results are the spec's. -/

namespace Sys2Proof.Tests

-- One kernel thread at a time: the evaluations below run on large stacks, and many at once fill the memory.
set_option Elab.async false

open Sys2Proof.Machine

/-! ### Well-formedness -/

/-- A term of `Instr` has its operands' exact widths in its type; the checks are of the parameters. -/
theorem test_default_wf : Params.default.wf = true := by decide

/-- R544: a `vanilla_4k` image has 4096 bytes. -/
theorem test_imageFits_refuses : ({ Params.default with imageSize := 2048 }).imageFits = false := by decide

theorem test_imageFits_fails_wf : ({ Params.default with imageSize := 2048 }).wf = false := by decide

/-- A zero byte is not listed. -/
theorem test_imageCanonical_refuses : ({ Params.default with image := [(5, 0)] }).imageCanonical = false := by decide

theorem test_imageCanonical_fails_wf : ({ Params.default with image := [(5, 0)] }).wf = false := by decide

/-- Addresses rise. -/
theorem test_imageCanonical_refuses_order : ({ Params.default with image := [(5, 1), (4, 1)] }).wf = false := by decide

theorem test_imageInRange_refuses : ({ Params.default with image := [(4096, 1)] }).imageInRange = false := by decide

theorem test_imageInRange_fails_wf : ({ Params.default with image := [(4096, 1)] }).wf = false := by decide

/-- R572: the budget's range. -/
theorem test_budgetInRange_refuses : ({ Params.default with coprocBudget := 99999 }).budgetInRange = false := by decide

theorem test_budgetInRange_fails_wf : ({ Params.default with coprocBudget := 500001 }).wf = false := by decide

/-! ### Decoding: words written from R121, R122 and R124 -/

theorem test_decode_lda_imm : decode [0b10101001, 0x80] = some (.ldaImm 0x80, []) := rfl

theorem test_decode_sta_absX : decode [0b10011101, 0x34, 0x12] = some (.staAbsX 0x1234, []) := rfl

theorem test_decode_ldx_zpY : decode [0b10110110, 0x90] = some (.ldxZpY 0x90, []) := rfl

theorem test_decode_tya : decode [0b10011000] = some (.tya, []) := rfl

theorem test_decode_plp : decode [0b00101000] = some (.plp, []) := rfl

theorem test_decode_sbc_indX : decode [0b11100001, 0xC0] = some (.sbcIndX 0xC0, []) := rfl

theorem test_decode_cpy_abs : decode [0b11001100, 0x01, 0x02] = some (.cpyAbs 0x0201, []) := rfl

theorem test_decode_ror_absX : decode [0b01111110, 0xFF, 0x00] = some (.rorAbsX 0x00FF, []) := rfl

theorem test_decode_iny : decode [0b11001000] = some (.iny, []) := rfl

theorem test_decode_jmp_ind : decode [0b01101100, 0xFF, 0x10] = some (.jmpInd 0x10FF, []) := rfl

theorem test_decode_bvs : decode [0b01110000, 0xFE] = some (.bvs 0xFE, []) := rfl

theorem test_decode_brk : decode [0b00000000] = some (.brk, []) := rfl

theorem test_decode_sed : decode [0b11111000] = some (.sed, []) := rfl

/-- The table's numbering: the first byte is bits 7..0 (JSR $1234). -/
theorem test_decodeTableWord_jsr : decodeTableWord 24 0x123420 = some (.jsr 0x1234) := rfl

/-- R126: STA immediate is no instruction. -/
theorem test_decode_sta_imm : decode [0x89, 0x42, 0x00] = none := rfl

/-! ### One step -/

/-- The flags N, V, D, I, Z, C. -/
def fl (n v d i z c : Nat) : Flags := { n := n == 1, v := v == 1, d := d == 1, i := i == 1, z := z == 1, c := c == 1 }

/-- The state after reset with these image bytes, RAM bytes, registers and flags. -/
def start (pc : Addr) (image ram : Memory) (a x y sp : Byte) (p : Flags) : State :=
  { State.reset with
    cfg := { Params.default with image := image }
    cpu := { State.reset.cpu with pc := pc, a := a, x := x, y := y, s := sp, p := p }
    pia := { State.reset.pia with ram := ram } }

/-- The registers expected after an instruction at `at`. -/
def after (a x y sp : Byte) (pc : Addr) (p : Flags) (lip : Addr) : Regs :=
  { a := a, x := x, y := y, s := sp, pc := pc, p := p, lip := lip }

/-- One step: the registers, the board steps made and the RAM after it. -/
def run (s : State) : Option (Regs × Nat × Memory) :=
  match step s with
  | .next t => some (t.regs, t.clock - s.clock, t.pia.ram)
  | .fault _ | .refused _ => none

/-- RS1 (R600, R601): machine reset with every draw 0. -/
theorem test_machineReset : machineReset Params.default Draws.zero = State.reset := by decide +kernel

/-- LS1 -/
theorem test_lda_imm_zero :
    run (start 0xF000 [(0x00, 0xA9)] [] 0x55 0x00 0x00 0xFD (fl 0 0 0 1 0 0)) =
      some (after 0x00 0x00 0x00 0xFD 0xF002 (fl 0 0 0 1 1 0) 0xF000, 2, []) := by
  decide +kernel

/-- LS4 -/
theorem test_lda_zpX_wraps_to_tia :
    run (start 0xF000 [(0x00, 0xB5), (0x01, 0xFF)] [(0x7F, 0x5A)] 0x00 0x01 0x00 0xFD (fl 0 0 0 1 0 0)) =
      some (after 0x1A 0x01 0x00 0xFD 0xF002 (fl 0 0 0 1 0 0) 0xF000, 4, [(0x7F, 0x5A)]) := by
  decide +kernel

/-- LS5 -/
theorem test_lda_absX_same_page :
    run (start 0xF000 [(0x00, 0xBD), (0x01, 0xA0), (0x02, 0xF0), (0xFF, 0x11)] [] 0x00 0x5F 0x00 0xFD (fl 0 0 0 1 0 0)) =
      some (after 0x11 0x5F 0x00 0xFD 0xF003 (fl 0 0 0 1 0 0) 0xF000, 4, []) := by
  decide +kernel

/-- LS6 -/
theorem test_lda_absX_crosses :
    run (start 0xF000 [(0x00, 0xBD), (0x01, 0xA0), (0x02, 0xF0), (0x10, 0x99), (0x0110, 0x22)] [] 0x00 0x70 0x00 0xFD (fl 0 0 0 1 0 0)) =
      some (after 0x22 0x70 0x00 0xFD 0xF003 (fl 0 0 0 1 0 0) 0xF000, 5, []) := by
  decide +kernel

/-- LS7 -/
theorem test_lda_indX :
    run (start 0xF000 [(0x00, 0xA1), (0x01, 0x84), (0x20, 0x33)] [(0x06, 0x20), (0x07, 0xF0)] 0x00 0x02 0x00 0xFD (fl 0 0 0 1 0 0)) =
      some (after 0x33 0x02 0x00 0xFD 0xF002 (fl 0 0 0 1 0 0) 0xF000, 6, [(0x06, 0x20), (0x07, 0xF0)]) := by
  decide +kernel

/-- LS8 -/
theorem test_lda_indX_pointer_wraps :
    run (start 0xF000 [(0x00, 0xA1), (0x01, 0xFF)] [(0x7F, 0x90)] 0x55 0x00 0x00 0xFD (fl 0 0 0 1 0 0)) =
      some (after 0x00 0x00 0x00 0xFD 0xF002 (fl 0 0 0 1 1 0) 0xF000, 6, [(0x7F, 0x90)]) := by
  decide +kernel

/-- LS10 -/
theorem test_lda_indY_crosses :
    run (start 0xF000 [(0x00, 0xB1), (0x01, 0x84), (0x10, 0x66), (0x0110, 0x55)] [(0x04, 0x20), (0x05, 0xF0)] 0x00 0x00 0xF0 0xFD (fl 0 0 0 1 0 0)) =
      some (after 0x55 0x00 0xF0 0xFD 0xF002 (fl 0 0 0 1 0 0) 0xF000, 6, [(0x04, 0x20), (0x05, 0xF0)]) := by
  decide +kernel

/-- LS11 -/
theorem test_ldx_zpY :
    run (start 0xF000 [(0x00, 0xB6), (0x01, 0x90)] [(0x15, 0xFF)] 0x00 0x00 0x05 0xFD (fl 0 0 0 1 0 0)) =
      some (after 0x00 0xFF 0x05 0xFD 0xF002 (fl 1 0 0 1 0 0) 0xF000, 4, [(0x15, 0xFF)]) := by
  decide +kernel

/-- LS12 -/
theorem test_ldy_abs :
    run (start 0xF000 [(0x00, 0xAC), (0x01, 0x23), (0x02, 0xF1)] [] 0x00 0x00 0x01 0xFD (fl 0 0 0 1 0 0)) =
      some (after 0x00 0x00 0x00 0xFD 0xF003 (fl 0 0 0 1 1 0) 0xF000, 4, []) := by
  decide +kernel

/-- LS14 -/
theorem test_sta_absX_always_five :
    run (start 0xF000 [(0x00, 0x9D), (0x01, 0x80)] [] 0x42 0x10 0x00 0xFD (fl 0 0 0 1 0 0)) =
      some (after 0x42 0x10 0x00 0xFD 0xF003 (fl 0 0 0 1 0 0) 0xF000, 5, [(0x10, 0x42)]) := by
  decide +kernel

/-- LS15 -/
theorem test_sta_indY :
    run (start 0xF000 [(0x00, 0x91), (0x01, 0x84)] [(0x04, 0x90)] 0x42 0x00 0x03 0xFD (fl 0 0 0 1 0 0)) =
      some (after 0x42 0x00 0x03 0xFD 0xF002 (fl 0 0 0 1 0 0) 0xF000, 6, [(0x04, 0x90), (0x13, 0x42)]) := by
  decide +kernel

/-- LS16 -/
theorem test_stx_zpY :
    run (start 0xF000 [(0x00, 0x96), (0x01, 0x80)] [] 0x00 0x77 0x7F 0xFD (fl 0 0 0 1 0 0)) =
      some (after 0x00 0x77 0x7F 0xFD 0xF002 (fl 0 0 0 1 0 0) 0xF000, 4, [(0x7F, 0x77)]) := by
  decide +kernel

/-- TS1 -/
theorem test_tax :
    run (start 0xF000 [(0x00, 0xAA)] [] 0x00 0x12 0x00 0xFD (fl 0 0 0 1 0 0)) =
      some (after 0x00 0x00 0x00 0xFD 0xF001 (fl 0 0 0 1 1 0) 0xF000, 2, []) := by
  decide +kernel

/-- TS2 -/
theorem test_tay :
    run (start 0xF000 [(0x00, 0xA8)] [] 0x80 0x00 0x00 0xFD (fl 0 0 0 1 0 0)) =
      some (after 0x80 0x00 0x80 0xFD 0xF001 (fl 1 0 0 1 0 0) 0xF000, 2, []) := by
  decide +kernel

/-- TS3 -/
theorem test_txa :
    run (start 0xF000 [(0x00, 0x8A)] [] 0x00 0x7F 0x00 0xFD (fl 0 0 0 1 0 0)) =
      some (after 0x7F 0x7F 0x00 0xFD 0xF001 (fl 0 0 0 1 0 0) 0xF000, 2, []) := by
  decide +kernel

/-- TS4 -/
theorem test_tya :
    run (start 0xF000 [(0x00, 0x98)] [] 0x00 0x00 0xFF 0xFD (fl 0 0 0 1 0 0)) =
      some (after 0xFF 0x00 0xFF 0xFD 0xF001 (fl 1 0 0 1 0 0) 0xF000, 2, []) := by
  decide +kernel

/-- TS5 -/
theorem test_tsx :
    run (start 0xF000 [(0x00, 0xBA)] [] 0x00 0x00 0x00 0x00 (fl 0 0 0 1 0 0)) =
      some (after 0x00 0x00 0x00 0x00 0xF001 (fl 0 0 0 1 1 0) 0xF000, 2, []) := by
  decide +kernel

/-- TS6 -/
theorem test_txs_keeps_flags :
    run (start 0xF000 [(0x00, 0x9A)] [] 0x00 0x00 0x00 0xFD (fl 1 0 0 1 0 0)) =
      some (after 0x00 0x00 0x00 0x00 0xF001 (fl 1 0 0 1 0 0) 0xF000, 2, []) := by
  decide +kernel

/-- TS7 -/
theorem test_pha :
    run (start 0xF000 [(0x00, 0x48)] [] 0x55 0x00 0x00 0xFF (fl 0 0 0 1 0 0)) =
      some (after 0x55 0x00 0x00 0xFE 0xF001 (fl 0 0 0 1 0 0) 0xF000, 3, [(0x7F, 0x55)]) := by
  decide +kernel

/-- TS8 -/
theorem test_pha_wraps :
    run (start 0xF000 [(0x00, 0x48)] [] 0x34 0x00 0x00 0x00 (fl 0 0 0 1 0 0)) =
      some (after 0x34 0x00 0x00 0xFF 0xF001 (fl 0 0 0 1 0 0) 0xF000, 3, []) := by
  decide +kernel

/-- TS9 -/
theorem test_php :
    run (start 0xF000 [(0x00, 0x08)] [] 0x00 0x00 0x00 0xFD (fl 1 0 0 1 0 1)) =
      some (after 0x00 0x00 0x00 0xFC 0xF001 (fl 1 0 0 1 0 1) 0xF000, 3, [(0x7D, 0xB5)]) := by
  decide +kernel

/-- TS11 -/
theorem test_pla_wraps_to_tia :
    run (start 0xF000 [(0x00, 0x68)] [(0x7F, 0x3C)] 0x00 0x00 0x00 0xFF (fl 0 0 0 1 0 0)) =
      some (after 0x3C 0x00 0x00 0x00 0xF001 (fl 0 0 0 1 0 0) 0xF000, 4, [(0x7F, 0x3C)]) := by
  decide +kernel

/-- TS12 -/
theorem test_plp :
    run (start 0xF000 [(0x00, 0x28)] [(0x7F, 0xFF)] 0x00 0x00 0x00 0xFE (fl 0 0 0 1 0 0)) =
      some (after 0x00 0x00 0x00 0xFF 0xF001 (fl 1 1 1 1 1 1) 0xF000, 4, [(0x7F, 0xFF)]) := by
  decide +kernel

/-- AR6 -/
theorem test_adc_overflow_carry :
    run (start 0xF000 [(0x00, 0x69), (0x01, 0xD0)] [] 0x90 0x00 0x00 0xFD (fl 0 0 0 1 0 1)) =
      some (after 0x61 0x00 0x00 0xFD 0xF002 (fl 0 1 0 1 0 1) 0xF000, 2, []) := by
  decide +kernel

/-- AR1 -/
theorem test_adc_signed_overflow :
    run (start 0xF000 [(0x00, 0x69), (0x01, 0x01)] [] 0x7F 0x00 0x00 0xFD (fl 0 0 0 1 0 0)) =
      some (after 0x80 0x00 0x00 0xFD 0xF002 (fl 1 1 0 1 0 0) 0xF000, 2, []) := by
  decide +kernel

/-- AR10 -/
theorem test_sbc_borrow :
    run (start 0xF000 [(0x00, 0xE9), (0x01, 0x03)] [] 0x05 0x00 0x00 0xFD (fl 0 0 0 1 0 0)) =
      some (after 0x01 0x00 0x00 0xFD 0xF002 (fl 0 0 0 1 0 1) 0xF000, 2, []) := by
  decide +kernel

/-- AR9 -/
theorem test_sbc_overflow :
    run (start 0xF000 [(0x00, 0xE9), (0x01, 0xB0)] [] 0x50 0x00 0x00 0xFD (fl 0 0 0 1 0 1)) =
      some (after 0xA0 0x00 0x00 0xFD 0xF002 (fl 1 1 0 1 0 0) 0xF000, 2, []) := by
  decide +kernel

/-- AR12 -/
theorem test_and :
    run (start 0xF000 [(0x00, 0x29), (0x01, 0x0F)] [] 0xF0 0x00 0x00 0xFD (fl 0 0 0 1 0 0)) =
      some (after 0x00 0x00 0x00 0xFD 0xF002 (fl 0 0 0 1 1 0) 0xF000, 2, []) := by
  decide +kernel

/-- AR13 -/
theorem test_ora :
    run (start 0xF000 [(0x00, 0x09), (0x01, 0x80)] [] 0x01 0x00 0x00 0xFD (fl 0 0 0 1 0 0)) =
      some (after 0x81 0x00 0x00 0xFD 0xF002 (fl 1 0 0 1 0 0) 0xF000, 2, []) := by
  decide +kernel

/-- AR14 -/
theorem test_eor :
    run (start 0xF000 [(0x00, 0x49), (0x01, 0xFF)] [] 0xFF 0x00 0x00 0xFD (fl 0 0 0 1 0 0)) =
      some (after 0x00 0x00 0x00 0xFD 0xF002 (fl 0 0 0 1 1 0) 0xF000, 2, []) := by
  decide +kernel

/-- AR17 -/
theorem test_cmp_unsigned :
    run (start 0xF000 [(0x00, 0xC9), (0x01, 0x01)] [] 0x80 0x00 0x00 0xFD (fl 0 0 0 1 0 0)) =
      some (after 0x80 0x00 0x00 0xFD 0xF002 (fl 0 0 0 1 0 1) 0xF000, 2, []) := by
  decide +kernel

/-- AR18 -/
theorem test_cpx :
    run (start 0xF000 [(0x00, 0xE4), (0x01, 0x80)] [(0x00, 0x20)] 0x00 0x10 0x00 0xFD (fl 0 0 0 1 0 0)) =
      some (after 0x00 0x10 0x00 0xFD 0xF002 (fl 1 0 0 1 0 0) 0xF000, 3, [(0x00, 0x20)]) := by
  decide +kernel

/-- AR19 -/
theorem test_cpy :
    run (start 0xF000 [(0x00, 0xC0)] [] 0x00 0x00 0x00 0xFD (fl 0 0 0 1 0 0)) =
      some (after 0x00 0x00 0x00 0xFD 0xF002 (fl 0 0 0 1 1 1) 0xF000, 2, []) := by
  decide +kernel

/-- AR20 -/
theorem test_bit :
    run (start 0xF000 [(0x00, 0x24), (0x01, 0x80)] [(0x00, 0xC0)] 0x3F 0x00 0x00 0xFD (fl 0 0 0 1 0 0)) =
      some (after 0x3F 0x00 0x00 0xFD 0xF002 (fl 1 1 0 1 1 0) 0xF000, 3, [(0x00, 0xC0)]) := by
  decide +kernel

/-- SH2 -/
theorem test_asl_acc :
    run (start 0xF000 [(0x00, 0x0A)] [] 0x41 0x00 0x00 0xFD (fl 0 0 0 1 0 1)) =
      some (after 0x82 0x00 0x00 0xFD 0xF001 (fl 1 0 0 1 0 0) 0xF000, 2, []) := by
  decide +kernel

/-- SH3 -/
theorem test_lsr_acc :
    run (start 0xF000 [(0x00, 0x4A)] [] 0x01 0x00 0x00 0xFD (fl 0 0 0 1 0 0)) =
      some (after 0x00 0x00 0x00 0xFD 0xF001 (fl 0 0 0 1 1 1) 0xF000, 2, []) := by
  decide +kernel

/-- SH4 -/
theorem test_rol_acc :
    run (start 0xF000 [(0x00, 0x2A)] [] 0x80 0x00 0x00 0xFD (fl 0 0 0 1 0 1)) =
      some (after 0x01 0x00 0x00 0xFD 0xF001 (fl 0 0 0 1 0 1) 0xF000, 2, []) := by
  decide +kernel

/-- SH5 -/
theorem test_ror_acc :
    run (start 0xF000 [(0x00, 0x6A)] [] 0x01 0x00 0x00 0xFD (fl 0 0 0 1 0 1)) =
      some (after 0x80 0x00 0x00 0xFD 0xF001 (fl 1 0 0 1 0 1) 0xF000, 2, []) := by
  decide +kernel

/-- SH7 -/
theorem test_asl_zp :
    run (start 0xF000 [(0x00, 0x06), (0x01, 0x80)] [(0x00, 0xC1)] 0x00 0x00 0x00 0xFD (fl 0 0 0 1 0 0)) =
      some (after 0x00 0x00 0x00 0xFD 0xF002 (fl 1 0 0 1 0 1) 0xF000, 5, [(0x00, 0x82)]) := by
  decide +kernel

/-- SH8 -/
theorem test_inc_zp :
    run (start 0xF000 [(0x00, 0xE6), (0x01, 0x80)] [(0x00, 0xFF)] 0x00 0x00 0x00 0xFD (fl 0 0 0 1 0 0)) =
      some (after 0x00 0x00 0x00 0xFD 0xF002 (fl 0 0 0 1 1 0) 0xF000, 5, []) := by
  decide +kernel

/-- SH9 -/
theorem test_dec_zpX :
    run (start 0xF000 [(0x00, 0xD6), (0x01, 0x80)] [] 0x00 0x01 0x00 0xFD (fl 0 0 0 1 0 0)) =
      some (after 0x00 0x01 0x00 0xFD 0xF002 (fl 1 0 0 1 0 0) 0xF000, 6, [(0x01, 0xFF)]) := by
  decide +kernel

/-- SH10 -/
theorem test_inc_absX_always_seven :
    run (start 0xF000 [(0x00, 0xFE), (0x01, 0x80)] [(0x05, 0x7F)] 0x00 0x05 0x00 0xFD (fl 0 0 0 1 0 0)) =
      some (after 0x00 0x05 0x00 0xFD 0xF003 (fl 1 0 0 1 0 0) 0xF000, 7, [(0x05, 0x80)]) := by
  decide +kernel

/-- SH11 -/
theorem test_lsr_rom_stores_nothing :
    run (start 0xF000 [(0x00, 0x4E), (0x01, 0x80), (0x02, 0xF0), (0x80, 0x03)] [] 0x00 0x00 0x00 0xFD (fl 0 0 0 1 0 0)) =
      some (after 0x00 0x00 0x00 0xFD 0xF003 (fl 0 0 0 1 0 1) 0xF000, 6, []) := by
  decide +kernel

/-- SH12 -/
theorem test_inx :
    run (start 0xF000 [(0x00, 0xE8)] [] 0x00 0xFF 0x00 0xFD (fl 0 0 0 1 0 1)) =
      some (after 0x00 0x00 0x00 0xFD 0xF001 (fl 0 0 0 1 1 1) 0xF000, 2, []) := by
  decide +kernel

/-- SH13 -/
theorem test_iny :
    run (start 0xF000 [(0x00, 0xC8)] [] 0x00 0x00 0x7F 0xFD (fl 0 0 0 1 0 0)) =
      some (after 0x00 0x00 0x80 0xFD 0xF001 (fl 1 0 0 1 0 0) 0xF000, 2, []) := by
  decide +kernel

/-- SH14 -/
theorem test_dex :
    run (start 0xF000 [(0x00, 0xCA)] [] 0x00 0x00 0x00 0xFD (fl 0 0 0 1 0 0)) =
      some (after 0x00 0xFF 0x00 0xFD 0xF001 (fl 1 0 0 1 0 0) 0xF000, 2, []) := by
  decide +kernel

/-- SH15 -/
theorem test_dey :
    run (start 0xF000 [(0x00, 0x88)] [] 0x00 0x00 0x01 0xFD (fl 0 0 0 1 0 0)) =
      some (after 0x00 0x00 0x00 0xFD 0xF001 (fl 0 0 0 1 1 0) 0xF000, 2, []) := by
  decide +kernel

/-- SH16 (R622; log 37): five cycles and one halt inside the instruction, to the write in relative step 69; that write
halts for one more line, and the next opcode is fetched in relative step 145. -/
theorem test_inc_wsync_one_halt_inside :
    let s := start 0xF000 [(0x00, 0xE6), (0x01, 0x02)] [] 0x00 0x00 0x00 0xFD (fl 0 0 0 1 0 0)
    run s = some (after 0x00 0x00 0x00 0xFD 0xF002 (fl 0 0 0 1 0 0) 0xF000, 70, []) ∧
      (match step s with
        | .next t => t.cpu.halted && decide ((openRead t).clock - s.clock = 145)
        | .fault _ | .refused _ => false) = true := by
  decide +kernel

/-- CT3 -/
theorem test_jmp_ind_page_wrap :
    run (start 0xF200 [(0x00, 0x56), (0xFF, 0x34), (0x0100, 0x99), (0x0200, 0x6C), (0x0201, 0xFF), (0x0202, 0x10)] [] 0x00 0x00 0x00 0xFD (fl 0 0 0 1 0 0)) =
      some (after 0x00 0x00 0x00 0xFD 0x5634 (fl 0 0 0 1 0 0) 0xF200, 5, []) := by
  decide +kernel

/-- CT4 -/
theorem test_jsr :
    run (start 0xF010 [(0x10, 0x20), (0x12, 0xF1)] [] 0x00 0x00 0x00 0xFF (fl 0 0 0 1 0 0)) =
      some (after 0x00 0x00 0x00 0xFD 0xF100 (fl 0 0 0 1 0 0) 0xF010, 6, [(0x7E, 0x12), (0x7F, 0xF0)]) := by
  decide +kernel

/-- CT5 -/
theorem test_rts :
    run (start 0xF000 [(0x00, 0x60)] [(0x7E, 0x12), (0x7F, 0xF0)] 0x00 0x00 0x00 0xFD (fl 0 0 0 1 0 0)) =
      some (after 0x00 0x00 0x00 0xFF 0xF013 (fl 0 0 0 1 0 0) 0xF000, 6, [(0x7E, 0x12), (0x7F, 0xF0)]) := by
  decide +kernel

/-- CT8 -/
theorem test_bcs_not_taken :
    run (start 0xF000 [(0x00, 0xB0), (0x01, 0x0E)] [] 0x00 0x00 0x00 0xFD (fl 0 0 0 1 0 0)) =
      some (after 0x00 0x00 0x00 0xFD 0xF002 (fl 0 0 0 1 0 0) 0xF000, 2, []) := by
  decide +kernel

/-- CT11 -/
theorem test_bmi_crosses :
    run (start 0xF0FD [(0xFD, 0x30), (0xFE, 0x01)] [] 0x00 0x00 0x00 0xFD (fl 1 0 0 1 0 0)) =
      some (after 0x00 0x00 0x00 0xFD 0xF100 (fl 1 0 0 1 0 0) 0xF0FD, 4, []) := by
  decide +kernel

/-- CT12 -/
theorem test_bpl_crosses_back :
    run (start 0xF100 [(0x0100, 0x10), (0x0101, 0xEE)] [] 0x00 0x00 0x00 0xFD (fl 0 0 0 1 0 0)) =
      some (after 0x00 0x00 0x00 0xFD 0xF0F0 (fl 0 0 0 1 0 0) 0xF100, 4, []) := by
  decide +kernel

/-- FS9 -/
theorem test_brk :
    run (start 0xF010 [(0x0FFF, 0xF8)] [] 0x00 0x00 0x00 0xFF (fl 0 0 0 0 1 1)) =
      some (after 0x00 0x00 0x00 0xFC 0xF800 (fl 0 0 0 1 1 1) 0xF010, 7, [(0x7D, 0x33), (0x7E, 0x12), (0x7F, 0xF0)]) := by
  decide +kernel

/-- FS11 -/
theorem test_rti :
    run (start 0xF000 [(0x00, 0x40)] [(0x7D, 0xCF), (0x7E, 0x34), (0x7F, 0x12)] 0x00 0x00 0x00 0xFC (fl 0 0 0 1 0 0)) =
      some (after 0x00 0x00 0x00 0xFF 0x1234 (fl 1 1 1 1 1 1) 0xF000, 6, [(0x7D, 0xCF), (0x7E, 0x34), (0x7F, 0x12)]) := by
  decide +kernel

/-- FS6 -/
theorem test_sed :
    run (start 0xF000 [(0x00, 0xF8)] [] 0x00 0x00 0x00 0xFD (fl 0 0 0 1 0 0)) =
      some (after 0x00 0x00 0x00 0xFD 0xF001 (fl 0 0 1 1 0 0) 0xF000, 2, []) := by
  decide +kernel

/-- FS3 -/
theorem test_cli :
    run (start 0xF000 [(0x00, 0x58)] [] 0x00 0x00 0x00 0xFD (fl 0 0 0 1 0 0)) =
      some (after 0x00 0x00 0x00 0xFD 0xF001 (fl 0 0 0 0 0 0) 0xF000, 2, []) := by
  decide +kernel

/-- The state after one step of `s`; `s` itself where it stops. -/
def next (s : State) : State :=
  match step s with
  | .next t => t
  | .fault _ | .refused _ => s

/-- 1.3 (R250): decimal ADC fixes A and C. -/
theorem test_adc_decimal :
    let t := next (start 0xF000 [(0, 0x69), (1, 0x46)] [] 0x58 0 0 0xFD (fl 0 0 1 1 0 1))
    (t.cpu.a, t.cpu.p.c, t.cpu.p.d, t.cpu.pc) = (0x05, true, true, 0xF002) := by
  exact rfl

/-- DS2 (R251): decimal SBC fixes A and C. -/
theorem test_sbc_decimal :
    let t := next (start 0xF000 [(0, 0xE9), (1, 0x21)] [] 0x12 0 0 0xFD (fl 0 0 1 1 0 1))
    (t.cpu.a, t.cpu.p.c, t.cpu.p.d, t.cpu.pc) = (0x91, false, true, 0xF002) := by
  exact rfl

/-- TR1 (R402): the machine stops with the opcode, its address, and PC past it. -/
theorem test_invalid_opcode :
    (match step (start 0xF000 [(0, 0x02)] [] 0x11 0 0 0xFD (fl 0 0 0 1 0 0)) with
      | .fault (.invalidOpcode op lip u) => (op, lip, u.cpu.pc, u.traps.fatal) == (0x02, 0xF000, 0xF001, true)
      | _ => false) = true := by
  decide +kernel

/-- The step of an interrupt: lines, and the NMI latch. -/
def interrupted (image : Memory) (irq nmi : Bool) (p : Flags) : State :=
  let s := start 0xF001 image [] 0 0 0 0xFD p
  { s with cfg := { s.cfg with inputs := [(0, { Lines.idle with irq := irq })] }, cpu := { s.cpu with nmiLatch := nmi } }

/-- IQ1 (R412, R415): IRQ entry after CLI. -/
theorem test_irq_entry :
    run (interrupted [(0xFFF, 0xF4)] true false (fl 0 0 0 0 0 0)) =
      some (after 0 0 0 0xFA 0xF400 (fl 0 0 0 1 0 0) 0, 7, [(0x7B, 0x20), (0x7C, 0x01), (0x7D, 0xF0)]) := by
  decide +kernel

/-- IQ3 (R411, R415): NMI entry although I is 1. -/
theorem test_nmi_entry :
    run (interrupted [(0xFFB, 0xF5)] false true (fl 0 0 0 1 1 0)) =
      some (after 0 0 0 0xFA 0xF500 (fl 0 0 0 1 1 0) 0, 7, [(0x7B, 0x26), (0x7C, 0x01), (0x7D, 0xF0)]) := by
  decide +kernel

/-- IQ2 (R412): IRQ ignored while I is 1 (NOP, EA). -/
theorem test_irq_masked :
    run (interrupted [(1, 0xEA)] true false (fl 0 0 0 1 0 0)) =
      some (after 0 0 0 0xFD 0xF002 (fl 0 0 0 1 0 0) 0xF001, 2, []) := by
  decide +kernel

/-- The state after `n` board steps of `s`; `s` itself where it stops. -/
def afterSteps (n : Nat) (s : State) : State :=
  match boardSteps n s with
  | .next t => t
  | .fault _ | .refused _ => s

/-- R420, R493: each board step is one PIA tick; R411: an edge in the step of the clock sets the latch inside an
instruction, a line asserted before does not. -/
theorem test_boardStep_pia_and_nmi_edge :
    let s (k : Nat) : State :=
      { (start 0xF000 [(0, 0xA9), (1, 0x80)] [] 0 0 0 0xFD (fl 0 0 0 1 0 0)).withTag (.mid 0xA9 2) with
        cfg := { Params.default with inputs := [(k, { Lines.idle with nmi := true })] } }
    (afterSteps 1 (s 7)).pia.sub = 8 ∧ (afterSteps 1 (s 7)).cpu.nmiLatch = true ∧
      (afterSteps 1 (s 6)).cpu.nmiLatch = false := by
  decide +kernel

/-- R10, R46, R160: the first board step of LDA #$80 fetches the opcode; the second loads A and ends the instruction. -/
theorem test_boardStep_lda :
    let s := start 0xF000 [(0, 0xA9), (1, 0x80)] [] 0 0 0 0xFD (fl 0 0 0 1 0 0)
    let t := afterSteps 1 s
    let u := afterSteps 2 s
    (t.cpu.tag, t.cpu.pc, t.cpu.a, t.bus.lastData, t.clock) = (.mid 0xA9 2, 0xF001, 0, 0xA9, 8) ∧
      (u.cpu.tag, u.cpu.pc, u.cpu.a, u.bus.lastData, u.clock) = (.fetch, 0xF002, 0x80, 0x80, 9) := by
  decide +kernel

/-- R425: a halted CPU makes no access, but the board step is made. -/
theorem test_boardStep_halted :
    let s := start 0xF000 [(0, 0xA9), (1, 0x80)] [] 0 0 0 0xFD (fl 0 0 0 1 0 0)
    let s := { s with cpu := { s.cpu with halted := true } }
    let t := afterSteps 1 s
    (t.regs, t.bus, t.cpu.tag, t.clock, t.tia.hclock) = (s.regs, s.bus, .fetch, 8, 24) := by
  decide +kernel

/-- R411, R413: NMI entry has begun after one board step, and its latch is clear. -/
theorem test_boardStep_nmi :
    let t := afterSteps 1 (interrupted [(0xFFB, 0xF5)] false true (fl 0 0 0 1 1 0))
    (t.cpu.nmiLatch, t.cpu.tag, t.cpu.pc, t.cpu.s) = (false, .entry .nmi 2, 0xF001, 0xFD) := by
  decide +kernel

/-- R474, R475: a collision latch and an input line, above the low six bits of the operand byte. -/
theorem test_tia_read :
    let s := start 0xF000 [(0, 0xA5), (1, 0x01)] [] 0 0 0 0xFD (fl 0 0 0 1 0 0)
    let c := next { s with collision := { Collisions.none with m1p0 := true } }
    let s := start 0xF000 [(0, 0xA5), (1, 0x0C)] [] 0 0 0 0xFD (fl 0 0 0 1 0 0)
    let l := next { s with cfg := { s.cfg with inputs := [(0, { Lines.idle with inpt4 := true })] } }
    (c.cpu.a, l.cpu.a) = (0x81, 0x8C) := by
  decide +kernel

/-- R540, R601, R603: FE in `lip` mode reads the reset vector from its reset bank 0, whatever LIP is drawn. -/
theorem test_fe_reset :
    let p := { Params.default with scheme := .fe, imageSize := 8192, image := [(0xFFD, 0xF1), (0x1FFD, 0xF2)] }
    let s := machineReset p { Draws.zero with lip := 0x1234 }
    (s.cart.bank, s.cpu.pc, s.cpu.lip) = (0, 0xF100, 0x1234) := by
  decide +kernel

/-- R454: the quotient itself, not rounded. -/
theorem test_sampleRate : sampleRate .ntsc * 114 = 3579545 ∧ sampleRate .pal * 114 = 3546894 := by
  decide +kernel

/-- TP1 (R471, R426): after a WSYNC store in board step 9 the next fetch is in step 76. -/
theorem test_wsync :
    let t := next (start 0xF000 [(0, 0x85), (1, 0x02), (2, 0xEA)] [] 0 0 0 0xFD (fl 0 0 0 1 0 0))
    (t.cpu.halted, t.clock, (openRead t).clock, (openRead t).tia.hclock) = (true, 10, 76, 0) := by
  decide +kernel

/-- TP7 (R495): INTIM reads 0xEE, two ticks after it was 0xF0, and the read clears the flag. -/
theorem test_intim :
    let s := start 0xF000 [(0, 0xAD), (1, 0x84), (2, 0x02)] [] 0 0 0 0xFD (fl 0 0 0 1 0 0)
    let t := next { s with pia := { s.pia with countdown := 0xF1, divisor := .d1, sub := 0, flag := true } }
    (t.cpu.a, t.pia.divisor, t.pia.flag) = (0xEE, .d1, false) := by
  decide +kernel

/-- A banked machine after reset, its code and data by image offset. -/
def banked (sch : Scheme) (size : Nat) (sc : Bool) (pc : Addr) (image : Memory) (a x : Byte) : State :=
  let s := start pc image [] a x 0 0xFD (fl 0 0 0 1 0 0)
  { s with cfg := { s.cfg with scheme := sch, imageSize := size, superChip := sc } }

/-- CA1 (R531, R524): F8 switches before the data is chosen. -/
theorem test_f8_read :
    let t := next (banked .f8 8192 false 0xF000
      [(0, 0xAD), (1, 0xF9), (2, 0x1F), (0xFF9, 0x11), (0x1FF9, 0x77)] 0 0)
    (t.cpu.a, t.cart.bank) = (0x77, 1) := by
  decide +kernel

/-- CA4 (R167, R531): a dummy read switches too. -/
theorem test_f8_dummy_read :
    let t := next (banked .f8 8192 false 0xF000 [(0, 0xBD), (1, 0xFA), (2, 0x1F)] 0 0xFF)
    (t.cpu.pc, t.cart.bank, t.clock) = (0xF003, 1, 12) := by
  decide +kernel

/-- CA6 (R532): a read of the SuperChip write port returns and stores the last bus data. -/
theorem test_superchip_write_port :
    let t := next (banked .f8 8192 true 0xF200 [(0x200, 0xAD), (0x201, 0x10), (0x202, 0x10)] 0 0)
    (t.cpu.a, t.cart.ram) = (0x10, [(0x10, 0x10)]) := by
  decide +kernel

/-- CA7 (R533): F6's 0xFF8 selects bank 2. -/
theorem test_f6_read :
    let t := next (banked .f6 16384 false 0xF000 [(0, 0xAD), (1, 0xF8), (2, 0x1F), (0x2FF8, 0x26)] 0 0)
    (t.cpu.a, t.cart.bank) = (0x26, 2) := by
  decide +kernel

/-- CA8 (R535): F0 advances. -/
theorem test_f0_advances :
    (next (banked .f0 65536 false 0xF000 [(0, 0xAD), (1, 0xF0), (2, 0x1F)] 0 0)).cart.bank = 1 := by
  decide +kernel

/-- CA9 (R537): E0's sniffed hotspot sets slice 0. -/
theorem test_e0_slice :
    (next (banked .e0 8192 false 0xFC00 [(0x1C00, 0xAD), (0x1C01, 0xE3), (0x1C02, 0x1F)] 0 0)).cart.s0 = 3 := by
  decide +kernel

/-- CA10 (R538): 3F's bank select is a write to 0x3F. -/
theorem test_3f_write :
    (next (banked .tigervision 8192 false 0xF800 [(0x1800, 0x85), (0x1801, 0x3F)] 1 0)).cart.bank = 1 := by
  decide +kernel

/-- CA11 (R539): UA's bank select, after the access. -/
theorem test_ua_read :
    let t := next (banked .ua 8192 false 0xF000 [(0, 0xAD), (1, 0x40), (2, 0x02)] 0 0)
    (t.cpu.a, t.cart.bank) = (0x02, 1) := by
  decide +kernel

/-- 1.5 (R466): the first frame without VSYNC starts at the 91st line. -/
theorem test_first_frame :
    let f := (Frame.nextLine .ntsc 20)^[91] Frame.reset
    (f.state, f.lineInState, f.emitted) = (.frame, 0, []) := by
  decide +kernel

/-- 1.6 (R481, R482): the ball's one pixel is the fifth tick's. -/
theorem test_resbl :
    let b := ({ Ball.reset with enaNew := true }).resbl
    (List.range 7).map (fun n => (Ball.pixelTick^[n + 1] b).pixel) = [false, false, false, false, true, false, false] := by
  decide +kernel

/-- TP19 (R493, R494), by the tick: TIM64T with 1 shows 1 for 63 more ticks, 0 for 64, then 0xFF with the flag. -/
theorem test_tim64t :
    let p := piaWrite 0x296 1 State.reset.pia
    ((Pia.tick^[63] p).countdown, (Pia.tick^[64] p).countdown, (Pia.tick^[127] p).countdown,
      (Pia.tick^[128] p).countdown, (Pia.tick^[128] p).flag, (Pia.tick^[129] p).countdown) =
      (1, 0, 0, 0xFF, true, 0xFE) := by
  decide +kernel

/-- Building refuses a wrong length (R550) and a refused scheme (R543). -/
theorem test_build_refuses :
    (buildParams .f8 [0] Params.default, buildParams .dpc [0] Params.default) =
      (.error .wrongLength, .error .refusedScheme) := by
  exact rfl

/-! ### Witnesses: every obligation's hypotheses are met, at the boundaries of their clauses -/

/-- `start` with default flags. -/
def w (pc : Addr) (image ram : Memory) (sp : Byte) : State := start pc image ram 0x12 0 0 sp (fl 0 0 0 1 0 0)

/-- A machine about to run `LDA #$80`. -/
abbrev w0 : State := w 0xF000 [(0, 0xA9), (1, 0x80)] [] 0xFF

theorem live_w0 : Live w0 := by decide

theorem inv_of_parts {s : State} (h1 : s.cfg.wf = true)
    (h2 : s.pia.sub < s.pia.divisor.count ∧ s.pia.ram.wf = true ∧ s.pia.ram.below 128 = true)
    (h3 : s.tia = State.reset.tia) (h4 : s.frame = State.reset.frame)
    (h5 : s.cart.bank < bankCount s.cfg ∧ s.cart.ram.wf = true ∧ s.cart.ram.below (extraRamSize s.cfg) = true)
    (h6 : s.cpu.tag = .fetch) : s.Inv := by
  refine ⟨h1, h2, ?_, ?_, h5, ?_, ?_, h6⟩
  · rw [h3]; unfold Tia.Inv; decide
  · rw [h4]; unfold Frame.Inv; decide
  · rw [h4, tiaReg, h3]; decide
  · rw [h4, tiaReg, h3]; decide

/-- The state the fetch cycles of a step leave, from which it runs the instruction: its tag is inside the instruction. -/
def fetched (s : State) : State := (fetchInstr (openRead s)).2

theorem inv_fetched {s : State} (h : s.Inv) : ((fetched s).withTag .fetch).Inv :=
  inv_fetchInstr (inv_withTag_of_sound (sound_of_inv h))

theorem inv_w0 : w0.Inv := inv_of_parts (by decide) (by decide) rfl rfl (by decide) rfl

theorem witness_EncodeOfDecode : decode [0xA9, 0x80, 0x00] = some (.ldaImm 0x80, [0x00]) := rfl

theorem witness_StepRunsDecoded :
    Live w0 ∧ pendingInterrupt (openRead w0) = none ∧
      decode (fetchInstr (openRead w0)).1 = some (.ldaImm 0x80, []) ∧ w0.cpu.halted = false ∧
      (w0.withTag .fetch).Inv := by
  exact ⟨by decide, by decide +kernel, by decide +kernel, rfl, inv_w0⟩

/-- The last two bytes of the image: `LDA #$80` at 0xFFFE. -/
theorem witness_StepRunsImageInstruction :
    let s := w 0xFFFE [(0xFFE, 0xA9), (0xFFF, 0x80)] [] 0xFF
    let i : Instr := .ldaImm 0x80
    Live s ∧ s.cfg.scheme = .vanilla4k ∧ s.cpu.nmiLatch = false ∧ s.cfg.inputs = [] ∧ s.cpu.pc.getLsbD 12 = true ∧
      s.cpu.pc.toNat % 4096 + i.mode.length = 4096 ∧ (s.withTag .fetch).Inv ∧
      ∀ k (h : k < (encode i).length), s.cfg.image.read (s.cpu.pc.toNat % 4096 + k) = (encode i)[k] := by
  refine ⟨by decide, rfl, rfl, rfl, by decide, by decide, inv_of_parts (by decide) (by decide) rfl rfl (by decide) rfl, ?_⟩
  intro k h
  match k, h with
  | 0, _ => rfl
  | 1, _ => rfl

theorem witness_InvalidOpcodeStops :
    let s := w 0xF000 [(0, 0x02)] [] 0xFF
    Live s ∧ pendingInterrupt (openRead s) = none ∧ opcodeLength (busRead s.cpu.pc (openRead s)).1 = none := by
  exact ⟨by decide, by decide +kernel, by decide +kernel⟩

theorem witness_LiveStopsOnlyOnInvalidOpcode :
    let s := w 0xF000 [(0, 0x02)] [] 0xFF
    Live s ∧ ∃ f, step s = .fault f := by
  refine ⟨by decide, ?_⟩
  have h : (match step (w 0xF000 [(0, 0x02)] [] 0xFF) with | .fault _ => true | _ => false) = true := by decide +kernel
  revert h
  cases step (w 0xF000 [(0, 0x02)] [] 0xFF) <;> simp

/-- The step of `w0` goes on. -/
theorem step_w0 : ∃ t, step w0 = .next t := by
  have h : (match step w0 with | .next _ => true | _ => false) = true := by decide +kernel
  revert h
  cases step w0 <;> simp

/-- `w0` halted. -/
abbrev wh : State := { w0 with cpu := { w0.cpu with halted := true } }

theorem next_boardStep {s : State} (h : (match boardStep s with | .next _ => true | _ => false) = true) :
    ∃ t, boardStep s = .next t := by
  revert h
  cases boardStep s <;> simp

theorem witness_LiveStopsOnlyOnInvalidOpcode_kept : Live w0 ∧ ∃ t, step w0 = .next t := ⟨by decide, step_w0⟩

theorem witness_StepIsBoardSteps :
    (w0.cpu.tag = .fetch ∧ w0.traps.fatal = false) ∧ (wh.cpu.tag = .fetch ∧ wh.traps.fatal = false) := by decide

/-- A step that runs the CPU, one that a halt holds, and one inside an instruction. -/
theorem witness_BoardStepEffect :
    (∃ t, boardStep w0 = .next t) ∧ (w0.withTag .fetch).Inv ∧ heldByHalt (beginSlot w0) = false ∧
      (∃ t, boardStep wh = .next t) ∧ heldByHalt (beginSlot wh) = true ∧
      (Live (w0.withTag (.mid 0xA9 2)) ∧ (w0.withTag (.mid 0xA9 2)).cpu.tag ≠ .fetch) := by
  refine ⟨?_, inv_w0, by decide +kernel, ?_, by decide +kernel, by decide, by decide⟩
  · exact next_boardStep (by decide +kernel)
  · exact next_boardStep (by decide +kernel)

/-- The NMI entry's cycle 6, with no edge; a step that begins none and is not that cycle; the edge in the board step of the
clock, and none where the line was asserted before. -/
theorem witness_BoardStepEffect_latch :
    let s := w0.withTag (.entry .nmi 6)
    let line (k j : Nat) : Bool := (linesAt [(k, { Lines.idle with nmi := true })] j).nmi
    (∃ t, boardStep s = .next t) ∧ heldByHalt (beginSlot s) = false ∧
      (w0.cpu.tag = .fetch ∧ w0.cpu.nmiLatch = false ∧ (linesAt w0.cfg.inputs w0.clock).nmi = false) ∧
      (line 7 7 = true ∧ line 7 6 = false ∧ line 6 6 = true) := by
  exact ⟨next_boardStep (by decide +kernel), by decide +kernel, by decide, by decide⟩

theorem witness_BoardStepEffect_nmi :
    let s := { w0 with cpu := { w0.cpu with nmiLatch := true } }
    (∃ t, boardStep s = .next t) ∧ heldByHalt (beginSlot s) = false ∧ s.cpu.tag = .fetch ∧
      pendingInterrupt (beginSlot s) = some .nmi := by
  exact ⟨next_boardStep (by decide +kernel), by decide +kernel, rfl, by decide +kernel⟩

theorem witness_StepKeepsInvariant : w0.Inv ∧ ∃ t, step w0 = .next t := ⟨inv_w0, step_w0⟩

theorem witness_ParametersConstant : ∃ t, step w0 = .next t := step_w0

/-- `w0` with these lines and this latch. -/
abbrev wi (irq nmi i : Bool) : State :=
  { w0 with
    cfg := { w0.cfg with inputs := [(0, { Lines.idle with irq := irq })] }
    cpu := { w0.cpu with nmiLatch := nmi, p := { w0.cpu.p with i := i } } }

/-- A step that runs the CPU: at a boundary with an IRQ that I does not mask, with one it masks, and with none (the opcode
is read), each with no latch and no NMI line; inside an instruction; and inside an entry. -/
theorem witness_BoardStepEffect_cycles :
    let runs (s : State) := (∃ t, boardStep s = .next t) ∧ heldByHalt (beginSlot s) = false
    let boundary (s : State) (irq : Bool) := s.cpu.tag = .fetch ∧
      (s.cpu.nmiLatch || (linesAt s.cfg.inputs s.clock).nmi) = false ∧
      ((linesAt s.cfg.inputs s.clock).irq && !s.cpu.p.i) = irq
    (runs (wi true false false) ∧ boundary (wi true false false) true) ∧
      (runs (wi true false true) ∧ boundary (wi true false true) false) ∧
      (runs w0 ∧ boundary w0 false) ∧ runs (w0.withTag (.mid 0xA9 2)) ∧ runs (w0.withTag (.entry .irq 3)) := by
  refine ⟨⟨⟨next_boardStep ?_, ?_⟩, rfl, ?_, ?_⟩, ⟨⟨next_boardStep ?_, ?_⟩, rfl, ?_, ?_⟩,
    ⟨⟨next_boardStep ?_, ?_⟩, rfl, ?_, ?_⟩, ⟨next_boardStep ?_, ?_⟩, ⟨next_boardStep ?_, ?_⟩⟩ <;> decide +kernel

theorem witness_InterruptPriority :
    (wi true true true).cpu.nmiLatch = true ∧
      ((wi true false false).cpu.nmiLatch = false ∧
        (linesAt (wi true false false).cfg.inputs (wi true false false).clock).irq = true ∧
        (wi true false false).cpu.p.i = false) ∧
      ((wi true false true).cpu.nmiLatch = false ∧ (wi true false true).cpu.p.i = true) ∧
      ((wi false false false).cpu.nmiLatch = false ∧
        (linesAt (wi false false false).cfg.inputs (wi false false false).clock).irq = false) := by decide

/-- IRQ, with the lowest stack that lies in RAM. -/
theorem witness_InterruptEntry_irq :
    let s := { wi true false false with cpu := { (wi true false false).cpu with s := 0x82 } }
    Live s ∧ s.Inv ∧ pendingInterrupt (openRead s) = some .irq ∧ stackInRam 3 s ∧ Quiet s [s.cpu.pc] ∧
      s.cfg.scheme = .vanilla4k := by
  refine ⟨by decide, inv_of_parts (by decide) (by decide) rfl rfl (by decide) rfl, by decide +kernel, by decide, ?_, rfl⟩
  intro a h
  simp only [List.mem_singleton] at h
  subst h
  decide

/-- NMI, with no input trace. -/
theorem witness_InterruptEntry_nmi :
    let s := { w0 with cpu := { w0.cpu with nmiLatch := true } }
    Live s ∧ s.Inv ∧ pendingInterrupt (openRead s) = some .nmi ∧ s.cfg.inputs = [] := by
  exact ⟨by decide, inv_of_parts (by decide) (by decide) rfl rfl (by decide) rfl, by decide +kernel, rfl⟩

/-- The first and the last pointer in RAM, with index 0, and the pointer whose high byte is at 0x00. -/
theorem witness_PointerAddresses :
    Live w0 ∧ (∀ zp ∈ [(0x80 : Byte), 0xFE],
      0x80 ≤ (zp.toNat + w0.cpu.x.toNat) % 256 ∧ 0x80 ≤ ((zp.toNat + w0.cpu.x.toNat) % 256 + 1) % 256 ∧
        0x80 ≤ zp.toNat ∧ 0x80 ≤ (zp.toNat + 1) % 256) ∧
      w0.cfg.collisionOracle = [] ∧ w0.collision = Collisions.none ∧
      ((0xFF : Byte).toNat + w0.cpu.x.toNat) % 256 = 0xFF := by decide

theorem witness_ReadValues :
    Live w0 ∧ isRam 0x0080 = true ∧ isRam 0x05FF = true ∧
      ((0xFFFF : Addr).getLsbD 12 = true ∧ w0.cfg.scheme = .vanilla4k) ∧
      ((0x1000 : Addr).getLsbD 12 = true ∧ (banked .vanilla2k 2048 false 0xF000 [] 0 0).cfg.scheme = .vanilla2k) ∧
      ((0x0100 : Addr).getLsbD 12 = false ∧ (0x0100 : Addr).getLsbD 7 = false) ∧
      ((0x0280 : Addr).getLsbD 12 = false ∧ (0x0280 : Addr).getLsbD 7 = true) := by decide

theorem witness_LoadsSetRegister :
    Live w0 ∧ (Instr.ldaImm 5).kind = .read .lda (.imm 5) ∧ (Instr.ldxZpY 5).kind = .read .ldx (.mem (.zpY 5)) ∧
      (Instr.ldyAbsX 5).kind = .read .ldy (.mem (.absX 5)) := ⟨by decide, rfl, rfl, rfl⟩

/-- An F8 machine with SuperChip RAM. -/
abbrev wsc : State := banked .f8 8192 true 0xF000 [] 0 0

/-- In the state the fetch cycles leave: targets in RAM, the TIA, HMCLR's four registers, a cartridge write port, and a
port register of the PIA. -/
theorem witness_StoresWriteTarget :
    let s := fetched (w 0xF000 [(0, 0x85), (1, 0x80)] [] 0xFF)
    Live s ∧ (s.withTag .fetch).Inv ∧ s.cpu.tag = .mid 0x85 3 ∧ (Instr.staZp 0x80).kind = .write .sta (.zp 0x80) ∧
      storeTargets (writeEa (.zp 0x80) s) (writeBase (.zp 0x80) s) = [(.pia, 0)] ∧
      storeTargets (writeEa (.zp 0x09) s) (writeBase (.zp 0x09) s) = [(.tia, 9)] ∧
      (.tia, 0x23) ∈ storeTargets (writeEa (.zp 0x2B) s) (writeBase (.zp 0x2B) s) ∧
      storeTargets (writeEa (.abs 0x107F) wsc) (writeBase (.abs 0x107F) wsc) = [(.cartridge, 127)] ∧
      Quiet s (resolveReads true (.zp 0x80) s) ∧
      (.pia, 1) ∉ storeTargets (writeEa (.zp 0x80) s) (writeBase (.zp 0x80) s) ∧
      selectsTia (writeEa (.zp 0x1F) s) 0x1F = true ∧ selectsPort (writeEa (.abs 0x0281) s) 1 = true := by
  exact ⟨by decide +kernel, inv_fetched (inv_of_parts (by decide) (by decide) rfl rfl (by decide) rfl), by decide +kernel,
    rfl, by decide +kernel, by decide +kernel, by decide +kernel, by decide +kernel, fun _ h => absurd h (List.not_mem_nil),
    by decide +kernel, by decide +kernel, by decide +kernel⟩

theorem witness_ReadsStoreNothing :
    Live w0 ∧ (Instr.cmpAbs 0xF000).kind = .read .cmp (.mem (.abs 0xF000)) ∧
      Quiet w0 (operandReads (.mem (.abs 0xF000)) w0) := by
  refine ⟨by decide, rfl, ?_⟩
  intro a h
  have : a = 0xF000 := by simpa [operandReads, resolveReads, readEa, resolve] using h
  subst this
  decide

theorem witness_AddSubtractBinary :
    Live w0 ∧ w0.cpu.p.d = false ∧ (Instr.adcImm 5).kind = .read .adc (.imm 5) ∧
      (Instr.sbcZp 5).kind = .read .sbc (.mem (.zp 5)) := ⟨by decide, rfl, rfl, rfl⟩

/-- `w0` in decimal mode with this accumulator. -/
abbrev wd (a : Byte) : State := { w0 with cpu := { w0.cpu with a := a, p := { w0.cpu.p with d := true } } }

theorem witness_AddSubtractDecimal :
    Live (wd 0x99) ∧ (wd 0x99).cpu.p.d = true ∧ bothBcd (wd 0x99).cpu.a (readOperand (.imm 0x99) (wd 0x99)).1 ∧
      bothBcd (wd 0x00).cpu.a (readOperand (.imm 0x00) (wd 0x00)).1 ∧
      (Instr.adcImm 0x99).kind = .read .adc (.imm 0x99) ∧ (Instr.sbcImm 0x99).kind = .read .sbc (.imm 0x99) := by
  exact ⟨by decide, rfl, by decide, by decide, rfl, rfl⟩

/-- An input that is not BCD. -/
theorem witness_AddSubtractDecimal_any :
    Live (wd 0x9A) ∧ (wd 0x9A).cpu.p.d = true ∧ (Instr.adcImm 0xFF).kind = .read .adc (.imm 0xFF) ∧
      ¬ bothBcd (wd 0x9A).cpu.a (readOperand (.imm 0xFF) (wd 0x9A)).1 := by
  exact ⟨by decide, rfl, rfl, by decide⟩

theorem witness_LogicSetsAccumulator :
    Live w0 ∧ (Instr.andImm 5).kind = .read .and (.imm 5) ∧ (Instr.oraImm 5).kind = .read .ora (.imm 5) ∧
      (Instr.eorImm 5).kind = .read .eor (.imm 5) := ⟨by decide, rfl, rfl, rfl⟩

theorem witness_ComparesSetFlags :
    Live w0 ∧ (Instr.cmpImm 5).kind = .read .cmp (.imm 5) ∧ (Instr.cpxImm 5).kind = .read .cpx (.imm 5) ∧
      (Instr.cpyImm 5).kind = .read .cpy (.imm 5) := ⟨by decide, rfl, rfl, rfl⟩

theorem witness_BitTestsMemory : Live w0 ∧ (Instr.bitZp 5).kind = .read .bit (.mem (.zp 5)) := ⟨by decide, rfl⟩

theorem witness_TransfersCopy : Live w0 := by decide

theorem witness_CountersWrap : Live { w0 with cpu := { w0.cpu with x := 0xFF, y := 0x00 } } := by decide

theorem witness_FlagInstructions : Live w0 := by decide

theorem quiet_pc {s : State} {a : Addr} (h : inWritePort s.cfg a = false) : Quiet s [a] := by
  intro b hb
  simp only [List.mem_singleton] at hb
  subst hb
  exact h

theorem witness_ImpliedStoreNothing :
    Live w0 ∧ Instr.nop.kind = .implied .nop ∧ Instr.aslAcc.kind = .accumulator .asl ∧ Quiet w0 [w0.cpu.pc] :=
  ⟨by decide, rfl, rfl, quiet_pc (by decide)⟩

theorem witness_AccumulatorShifts : Live w0 ∧ Instr.rorAcc.kind = .accumulator .ror := ⟨by decide, rfl⟩

theorem witness_ModifyMemory :
    let s := fetched (w 0xF000 [(0, 0xE6), (1, 0xFF)] [] 0xFF)
    Live s ∧ (s.withTag .fetch).Inv ∧ s.cpu.tag = .mid 0xE6 3 ∧ (Instr.incZp 0xFF).kind = .modify .inc (.zp 0xFF) ∧
      (.pia, 127) ∈ storeTargets (writeEa (.zp 0xFF) s) (writeBase (.zp 0xFF) s) ∧
      Quiet s (resolveReads true (.zp 0xFF) s) :=
  ⟨by decide +kernel, inv_fetched (inv_of_parts (by decide) (by decide) rfl rfl (by decide) rfl), by decide +kernel, rfl,
    by decide +kernel, fun _ h => absurd h (List.not_mem_nil)⟩

/-- The state the fetch of the instruction in this image leaves, with this stack pointer. -/
abbrev midOf (image : Memory) (sp : Byte) : State := fetched (w 0xF000 image [] sp)

theorem inv_midOf {image : Memory} {sp : Byte}
    (h : (image, sp) ∈ [([(0, (0x48 : Byte))], (0x80 : Byte)), ([(0, 0x20), (2, 0xF1)], 0x81), ([], 0x82)]) :
    ((midOf image sp).withTag .fetch).Inv := by
  refine inv_fetched ?_
  simp only [List.mem_cons, Prod.mk.injEq, List.not_mem_nil, or_false] at h
  rcases h with ⟨rfl, rfl⟩ | ⟨rfl, rfl⟩ | ⟨rfl, rfl⟩ <;>
    exact inv_of_parts (by decide) (by decide) rfl rfl (by decide) rfl

/-- The lowest stack pointer with the stack in RAM for one, two and three pushes; and one at a TIA register. -/
theorem witness_PushesWriteStack :
    let s := midOf [(0, 0x48)] 0x80
    Live s ∧ (s.withTag .fetch).Inv ∧ s.cpu.tag = .mid 0x48 2 ∧ stackInRam 1 s ∧ Quiet s [s.cpu.pc] ∧
      (.pia, 1) ∉ storeTargets (pushAddr s 0) s ∧ storeTargets (pushAddr (midOf [(0, 0x08)] 0x09) 0) s = [(.tia, 9)] :=
  ⟨by decide +kernel, inv_midOf (by decide), by decide +kernel, by decide +kernel, quiet_pc (by decide +kernel),
    by decide +kernel, by decide +kernel⟩

/-- The first and the last stack pointer for which one pulled byte is in RAM. -/
theorem witness_PullsReadStack :
    Live (w 0xF000 [] [] 0x7F) ∧ pullsInRam (w 0xF000 [] [] 0x7F) 1 ∧ pullsInRam (w 0xF000 [] [] 0xFE) 1 ∧
      Quiet (w 0xF000 [] [] 0x7F) [0xF000] := ⟨by decide, by decide, by decide, quiet_pc (by decide)⟩

theorem witness_JumpsSetPc : Live w0 ∧ Quiet w0 [0x10FF, 0x1000] := by
  refine ⟨by decide, ?_⟩
  intro a h
  simp only [List.mem_cons, List.not_mem_nil, or_false] at h
  rcases h with rfl | rfl <;> decide

theorem witness_JsrPushesReturn :
    let s := midOf [(0, 0x20), (2, 0xF1)] 0x81
    Live s ∧ (s.withTag .fetch).Inv ∧ s.cpu.tag = .mid 0x20 3 ∧ stackInRam 2 s ∧ Quiet s [s.cpu.pc] :=
  ⟨by decide +kernel, inv_midOf (by decide), by decide +kernel, by decide +kernel, quiet_pc (by decide +kernel)⟩

theorem witness_RtsPullsReturn :
    Live (w 0xF001 [] [] 0x7F) ∧ pullsInRam (w 0xF001 [] [] 0x7F) 2 ∧ pullsInRam (w 0xF001 [] [] 0xFD) 2 :=
  ⟨by decide, by decide, by decide⟩

/-- The next state of an instruction run here. -/
def ran (i : Instr) (s : State) : State := match exec i s with | .next t => t | _ => s

theorem ran_eq {i : Instr} {s : State} (h : (match exec i s with | .next _ => true | _ => false) = true) :
    exec i s = .next (ran i s) := by
  unfold ran
  revert h
  cases exec i s <;> simp

theorem witness_RtsReturnsFromJsr :
    let s := midOf [(0, 0x20), (2, 0xF1)] 0x81
    Live s ∧ (s.withTag .fetch).Inv ∧ stackInRam 2 s ∧ exec (.jsr 0xF100) s = .next (ran (.jsr 0xF100) s) ∧
      exec .rts (ran (.jsr 0xF100) s) = .next (ran .rts (ran (.jsr 0xF100) s)) := by
  exact ⟨by decide +kernel, inv_midOf (by decide), by decide +kernel, ran_eq (by decide +kernel), ran_eq (by decide +kernel)⟩

theorem witness_BranchesTestFlag :
    let s := w 0xF002 [] [] 0xFF
    Live s ∧ (Instr.bcc 0x80).kind = .branch .bcc 0x80 ∧ (Instr.bvs 0x7F).kind = .branch .bvs 0x7F ∧
      Quiet s [s.cpu.pc, BitVec.ofNat 16 (256 * (s.cpu.pc.toNat / 256) + (branchTarget 0x80 s).toNat % 256)] := by
  refine ⟨by decide, rfl, rfl, ?_⟩
  intro a h
  simp only [List.mem_cons, List.not_mem_nil, or_false] at h
  rcases h with rfl | rfl <;> decide

theorem witness_BrkEntersVector :
    let s := midOf [] 0x82
    Live s ∧ (s.withTag .fetch).Inv ∧ s.cpu.tag = .mid 0x00 2 ∧ stackInRam 3 s ∧ Quiet s [s.cpu.pc] ∧
      s.cfg.scheme = .vanilla4k :=
  ⟨by decide +kernel, inv_midOf (by decide), by decide +kernel, by decide +kernel, quiet_pc (by decide +kernel),
    by decide +kernel⟩

theorem witness_RtiRestores :
    Live (w 0xF001 [] [] 0x7F) ∧ pullsInRam (w 0xF001 [] [] 0x7F) 3 ∧ pullsInRam (w 0xF001 [] [] 0xFC) 3 :=
  ⟨by decide, by decide, by decide⟩

theorem witness_RtiReturnsFromBrk :
    let s := midOf [] 0x82
    Live s ∧ (s.withTag .fetch).Inv ∧ stackInRam 3 s ∧ exec .brk s = .next (ran .brk s) ∧
      exec .rti (ran .brk s) = .next (ran .rti (ran .brk s)) := by
  exact ⟨by decide +kernel, inv_midOf (by decide), by decide +kernel, ran_eq (by decide +kernel), ran_eq (by decide +kernel)⟩

/-- D, I and V change: SED, BRK (with I clear) and BIT. -/
theorem witness_FlagWriters :
    let s := start 0xF001 [(1, 0xC0)] [] 0 0 0 0xFF (fl 0 0 0 0 0 0)
    exec .sed s = .next (ran .sed s) ∧ (ran .sed s).cpu.p.d ≠ s.cpu.p.d ∧
      exec .brk s = .next (ran .brk s) ∧ (ran .brk s).cpu.p.i ≠ s.cpu.p.i ∧
      exec (.bitAbs 0xF001) s = .next (ran (.bitAbs 0xF001) s) ∧ (ran (.bitAbs 0xF001) s).cpu.p.v ≠ s.cpu.p.v := by
  exact ⟨ran_eq (by decide +kernel), by decide +kernel, ran_eq (by decide +kernel), by decide +kernel,
    ran_eq (by decide +kernel), by decide +kernel⟩

/-- A, X, Y and S change: LDA, INX, DEY, PHA. -/
theorem witness_RegisterWriters :
    exec (.ldaImm 5) w0 = .next (ran (.ldaImm 5) w0) ∧ (ran (.ldaImm 5) w0).cpu.a ≠ w0.cpu.a ∧
      exec .inx w0 = .next (ran .inx w0) ∧ (ran .inx w0).cpu.x ≠ w0.cpu.x ∧
      exec .dey w0 = .next (ran .dey w0) ∧ (ran .dey w0).cpu.y ≠ w0.cpu.y ∧
      exec .pha w0 = .next (ran .pha w0) ∧ (ran .pha w0).cpu.s ≠ w0.cpu.s := by
  exact ⟨ran_eq (by decide +kernel), by decide +kernel, ran_eq (by decide +kernel), by decide +kernel,
    ran_eq (by decide +kernel), by decide +kernel, ran_eq (by decide +kernel), by decide +kernel⟩

theorem witness_ResetMeetsInvariant :
    Params.default.wf = true ∧ Draws.zero.piaRam.wf = true ∧ Draws.zero.piaRam.below 128 = true ∧
      Draws.zero.cartRam.wf = true ∧ Draws.zero.cartRam.below (extraRamSize Params.default) = true ∧
      Draws.zero.sub < Draws.zero.divisor.count := by decide

theorem no_wsync_inc : ∀ a ∈ innerWrites (.incZp 0x80) w0, hitsWsync a = false := by
  intro a h
  rw [show innerWrites (.incZp 0x80) w0 = [writeEa (.zp 0x80) w0] from rfl, List.mem_singleton] at h
  rw [h]
  rfl

theorem no_wsync_push :
    hitsWsync (pushAddr w0 0) = false ∧ hitsWsync (pushAddr w0 1) = false ∧ hitsWsync (pushAddr w0 2) = false :=
  ⟨rfl, rfl, rfl⟩

theorem no_wsync_jsr : ∀ a ∈ [pushAddr w0 0, pushAddr w0 1], hitsWsync a = false := by
  simp only [List.mem_cons, List.not_mem_nil, or_false]
  rintro a (rfl | rfl)
  exacts [no_wsync_push.1, no_wsync_push.2.1]

theorem no_wsync_brk : ∀ a ∈ [pushAddr w0 0, pushAddr w0 1, pushAddr w0 2], hitsWsync a = false := by
  simp only [List.mem_cons, List.not_mem_nil, or_false]
  rintro a (rfl | rfl | rfl)
  exacts [no_wsync_push.1, no_wsync_push.2.1, no_wsync_push.2.2]

/-- A read-modify-write of RAM, JSR, BRK with the stack in RAM. -/
theorem witness_CycleCounts :
    Live w0 ∧ w0.cpu.halted = false ∧ (∀ a ∈ innerWrites (.incZp 0x80) w0, hitsWsync a = false) ∧
      (∀ a ∈ innerWrites (.jsr 0xF100) w0, hitsWsync a = false) ∧ (∀ a ∈ innerWrites .brk w0, hitsWsync a = false) := by
  refine ⟨by decide, rfl, ?_, ?_, ?_⟩
  · exact no_wsync_inc
  · rw [innerWrites_jsr]
    exact no_wsync_jsr
  · rw [innerWrites_brk]
    exact no_wsync_brk

theorem witness_HaltEnds : w0.cpu.halted = false := rfl

theorem witness_HaltEnds_resumes :
    let s := { w0 with cpu := { w0.cpu with halted := true } }
    s.cfg.order = .cpuPiaTia ∧ s.cfg.tiaClk = .three ∧ s.cpu.halted = true := ⟨rfl, rfl, rfl⟩

theorem witness_BusMirrors : (0x0080 : Addr).toNat % 8192 = (0x2080 : Addr).toNat % 8192 := by decide

/-- A machine at `pc` where this access traps. -/
abbrev wt (pc : Addr) (handler : Bool) (kind : AccessKind) (addr : BusAddr) : State :=
  let s := w pc [] [] 0xFF
  { s with cfg := { s.cfg with trapHandler := handler, chipTrap := [{ kind := kind, addr := addr, data := none }] } }

theorem wt_traps (pc : Addr) (b : Bool) (kind : AccessKind) (m : BusAddr) (v : Byte) :
    chipTraps (wt pc b kind m).cfg kind m v = true := by
  cases kind <;> simp [chipTraps]

/-- Every clause without a handler: an opcode fetch, a load, a store, the two accesses of a read-modify-write, the
pushes. -/
theorem witness_TrappingAccesses :
    let f := wt 0xF000 false .read 0x1000
    let r := wt 0xF000 false .read 0x0080
    let v := wt 0xF000 false .write 0x0080
    let q := wt 0xF000 false .write 0x01FF
    (f.cfg.trapHandler = false ∧ f.traps.fatal = false ∧ pendingInterrupt (openRead f) = none ∧
        chipTraps f.cfg .read (maskAddr f.cpu.pc) (busRead f.cpu.pc (openRead f)).1 = true) ∧
      ((Instr.ldaZp 0x80).kind = .read .lda (.mem (.zp 0x80)) ∧ (readBase (.zp 0x80) r).traps.fatal = false ∧
        chipTraps (readBase (.zp 0x80) r).cfg .read (maskAddr (readEa (.zp 0x80) r))
          (busRead (readEa (.zp 0x80) r) (openRead (readBase (.zp 0x80) r))).1 = true) ∧
      ((Instr.staZp 0x80).kind = .write .sta (.zp 0x80) ∧ (writeBase (.zp 0x80) v).traps.fatal = false ∧
        chipTraps (writeBase (.zp 0x80) v).cfg .write (maskAddr (writeEa (.zp 0x80) v)) v.cpu.a = true) ∧
      ((Instr.incZp 0x80).kind = .modify .inc (.zp 0x80) ∧
        chipTraps (writeBase (.zp 0x80) r).cfg .read (maskAddr (writeEa (.zp 0x80) r))
          (busRead (writeEa (.zp 0x80) r) (openRead (writeBase (.zp 0x80) r))).1 = true ∧
        (readCycle (writeEa (.zp 0x80) v) (writeBase (.zp 0x80) v)).2.traps.fatal = false ∧
        chipTraps (readCycle (writeEa (.zp 0x80) v) (writeBase (.zp 0x80) v)).2.cfg .write
          (maskAddr (writeEa (.zp 0x80) v)) (readCycle (writeEa (.zp 0x80) v) (writeBase (.zp 0x80) v)).1 = true) ∧
      ((dummyFetch q).traps.fatal = false ∧
        chipTraps (dummyFetch q).cfg .write (maskAddr (pushAddr q 0)) q.cpu.a = true) ∧
      ((dummyStack q).traps.fatal = false ∧
        chipTraps (dummyStack q).cfg .write (maskAddr (pushAddr q 0)) (hiByte q.cpu.pc) = true) := by
  have hm : (readCycle 0x0080 (writeBase (.zp 0x80) (wt 0xF000 false .write 0x0080))).2.cfg =
      (wt 0xF000 false .write 0x0080).cfg := cfg_readCycle _ _
  refine ⟨⟨rfl, rfl, by decide +kernel, wt_traps _ _ _ _ _⟩, ⟨rfl, rfl, wt_traps _ _ _ _ _⟩,
    ⟨rfl, rfl, wt_traps _ _ _ _ _⟩, ⟨rfl, wt_traps _ _ _ _ _, by decide +kernel, ?_⟩,
    ⟨by decide +kernel, ?_⟩, ⟨by decide +kernel, ?_⟩⟩
  · rw [show writeEa (.zp 0x80) (wt 0xF000 false .write 0x0080) = 0x0080 from rfl, hm]
    exact wt_traps _ _ _ _ _
  · rw [show (dummyFetch _).cfg = _ from cfg_readCycle _ _]
    exact wt_traps _ _ _ _ _
  · rw [show (dummyStack _).cfg = _ from cfg_readCycle _ _]
    exact wt_traps _ _ _ _ _

/-- With a handler. -/
theorem witness_TrappingAccesses_handled :
    let r := wt 0xF000 true .read 0x0080
    let v := wt 0xF000 true .write 0x0080
    r.cfg.trapHandler = true ∧ r.traps.fatal = false ∧
      chipTraps r.cfg .read (maskAddr 0x0080) (busRead 0x0080 (openRead r)).1 = true ∧
      v.cfg.trapHandler = true ∧ v.traps.fatal = false ∧ chipTraps v.cfg .write (maskAddr 0x0080) 5 = true ∧
      (readBase (.zp 0x80) r).traps.fatal = false ∧
      chipTraps (readBase (.zp 0x80) r).cfg .read (maskAddr (readEa (.zp 0x80) r))
        (busRead (readEa (.zp 0x80) r) (openRead (readBase (.zp 0x80) r))).1 = true :=
  ⟨rfl, rfl, wt_traps _ _ _ _ _, rfl, rfl, wt_traps _ _ _ _ _, rfl, wt_traps _ _ _ _ _⟩

/-- The first and the last timer write; the shortest interval has `v = 0` and divisor 1. -/
theorem witness_TimerCountsDown :
    (0x0294 : BusAddr).getLsbD 9 = true ∧ (0x0294 : BusAddr).getLsbD 2 = true ∧ (0x0294 : BusAddr).getLsbD 4 = true ∧
      (0x0297 : BusAddr).getLsbD 9 = true ∧ (0x0297 : BusAddr).getLsbD 2 = true ∧
      (0x0297 : BusAddr).getLsbD 4 = true := ⟨rfl, rfl, rfl, rfl, rfl, rfl⟩

theorem witness_PiaReads :
    (0x00FF : BusAddr).getLsbD 9 = false ∧
      ((0x0284 : BusAddr).getLsbD 9 = true ∧ (0x0284 : BusAddr).getLsbD 2 = true ∧ (0x0284 : BusAddr).getLsbD 0 = false) ∧
      ((0x0285 : BusAddr).getLsbD 9 = true ∧ (0x0285 : BusAddr).getLsbD 2 = true ∧ (0x0285 : BusAddr).getLsbD 0 = true) ∧
      ((0x0280 : BusAddr).getLsbD 9 = true ∧ (0x0280 : BusAddr).getLsbD 2 = false ∧ (0x0280 : BusAddr).toNat % 4 = 0) ∧
      ((0x0282 : BusAddr).getLsbD 9 = true ∧ (0x0282 : BusAddr).getLsbD 2 = false ∧ (0x0282 : BusAddr).toNat % 4 = 2) := by
  decide

/-- The wrap and the clock before it; the blank's two ends; a movement step that stops the ball, one that moves it in the
blank, one outside the blank, and a tick that makes none. -/
theorem witness_TiaTickCounts :
    let t (hc : Fin 228) (ext act : Bool) (mc : Nat) (mov : Bool) : Tia :=
      { w0.tia with
        hclock := hc, hmoveExt := ext, mactive := act, mclock := mc, ball := { Ball.reset with hmm := 15, moving := mov } }
    let blank (u : Tia) : Prop := u.hclock.val < 68 ∨ u.hmoveExt = true ∧ u.hclock.val < 76
    let moves (u : Tia) : Prop := u.mactive = true ∧ u.hclock.val % 4 = 0
    ((t 227 false false 0 false).hclock.val = 227 ∧ (t 226 false false 0 false).hclock.val ≠ 227) ∧
      (blank (t 67 false false 0 false) ∧ ¬ blank (t 68 false false 0 false) ∧ blank (t 75 true false 0 false) ∧
        ¬ blank (t 76 true false 0 false)) ∧
      (moves (t 0 true true 15 true) ∧ (t 0 true true 15 true).mclock = (t 0 true true 15 true).ball.hmm.val) ∧
      (moves (t 72 true true 14 true) ∧ (t 72 true true 14 true).mclock ≠ (t 72 true true 14 true).ball.hmm.val ∧
        (t 72 true true 14 true).ball.moving = true ∧ blank (t 72 true true 14 true)) ∧
      (moves (t 76 true true 14 true) ∧ ¬ ((t 76 true true 14 true).ball.moving = true ∧ blank (t 76 true true 14 true))) ∧
      ¬ moves (t 1 true true 0 true) ∧ ¬ moves (t 0 true false 0 true) := by decide

/-- R462 by its table, through a mirror of VSYNC: a rise ends a frame and hands its buffer out, a fall leads to the wait
for the frame, a rise there leads back, and a write that changes nothing leaves all (R472). -/
theorem test_vsyncWrites :
    let u (st : FrameState) (vs : Bool) (b : Option Nat) : State :=
      { w0 with frame := { w0.frame with state := st, lineInState := 7, vsync := vs, buffer := b } }
    let f (s : State) (v : Byte) : Frame := (busWrite 0x0040 v s).frame
    (f (u .frame false (some 3)) 2).state = .waitForVsyncEnd ∧ (f (u .frame false (some 3)) 2).emitted = [3] ∧
      (f (u .frame false (some 3)) 2).buffer = none ∧ (f (u .frame true (some 3)) 0).state = .frame ∧
      (f (u .waitForVsyncEnd true none) 0).state = .waitForFrameStart ∧
      (f (u .waitForFrameStart false none) 2).lineInState = 0 ∧
      f (u .waitForFrameStart false none) 1 = (u .waitForFrameStart false none).frame := by decide

/-- TP11's arithmetic, one tick: HMBL 0x10 is 9 clocks, and the tick with count 8 still moves the ball, count 9 stops it,
and the sixteenth count ends the motion (R484). -/
theorem test_movementTick :
    let u (mc : Nat) : State :=
      { w0 with tia := { w0.tia with hclock := 4, mactive := true, mclock := mc, ball := { Ball.reset with hmm := 9, moving := true } } }
    (tiaTick (u 8)).tia.ball.counter = 1 ∧ (tiaTick (u 8)).tia.ball.moving = true ∧
      (tiaTick (u 9)).tia.ball.counter = 0 ∧ (tiaTick (u 9)).tia.ball.moving = false ∧
      (tiaTick (u 14)).tia.mactive = true ∧ (tiaTick (u 15)).tia.mactive = false := by decide

theorem witness_BallAfterResbl :
    let b := { Ball.reset with enaNew := true }
    let d := { Ball.reset with enaOld := true, vdel := true }
    (if b.vdel then b.enaOld else b.enaNew) = true ∧ (if d.vdel then d.enaOld else d.enaNew) = true ∧
      (1 : Nat) ≤ 1 ∧ (160 : Nat) ≤ 160 := by decide

theorem witness_HotspotsIdempotent :
    ({ Params.default with scheme := .f8 }).scheme ≠ .f0 ∧ ({ Params.default with scheme := .ua }).scheme ≠ .fe := by decide

/-- The first and the last hotspot, and where the RAM overlay ends. -/
theorem witness_HotspotSwitches :
    let p (sch : Scheme) (sc : Bool) : Params := { Params.default with scheme := sch, superChip := sc }
    ((p .f8 true).scheme = .f8 ∧ (if (p .f8 true).superChip then 256 else 0) ≤ (0x1100 : BusAddr).toNat % 4096) ∧
      ((p .f6 false).scheme = .f6 ∧ (if (p .f6 false).superChip then 256 else 0) ≤ (0x1000 : BusAddr).toNat % 4096) ∧
      ((p .f4 false).scheme = .f4 ∧ (0x1FFB : BusAddr).toNat % 4096 = 0xFF4 + 8 - 1) ∧
      ((p .fa false).scheme = .fa ∧ 512 ≤ (0x1200 : BusAddr).toNat % 4096) ∧
      ((p .ef false).scheme = .ef ∧ (0x1FEF : BusAddr).toNat % 4096 = 0xFE0 + 16 - 1) ∧ (p .f0 false).scheme = .f0 ∧
      (p .fe false).scheme = .fe ∧
      ((p .e7 false).scheme = .e7 ∧ 0xA00 ≤ (0x1A00 : BusAddr).toNat % 4096 ∧ (0x17FF : BusAddr).toNat % 4096 < 0x800 ∧
        (Cart.reset []).lower ≠ 7) := by decide

/-- The bounds of 3F's and 3E's windows, with and without a RAM block. -/
theorem witness_ListenerSwitches :
    let p (sch : Scheme) : Params := { Params.default with scheme := sch }
    (p .e0).scheme = .e0 ∧ (p .tigervision).scheme = .tigervision ∧ (p .ua).scheme = .ua ∧
      ((p .cv).scheme = .cv ∧ 2048 ≤ (0x1800 : BusAddr).toNat % 4096) ∧
      ((p .scheme3E).scheme = .scheme3E ∧ (0x17FF : BusAddr).toNat % 4096 < 2048 ∧ (Cart.reset []).ramBlock = none) ∧
      (0x003E : BusAddr).toNat = 0x3E ∧ (0x003F : BusAddr).toNat = 0x3F ∧ (0x0040 : BusAddr).toNat ≠ 0x3F ∧
      ({ p .fe with feMode := .stackSniff }).scheme = .fe ∧ ({ p .fe with feMode := .stackSniff }).feMode = .stackSniff ∧
      ({ p .fe with feMode := .lip }).feMode = .lip ∧
      (p .f8).scheme ∉ [Scheme.e0, .tigervision, .ua, .scheme3E, .fe] := by decide

theorem witness_ExtraRam :
    let p (sch : Scheme) (sc : Bool) : Params := { Params.default with scheme := sch, superChip := sc }
    let c := Cart.reset [(5, 1)]
    c.ram.wf = true ∧
      ((p .f8 true).scheme ∈ [Scheme.f8, .f6, .f4] ∧ (p .f8 true).superChip = true ∧
        (0x107F : BusAddr).toNat % 4096 < 0x80 ∧ 0x80 ≤ (0x1080 : BusAddr).toNat % 4096 ∧
        (0x10FF : BusAddr).toNat % 4096 < 0x100) ∧
      ((p .fa false).scheme = .fa ∧ (0x10FF : BusAddr).toNat % 4096 < 0x100 ∧
        0x100 ≤ (0x1100 : BusAddr).toNat % 4096 ∧ (0x11FF : BusAddr).toNat % 4096 < 0x200) ∧
      ((p .e7 false).scheme = .e7 ∧ ({ c with lower := 7 }).lower = 7 ∧ (0x13FF : BusAddr).toNat % 4096 < 0x400 ∧
        0x400 ≤ (0x1400 : BusAddr).toNat % 4096 ∧ 0x800 ≤ (0x1800 : BusAddr).toNat % 4096 ∧
        (0x18FF : BusAddr).toNat % 4096 < 0x900 ∧ 0x900 ≤ (0x1900 : BusAddr).toNat % 4096 ∧
        (0x19FF : BusAddr).toNat % 4096 < 0xA00) ∧
      (p .cv false).scheme = .cv ∧
      ((p .scheme3E false).scheme = .scheme3E ∧ ({ c with ramBlock := some 31 }).ramBlock = some 31) := by decide

/-- A refused name; a right and a wrong length; 3F's shortest image; what is built. -/
theorem witness_ConstructionChecks :
    SchemeName.dpc ∈ [SchemeName.dpc, .dpcPlus, .cdf, .fa2, .pp, .supercharger, .econobanking] ∧
      (List.replicate 2048 (0x11 : Byte)).length = 2048 ∧ ([] : List Byte).length ≠ 2048 ∧
      (List.replicate 2048 (0x11 : Byte)).length = 2048 * (0 + 1) ∧ ([] : List Byte).length = 0 ∧
      [(0x11 : Byte)].length % 2048 ≠ 0 ∧ Params.default.budgetInRange = true ∧
      ∃ q, buildParams .vanilla2k (List.replicate 2048 0x11) Params.default = .ok q := by
  refine ⟨by decide, List.length_replicate, by decide, List.length_replicate, rfl, by decide, by decide, ?_⟩
  unfold buildParams
  simp only [SchemeName.scheme, List.length_replicate]
  exact ⟨_, if_pos (by decide)⟩

theorem witness_ResetValues :
    Params.default.scheme = .vanilla4k ∧ Params.default.chipTrap = [] ∧ Params.default.collisionOracle = [] ∧
      ({ Params.default with scheme := .e0 }).chipTrap = [] := ⟨rfl, rfl, rfl, rfl⟩

end Sys2Proof.Tests
end

namespace Sys2Proof.Machine

/-! ## What a step can do -/

/-- The four things a step does from an instruction boundary (R11, R160, R402, R413): a stopped machine stays stopped, an
interrupt is entered, the decoded instruction runs, or the fetched opcode is invalid. -/
theorem step_cases (s : State) :
    (s.traps.fatal = true ∧ step s = .fault (stopReason s)) ∨
    (∃ k, s.traps.fatal = false ∧ pendingInterrupt (openRead s) = some k ∧
      step s = finish (interruptEntry k (openRead s))) ∨
    (∃ i rest, s.traps.fatal = false ∧ pendingInterrupt (openRead s) = none ∧
      decode (fetchInstr (openRead s)).1 = some (i, rest) ∧ step s = exec i (fetchInstr (openRead s)).2) ∨
    (s.traps.fatal = false ∧ pendingInterrupt (openRead s) = none ∧
      decode (fetchInstr (openRead s)).1 = none ∧ step s = .fault (stopReason (fetchInstr (openRead s)).2)) := by
  cases hf : s.traps.fatal with
  | true => exact .inl ⟨rfl, by simp [step, nextAction, hf]⟩
  | false =>
    cases hp : pendingInterrupt (openRead s) with
    | some k => exact .inr (.inl ⟨k, rfl, rfl, by simp [step, nextAction, hf, hp]⟩)
    | none =>
      cases hd : decode (fetchInstr (openRead s)).1 with
      | some d => exact .inr (.inr (.inl ⟨d.1, d.2, rfl, rfl, rfl, by simp [step, nextAction, hf, hp, hd]⟩))
      | none => exact .inr (.inr (.inr ⟨rfl, rfl, rfl, by simp [step, nextAction, hf, hp, hd]⟩))

theorem outOf_ne_refused (t : State) (r : Refusal) : outOf t ≠ .refused r := by
  unfold outOf
  split <;> simp

/-- No step is refused. -/
theorem step_ne_refused (s : State) (r : Refusal) : step s ≠ .refused r := by
  rcases step_cases s with ⟨-, h⟩ | ⟨k, -, -, h⟩ | ⟨i, rest, -, -, -, h⟩ | ⟨-, -, -, h⟩ <;> rw [h]
  · exact nofun
  · rw [finish_eq_outOf]; exact outOf_ne_refused _ r
  · obtain ⟨y, hy⟩ := exec_outOf i (fetchInstr (openRead s)).2
    rw [hy]; exact outOf_ne_refused y r
  · exact nofun

theorem live_interruptEntry {k : Interrupt} {s : State} (h : Live s) : Live (interruptEntry k s) := by
  have h1 : Live (dummyFetch (readHere s.cpu.pc (beginEntry k s)).2) :=
    live_dummyFetch (live_readHere (live_beginEntry h))
  cases k
  · exact live_enterVector h1
  · exact live_enterVector h1

/-- The stop of an invalid opcode names the opcode and its address (R402). -/
theorem stopReason_fetchInstr {s : State} (h : Live s) (hv : opcodeLength (busRead s.cpu.pc s).1 = none) :
    stopReason (fetchInstr s).2 =
      .invalidOpcode (busRead s.cpu.pc s).1 s.cpu.pc (fetchInstr s).2 := by
  have ht : (fetchInstr s).2.traps.log.getLast? = some (.invalidOpcode (busRead s.cpu.pc s).1 s.cpu.pc) := by
    rw [(fetchInstr_invalid h hv).2, traps_endCycle, raiseInvalidOpcode, traps_opcodeDone, fatal_busRead h]
    exact List.getLast?_concat
  unfold stopReason
  rw [ht]

/-- A step of a live machine goes on in a live machine, or stops at an invalid opcode at PC (R402). -/
theorem step_of_live {s : State} (h : Live s) :
    (∃ t, step s = .next t ∧ Live t) ∨
      ∃ op u, step s = .fault (.invalidOpcode op s.cpu.pc u) ∧ opcodeLength op = none := by
  have hb := live_openRead h
  rcases step_cases s with ⟨hf, -⟩ | ⟨k, -, -, hs⟩ | ⟨i, rest, -, -, hd, hs⟩ | ⟨-, -, hd, hs⟩
  · rw [h.1] at hf; cases hf
  · have hl := live_interruptEntry (k := k) hb
    exact .inl ⟨_, hs.trans (finish_of_live hl), hl⟩
  · obtain ⟨t, ht, hl⟩ := exec_of_live i (fetchInstr_of_decode hb hd).1
    exact .inl ⟨t, hs.trans ht, hl⟩
  · have hv := opcodeLength_of_fetch hd
    have hpc : (openRead s).cpu.pc = s.cpu.pc := congrArg Regs.pc (regs_openRead s)
    rw [stopReason_fetchInstr hb hv] at hs
    exact .inr ⟨_, _, by rw [hs, hpc], hv⟩

/-- Settles O8: by the four things a step can do. -/
theorem liveStopsOnlyOnInvalidOpcode : Obligations.LiveStopsOnlyOnInvalidOpcode := by
  refine ⟨step_ne_refused, fun s f h hs => ?_, fun s t h hs => ?_⟩
  · rcases step_of_live h with ⟨u, hu, -⟩ | ⟨op, u, hu, hop⟩ <;> rw [hu] at hs <;> cases hs
    exact ⟨op, u, rfl, hop⟩
  · rcases step_of_live h with ⟨u, hu, hl⟩ | ⟨op, u, hu, -⟩ <;> rw [hu] at hs <;> cases hs
    exact hl

/-! ## A step as board steps -/

/-- A machine that stops in cycle 1 fetches nothing more. -/
theorem fetchInstr_stopped {b : State} (hf : (fetchOpcode b).2.traps.fatal = true) :
    (fetchInstr b).2 = (fetchOpcode b).2 := by
  rcases fetchInstr_cases b with ⟨-, he⟩ | ⟨-, he⟩ | ⟨-, he⟩ | ⟨-, -, he⟩ | ⟨-, -, he⟩ <;> rw [he]
  · exact fetchLo_fatal hf
  · exact fetchLo_fatal hf
  · show (fetchHi (fetchLo (fetchOpcode b).2).2).2 = _
    rw [fetchLo_fatal hf, fetchHi_fatal hf]

/-- From the end of a valid opcode's cycle 1, the board steps of its other cycles lead where `exec` leads. -/
theorem goes_fetchInstr {b : State} (hf : (fetchOpcode b).2.traps.fatal = false) :
    ∃ i rest y, decode (fetchInstr b).1 = some (i, rest) ∧ exec i (fetchInstr b).2 = outOf y ∧
      Goes (fetchOpcode b).2 y := by
  obtain ⟨hv, ht⟩ := fetchOpcode_running hf
  rcases goes_instr hf ht hv with ⟨i, rest, y, hl, hd, he, hg⟩ | ⟨i, rest, y, hl, hd, he, hg⟩ |
    ⟨i, rest, y, hl, hj, hd, he, hg⟩ | ⟨i, rest, y, hl, hj, hd, he, hg⟩
  · refine ⟨i, rest, y, ?_, ?_, hg⟩ <;> simp only [fetchInstr, hl, hd, he]
  · refine ⟨i, rest, y, ?_, ?_, hg⟩ <;> simp only [fetchInstr, hl, hd, he]
  · refine ⟨i, rest, y, ?_, ?_, hg⟩ <;> simp only [fetchInstr, hl, if_pos hj, hd, he]
  · refine ⟨i, rest, y, ?_, ?_, hg⟩ <;> simp only [fetchInstr, hl, if_neg hj, hd, he]

/-- A step of a machine that has not stopped is its first cycle, in the CPU's next slot, and the board steps of its other
cycles; nothing follows a stop in the first. -/
theorem step_eq_outOf {s : State} (ht : s.cpu.tag = .fetch) (hf : s.traps.fatal = false) :
    ∃ y, step s = outOf y ∧
      ((cpuCycle (openRead s)).traps.fatal = false → Goes (cpuCycle (openRead s)) y) ∧
      ((cpuCycle (openRead s)).traps.fatal = true → y = cpuCycle (openRead s)) := by
  have hb : (openRead s).cpu.tag = .fetch := (tag_openRead s).trans ht
  rcases step_cases s with ⟨hs, -⟩ | ⟨k, -, hp, hs⟩ | ⟨i, rest, -, hp, hd, hs⟩ | ⟨-, hp, hd, hs⟩
  · rw [hf] at hs; cases hs
  · have hc : cpuCycle (openRead s) = (readHere (openRead s).cpu.pc (beginEntry k (openRead s))).2 := by
      simp only [cpuCycle, hb, hp]
    have hends := ends_entry k (openRead s)
    rw [hc]
    exact ⟨_, hs.trans (finish_eq_outOf _), fun h => hends.goes h (tag_entryOne h), hends.stuck⟩
  · rw [show cpuCycle (openRead s) = (fetchOpcode (openRead s)).2 by simp only [cpuCycle, hb, hp]]
    cases hfo : (fetchOpcode (openRead s)).2.traps.fatal with
    | false =>
      obtain ⟨j, r, y, hd', he, hg⟩ := goes_fetchInstr hfo
      obtain ⟨rfl, -⟩ : i = j ∧ rest = r := by simpa [hd] using hd'
      exact ⟨y, hs.trans he, fun _ => hg, nofun⟩
    | true => exact ⟨_, by rw [hs, fetchInstr_stopped hfo, exec_fatal i hfo], nofun, fun _ => rfl⟩
  · rw [show cpuCycle (openRead s) = (fetchOpcode (openRead s)).2 by simp only [cpuCycle, hb, hp]]
    cases hfo : (fetchOpcode (openRead s)).2.traps.fatal with
    | false =>
      obtain ⟨j, r, y, hd', -⟩ := goes_fetchInstr hfo
      rw [hd] at hd'; cases hd'
    | true => exact ⟨_, by rw [hs, fetchInstr_stopped hfo, outOf, if_pos hfo], nofun, fun _ => rfl⟩

/-- Settles O9: the waiting board steps, the one of the first cycle, and the run of the others. -/
theorem stepIsBoardSteps : Obligations.StepIsBoardSteps := by
  intro s ht hf
  obtain ⟨w, hopen, hheld⟩ := awaitCpu_eq haltBound s
  obtain ⟨y, hstep, hgoes, hstop⟩ := step_eq_outOf ht hf
  change openRead s = _ at hopen
  have hrun : (beginSlot (idleSlot^[w] s)).cpu.halted = false := by rw [← hopen]; exact halted_openRead s
  have hwait : ∀ m ≤ w, boardSteps m s = .next (idleSlot^[m] s) := fun m hm =>
    boardSteps_waiting hf ht fun j hj => hheld j (by omega)
  have hfirst : boardStep (idleSlot^[w] s) = outOf (cpuCycle (openRead s)) := by
    rw [hopen]
    exact boardStep_begins ((congrArg Traps.fatal (traps_idleSlots w s)).trans hf) ((tag_idleSlots w s).trans ht) hrun
  have hbegun : boardSteps (w + 1) s = outOf (cpuCycle (openRead s)) := by
    rw [boardSteps_add (hwait w (le_refl w)), boardSteps_one, hfirst]
  cases hc : (cpuCycle (openRead s)).traps.fatal with
  | true =>
    refine ⟨w, w + 1, by omega, ?_, hwait, hheld, hrun, fun m _ _ => by omega⟩
    rw [hbegun, hstep, hstop hc]
  | false =>
    have hnext : boardSteps (w + 1) s = .next (cpuCycle (openRead s)) := by simp [hbegun, outOf, hc]
    obtain ⟨n, hn, hinside⟩ := hgoes hc
    refine ⟨w, w + 1 + n, by omega, ?_, hwait, hheld, hrun, fun m hwm hmn => ?_⟩
    · rw [boardSteps_add hnext, hn, hstep]
    · obtain ⟨j, rfl⟩ : ∃ j, m = w + 1 + j := ⟨m - (w + 1), by omega⟩
      rw [boardSteps_add hnext]
      exact hinside j (by omega)

/-! ## One board step -/

/-- A board step that answers a next state comes from a machine that has not stopped: a halt holds the CPU in it, or the
CPU runs its cycle and does not stop the machine (R420, R425). -/
theorem boardStep_cases {s t : State} (h : boardStep s = .next t) :
    s.traps.fatal = false ∧
      ((heldByHalt (beginSlot s) = true ∧ t = idleSlot s) ∨
        (heldByHalt (beginSlot s) = false ∧ t = cpuCycle (beginSlot s) ∧ (cpuCycle (beginSlot s)).traps.fatal = false)) := by
  cases hf : s.traps.fatal with
  | true => simp [boardStep, hf] at h
  | false =>
    refine ⟨rfl, ?_⟩
    cases hh : heldByHalt (beginSlot s) with
    | true =>
      rw [boardStep_held hf hh] at h
      cases h
      exact .inl ⟨rfl, rfl⟩
    | false =>
      rw [boardStep_running hf hh, outOf] at h
      split at h
      · cases h
      · rename_i hr
        cases h
        exact .inr ⟨rfl, rfl, by simpa using hr⟩

/-- A board step is a slot of the CPU, the agents after it, and a change of the CPU alone. -/
theorem slot_of_boardStep {s t : State} (h : boardStep s = .next t) :
    ∃ x e, Slot (beginSlot s) x ∧ t = { endSlot x with cpu := e } := by
  obtain ⟨-, ⟨-, rfl⟩ | ⟨-, rfl, hr⟩⟩ := boardStep_cases h
  · exact ⟨beginSlot s, (idleSlot s).cpu, Slot.cpu (beginSlot s) (beginSlot s).cpu, rfl⟩
  · obtain ⟨z, e, hran, -⟩ := ran_cpuCycle hr
    exact ⟨z, e, hran.access.slot, hran.eq⟩

/-- What every board step does: it is counted, leaves the parameters, makes the TIA's ticks (R451) and keeps the invariant
but for the tag. -/
theorem boardStep_frame {s t : State} (h : boardStep s = .next t) :
    t.clock = s.clock + 1 ∧ t.cfg = s.cfg ∧
      t.tia.hclock.val = (s.tia.hclock.val + (match s.cfg.tiaClk with | .one => 1 | .three => 3)) % 228 ∧
      ((s.withTag .fetch).Inv → (t.withTag .fetch).Inv) := by
  obtain ⟨x, e, hx, rfl⟩ := slot_of_boardStep h
  refine ⟨?_, ?_, hclock_slot hx, fun hi => ?_⟩
  · show (endSlot x).clock = _
    rw [clock_endSlot, hx.clock, clock_beginSlot]
  · show (endSlot x).cfg = _
    rw [cfg_of_still (still_endSlot x), hx.cfg, cfg_beginSlot]
  · exact inv_withTag_of_sound
      (kept_sound.cpu _ _ (kept_sound.endSlot (hx.sound (kept_sound.beginSlot (sound_of_inv_withTag hi)))))

/-- What a board step that a halt holds leaves alone, and that the PIA ticks in it all the same (R425). -/
theorem idleSlot_effect (s : State) :
    (idleSlot s).pia = s.pia.tick ∧ (idleSlot s).regs = s.regs ∧ (idleSlot s).cpu.lat = s.cpu.lat ∧
      (idleSlot s).cpu.tag = s.cpu.tag ∧ (idleSlot s).bus = s.bus ∧ (idleSlot s).stored = s.stored ∧
      (idleSlot s).cart = s.cart ∧ (idleSlot s).cpu.nmiLatch = (s.cpu.nmiLatch || nmiEdge s) := by
  have h := sameStill (still_idleSlot s)
  exact ⟨pia_idleSlot s, h.regs, h.lat, tag_idleSlot s, h.bus, h.stored, h.cart, (nmi_endSlot _).trans (nmi_beginSlot s)⟩

/-- The interrupt pending in the CPU's slot (R411, R412). -/
theorem pendingInterrupt_beginSlot (s : State) :
    pendingInterrupt (beginSlot s) =
      if (s.cpu.nmiLatch || nmiEdge s) = true then some .nmi
      else if ((linesAt s.cfg.inputs s.clock).irq && !s.cpu.p.i) = true then some .irq else none := by
  have hp : (beginSlot s).cpu.p = s.cpu.p := congrArg Regs.p (sameStill (still_beginSlot s)).regs
  rw [pendingInterrupt, nmi_beginSlot, cfg_beginSlot, clock_beginSlot, hp]

/-- An NMI is taken at a boundary where the latch is set (R411, R414). -/
theorem pendingInterrupt_eq_nmi {b : State} : pendingInterrupt b = some .nmi ↔ b.cpu.nmiLatch = true := by
  unfold pendingInterrupt
  cases b.cpu.nmiLatch <;> simp

/-- An interrupt entry begins under its tag and with the NMI latch clear; an IRQ's does so because the latch was clear
before it. -/
theorem beginEntry_eq {n : Interrupt} {b : State} (h : n = .irq → b.cpu.nmiLatch = false) :
    beginEntry n b = { b with cpu := { b.cpu with tag := .entry n 1, nmiLatch := false } } := by
  cases n with
  | nmi => rfl
  | irq => rw [← h rfl]; rfl

/-- An interrupt entry begins with a discarded read at PC (R413, R415). -/
theorem cpuCycle_entry {n : Interrupt} {b : State} (ht : b.cpu.tag = .fetch) (hp : pendingInterrupt b = some n)
    (hf : (cpuCycle b).traps.fatal = false) :
    cpuCycle b = endSlot ((busRead b.cpu.pc (beginEntry n b)).2.withTag (.entry n 2)) := by
  have hc : cpuCycle b = (readHere b.cpu.pc (beginEntry n b)).2 := by simp only [cpuCycle, ht, hp]
  rw [hc] at hf ⊢
  exact entry_running hf

/-- With no interrupt pending the opcode is fetched (R160). -/
theorem cpuCycle_fetch {b : State} (ht : b.cpu.tag = .fetch) (hp : pendingInterrupt b = none)
    (hf : (cpuCycle b).traps.fatal = false) :
    cpuCycle b = endSlot ((opcodeDone (busRead b.cpu.pc b).1 b.cpu.pc (busRead b.cpu.pc b).2).withTag
      (.mid (busRead b.cpu.pc b).1 2)) := by
  have hc : cpuCycle b = (fetchOpcode b).2 := by simp only [cpuCycle, ht, hp]
  rw [hc] at hf ⊢
  exact fetch_running hf

/-- Cycle 1's register updates, PC at the opcode's address, under the tag that follows. -/
theorem opcodeDone_withTag (v : Byte) {a : Addr} (g : ExecTag) {u : State} (h : u.cpu.pc = a) :
    (opcodeDone v a u).withTag g =
      { u with cpu := { u.cpu with pc := a + 1, lip := a, lat := { u.cpu.lat with opcode := v } } }.withTag g := by
  subst h
  rfl

/-- Inside an instruction or an interrupt entry the CPU makes the access of its cycle, between what the cycle does before
and after it. -/
theorem cpuCycle_inside {b : State} (ht : b.cpu.tag ≠ .fetch) (hf : (cpuCycle b).traps.fatal = false) :
    cpuCycle b = (cycleAt b).after (busAccess (cycleAt b).addr (cycleAt b).data ((cycleAt b).before b)).1
      (endSlot ((busAccess (cycleAt b).addr (cycleAt b).data ((cycleAt b).before b)).2.withTag b.cpu.tag.advance)) := by
  rw [cpuCycle_of_mid ht] at hf ⊢
  exact run_running (plain_cycleAt ht) hf

/-- A machine no trap can stop answers a next state to every board step inside an instruction. -/
theorem boardStep_of_live {s : State} (h : Live s) (ht : s.cpu.tag ≠ .fetch) : ∃ t, boardStep s = .next t := by
  cases hh : heldByHalt (beginSlot s) with
  | true => exact ⟨_, boardStep_held h.1 hh⟩
  | false =>
    have hl : Live (cpuCycle (beginSlot s)) :=
      live_cpuCycle (live_of_still (still_beginSlot s) h) (by rw [tag_beginSlot]; exact ht)
    exact ⟨_, by rw [boardStep_running h.1 hh, outOf, hl.1]; rfl⟩

/-- A cycle that neither begins an NMI entry nor is its cycle 6 leaves the latch. -/
theorem clearsNmi_eq_false {b : State} (hentry : b.cpu.tag = .fetch → pendingInterrupt b ≠ some .nmi)
    (hsix : b.cpu.tag ≠ .entry .nmi 6) : clearsNmi b = false := by
  unfold clearsNmi
  cases ht : b.cpu.tag with
  | fetch => simpa using hentry ht
  | mid op k => rfl
  | entry n k =>
    rw [ht] at hsix
    cases n with
    | nmi => simpa using hsix
    | irq => rfl

/-- The tag moves with every cycle of the CPU, and an NMI entry alone clears the latch: as it begins and in its cycle 6
(R411, R415). -/
theorem cpuCycle_tag_latch {b : State} (hf : (cpuCycle b).traps.fatal = false) :
    (cpuCycle b).cpu.tag ≠ b.cpu.tag ∧ (cpuCycle b).cpu.nmiLatch = (b.cpu.nmiLatch && !clearsNmi b) ∧
      (b.cpu.tag = .fetch → pendingInterrupt b = some .nmi → (cpuCycle b).cpu.tag = .entry .nmi 2) := by
  obtain ⟨z, e, hran, hentry⟩ := ran_cpuCycle hf
  rw [hran.eq]
  exact ⟨hran.tag, hran.nmi, hentry⟩

/-- Settles O10: the terms of the statement are the model's own slot, then a held step and, by the tag, each cycle of a
running CPU. -/
theorem boardStepEffect : Obligations.BoardStepEffect := by
  refine ⟨fun s t h => ?_, fun s => boardStep_of_live⟩
  intro line latch pia tia before after b entering irq ended fetch enter cycle
  -- the statement's latch, agents and slot are those of `beginSlot` and `endSlot`
  have hlatch : latch = (s.cpu.nmiLatch || nmiEdge s) := rfl
  have hpia : pia = piaTick := rfl
  have htia : ∀ u, u.cfg = s.cfg → tia u = tiaTicks u := fun u hu => by
    cases hk : s.cfg.tiaClk <;> simp only [tia, tiaTicks, hu, hk]
  have hbefore : ∀ u, latchNmi s = u → u.cfg = s.cfg → before u = beginSlot s := by
    intro u hu hc
    simp only [before, beginSlot, hu, hc]
    cases s.cfg.order <;> simp only [hpia, htia, cfg_piaTick, hc]
  have hb : b = beginSlot s := hbefore _ (latchNmi_eq s) rfl
  have hafter : ∀ u, u.cfg = s.cfg → u.clock = s.clock → { after u with clock := s.clock + 1 } = endSlot u := by
    intro u hc hk
    simp only [after, endSlot, hc]
    cases s.cfg.order <;> simp only [hpia, htia, cfg_piaTick, clock_tiaTicks, clock_piaTick, hc, hk]
  clear_value b
  have hbcfg : b.cfg = s.cfg := by rw [hb, cfg_beginSlot]
  have hbclock : b.clock = s.clock := by rw [hb, clock_beginSlot]
  have hended : ∀ u g, u.cfg = b.cfg → u.clock = b.clock → endSlot (u.withTag g) = ended u g :=
    fun u g hc hk => (hafter (u.withTag g) (hc.trans hbcfg) (hk.trans hbclock)).symm
  -- what the slot has of the CPU
  have hbpc : b.cpu.pc = s.cpu.pc := by rw [hb]; exact congrArg Regs.pc (sameStill (still_beginSlot s)).regs
  have hbtag : b.cpu.tag = s.cpu.tag := by rw [hb, tag_beginSlot]
  have hblatch : b.cpu.nmiLatch = latch := by rw [hb, nmi_beginSlot, hlatch]
  have hpend : pendingInterrupt b = if latch = true then some .nmi else if irq = true then some .irq else none := by
    rw [hb, pendingInterrupt_beginSlot, hlatch]
  obtain ⟨hclock, hcfg, hh, hinv⟩ := boardStep_frame h
  refine ⟨hclock, hcfg, hh, hinv, ?_⟩
  obtain ⟨-, ⟨hheld, rfl⟩ | ⟨hrun, rfl, hf⟩⟩ := boardStep_cases h
  · rw [← hb] at hheld
    refine ⟨fun _ => ⟨?_, idleSlot_effect s⟩, fun hx => absurd (hx.symm.trans hheld) nofun⟩
    rw [hafter b hbcfg hbclock, hb]; rfl
  · rw [← hb] at hrun hf ⊢
    refine ⟨fun hx => absurd (hrun.symm.trans hx) nofun, fun _ => ?_⟩
    obtain ⟨hmoves, hclears, hnmi⟩ := cpuCycle_tag_latch hf
    have henter : ∀ n, s.cpu.tag = .fetch → pendingInterrupt b = some n → (n = .irq → latch = false) →
        cpuCycle b = enter n := by
      intro n ht hp hn
      rw [cpuCycle_entry (hbtag.trans ht) hp hf, beginEntry_eq (fun h => hblatch.trans (hn h)), hbpc]
      exact hended _ _ (by exact cfg_busRead _ _) (by exact clock_busRead _ _)
    have hinside : s.cpu.tag ≠ .fetch → cpuCycle b = cycle (cycleAt b) s.cpu.tag.advance := by
      intro ht
      have ht : b.cpu.tag ≠ .fetch := by rw [hbtag]; exact ht
      obtain ⟨d, hd, -⟩ := (plain_cycleAt ht).before b
      rw [cpuCycle_inside ht hf, hbtag]
      generalize cycleAt b = c at hd ⊢
      simp only [cycle, hd]
      cases c.data with
      | none => exact congrArg (c.after _) (hended _ _ (cfg_busRead _ _) (clock_busRead _ _))
      | some v => exact congrArg (c.after v) (hended _ _ (cfg_busWrite _ _ _) (clock_busWrite _ _ _))
    refine ⟨fun ⟨ht, hl⟩ => ?_, fun ht hl hi => ?_, fun ht hl hi => ?_, fun op k ht => ?_, fun n k ht => ?_, ?_,
      fun ⟨ht, hl⟩ => ?_, fun ht => ?_, fun hne ht => ?_⟩
    · exact henter .nmi ht (by rw [hpend, if_pos hl]) nofun
    · exact henter .irq ht (by simp [hpend, hl, hi]) fun _ => hl
    · rw [cpuCycle_fetch (hbtag.trans ht) (by simp [hpend, hl, hi]) hf, hbpc,
        opcodeDone_withTag _ _ ((congrArg Cpu.pc (cpu_busRead _ b)).trans hbpc)]
      exact hended _ _ (by exact cfg_busRead _ _) (by exact clock_busRead _ _)
    · rw [hinside (by simp [ht]), ht]
      simp only [cycleAt, hbtag, ht, ExecTag.advance]
    · rw [hinside (by simp [ht]), ht]
      simp only [cycleAt, hbtag, ht, ExecTag.advance]
    · rw [← hbtag]; exact hmoves
    · have hp : pendingInterrupt b = some .nmi := by rw [hpend, if_pos hl]
      refine ⟨?_, hnmi (hbtag.trans ht) hp⟩
      simp [hclears, clearsNmi, hbtag, ht, hp]
    · simp [hclears, clearsNmi, hbtag, ht]
    · have hkeeps : clearsNmi b = false := clearsNmi_eq_false
        (fun h hp => hne ⟨hbtag.symm.trans h, hblatch.symm.trans (pendingInterrupt_eq_nmi.mp hp)⟩)
        (by rw [hbtag]; exact ht)
      rw [hclears, hkeeps, Bool.not_false, Bool.and_true, hblatch]

end Sys2Proof.Machine

namespace Sys2Proof.Machine

/-! ## The parameters -/

/-- No part of a step writes the construction parameters (R30). -/
theorem kept_cfg (p : Params) : Kept (fun s => s.cfg = p) where
  cpu _ _ h := h
  piaTick s h := (cfg_piaTick s).trans h
  tiaTick s h := (cfg_tiaTick s).trans h
  clock _ _ h := h
  read s a h := (cfg_busRead a s).trans h
  write s a v h := (cfg_busWrite a v s).trans h
  stop s op h := by
    unfold raiseInvalidOpcode
    split
    · exact h
    · exact h

/-- Settles O44: what no part of a step writes, a step keeps. -/
theorem parametersConstant : Obligations.ParametersConstant := by
  intro s t h
  obtain ⟨u, hu, -, rfl⟩ := (kept_cfg s.cfg).stepBody rfl h
  exact hu

/-! ## Which instruction writes which register or flag -/

/-- The instruction of an implied operation. -/
def impliedInstr : ImpliedOp → Instr
  | .tax => .tax
  | .tay => .tay
  | .txa => .txa
  | .tya => .tya
  | .tsx => .tsx
  | .txs => .txs
  | .inx => .inx
  | .iny => .iny
  | .dex => .dex
  | .dey => .dey
  | .clc => .clc
  | .sec => .sec
  | .cli => .cli
  | .sei => .sei
  | .cld => .cld
  | .sed => .sed
  | .clv => .clv
  | .nop => .nop

/-- An instruction of the implied kind is that of its operation. -/
theorem eq_impliedInstr {i : Instr} {op : ImpliedOp} (h : i.kind = .implied op) : i = impliedInstr op := by
  cases i <;> simp only [Instr.kind, Kind.implied.injEq, reduceCtorEq] at h <;> subst h <;> rfl

theorem stack_cases {i : Instr} {op : StackOp} (h : i.kind = .stack op) :
    i = .pha ∨ i = .php ∨ i = .pla ∨ i = .plp := by
  cases i <;> simp [Instr.kind] at h ⊢

/-! ### Operations of kind R -/

section
variable (op : ReadOp) (v : Byte) (r : Regs)

theorem readRegs_d : (readRegs op v r).p.d = r.p.d := by
  cases op
  case adc => exact (adc_keeps r.a v r.p).1
  case sbc => exact (sbc_keeps r.a v r.p).1
  all_goals rfl

theorem readRegs_i : (readRegs op v r).p.i = r.p.i := by
  cases op
  case adc => exact (adc_keeps r.a v r.p).2
  case sbc => exact (sbc_keeps r.a v r.p).2
  all_goals rfl

theorem readRegs_s : (readRegs op v r).s = r.s := by cases op <;> rfl

end

section
variable {i : Instr} {op : ReadOp} {o : Operand} {v : Byte} {r : Regs} (hk : i.kind = .read op o)
include hk

theorem read_of_v_ne (h : (readRegs op v r).p.v ≠ r.p.v) :
    i.kind = .read .adc o ∨ i.kind = .read .sbc o ∨ i.kind = .read .bit o := by
  rw [hk]
  cases op <;> simp [readRegs, setNZ, compareFlags] at h ⊢

theorem read_of_a_ne (h : (readRegs op v r).a ≠ r.a) :
    i.kind = .read .lda o ∨ i.kind = .read .adc o ∨ i.kind = .read .sbc o ∨ i.kind = .read .and o ∨
      i.kind = .read .ora o ∨ i.kind = .read .eor o := by
  rw [hk]
  cases op <;> simp [readRegs] at h ⊢

theorem read_of_x_ne (h : (readRegs op v r).x ≠ r.x) : i.kind = .read .ldx o := by
  rw [hk]
  cases op <;> simp [readRegs] at h ⊢

theorem read_of_y_ne (h : (readRegs op v r).y ≠ r.y) : i.kind = .read .ldy o := by
  rw [hk]
  cases op <;> simp [readRegs] at h ⊢

end

/-! ### Implied operations -/

section
variable {i : Instr} {op : ImpliedOp} {r : Regs} (hk : i.kind = .implied op)
include hk

theorem implied_of_d_ne (h : (impliedRegs op r).p.d ≠ r.p.d) : i = .sed ∨ i = .cld := by
  rw [eq_impliedInstr hk]
  cases op <;> simp [impliedRegs, impliedInstr, setNZ] at h ⊢

theorem implied_of_i_ne (h : (impliedRegs op r).p.i ≠ r.p.i) : i = .sei ∨ i = .cli := by
  rw [eq_impliedInstr hk]
  cases op <;> simp [impliedRegs, impliedInstr, setNZ] at h ⊢

theorem implied_of_v_ne (h : (impliedRegs op r).p.v ≠ r.p.v) : i = .clv := by
  rw [eq_impliedInstr hk]
  cases op <;> simp [impliedRegs, impliedInstr, setNZ] at h ⊢

theorem implied_of_a_ne (h : (impliedRegs op r).a ≠ r.a) : i = .txa ∨ i = .tya := by
  rw [eq_impliedInstr hk]
  cases op <;> simp [impliedRegs, impliedInstr] at h ⊢

theorem implied_of_x_ne (h : (impliedRegs op r).x ≠ r.x) : i = .tax ∨ i = .tsx ∨ i = .inx ∨ i = .dex := by
  rw [eq_impliedInstr hk]
  cases op <;> simp [impliedRegs, impliedInstr] at h ⊢

theorem implied_of_y_ne (h : (impliedRegs op r).y ≠ r.y) : i = .tay ∨ i = .iny ∨ i = .dey := by
  rw [eq_impliedInstr hk]
  cases op <;> simp [impliedRegs, impliedInstr] at h ⊢

theorem implied_of_s_ne (h : (impliedRegs op r).s ≠ r.s) : i = .txs := by
  rw [eq_impliedInstr hk]
  cases op <;> simp [impliedRegs, impliedInstr] at h ⊢

end

/-! ### Instructions

Each register or flag is kept by every instruction but its writers (R31 to R33, R38, R41, R42). -/

section
variable {i : Instr} {s t : State} (h : exec i s = .next t)
include h

theorem exec_keeps_d (hn : ¬(i = .sed ∨ i = .cld ∨ i = .plp ∨ i = .rti)) : t.cpu.p.d = s.cpu.p.d :=
  proj_exec (fun r => r.p.d) h
    (hr := fun op _ _ => readRegs_d op)
    (hm := fun _ _ _ _ _ hd _ _ => hd)
    (ha := fun _ _ _ _ _ hd _ _ => hd)
    (hi := fun _ hk _ => by_contra fun hd => hn (or_assoc.mp (.inl (implied_of_d_ne hk hd))))
    (hs := fun _ _ _ => rfl)
    (hpla := fun _ _ _ _ hd _ _ => hd)
    (hp := by rintro (rfl | rfl) <;> simp at hn)
    (hb := fun _ _ => rfl)
    (hpc := fun _ _ => rfl)

theorem exec_keeps_i (hn : ¬(i = .sei ∨ i = .cli ∨ i = .brk ∨ i = .plp ∨ i = .rti)) : t.cpu.p.i = s.cpu.p.i :=
  proj_exec (fun r => r.p.i) h
    (hr := fun op _ _ => readRegs_i op)
    (hm := fun _ _ _ _ _ _ hi _ => hi)
    (ha := fun _ _ _ _ _ _ hi _ => hi)
    (hi := fun _ hk _ => by_contra fun hi => hn (or_assoc.mp (.inl (implied_of_i_ne hk hi))))
    (hs := fun _ _ _ => rfl)
    (hpla := fun _ _ _ _ _ hi _ => hi)
    (hp := by rintro (rfl | rfl) <;> simp at hn)
    (hb := by rintro rfl; simp at hn)
    (hpc := fun _ _ => rfl)

theorem exec_keeps_v (hn : ¬((∃ o, i.kind = .read .adc o ∨ i.kind = .read .sbc o ∨ i.kind = .read .bit o) ∨
      i = .clv ∨ i = .plp ∨ i = .rti)) : t.cpu.p.v = s.cpu.p.v :=
  proj_exec (fun r => r.p.v) h
    (hr := fun _ o hk _ _ => by_contra fun hv => hn (.inl ⟨o, read_of_v_ne hk hv⟩))
    (hm := fun _ _ _ _ _ _ _ hv => hv)
    (ha := fun _ _ _ _ _ _ _ hv => hv)
    (hi := fun _ hk _ => by_contra fun hv => hn (.inr (.inl (implied_of_v_ne hk hv))))
    (hs := fun _ _ _ => rfl)
    (hpla := fun _ _ _ _ _ _ hv => hv)
    (hp := by rintro (rfl | rfl) <;> simp at hn)
    (hb := fun _ _ => rfl)
    (hpc := fun _ _ => rfl)

theorem exec_keeps_a (hn : ¬((∃ o, i.kind = .read .lda o ∨ i.kind = .read .adc o ∨ i.kind = .read .sbc o ∨
      i.kind = .read .and o ∨ i.kind = .read .ora o ∨ i.kind = .read .eor o) ∨
      (∃ op, i.kind = .accumulator op) ∨ i = .txa ∨ i = .tya ∨ i = .pla)) : t.cpu.a = s.cpu.a :=
  proj_exec Regs.a h
    (hr := fun _ o hk _ _ => by_contra fun ha => hn (.inl ⟨o, read_of_a_ne hk ha⟩))
    (hm := fun _ _ _ _ _ _ _ _ => rfl)
    (ha := fun op hk => absurd (.inr (.inl ⟨op, hk⟩)) hn)
    (hi := fun _ hk _ => by_contra fun ha => hn (.inr (.inr (or_assoc.mp (.inl (implied_of_a_ne hk ha))))))
    (hs := fun _ _ _ => rfl)
    (hpla := by rintro rfl; simp at hn)
    (hp := fun _ _ _ => rfl)
    (hb := fun _ _ => rfl)
    (hpc := fun _ _ => rfl)

theorem exec_keeps_x (hn : ¬((∃ o, i.kind = .read .ldx o) ∨ i = .tax ∨ i = .tsx ∨ i = .inx ∨ i = .dex)) :
    t.cpu.x = s.cpu.x :=
  proj_exec Regs.x h
    (hr := fun _ o hk _ _ => by_contra fun hx => hn (.inl ⟨o, read_of_x_ne hk hx⟩))
    (hm := fun _ _ _ _ _ _ _ _ => rfl)
    (ha := fun _ _ _ _ _ _ _ _ => rfl)
    (hi := fun _ hk _ => by_contra fun hx => hn (.inr (implied_of_x_ne hk hx)))
    (hs := fun _ _ _ => rfl)
    (hpla := fun _ _ _ _ _ _ _ => rfl)
    (hp := fun _ _ _ => rfl)
    (hb := fun _ _ => rfl)
    (hpc := fun _ _ => rfl)

theorem exec_keeps_y (hn : ¬((∃ o, i.kind = .read .ldy o) ∨ i = .tay ∨ i = .iny ∨ i = .dey)) : t.cpu.y = s.cpu.y :=
  proj_exec Regs.y h
    (hr := fun _ o hk _ _ => by_contra fun hy => hn (.inl ⟨o, read_of_y_ne hk hy⟩))
    (hm := fun _ _ _ _ _ _ _ _ => rfl)
    (ha := fun _ _ _ _ _ _ _ _ => rfl)
    (hi := fun _ hk _ => by_contra fun hy => hn (.inr (implied_of_y_ne hk hy)))
    (hs := fun _ _ _ => rfl)
    (hpla := fun _ _ _ _ _ _ _ => rfl)
    (hp := fun _ _ _ => rfl)
    (hb := fun _ _ => rfl)
    (hpc := fun _ _ => rfl)

theorem exec_keeps_s (hn : ¬(i = .txs ∨ i = .pha ∨ i = .php ∨ i = .pla ∨ i = .plp ∨ (∃ addr, i = .jsr addr) ∨
      i = .rts ∨ i = .brk ∨ i = .rti)) : t.cpu.s = s.cpu.s :=
  proj_exec Regs.s h
    (hr := fun op _ _ => readRegs_s op)
    (hm := fun _ _ _ _ _ _ _ _ => rfl)
    (ha := fun _ _ _ _ _ _ _ _ => rfl)
    (hi := fun _ hk _ => by_contra fun hs => hn (.inl (implied_of_s_ne hk hs)))
    (hs := by
      rintro (⟨op, hk⟩ | ⟨a, rfl⟩ | rfl | rfl | rfl)
      · rcases stack_cases hk with rfl | rfl | rfl | rfl <;> simp at hn
      all_goals simp at hn)
    (hpla := fun _ _ _ _ _ _ _ => rfl)
    (hp := fun _ _ _ => rfl)
    (hb := fun _ _ => rfl)
    (hpc := fun _ _ => rfl)

end

/-- Settles O40: each of D, I and V is kept by every instruction not named. -/
theorem flagWriters : Obligations.FlagWriters := fun _ _ _ h =>
  ⟨not_imp_comm.mp (exec_keeps_d h), not_imp_comm.mp (exec_keeps_i h), not_imp_comm.mp (exec_keeps_v h)⟩

/-- Settles O41: each of A, X, Y and S is kept by every instruction not named. -/
theorem registerWriters : Obligations.RegisterWriters := fun _ _ _ h =>
  ⟨not_imp_comm.mp (exec_keeps_a h), not_imp_comm.mp (exec_keeps_x h), not_imp_comm.mp (exec_keeps_y h),
    not_imp_comm.mp (exec_keeps_s h)⟩

end Sys2Proof.Machine

namespace Sys2Proof.Machine

/-! ## What one bus access returns and does -/

/-- Settles O48: an access sees its address through the mask alone (R71). -/
theorem busMirrors : Obligations.BusMirrors := by
  intro s a b v h
  have hm : maskAddr a = maskAddr b := by rw [mask_eq, mask_eq, h]
  exact ⟨by simp only [busRead, hm], by simp only [busWrite, hm]⟩

theorem selectsTia_unique {a : Addr} {r q : Nat} (hr : selectsTia a r = true) (hq : selectsTia a q = true) : r = q := by
  rw [selectsTia_eq, Bool.and_eq_true, decide_eq_true_eq, decide_eq_true_eq] at hr hq
  exact hr.2.symm.trans hq.2

theorem hitsWsync_eq_selectsTia (a : Addr) : hitsWsync a = selectsTia a 0x02 := by
  rw [selectsTia_eq]; rfl

/-- A VSYNC write that leaves the bit as it is moves nothing, as a write elsewhere (R472). -/
theorem frame_busWrite (a : Addr) (v : Byte) (s : State) : (busWrite a v s).frame =
    if selectsTia a 0x00 ∧ v.getLsbD 1 ≠ s.frame.vsync then s.frame.writeVsync (v.getLsbD 1)
    else if selectsTia a 0x01 then { s.frame with vblank := v.getLsbD 1 } else s.frame := by
  rw [(writeEffects_busWrite a v s).frame]
  by_cases h0 : selectsTia a 0x00 = true
  · have h1 : ¬ selectsTia a 0x01 = true := fun h1 => absurd (selectsTia_unique h0 h1) (by decide)
    by_cases hb : v.getLsbD 1 = s.frame.vsync
    · rw [if_pos h0, if_neg (fun h => h.2 hb), if_neg h1, Frame.writeVsync, if_pos hb]
    · rw [if_pos h0, if_pos ⟨h0, hb⟩]
  · have hn : ¬(selectsTia a 0x00 = true ∧ v.getLsbD 1 ≠ s.frame.vsync) := fun h => h0 h.1
    rw [if_neg h0, if_neg hn]

/-- Settles O47: register by register, from what a chip's part of a write and the listener do. -/
theorem writesActAtOnce : Obligations.WritesActAtOnce := by
  intro s a v
  have w := writeEffects_busWrite a v s
  have hframe := (frame_busWrite a v s).trans
    (ite_congr rfl (fun h => (writeVsync_eq _ _).trans (if_pos h.2)) (fun _ => rfl))
  have hcpu : (busWrite a v s).cpu = { s.cpu with halted := s.cpu.halted || selectsTia a 0x02 } := by
    rw [cpu_busWrite, hitsWsync_eq_selectsTia]
  dsimp only
  rw [← mask_eq]
  exact ⟨bus_busWrite a v s, cart_busWrite a v s, hframe, hcpu, w.collision, w.counter, w.rendering, w.renderCounter,
    w.moving, w.mactive, w.mclock, w.hmoveExt, w.hclock, w.line, w.countdown, w.sub, w.flag, w.divisor, w.stored⟩

/-! ### Read cycles -/

/-- A read cycle of a live machine is its bus access in the CPU's slot, then the rest of the board step. -/
theorem readCycle_of_live {a : Addr} {s : State} (h : Live s) :
    readCycle a s = ((busRead a (openRead s)).1, endCycle (busRead a (openRead s)).2) := by
  simp only [readCycle, h.1, Bool.false_eq_true, if_false, readHere]

theorem mask_mod {n : Nat} (a : Addr) (h : n ∣ 8192) : (maskAddr a).toNat % n = a.toNat % n := by
  rw [maskAddr, BitVec.toNat_setWidth]
  exact Nat.mod_mod_of_dvd _ h

/-- A read of a `vanilla_2k` cartridge returns the image's byte, of either half of the window (R529). -/
theorem busRead_vanilla2k {a : Addr} {s : State} (hs : s.cfg.scheme = .vanilla2k) (h12 : a.getLsbD 12 = true) :
    (busRead a s).1 = s.cfg.image.read (a.toNat % 2048) := by
  have ho : cartOffset (maskAddr a) % 2048 = a.toNat % 2048 := by
    rw [cartOffset, Nat.mod_mod_of_dvd _ (by decide), mask_mod a (by decide)]
  rw [busRead_cartridge h12]
  simp only [Cart.read, Cart.directSwitch, Cart.port, hs, ho]

theorem busRead_tia {a : Addr} {s : State} (h12 : a.getLsbD 12 = false) (h7 : a.getLsbD 7 = false) :
    (busRead a s).1 = tiaRead (maskAddr a) s := by
  have hr : route (maskAddr a) = .tia := by
    simp only [route, mask_bit a (k := 12) (by decide), mask_bit a (k := 7) (by decide), h12, h7, Bool.false_eq_true,
      if_false]
  simp only [busRead, chipRead, hr]

/-- The bits of a TIA read: two driven ones, by R474's table, and the last bus data's low six (R475). -/
theorem busRead_tia_bits {a : Addr} {s : State} (h12 : a.getLsbD 12 = false) (h7 : a.getLsbD 7 = false) :
    let d := tiaDriven (a.toNat % 16) s.collision (linesAt s.cfg.inputs s.clock)
    (busRead a s).1 &&& 0x3F#8 = s.bus.lastData &&& 0x3F#8 ∧ (busRead a s).1.getLsbD 7 = d.1 ∧
      (busRead a s).1.getLsbD 6 = d.2 := by
  rw [busRead_tia h12 h7, tiaRead, mask_mod a (by decide)]
  exact driven_bits _ _ _

/-- Settles O15: each clause is one of the bus access in the CPU's slot, which the wait before it and the rest of the
step leave as it is. -/
theorem readValues : Obligations.ReadValues := by
  intro s a h
  have hv : (readCycle a s).1 = (busRead a (openRead s)).1 := by rw [readCycle_of_live h]
  have hc : (readCycle a s).2.cart = (busRead a (openRead s)).2.cart := by rw [readCycle_of_live h, cart_endCycle]
  have hb : (readCycle a s).2.bus = (busRead a (openRead s)).2.bus := by rw [readCycle_of_live h, bus_endCycle]
  have hlip : (openRead s).cpu.lip = s.cpu.lip := congrArg Regs.lip (regs_openRead s)
  have hcart := cart_busRead a (openRead s)
  have hpia := pia_busRead a (openRead s)
  rw [cart_openRead, cfg_openRead, hlip, bus_openRead] at hcart
  dsimp only
  rw [← mask_eq, hb, hc, hv]
  refine ⟨fun hr => ?_, hpia.1, hpia.2, fun h12 => ⟨?_, ?_⟩, fun h12 => ?_, fun h12 hs => ?_, fun h12 hs => ?_,
    fun h12 h7 => ?_, tiaSide_busRead a _, bus_busRead a _⟩
  · rw [← hv]; exact readCycle_ram h hr
  · rw [busRead_cartridge h12, cart_openRead, cfg_openRead, hlip, bus_openRead]
  · rw [hcart, if_pos h12]
  · rw [hcart, h12]; rfl
  · rw [← hv]; exact readCycle_vanilla4k h hs h12
  · rw [busRead_vanilla2k (by rw [cfg_openRead]; exact hs) h12, cfg_openRead]
  · have hd := busRead_tia_bits (s := openRead s) h12 h7
    rw [tiaDriven_table _ _ _ (Nat.mod_lt _ (by decide)), bus_openRead, cfg_openRead] at hd
    exact hd

end Sys2Proof.Machine

namespace Sys2Proof.Machine

/-! ## Pushes: PHA, PHP, JSR, BRK and the interrupts -/

/-- `d` is `s` after read cycles: a push from `d` finds the registers and the stored bytes of `s`, the extra RAM's too
unless one of these addresses lies in a write port (R532). -/
structure AfterReads (reads : List Addr) (s d : State) : Prop where
  live : Live d
  wf : StoresWf d
  regs : d.regs = s.regs
  stored : d.stored = s.stored
  cartRam : Quiet s reads → d.cart.ram = s.cart.ram

namespace AfterReads

variable {reads : List Addr} {s d t : State}

theorem refl (hl : Live s) (hw : StoresWf s) : AfterReads reads s s := ⟨hl, hw, rfl, rfl, fun _ => rfl⟩

variable (h : AfterReads reads s d)
include h

theorem s_eq : d.cpu.s = s.cpu.s := s_of_regs h.regs
theorem pc_eq : d.cpu.pc = s.cpu.pc := pc_of_regs h.regs
theorem p_eq : d.cpu.p = s.cpu.p := p_of_regs h.regs
theorem cfg_eq : d.cfg = s.cfg := cfg_eq_of_stored h.stored

theorem stackInRam_iff (k : Nat) : stackInRam k d ↔ stackInRam k s := by simp only [stackInRam, h.s_eq]

theorem bytes (hq : Quiet s reads) (c : Chip) (n : Nat) : byteAt c n d = byteAt c n s := by
  cases c
  · exact congrArg (fun x : Stored => x.tiaRegs.read n) h.stored
  · exact pia_of_stored h.stored n
  · exact congrArg (fun m : Memory => m.read n) (h.cartRam hq)

theorem of_still (e : t.still = d.still) : AfterReads reads s t where
  live := live_of_still e h.live
  wf := h.wf.of_stored (sameStill e).stored (by rw [(sameStill e).cart]; exact h.wf.2.2)
  regs := (sameStill e).regs.trans h.regs
  stored := (sameStill e).stored.trans h.stored
  cartRam hq := (congrArg Cart.ram (sameStill e).cart).trans (h.cartRam hq)

theorem beginEntry (k : Interrupt) : AfterReads reads s (beginEntry k d) := by
  cases k <;> exact ⟨h.live, h.wf, h.regs, h.stored, h.cartRam⟩

theorem readHere {a : Addr} (ha : Quiet s reads → inWritePort s.cfg a = false) :
    AfterReads reads s (readHere a d).2 :=
  have hb : AfterReads reads s (busRead a d).2 :=
    { live := live_busRead h.live
      wf := kept_storesWf.read d a h.wf
      regs := (regs_busRead a d).trans h.regs
      stored := (stored_busRead a d).trans h.stored
      cartRam := fun hq => (cartRam_busRead (by rw [h.cfg_eq]; exact ha hq)).trans (h.cartRam hq) }
  hb.of_still (still_endCycle _)

theorem readCycle {a : Addr} (ha : Quiet s reads → inWritePort s.cfg a = false) :
    AfterReads reads s (readCycle a d).2 := by
  rw [readCycle_of_live h.live]
  exact (h.of_still (still_openRead d)).readHere ha

theorem dummyStack : AfterReads reads s (dummyStack d) := h.readCycle fun _ => inWritePort_stack _ _

end AfterReads

theorem AfterReads.dummyFetch {s d : State} (h : AfterReads [s.cpu.pc] s d) : AfterReads [s.cpu.pc] s (dummyFetch d) :=
  h.readCycle fun hq => by rw [h.pc_eq]; exact hq _ (List.mem_singleton_self _)

/-! ### One and two pushes -/

/-- Settles O30: one push after the discarded read at PC. -/
theorem pushesWriteStack : Obligations.PushesWriteStack := by
  intro i s hl hinv hi
  have h := (AfterReads.refl hl (storesWf_of_inv_withTag hinv)).dummyFetch
  obtain ⟨v, hv⟩ : ∃ v, v = if i = .pha then s.cpu.a else pushedP true s.cpu.p := ⟨_, rfl⟩
  have he : exec i s = .next ((push v (dummyFetch s)).withTag .fetch) := by
    rw [← finish_of_live (live_push h.live), hv]
    rcases hi with rfl | rfl
    · rfl
    · rw [if_neg (by decide), ← packP_eq_pushedP]; rfl
  rw [← hv]
  refine ⟨_, he, ?_, fun hr => ?_, fun hr => ?_, ?_, fun hq c n hn => ?_⟩
  · rw [regs_withTag, regs_push h.live, h.regs, h.s_eq]
  · rw [stored_withTag, stored_push_ram h.live (isRam_stackAddr ((h.stackInRam_iff 1).2 hr)), h.stored]; rfl
  · rw [← h.s_eq]; exact byteAt_push_ram h.live h.wf.2.1 ((h.stackInRam_iff 1).2 hr)
  · exact (pushed_one h.live h.wf v).congr h.stored.symm h.s_eq.symm rfl
  · refine Eq.trans ?_ (h.bytes hq c n)
    refine byteAt_push_other h.live ?_
    rwa [storeTargets_of_bit12 (stackAddr_bit12 _) _ s, stackAddr_zero, pushAddr_of_s h.s_eq]

/-- Settles O33: two pushes after the discarded stack read, then the read at PC. -/
theorem jsrPushesReturn : Obligations.JsrPushesReturn := by
  intro addr s hl hinv
  have hw := storesWf_of_inv_withTag hinv
  have h : AfterReads [s.cpu.pc] s (dummyStack s) := (AfterReads.refl hl hw).dummyStack
  have hu : Live (jsrPushes s) := live_push (live_push h.live)
  have hpc : (jsrPushes s).cpu.pc = s.cpu.pc := congrArg Regs.pc (regs_jsrPushes hl)
  have hcfg : (jsrPushes s).cfg = s.cfg := (kept_cfg s.cfg).jsrPushes rfl
  have hr : AfterReads [s.cpu.pc] (jsrPushes s) (jsrHigh s).2 :=
    (AfterReads.refl hu (kept_storesWf.jsrPushes hw)).readCycle fun hq => by
      rw [hpc]; exact hq _ (List.mem_singleton_self _)
  obtain ⟨t, ht⟩ : ∃ t, t = (((jsrHigh s).2.latchHi (hiByte addr)).withPc addr).withTag .fetch := ⟨_, rfl⟩
  have he : exec (.jsr addr) s = .next t := by
    show finish (callSubroutine addr s) = _
    rw [ht, callSubroutine, perform_of_live hr.live]
    exact finish_of_live hr.live
  have hst : t.stored = (jsrPushes s).stored := by
    rw [ht, stored_withTag, stored_withPc, stored_latchHi, hr.stored]
  refine ⟨t, he, ?_, fun hs => ?_, fun hs => ?_, ?_, fun hq c n h0 h1 => ?_⟩
  · rw [ht, regs_withTag, regs_withPc, regs_latchHi, hr.regs, regs_jsrPushes hl]
  · rw [hst, jsrPushes, stored_pushTwo_ram h.live ((h.stackInRam_iff 2).2 hs), h.stored]; rfl
  · rw [pia_of_stored hst, pia_of_stored hst, jsrPushes, ← h.s_eq]
    exact byteAt_pushTwo_ram h.live h.wf.2.1 ((h.stackInRam_iff 2).2 hs)
  · exact (pushed_two h.live h.wf _ _).congr h.stored.symm h.s_eq.symm hst
  · have hc : byteAt c n t = byteAt c n (jsrHigh s).2 := by
      rw [ht]
      exact CpuOnly.byteAt (f := fun u => ((u.latchHi (hiByte addr)).withPc addr).withTag .fetch)
        ⟨fun _ => ⟨_, rfl⟩⟩ _ c n
    rw [← pushAddr_of_s h.s_eq] at h0 h1
    have hb : byteAt c n (jsrPushes s) = byteAt c n (dummyStack s) := byteAt_pushTwo_other (t := s) h.live h0 h1
    rw [hc, hr.bytes (by rw [Quiet, hcfg]; exact hq), hb, h.bytes hq]

/-! ### Taking an exception -/

/-- What taking an exception through a vector leaves, after the reads before it: the frame with this B bit, on any stack
and on one in PIA RAM, and PC from the vector (R378, R404, R415, R416). -/
structure TakesException (b : Bool) (vec : Addr) (reads : List Addr) (s t : State) : Prop where
  regs : t.regs = { s.regs with s := s.cpu.s - 3, pc := t.cpu.pc, p := { s.cpu.p with i := true } }
  onlyRam : stackInRam 3 s → { t.stored with ram := s.pia.ram } = s.stored
  inRam : stackInRam 3 s →
    byteAt .pia (s.cpu.s.toNat - 0x80) t = hiByte s.cpu.pc ∧
    byteAt .pia (s.cpu.s.toNat - 0x81) t = loByte s.cpu.pc ∧
    byteAt .pia (s.cpu.s.toNat - 0x82) t = pushedP b s.cpu.p
  pushed : Pushed [hiByte s.cpu.pc, loByte s.cpu.pc, pushedP b s.cpu.p] s t
  others : Quiet s reads → ∀ c n, (c, n) ∉ storeTargets (pushAddr s 0) s →
    (c, n) ∉ storeTargets (pushAddr s 1) s → (c, n) ∉ storeTargets (pushAddr s 2) s → byteAt c n t = byteAt c n s
  vector : s.cfg.scheme = .vanilla4k → t.cpu.pc.toNat =
    (s.cfg.image.read (vec.toNat % 4096)).toNat + 256 * (s.cfg.image.read ((vec + 1).toNat % 4096)).toNat

theorem AfterReads.takesException {reads : List Addr} {s d : State} (h : AfterReads reads s d) {b nmi : Bool}
    {vec : Addr} (hv : vec = 0xFFFA ∨ vec = 0xFFFE) :
    TakesException b vec reads s ((enterVector b vec nmi d).withTag .fetch) := by
  obtain ⟨hram, hother, hvec⟩ := enterVector_spec (b := b) (nmi := nmi) h.live h.wf.2.1 hv
  have hp := pushed_enterVector (b := b) (vec := vec) (nmi := nmi) h.live h.wf
  simp only [h.pc_eq, h.p_eq] at hp
  refine ⟨?_, fun hs => ?_, fun hs => ?_, hp.congr h.stored.symm h.s_eq.symm rfl, fun hq c n h0 h1 h2 => ?_,
    fun hs => ?_⟩
  · have hr := regs_enterVector (b := b) (vec := vec) (nmi := nmi) h.live
    have hpc : (enterVector b vec nmi d).cpu.pc = _ := congrArg Regs.pc hr
    rw [regs_withTag, cpu_withTag]
    dsimp only
    rw [hpc, hr, h.regs, h.s_eq, h.p_eq]
  · rw [stored_withTag, stored_enterVector_ram h.live ((h.stackInRam_iff 3).2 hs), h.stored]; rfl
  · rw [← h.s_eq, ← h.pc_eq, ← h.p_eq]; exact hram ((h.stackInRam_iff 3).2 hs)
  · simp only [← pushAddr_of_s h.s_eq] at h0 h1 h2
    rw [byteAt_withTag, hother c n s h0 h1 h2, h.bytes hq]
  · rw [← h.cfg_eq] at hs ⊢; exact hvec hs

/-- Settles O37: an exception taken after the discarded read at PC, with PC one further. -/
theorem brkEntersVector : Obligations.BrkEntersVector := by
  intro s hl hinv
  have h := (AfterReads.refl hl (storesWf_of_inv_withTag hinv)).dummyFetch
  have hi : AfterReads [s.cpu.pc] s.incPc (dummyFetch s).incPc :=
    ⟨h.live, h.wf, by rw [incPc_eq, incPc_eq, regs_withPc, regs_withPc, h.regs, h.pc_eq], h.stored, h.cartRam⟩
  have e := hi.takesException (b := true) (nmi := false) (vec := vectorIrq) (.inr rfl)
  have he : exec .brk s = .next ((enterVector true vectorIrq false (dummyFetch s).incPc).withTag .fetch) := by
    show finish (enterVector true vectorIrq false (perform State.incPc (dummyFetch s))) = _
    rw [brkIncPc_eq hl]
    exact finish_of_live (live_enterVector hi.live)
  exact ⟨_, he, e.regs, e.onlyRam, e.inRam, e.pushed.congr rfl rfl rfl, e.others, e.vector⟩

/-! ### The NMI latch through an entry -/

namespace Calm

variable {s : State}

theorem performs {f : State → State} (hf : CpuOnly f) (hn : s.cpu.nmiLatch = false → (f s).cpu.nmiLatch = false)
    (h : Calm s) : Calm (perform f s) := by
  unfold perform
  split
  · exact h
  · exact ⟨by rw [hf.cfg]; exact h.inputs, hn h.latch⟩

theorem withTag (h : Calm s) (g : ExecTag) : Calm (s.withTag g) := ⟨h.inputs, h.latch⟩

theorem writeCycle (h : Calm s) (a : Addr) (v : Byte) : Calm (writeCycle a v s) := by
  have ho : Calm (openWrite s) := by
    unfold openWrite
    split
    · exact h.awaitCpu _
    · exact h.beginSlot
  unfold Machine.writeCycle
  split
  · exact h
  · exact endCycle ⟨by rw [cfg_busWrite]; exact ho.inputs, by rw [cpu_busWrite]; exact ho.latch⟩

theorem push (h : Calm s) (v : Byte) : Calm (push v s) :=
  (h.writeCycle _ v).performs (f := fun t => t.withS _) ⟨fun _ => ⟨_, rfl⟩⟩ id

theorem readLow (h : Calm s) (a : Addr) : Calm (readLow a s).2 := (h.readCycle a).performs (cpuOnly_latchEa _) id

theorem enterVector (h : Calm s) (b : Bool) (vec : Addr) (nmi : Bool) : Calm (enterVector b vec nmi s) := by
  refine performs (f := fun t => t.withPc _) ⟨fun _ => ⟨_, rfl⟩⟩ id (readCycle _ ?_)
  refine performs (f := fun t => if nmi then t.withNmi false else t) ⟨fun t => ?_⟩ (fun hl => ?_) ?_
  · cases nmi <;> exact ⟨_, rfl⟩
  · cases nmi
    · exact hl
    · rfl
  · exact performs (f := fun t => t.withP { t.cpu.p with i := true }) ⟨fun _ => ⟨_, rfl⟩⟩ id
      ((((h.push _).push _).push _).readLow vec)

/-- An interrupt's entry begins with a clear latch: an NMI's is cleared there, and an IRQ is taken only where no NMI is
latched (R411, R414). -/
theorem beginEntry {k : Interrupt} (hi : s.cfg.inputs = []) (hp : pendingInterrupt s = some k) :
    Calm (beginEntry k s) := by
  cases k with
  | nmi => exact ⟨hi, rfl⟩
  | irq =>
    have hn : s.cpu.nmiLatch ≠ true := fun hl => by
      have := pendingInterrupt_eq_nmi.mpr hl
      rw [hp] at this
      cases this
    exact ⟨hi, Bool.eq_false_iff.mpr hn⟩

end Calm

/-- The vector an interrupt is taken through (R404). -/
def Interrupt.vector : Interrupt → Addr
  | .nmi => vectorNmi
  | .irq => vectorIrq

theorem interruptEntry_eq (k : Interrupt) (s : State) :
    interruptEntry k s =
      enterVector false k.vector (decide (k = .nmi)) (dummyFetch (readHere s.cpu.pc (beginEntry k s)).2) := by
  cases k <;> rfl

end Sys2Proof.Machine

namespace Sys2Proof

open Machine

/-- Settles O12: an exception taken after the discarded fetches, in the slot that was awaited. -/
theorem interruptEntry : Obligations.InterruptEntry := by
  intro s k hl hinv hp
  have hb : AfterReads [s.cpu.pc] s (openRead s) := (AfterReads.refl hl hinv.storesWf).of_still (still_openRead s)
  have h := ((hb.beginEntry k).readHere (a := (openRead s).cpu.pc) fun hq => by
    rw [hb.pc_eq]; exact hq _ (List.mem_singleton_self _)).dummyFetch
  have e := h.takesException (b := false) (nmi := decide (k = .nmi)) (vec := k.vector)
    (by cases k <;> [exact .inl rfl; exact .inr rfl])
  have he : step s = finish (Machine.interruptEntry k (openRead s)) := by
    simp only [step, nextAction, hl.1, hp, Bool.false_eq_true, if_false]
  rw [interruptEntry_eq, finish_of_live (live_enterVector h.live)] at he
  have hcalm (hi : s.cfg.inputs = []) :
      Calm (dummyFetch (readHere (openRead s).cpu.pc (beginEntry k (openRead s))).2) :=
    (((Calm.beginEntry (by rw [hb.cfg_eq]; exact hi) hp).busRead _).endCycle).readCycle _
  exact ⟨_, he, e.regs, e.onlyRam, e.inRam, e.pushed, e.others,
    fun hs => by have hv := e.vector hs; cases k <;> exact hv,
    fun hi => (((hcalm hi).enterVector _ _ _).withTag _).latch⟩

end Sys2Proof

namespace Sys2Proof

open Machine

/-! ## The encoder and the decoder

Both go by the opcode map: which operand bytes an opcode's entry takes, and the instruction they complete, is said once by
`Shape.Reads`. -/

/-- The operand bytes, low byte first, and the instruction an opcode of this shape makes of them (R121, R122). -/
inductive Shape.Reads : Shape → List Byte → Instr → Prop
  | one (i : Instr) : Reads (.one i) [] i
  | two (f : Byte → Instr) (b : Byte) : Reads (.two f) [b] (f b)
  | three (f : Addr → Instr) (a : Addr) : Reads (.three f) [loByte a, hiByte a] (f a)

theorem Shape.reads_three (f : Addr → Instr) (lo hi : Byte) : (Shape.three f).Reads [lo, hi] (f (wordOf lo hi)) := by
  have h := Reads.three f (wordOf lo hi)
  rwa [(bytes_wordOf lo hi).1, (bytes_wordOf lo hi).2] at h

/-- Every instruction is encoded as an opcode and the operands its entry reads it from (R123, R124). -/
theorem encode_reads (i : Instr) : ∃ op tl, encode i = op :: tl ∧ (opcodeShape op).Reads tl i := by
  cases i <;> exact ⟨_, _, rfl, by constructor⟩

/-- No two encodings of an instruction: what an opcode's entry completes is encoded with that opcode. -/
theorem Shape.Reads.encode_eq {op : Byte} {tl : List Byte} {i : Instr} (h : (opcodeShape op).Reads tl i) :
    encode i = op :: tl := by
  have he := encode_of_shape op
  generalize opcodeShape op = sh at h he
  cases h with
  | one i => exact he
  | two f b => exact he b
  | three f a => exact he a

/-- The decoder takes an opcode and the operands of its entry off a list, and accepts nothing else (R120, R122). -/
theorem decode_eq_some_iff {bs : List Byte} {i : Instr} {rest : List Byte} :
    decode bs = some (i, rest) ↔ ∃ op tl, bs = op :: tl ++ rest ∧ (opcodeShape op).Reads tl i := by
  constructor
  · intro h
    cases bs with
    | nil => cases h
    | cons op bs =>
      cases hs : opcodeShape op with
      | invalid => simp only [decode, hs, reduceCtorEq] at h
      | one j =>
        cases (decode_one hs bs).symm.trans h
        exact ⟨op, [], rfl, hs ▸ .one _⟩
      | two f =>
        match bs with
        | [] => simp only [decode, hs, reduceCtorEq] at h
        | b :: bs =>
          cases (decode_two hs b bs).symm.trans h
          exact ⟨op, [b], rfl, hs ▸ .two f b⟩
      | three f =>
        match bs with
        | [] | [_] => simp only [decode, hs, reduceCtorEq] at h
        | lo :: hi :: bs =>
          cases (decode_three hs lo hi bs).symm.trans h
          exact ⟨op, [lo, hi], rfl, hs ▸ Shape.reads_three f lo hi⟩
  · rintro ⟨op, tl, rfl, h⟩
    generalize hs : opcodeShape op = sh at h
    cases h with
    | one i => exact decode_one hs rest
    | two f b => exact decode_two hs b rest
    | three f a => rw [List.cons_append, List.cons_append, List.cons_append, List.nil_append, decode_three hs, wordOf_bytes]

/-- With three bytes to read the decoder refuses by the opcode alone: the opcodes that begin no instruction (R126, R128). -/
theorem decode_eq_none_iff (op lo hi : Byte) : decode [op, lo, hi] = none ↔ opcodeLength op = none := by
  unfold opcodeLength
  cases hs : opcodeShape op with
  | invalid => simp only [decode, hs]
  | one i => simp only [decode_one hs, reduceCtorEq]
  | two f => simp only [decode_two hs, reduceCtorEq]
  | three f => simp only [decode_three hs, reduceCtorEq]

/-- Settles O1: the encoder writes an opcode and operands from which its entry reads the instruction. -/
theorem decodeOfEncode : Obligations.DecodeOfEncode := by
  intro i rest
  obtain ⟨op, tl, he, hr⟩ := encode_reads i
  exact decode_eq_some_iff.mpr ⟨op, tl, by rw [he], hr⟩

/-- Settles O2: what the opcode's entry reads is what the encoder writes. -/
theorem encodeOfDecode : Obligations.EncodeOfDecode := by
  intro bs i rest h
  obtain ⟨op, tl, hb, hr⟩ := decode_eq_some_iff.mp h
  rw [hb, hr.encode_eq]

/-- Settles O4: the opcode alone decides, and the map's 256 entries are compared with R126's list. -/
theorem invalidOpcodesRefused : Obligations.InvalidOpcodesRefused := by
  intro op lo hi
  rw [decode_eq_none_iff]
  revert op
  decide +kernel

/-- Settles O3: each word is decoded by evaluation. -/
theorem specWordsDecode : Obligations.SpecWordsDecode :=
  ⟨rfl, rfl, rfl, rfl, rfl, rfl, rfl, rfl, rfl, rfl, rfl, rfl, rfl⟩

end Sys2Proof

namespace Sys2Proof.Machine

/-! ## The fetch -/

/-- Settles O5: the fetch cycles, from the slot that was awaited. -/
theorem stepRunsDecoded : Obligations.StepRunsDecoded := by
  intro s i rest h hp hd
  obtain ⟨hl, hs, hr, ht⟩ := fetchInstr_of_decode (live_openRead h) hd
  have hpc : (openRead s).cpu.pc = s.cpu.pc := pc_of_regs (regs_openRead s)
  refine ⟨_, ?_, rfl, hl, hs.trans (stored_openRead s), inv_fetchInstr, fun hh => ?_, ?_⟩
  · simp only [step, nextAction, h.1, hp, hd, Bool.false_eq_true, if_false]
  · obtain ⟨hc, hh'⟩ := ht (halted_openRead s)
    exact ⟨by rw [hc, openRead_of_running hh, clock_beginSlot], hh'⟩
  · rw [hr, regs_openRead, hpc]

/-! ### The bytes of an image -/

/-- These bytes lie at PC in the window of a `vanilla_4k` image (R85, R530), in a machine with the cartridge `c` that no
trap can stop. -/
structure AtImage (c : Cart) (bs : List Byte) (s : State) : Prop where
  live : Live s
  scheme : s.cfg.scheme = .vanilla4k
  cart : s.cart = c
  bytes : ∀ k (h : k < bs.length), (s.cpu.pc + BitVec.ofNat 16 k).getLsbD 12 = true ∧
    s.cfg.image.read ((s.cpu.pc + BitVec.ofNat 16 k).toNat % 4096) = bs[k]

namespace AtImage

variable {c : Cart} {b : Byte} {bs : List Byte} {s t : State}

theorem head (h : AtImage c (b :: bs) s) :
    s.cpu.pc.getLsbD 12 = true ∧ s.cfg.image.read (s.cpu.pc.toNat % 4096) = b := by
  have h0 := h.bytes 0 (Nat.zero_lt_succ _)
  rwa [show s.cpu.pc + BitVec.ofNat 16 0 = s.cpu.pc from BitVec.add_zero _] at h0

theorem tail (h : AtImage c (b :: bs) s) (hl : Live t) (hcfg : t.cfg = s.cfg) (hcart : t.cart = s.cart)
    (hpc : t.cpu.pc = s.cpu.pc + 1) : AtImage c bs t := by
  refine ⟨hl, by rw [hcfg]; exact h.scheme, hcart.trans h.cart, fun k hk => ?_⟩
  have e : t.cpu.pc + BitVec.ofNat 16 k = s.cpu.pc + BitVec.ofNat 16 (k + 1) := by
    rw [hpc]; bv_omega
  rw [e, hcfg]
  exact h.bytes (k + 1) (Nat.succ_lt_succ hk)

theorem readCycle (h : AtImage c (b :: bs) s) (hl : Live t) (hcfg : t.cfg = s.cfg) (hpc : t.cpu.pc = s.cpu.pc) :
    (readCycle t.cpu.pc t).1 = b := by
  obtain ⟨hw, hb⟩ := h.head
  rw [hpc, readCycle_vanilla4k hl (by rw [hcfg]; exact h.scheme) hw, hcfg, hb]

theorem fetchOpcode_fst (h : AtImage c (b :: bs) s) : (fetchOpcode s).1 = b := by
  obtain ⟨hw, hb⟩ := h.head
  rw [Machine.fetchOpcode_fst, busRead_vanilla4k h.scheme hw, hb]

theorem fetchOpcode (h : AtImage c (b :: bs) s) (hv : opcodeLength b ≠ none) : AtImage c bs (fetchOpcode s).2 := by
  have hv : opcodeLength (busRead s.cpu.pc s).1 ≠ none := by
    rw [← Machine.fetchOpcode_fst, h.fetchOpcode_fst]; exact hv
  refine h.tail (live_fetchOpcode h.live hv) (cfg_eq_of_stored (stored_fetchOpcode h.live hv)) ?_
    (congrArg Regs.pc (regs_fetchOpcode h.live hv))
  rw [fetchOpcode_of_live h.live hv, cart_endCycle, cart_opcodeDone, cart_busRead_vanilla4k h.scheme]

theorem fetchLo (h : AtImage c (b :: bs) s) : (fetchLo s).1 = b ∧ AtImage c bs (fetchLo s).2 := by
  refine ⟨h.readCycle h.live rfl rfl, h.tail (live_fetchLo h.live) (cfg_eq_of_stored (stored_fetchLo h.live)) ?_
    (congrArg Regs.pc (regs_fetchLo h.live))⟩
  rw [fetchLo_of_live h.live, cart_latchLo, cart_readCycle_vanilla4k h.scheme]

theorem fetchHi (h : AtImage c (b :: bs) s) : (fetchHi s).1 = b ∧ AtImage c bs (fetchHi s).2 := by
  refine ⟨h.readCycle h.live rfl rfl, h.tail (live_fetchHi h.live) (cfg_eq_of_stored (stored_fetchHi h.live)) ?_
    (congrArg Regs.pc (regs_fetchHi h.live))⟩
  rw [fetchHi_of_live h.live, cart_latchHi, cart_readCycle_vanilla4k h.scheme]

/-- JSR's pushes cannot reach the image: its cycle 6 reads the byte that lay there before them. -/
theorem jsrHigh (h : AtImage c (b :: bs) s) : (jsrHigh s).1 = b :=
  h.readCycle (live_jsrPushes h.live) ((kept_cfg s.cfg).jsrPushes rfl)
    (congrArg Regs.pc (regs_jsrPushes h.live))

/-- The fetch reads the bytes of an instruction that lies at PC, and switches no bank. -/
theorem fetchInstr {i : Instr} (h : AtImage c (encode i) s) :
    (fetchInstr s).1 = encode i ∧ (fetchInstr s).2.cart = c := by
  obtain ⟨op, tl, he, hr⟩ := encode_reads i
  rw [he] at h ⊢
  have hop := h.fetchOpcode_fst
  generalize hs : opcodeShape op = sh at hr
  cases hr with
  | one i =>
    have hl : opcodeLength op = some 1 := by simp only [opcodeLength, hs]
    simp only [Machine.fetchInstr, hop, hl]
    exact ⟨trivial, (h.fetchOpcode (by simp [hl])).cart⟩
  | two f b =>
    have hl : opcodeLength op = some 2 := by simp only [opcodeLength, hs]
    obtain ⟨h1, hlo⟩ := (h.fetchOpcode (by simp [hl])).fetchLo
    simp only [Machine.fetchInstr, hop, hl, h1]
    exact ⟨trivial, hlo.cart⟩
  | three f a =>
    have hl : opcodeLength op = some 3 := by simp only [opcodeLength, hs]
    obtain ⟨h1, hlo⟩ := (h.fetchOpcode (by simp [hl])).fetchLo
    by_cases hj : op = jsrOpcode
    · simp only [Machine.fetchInstr, hop, hl, h1, if_pos hj, hlo.jsrHigh]
      exact ⟨trivial, hlo.cart⟩
    · obtain ⟨h2, hhi⟩ := hlo.fetchHi
      simp only [Machine.fetchInstr, hop, hl, h1, if_neg hj, h2]
      exact ⟨trivial, hhi.cart⟩

end AtImage

theorem length_encode (i : Instr) : (encode i).length = i.mode.length := by cases i <;> rfl

/-- Settles O6: the bytes fetched are those of the image, which decode to the instruction they encode. -/
theorem stepRunsImageInstruction : Obligations.StepRunsImageInstruction := by
  intro s i h hs hn hi h12 hlen hbytes
  have ha : AtImage s.cart (encode i) (openRead s) := by
    refine ⟨live_openRead h, by rw [cfg_openRead]; exact hs, cart_openRead s, fun k hk => ?_⟩
    have hk' := hk
    rw [length_encode] at hk'
    obtain ⟨hw, hm⟩ := pc_add_of_image h12 (show s.cpu.pc.toNat % 4096 + k < 4096 by omega)
    rw [pc_of_regs (regs_openRead s), cfg_openRead, hm]
    exact ⟨hw, hbytes k hk⟩
  obtain ⟨hf, hc⟩ := ha.fetchInstr
  have hd : decode (fetchInstr (openRead s)).1 = some (i, []) := by
    rw [hf, ← List.append_nil (encode i)]
    exact decodeOfEncode i []
  obtain ⟨t, he, rfl, hl, hst, hinv, -, hr⟩ := stepRunsDecoded s i [] h (pendingInterrupt_openRead ⟨hi, hn⟩) hd
  exact ⟨_, he, hl, hst, hc, hinv, hr⟩

end Sys2Proof.Machine

namespace Sys2Proof.Machine

/-! ## Effective addresses -/

theorem zext_eq_ofNat (b : Byte) : zext b = BitVec.ofNat 16 b.toNat := (BitVec.ofNat_toNat 16 b).symm

theorem toNat_zext (b : Byte) : (zext b).toNat = b.toNat :=
  BitVec.toNat_setWidth_of_le (by decide)

theorem toNat_zpIndexed (zp i : Byte) : (zpIndexed zp i).toNat = (zp.toNat + i.toNat) % 256 := by
  rw [zpIndexed, toNat_zext, BitVec.toNat_add]

/-- An index is added to an address modulo 65536 (R167). -/
theorem toNat_add_zext (a : Addr) (i : Byte) : (a + zext i).toNat = (a.toNat + i.toNat) % 65536 := by
  rw [BitVec.toNat_add, toNat_zext]

/-- Settles O13: each address is the operand, or the operand plus an index. -/
theorem effectiveAddresses : Obligations.EffectiveAddresses := fun s zp addr _ =>
  ⟨toNat_zext zp, toNat_zpIndexed zp s.cpu.x, toNat_zpIndexed zp s.cpu.y, rfl, toNat_add_zext addr s.cpu.x,
    toNat_add_zext addr s.cpu.y⟩

/-- The word a pointer's two reads give, its high byte from the next zero-page address modulo 256 (R168, R169). -/
def pointerWord (p : Byte) (s : State) : Addr :=
  wordOf (readLow (zext p) s).1 (readCycle (zext (p + 1)) (readLow (zext p) s).2).1

theorem resolve_indX (always : Bool) (zp : Byte) (s : State) :
    (resolve always (.indX zp) s).1 = pointerWord (zp + s.cpu.x) (dummyRead (zext zp) s) := rfl

theorem resolve_indY (always : Bool) (zp : Byte) (s : State) :
    (resolve always (.indY zp) s).1 = pointerWord zp s + zext s.cpu.y := rfl

theorem toNat_lowSix : ∀ v : Byte, (v &&& 0x3F#8).toNat = v.toNat % 64 := by decide

section
variable {p : Byte} {s : State} (h : Live s)

/-- The pointer's addresses as numbers. -/
theorem toNat_pointerWord {n : Nat} (hn : p.toNat = n) :
    (pointerWord p s).toNat =
      (readLow (BitVec.ofNat 16 n) s).1.toNat +
        256 * (readCycle (BitVec.ofNat 16 ((n + 1) % 256)) (readLow (BitVec.ofNat 16 n) s).2).1.toNat := by
  have h1 : zext (p + 1) = BitVec.ofNat 16 ((n + 1) % 256) := by
    rw [zext_eq_ofNat, BitVec.toNat_add, hn]; rfl
  rw [pointerWord, toNat_wordOf, h1, zext_eq_ofNat p, hn]

include h

theorem readCycle_zeroPage (hp : 0x80 ≤ p.toNat) : (readCycle (zext p) s).1 = byteAt .pia (p.toNat - 0x80) s := by
  obtain ⟨hr, hi⟩ := isRam_zeroPage p hp
  rw [readCycle_ram h hr, hi]

/-- A pointer in PIA RAM (R491). -/
theorem toNat_pointerWord_ram (hp : 0x80 ≤ p.toNat) (hq : 0x80 ≤ (p.toNat + 1) % 256) :
    (pointerWord p s).toNat =
      (byteAt .pia (p.toNat - 0x80) s).toNat + 256 * (byteAt .pia (p.toNat + 1 - 0x80) s).toNat := by
  have hn : (p + 1).toNat = p.toNat + 1 := by
    have := p.isLt
    rw [BitVec.toNat_add]
    show (p.toNat + 1) % 256 = _
    omega
  rw [pointerWord, toNat_wordOf, readLow_val, readCycle_zeroPage h hp, readCycle_zeroPage (live_readLow h) (by omega),
    pia_of_stored (stored_readLow _ s), hn]

theorem lastData_readLow (a : Addr) : (readLow a s).2.bus.lastData = (readLow a s).1 := by
  have hb : (readLow a s).2.bus = (readCycle a s).2.bus := by
    rw [readLow, perform_of_live (live_readCycle h), latchEa_eq, bus_withLat]
  rw [hb, readLow_val, readCycle_of_live h, bus_endCycle, lastData_busRead]

/-- With no collision a read of address 0 drives no bit: the low six are those of the byte before (R474, R475, R487). -/
theorem readCycle_zero (hc : NoCollision s) : (readCycle 0 s).1 = s.bus.lastData &&& 0x3F#8 := by
  have ho := kept_noCollision.openRead hc
  rw [readCycle_of_live h]
  show (busRead 0 (openRead s)).1 = _
  rw [busRead_tia (by decide) (by decide), tiaRead, bus_openRead, ho.none]
  simp [maskAddr, tiaDriven, Collisions.none]

/-- A pointer whose low byte is the last of PIA RAM has its high byte at address 0, where nothing is driven. -/
theorem toNat_pointerWord_top (hc : NoCollision s) :
    (pointerWord 0xFF s).toNat = (byteAt .pia 0x7F s).toNat + 256 * ((byteAt .pia 0x7F s).toNat % 64) := by
  have hl : (readLow (zext 0xFF) s).1 = byteAt .pia 0x7F s := readCycle_zeroPage h (by decide)
  have hz : zext (0xFF + 1) = 0 := rfl
  rw [pointerWord, toNat_wordOf, hz, readCycle_zero (live_readLow h) (kept_noCollision.readLow _ hc),
    lastData_readLow h, hl, toNat_lowSix]

end

/-- Settles O14: both modes read a pointer's word, indexedIndirectX after a discarded read, indirectIndexedY adds Y. -/
theorem pointerAddresses : Obligations.PointerAddresses := by
  intro s zp always h x top
  have hd : Live (dummyRead (zext zp) s) := live_dummyRead h
  have hx : (zp + s.cpu.x).toNat = x := BitVec.toNat_add ..
  have hb (n : Nat) : byteAt .pia n (dummyRead (zext zp) s) = byteAt .pia n s := pia_of_stored (stored_dummyRead _ s) n
  rw [resolve_indX, resolve_indY]
  refine ⟨toNat_pointerWord hx, ?_, fun h0 h1 => ?_, fun h0 h1 => ?_, fun ho hc => ⟨fun he => ?_, fun he => ?_⟩⟩
  · rw [toNat_add_zext, toNat_pointerWord rfl, ← zext_eq_ofNat]
  · rw [toNat_pointerWord_ram hd (by rw [hx]; exact h0) (by rw [hx]; exact h1), hx, hb, hb]
  · rw [toNat_add_zext, toNat_pointerWord_ram h h0 h1]
  · have hp : zp + s.cpu.x = 0xFF := BitVec.eq_of_toNat_eq (hx.trans he)
    rw [hp, toNat_pointerWord_top hd (kept_noCollision.readCycle _ ⟨ho, hc⟩), hb]
  · subst he
    rw [toNat_add_zext, toNat_pointerWord_top h ⟨ho, hc⟩]

end Sys2Proof.Machine

namespace Sys2Proof.Machine

/-! ## What reads and implied instructions leave alone -/

theorem readRegs_pc (op : ReadOp) (v : Byte) (r : Regs) : (readRegs op v r).pc = r.pc := by cases op <;> rfl

theorem readRegs_lip (op : ReadOp) (v : Byte) (r : Regs) : (readRegs op v r).lip = r.lip := by cases op <;> rfl

/-- LDX alone of kind R writes X. -/
theorem readRegs_x {op : ReadOp} (h : op ≠ .ldx) (v : Byte) (r : Regs) : (readRegs op v r).x = r.x := by
  cases op
  case ldx => exact absurd rfl h
  all_goals rfl

/-- Settles O18: the operand's accesses are read cycles, and the operation after them changes registers alone. -/
theorem readsStoreNothing : Obligations.ReadsStoreNothing := by
  intro i op o s h hk
  obtain ⟨t, ht, hr, hs, -, hb⟩ := exec_read_next hk h
  refine ⟨t, ht, hs, ?_, ?_, ?_, ?_, hb⟩
  · by_cases hx : op = .ldx
    · rw [if_pos hx]
    · rw [if_neg hx, hr, readRegs_x hx]; rfl
  · rw [hr, readRegs_s]; rfl
  · rw [hr, readRegs_pc]; rfl
  · rw [hr, readRegs_lip]; rfl

/-- Settles O27: both kinds make one discarded read at PC and then change registers alone. -/
theorem impliedStoreNothing : Obligations.ImpliedStoreNothing := by
  rintro i s h (⟨op, hk⟩ | ⟨op, hk⟩)
  · obtain ⟨t, ht, -, hs, -, hb⟩ := exec_implied_next hk h
    exact ⟨t, ht, hs, hb⟩
  · obtain ⟨t, ht, -, hs, -, hb⟩ := exec_accumulator_next hk h
    exact ⟨t, ht, hs, hb⟩

/-! ## Cycle counts -/

/-- The instruction takes its table count and the penalty of the state, the fetch cycles among them (R172, R630). -/
def CountsCycles (i : Instr) (s : State) : Prop :=
  ∃ t, exec i s = .next t ∧ t.clock + fetchedBytes i = s.clock + baseCycles i + penalty i s

theorem countsCycles_of_finish {i : Instr} {s u : State} {k : Nat} (he : exec i s = finish u)
    (hu : Live u ∧ u.clock = s.clock + k) (hk : k + fetchedBytes i = baseCycles i + penalty i s) :
    CountsCycles i s := by
  refine ⟨_, next_of_finish he hu.1, ?_⟩
  rw [clock_withTag, hu.2]
  omega

theorem Took.ends {k : Nat} {s u : State} (h : Took k s u) : Live u ∧ u.clock = s.clock + k := ⟨h.live, h.clock⟩

section
variable {i : Instr} {s : State} (h : Live s) (hr : s.cpu.halted = false)
include h hr

theorem countsCycles_read {op : ReadOp} {o : Operand} (hk : i.kind = .read op o) : CountsCycles i s := by
  cases o with
  | imm v =>
    refine countsCycles_of_finish (exec_read hk s) ((Took.zero h hr).performRead (x := (v, s)) op).ends ?_
    simp only [baseCycles, penalty, hk, fetchedBytes_immediate hk, operandCycles]
  | mem m =>
    refine countsCycles_of_finish (exec_read hk s) ((took_readOperand h hr m).performRead op).ends ?_
    simpa only [baseCycles, penalty, hk, fetchedBytes_read hk] using resolveCycles_read m s

theorem countsCycles_write {op : WriteOp} {m : MemMode} (hk : i.kind = .write op m) : CountsCycles i s := by
  refine countsCycles_of_finish (exec_write hk s) ((took_writeBase h hr m).lastWrite (writeEa m s) _) ?_
  simpa only [baseCycles, penalty, hk, fetchedBytes_write hk, Nat.add_zero] using resolveCycles_write m s

theorem countsCycles_modify {op : ModifyOp} {m : MemMode} (hk : i.kind = .modify op m)
    (hw : hitsWsync (writeEa m s) = false) : CountsCycles i s := by
  have hn := resolveCycles_write m s
  have he := exec_modify hk s
  rw [modifyMem_of_live h] at he
  refine countsCycles_of_finish he ((took_modifyBase h hr hw).lastWrite (writeEa m s) _) ?_
  simp only [baseCycles, penalty, hk, fetchedBytes_modify hk, modifyCycles]
  omega

theorem countsCycles_accumulator {op : ModifyOp} (hk : i.kind = .accumulator op) : CountsCycles i s := by
  refine countsCycles_of_finish (exec_accumulator hk s) ((Took.zero h hr).accumulator op).ends ?_
  simp only [baseCycles, penalty, hk, fetchedBytes_accumulator hk]

theorem countsCycles_implied {op : ImpliedOp} (hk : i.kind = .implied op) : CountsCycles i s := by
  refine countsCycles_of_finish (exec_implied hk s) ((Took.zero h hr).implied op).ends ?_
  simp only [baseCycles, penalty, hk, fetchedBytes_implied hk]

theorem countsCycles_stack {op : StackOp} (hk : i.kind = .stack op) : CountsCycles i s := by
  have he := exec_stack hk s
  have hf : Took 1 s (dummyFetch s) := (Took.zero h hr).read _
  have hp : Took 3 s (pull (dummyStack (dummyFetch s))).2 := (hf.read _).pull
  have hn : (match op with | .pha | .php => 2 | .pla | .plp => 3) + fetchedBytes i = baseCycles i + penalty i s := by
    simp only [baseCycles, penalty, hk, fetchedBytes_stack hk]
    cases op <;> rfl
  cases op
  · exact countsCycles_of_finish he (hf.lastPush _) hn
  · exact countsCycles_of_finish he (hf.lastPush _) hn
  · exact countsCycles_of_finish he hp.pla.ends hn
  · exact countsCycles_of_finish he hp.plp.ends hn

/-- A branch not taken has no cycle after its fetch, one in its page has one, one out of it two (R334). -/
theorem took_branch (taken : Bool) (off : Byte) :
    Took (if taken then (if (branchTarget off s).toNat / 256 = s.cpu.pc.toNat / 256 then 1 else 2) else 0) s
      (branch taken off s) := by
  have h0 : Took 0 s (s.latchOffset off) := by
    rw [← perform_of_live h fun t => t.latchOffset off]
    exact (Took.zero h hr).latchOffset off
  have hpc : (s.latchOffset off).cpu.pc = s.cpu.pc := rfl
  simp only [branch, perform_of_live h, hpc, pc_add_offset, hiByte_eq_iff]
  cases taken with
  | false => exact h0
  | true =>
    simp only [if_true]
    split
    · exact (h0.read _).withPc _
    · exact ((h0.read _).read _).withPc _

theorem countsCycles_branch {op : BranchOp} {off : Byte} (hk : i.kind = .branch op off) : CountsCycles i s := by
  refine countsCycles_of_finish (exec_branch hk s) (took_branch h hr _ off).ends ?_
  simp only [baseCycles, penalty, hk, fetchedBytes_branch hk]
  omega

/-- JSR's discarded stack read and its two pushes (R332). -/
theorem took_jsrPushes (h0 : hitsWsync (pushAddr s 0) = false) (h1 : hitsWsync (pushAddr s 1) = false) :
    Took 3 s (jsrPushes s) := by
  have hd : Took 1 s (dummyStack s) := (Took.zero h hr).read _
  have hs := pushAddr_of_s (s_of_regs (regs_dummyStack s))
  exact (hd.push (by rw [stackAddr_zero, hs]; exact h0) _).push (by rw [stackAddr_push hd.live, hs]; exact h1) _

theorem countsCycles_control (hk : i.kind = .control) (hw : ∀ a ∈ innerWrites i s, hitsWsync a = false) :
    CountsCycles i s := by
  have h0 := Took.zero h hr
  have hf : Took 1 s (dummyFetch s) := h0.read _
  rcases control_cases hk with ⟨a, rfl⟩ | ⟨a, rfl⟩ | ⟨a, rfl⟩ | rfl | rfl | rfl
  · exact countsCycles_of_finish rfl (h0.withPc a).ends rfl
  · exact countsCycles_of_finish rfl (((h0.readLow a).read _).withPc _).ends rfl
  · rw [innerWrites_jsr] at hw
    have hj : Took 4 s (jsrHigh s).2 := (took_jsrPushes h hr (hw _ (by simp)) (hw _ (by simp))).read _
    exact countsCycles_of_finish (u := callSubroutine a s) rfl
      (by rw [callSubroutine_of_live h]; exact hj.ends) rfl
  · exact countsCycles_of_finish rfl ((((hf.read _).pullLow.pull).withPc _).read _).incPc.ends rfl
  · rw [innerWrites_brk] at hw
    have hs (k : Nat) : pushAddr (perform State.incPc (dummyFetch s)) k = pushAddr s k := by
      rw [brkIncPc_eq h]
      exact pushAddr_of_s (s_of_regs (regs_dummyFetch s)) k
    refine countsCycles_of_finish rfl (hf.incPc.enterVector ?_ ?_ ?_ true vectorIrq false).ends rfl
    all_goals
      rw [hs]
      exact hw _ (by simp)
  · exact countsCycles_of_finish rfl ((((hf.read _).pull.withP _).pullLow.pull).withPc _).ends rfl

end

/-- Settles O45: kind by kind, the cycles after the fetch are counted one by one. -/
theorem cycleCounts : Obligations.CycleCounts := by
  intro i s h hr hw
  rcases hk : i.kind with ⟨op, o⟩ | ⟨op, m⟩ | ⟨op, m⟩ | op | op | op | ⟨op, off⟩ | _
  · exact countsCycles_read h hr hk
  · exact countsCycles_write h hr hk
  · exact countsCycles_modify h hr hk (hw _ (by simp [innerWrites, hk]))
  · exact countsCycles_accumulator h hr hk
  · exact countsCycles_implied h hr hk
  · exact countsCycles_stack h hr hk
  · exact countsCycles_branch h hr hk
  · exact countsCycles_control h hr hk hw

end Sys2Proof.Machine

namespace Sys2Proof.Machine

/-! ## Loads and stores -/

/-- Settles O16: kind R's operation on the operand, with N its bit 7 and Z its comparison with 0. -/
theorem loadsSetRegister : Obligations.LoadsSetRegister := by
  intro i o s h v p
  have load {op : ReadOp} (hk : i.kind = .read op o) : ∃ t, exec i s = .next t ∧ t.regs = readRegs op v s.regs := by
    obtain ⟨t, ht, hr, -⟩ := exec_read_next hk h
    exact ⟨t, ht, hr⟩
  have hp : p = setNZ v s.regs.p := (setNZ_eq v s.cpu.p).symm
  rw [hp]
  exact ⟨load, load, load⟩

/-- What a store leaves at its target (R161, R470, R484). -/
theorem byteAt_writeMem_target {m : MemMode} {v : Byte} {s : State} (hl : Live s) (hw : StoresWf s) {c : Chip} {n : Nat}
    (h : (c, n) ∈ storeTargets (writeEa m s) (writeBase m s)) :
    byteAt c n (writeMem m v s) = storedByte (writeEa m s) v :=
  byteAt_writeCycle_target (live_writeBase hl) (kept_storesWf.writeBase m hw) h

/-- What a store leaves in the stored registers that are no bytes. -/
theorem stored_writeMem_written {m : MemMode} {v : Byte} {s : State} (h : Live s) :
    (writeMem m v s).stored =
      s.stored.written (writeEa m s) v (writeMem m v s).pia.ram (writeMem m v s).tia.regs := by
  rw [writeMem, stored_writeCycle_written (live_writeBase h), stored_writeBase]

/-- A store reaches no stored register of a chip its address does not select. -/
theorem elsewhere_writeMem (m : MemMode) (v : Byte) (s : State) :
    (writeMem m v s).stored.elsewhere (writeEa m s) = s.stored.elsewhere (writeEa m s) := by
  rw [writeMem, elsewhere_writeCycle, stored_writeBase]

/-- Settles O17: the cycles that form the address are reads, after which each clause is one of the write cycle at it. -/
theorem storesWriteTarget : Obligations.StoresWriteTarget := by
  intro i op m s hl hinv hk
  obtain ⟨t, ht, rfl, hr⟩ := exec_write_next hk hl
  rw [← storedRegister_eq (t := s) rfl] at ht hr
  refine ⟨_, ht, hr, fun c n hn => ?_, fun hq c n hn => ?_, ?_, ?_⟩
  · rw [byteAt_withTag, byteAt_writeMem_target hl (storesWf_of_inv_withTag hinv) hn]
  · rw [byteAt_withTag, byteAt_writeMem_other hq hn]
  · rw [stored_withTag, elsewhere_writeMem]
  · rw [stored_withTag]
    exact stored_writeMem_written hl

end Sys2Proof.Machine

namespace Sys2Proof.Machine

/-! ## Transfers -/

/-- After its fetch an implied instruction has one cycle left, the discarded read at PC (R162). -/
theorem exec_implied_two_cycles {i : Instr} {op : ImpliedOp} {s : State} (hk : i.kind = .implied op) (h : Live s) :
    ∃ t, exec i s = .next t ∧ inCycles i 2 s t ∧ t.regs = impliedRegs op s.regs := by
  obtain ⟨t, ht, hr, -, hc, -⟩ := exec_implied_next hk h
  refine ⟨t, ht, fun hrun => ?_, hr⟩
  have hread : (dummyFetch s).clock = s.clock + 1 := clock_readCycle h hrun
  rw [hc, hread, fetchedBytes_implied hk]

/-- Settles O24: each transfer is its implied operation, with N its bit 7 and Z its comparison with 0. -/
theorem transfersCopy : Obligations.TransfersCopy := by
  intro s h nz
  have hnz : nz = fun v => setNZ v s.regs.p := funext fun v => (setNZ_eq v s.cpu.p).symm
  rw [hnz]
  have transfer (op : ImpliedOp) {i : Instr} (hk : i.kind = .implied op) := exec_implied_two_cycles hk h
  exact ⟨⟨rfl, transfer .tax rfl⟩, ⟨rfl, transfer .tay rfl⟩, ⟨rfl, transfer .txa rfl⟩, ⟨rfl, transfer .tya rfl⟩,
    ⟨rfl, transfer .tsx rfl⟩, ⟨rfl, transfer .txs rfl⟩⟩

/-! ## Pulls: PLA and PLP -/

section
variable {i : Instr} {s : State} (h : Live s)
include h

/-- The pull of PLA and PLP finds the byte of PIA RAM that is there before the two discarded reads. -/
theorem pull_afterReads_ram (hr : pullsInRam s 1) :
    (pull (dummyStack (dummyFetch s))).1 = byteAt .pia (pullIndex s 1) s := by
  have hs : (dummyStack (dummyFetch s)).cpu.s = s.cpu.s := by
    rw [s_of_regs (regs_dummyStack _), s_of_regs (regs_dummyFetch s)]
  have hstored : (dummyStack (dummyFetch s)).stored = s.stored := by rw [stored_dummyStack, stored_dummyFetch]
  rw [pull_ram (live_dummyStack (live_dummyFetch h)) (by rw [hs]; exact hr 0 Nat.one_pos), hs, pia_of_stored hstored]
  rfl

/-- An instruction that ends in a pull after two discarded reads, and changes registers alone by the pulled byte. -/
theorem exec_pull_next {f : State → State} {g : Regs → Regs} (hf : CpuOnly f) (hg : ∀ u, (f u).regs = g u.regs)
    (he : exec i s = finish (perform f (pull (dummyStack (dummyFetch s))).2)) :
    ∃ t, exec i s = .next t ∧ t.stored = s.stored ∧ (Quiet s [s.cpu.pc] → ∀ c n, byteAt c n t = byteAt c n s) ∧
      t.regs = g { s.regs with s := s.cpu.s + 1 } := by
  have hd : Live (dummyStack (dummyFetch s)) := live_dummyStack (live_dummyFetch h)
  have hp := live_pull hd
  rw [perform_of_live hp] at he
  refine ⟨_, next_of_finish he (hf.live hp), ?_, fun hq c n => ?_, ?_⟩
  · rw [stored_withTag, hf.stored, stored_pull hd, stored_dummyStack, stored_dummyFetch]
  · rw [byteAt_withTag, hf.byteAt, byteAt_pull hd, byteAt_dummyStack, byteAt_dummyFetch hq]
  · rw [regs_withTag, hg, regs_pull hd, s_of_regs (regs_dummyStack _), s_of_regs (regs_dummyFetch s), regs_dummyStack,
      regs_dummyFetch]

end

/-- Settles O31: both are a pull, after which PLA changes A, N and Z and PLP the flags. -/
theorem pullsReadStack : Obligations.PullsReadStack := by
  intro s h v
  refine ⟨?_, ?_, pull_afterReads_ram h⟩
  · rw [← setNZ_eq]
    exact exec_pull_next h (f := fun u => (u.withA v).withNZ v) (g := fun r => { r with a := v, p := setNZ v r.p })
      ⟨fun _ => ⟨_, rfl⟩⟩ (fun _ => rfl) rfl
  · exact exec_pull_next h (f := fun u => u.withP (unpackP v)) (g := fun r => { r with p := unpackP v })
      ⟨fun _ => ⟨_, rfl⟩⟩ (fun _ => rfl) rfl

end Sys2Proof.Machine

namespace Sys2Proof.Machine

/-! ## Arithmetic, logic, compare and bit test -/

theorem exec_read_regs {i : Instr} {op : ReadOp} {o : Operand} {s : State} (hk : i.kind = .read op o) (h : Live s) :
    ∃ t, exec i s = .next t ∧ t.regs = readRegs op (readOperand o s).1 s.regs := by
  obtain ⟨t, ht, hr, -⟩ := exec_read_next hk h
  exact ⟨t, ht, hr⟩

/-! ### Binary mode -/

theorem adc_binary {p : Flags} (hd : p.d = false) (a v : Byte) : adc a v p = adcBinary a v p :=
  if_neg (by rw [hd]; exact Bool.false_ne_true)

theorem sbc_binary {p : Flags} (hd : p.d = false) (a v : Byte) : sbc a v p = sbcBinary a v p :=
  if_neg (by rw [hd]; exact Bool.false_ne_true)

/-- SBC in binary mode, by the exact difference (R251). -/
theorem sbcBinary_eq (a v : Byte) (p : Flags) : sbcBinary a v p =
    let borrow := 1 - p.c.toNat
    let r : Byte := BitVec.ofInt 8 (a.toNat - v.toNat - borrow)
    (r, { p with
          n := r.getLsbD 7
          z := r == 0#8
          c := decide (v.toNat + borrow ≤ a.toNat)
          v := decide (a.toInt - v.toInt - borrow < -128 ∨ 127 < a.toInt - v.toInt - borrow) }) := by
  obtain ⟨hr, hc, hv⟩ := sbcBinary_bits a v p.c
  simp only [sbcBinary, adcBinary_eq, hr, hc, hv]

/-- Settles O19: with D clear both are their binary branches, which are the exact sum and the exact difference. -/
theorem addSubtractBinary : Obligations.AddSubtractBinary := by
  intro i o s h hd a v c borrow
  refine ⟨fun hk => ?_, fun hk => ?_⟩
  · obtain ⟨t, ht, hr⟩ := exec_read_regs hk h
    have hq : adc s.regs.a v s.regs.p = _ := (adc_binary hd a v).trans (adcBinary_eq a v s.cpu.p)
    rw [readRegs, hq] at hr
    exact ⟨t, ht, hr⟩
  · obtain ⟨t, ht, hr⟩ := exec_read_regs hk h
    have hq : sbc s.regs.a v s.regs.p = _ := (sbc_binary hd a v).trans (sbcBinary_eq a v s.cpu.p)
    rw [readRegs, hq] at hr
    exact ⟨t, ht, hr⟩

/-! ### Decimal mode -/

theorem bcd_iff (b : Byte) : bcd b = true ↔ b.toNat / 16 ≤ 9 ∧ b.toNat % 16 ≤ 9 := by
  rw [bcd, Bool.and_eq_true, decide_eq_true_iff, decide_eq_true_iff]
  rfl

theorem bcd_and_bcd {a v : Byte} (hb : bothBcd a v) : (bcd a && bcd v) = true := by
  obtain ⟨ha, ha', hv, hv'⟩ := hb
  rw [Bool.and_eq_true]
  exact ⟨(bcd_iff a).2 ⟨ha, ha'⟩, (bcd_iff v).2 ⟨hv, hv'⟩⟩

section
variable {a v : Byte} {p : Flags} (hd : p.d = true) (hb : bothBcd a v)
include hd hb

/-- On BCD inputs ADC's byte and carry are those of the sum (R250). -/
theorem adc_decimal : (adc a v p).1 = bcdByte ((decOf a + decOf v + p.c.toNat) % 100) ∧
    (adc a v p).2.c = decide (100 ≤ decOf a + decOf v + p.c.toNat) := by
  rw [adc, if_pos hd, if_pos (bcd_and_bcd hb), adcDigits_eq a v p.c hb]
  exact ⟨rfl, rfl⟩

/-- On BCD inputs SBC's byte and carry are those of the difference (R251). -/
theorem sbc_decimal : (sbc a v p).1 = bcdByte ((100 + decOf a - decOf v - (1 - p.c.toNat)) % 100) ∧
    (sbc a v p).2.c = decide (decOf v + (1 - p.c.toNat) ≤ decOf a) := by
  rw [sbc, if_pos hd, if_pos (bcd_and_bcd hb), sbcDigits_eq a v p.c hb]
  exact ⟨rfl, rfl⟩

end

theorem flags_eq_of_keeps {p q : Flags} (h : q.d = p.d ∧ q.i = p.i) :
    q = { p with n := q.n, v := q.v, z := q.z, c := q.c } := by
  obtain ⟨hd, hi⟩ := h
  rw [← hd, ← hi]

/-- An operation that sets A and the flags but keeps D and I: the frame, with its byte and its carry by name. -/
theorem regs_of_keeps {s t : State} {q : Byte × Flags} (hr : t.regs = { s.regs with a := q.1, p := q.2 })
    (hk : q.2.d = s.cpu.p.d ∧ q.2.i = s.cpu.p.i) {a : Byte} {c : Bool} (hq : q.1 = a ∧ q.2.c = c) :
    t.regs =
      { s.regs with
        a := a
        p := { s.cpu.p with n := t.cpu.p.n, v := t.cpu.p.v, z := t.cpu.p.z, c := c } } := by
  obtain ⟨rfl, rfl⟩ := hq
  have hp : t.cpu.p = q.2 := congrArg Regs.p hr
  rw [hp]
  exact hr.trans (congrArg (fun f => { s.regs with a := q.1, p := f }) (flags_eq_of_keeps hk))

/-- Settles O20: both keep D and I on all inputs, and on BCD inputs their byte and carry are the digits'. -/
theorem addSubtractDecimal : Obligations.AddSubtractDecimal := by
  intro i o s h hd a v c
  refine ⟨?_, fun hb hk => ?_, fun hb hk => ?_⟩
  · rintro (hk | hk)
    all_goals
      obtain ⟨t, ht, hr⟩ := exec_read_regs hk h
      have ha : t.cpu.a = _ := congrArg Regs.a hr
      have hc : t.cpu.p.c = _ := congrArg (fun r => r.p.c) hr
    · exact ⟨t, ht, regs_of_keeps hr (adc_keeps a v s.cpu.p) ⟨ha.symm, hc.symm⟩⟩
    · exact ⟨t, ht, regs_of_keeps hr (sbc_keeps a v s.cpu.p) ⟨ha.symm, hc.symm⟩⟩
  · obtain ⟨t, ht, hr⟩ := exec_read_regs hk h
    exact ⟨t, ht, regs_of_keeps hr (adc_keeps a v s.cpu.p) (adc_decimal hd hb)⟩
  · obtain ⟨t, ht, hr⟩ := exec_read_regs hk h
    exact ⟨t, ht, regs_of_keeps hr (sbc_keeps a v s.cpu.p) (sbc_decimal hd hb)⟩

/-! ### Logic -/

/-- A byte known by its bits that becomes A, with N and Z of it. -/
theorem regs_of_withA_setNZ {s t : State} {r : Byte} (hr : t.regs = { s.regs with a := r, p := setNZ r s.regs.p })
    {b : Nat → Bool} (hb : ∀ k, r.getLsbD k = b k) :
    (∀ k < 8, t.cpu.a.getLsbD k = b k) ∧
      t.regs = { s.regs with a := t.cpu.a, p := { s.cpu.p with n := t.cpu.a.getLsbD 7, z := t.cpu.a == 0#8 } } := by
  have ha : t.cpu.a = r := congrArg Regs.a hr
  rw [ha, hr, setNZ_eq]
  exact ⟨fun k _ => hb k, rfl⟩

/-- Settles O21: the three bitwise operations of kind R, bit by bit. -/
theorem logicSetsAccumulator : Obligations.LogicSetsAccumulator := by
  intro i op o s h hk hop
  obtain ⟨t, ht, hr⟩ := exec_read_regs hk h
  obtain rfl | rfl | rfl := hop
  · exact ⟨t, ht, regs_of_withA_setNZ hr fun _ => BitVec.getLsbD_and⟩
  · exact ⟨t, ht, regs_of_withA_setNZ hr fun _ => BitVec.getLsbD_or⟩
  · exact ⟨t, ht, regs_of_withA_setNZ hr fun _ => BitVec.getLsbD_xor⟩

/-! ### Compare and bit test -/

/-- The flags of a compare, by the two bytes as numbers (R256). -/
theorem compareFlags_eq (r v : Byte) (p : Flags) : compareFlags r v p =
    { p with
      c := decide (v.toNat ≤ r.toNat)
      z := decide (r.toNat = v.toNat)
      n := decide (128 ≤ (r.toNat + 256 - v.toNat) % 256) } := by
  have hz : (r == v) = decide (r.toNat = v.toNat) := by
    rw [beq_eq_decide, decide_eq_decide]
    exact BitVec.toNat_inj.symm
  have hn : (r - v).msb = decide (128 ≤ (r.toNat + 256 - v.toNat) % 256) := by
    have hv := v.isLt
    rw [BitVec.msb_eq_decide, BitVec.toNat_sub, decide_eq_decide]
    omega
  rw [compareFlags, hz, hn]

/-- Settles O22: each compare sets the flags of its register's comparison with the operand. -/
theorem comparesSetFlags : Obligations.ComparesSetFlags := by
  intro i op o s h hk hop r v
  obtain ⟨t, ht, hr⟩ := exec_read_regs hk h
  rw [← compareFlags_eq]
  obtain rfl | rfl | rfl := hop
  all_goals exact ⟨t, ht, hr⟩

/-- Settles O23: kind R's operation on the operand sets the flags of `bitTest`, which compares `A & v` with 0. -/
theorem bitTestsMemory : Obligations.BitTestsMemory := fun _ _ _ h hk => exec_read_regs hk h

end Sys2Proof.Machine

namespace Sys2Proof.Machine

/-! ## Shifts, rotates, increments and decrements -/

theorem add_one_eq_ofNat (r : Byte) : r + 1 = BitVec.ofNat 8 ((r.toNat + 1) % 256) := by
  bv_omega

theorem sub_one_eq_ofNat (r : Byte) : r - 1 = BitVec.ofNat 8 ((r.toNat + 255) % 256) := by
  bv_omega

/-- Settles O25: each count is its implied operation, its result taken modulo 256. -/
theorem countersWrap : Obligations.CountersWrap := by
  intro s h nz up down
  have hnz : nz = fun v => setNZ v s.regs.p := funext fun v => (setNZ_eq v s.cpu.p).symm
  have hup : up = (· + 1) := funext fun r => (add_one_eq_ofNat r).symm
  have hdown : down = (· - 1) := funext fun r => (sub_one_eq_ofNat r).symm
  rw [hnz, hup, hdown]
  have count (op : ImpliedOp) {i : Instr} (hk : i.kind = .implied op) := exec_implied_two_cycles hk h
  exact ⟨⟨rfl, count .inx rfl⟩, ⟨rfl, count .iny rfl⟩, ⟨rfl, count .dex rfl⟩, ⟨rfl, count .dey rfl⟩⟩

/-- Settles O28: the accumulator form applies `modifyFun`, which is the arithmetic of `modifiedByte` and
`modifiedFlags`. -/
theorem accumulatorShifts : Obligations.AccumulatorShifts := by
  intro i op s h hk
  obtain ⟨t, ht, hr, -⟩ := exec_accumulator_next hk h
  rw [modifyFun_eq] at hr
  exact ⟨t, ht, hr⟩

/-- Of two writes to one address the stored registers follow the second. At GRP1 (R483) both copy the same bit of
ENABL, which a write there does not change. -/
theorem Stored.written_written (a : Addr) (v w : Byte) (ram ram' tiaRegs tiaRegs' : Memory) (x : Stored) :
    (x.written a v ram tiaRegs).written a w ram' tiaRegs' = x.written a w ram' tiaRegs' := by
  have hgrp1 (h : selectsTia a 0x1C = true) : selectsTia a 0x1F = false :=
    Bool.eq_false_iff.mpr fun h' => absurd (selectsTia_unique h h') (by decide)
  simp +contextual only [Stored.written, hgrp1, if_true, if_false, Bool.false_eq_true]

section
variable {m : MemMode} {s : State} (h : Live s)
include h

/-- What the first write of a read-modify-write instruction, of the byte it has read, leaves in the stored registers
that are no bytes (R300). -/
theorem stored_modifyBase_written : (modifyBase m s).stored =
    s.stored.written (writeEa m s) (readCycle (writeEa m s) (writeBase m s)).1 (modifyBase m s).pia.ram
      (modifyBase m s).tia.regs := by
  have hlatch : CpuOnly (perform fun t => t.latchOperand (readCycle (writeEa m s) (writeBase m s)).1) :=
    (cpuOnly_latchOperand _).perform
  have hread : Live (readCycle (writeEa m s) (writeBase m s)).2 := live_readCycle (live_writeBase h)
  have hw := stored_writeCycle_written (a := writeEa m s) (v := (readCycle (writeEa m s) (writeBase m s)).1)
    (hlatch.live hread)
  rwa [hlatch.stored, stored_readCycle, stored_writeBase] at hw

/-- What its two writes leave there is what the second leaves. -/
theorem stored_modify_written (v : Byte) :
    let t := writeCycle (writeEa m s) v (modifyBase m s)
    t.stored = s.stored.written (writeEa m s) v t.pia.ram t.tia.regs := by
  intro t
  calc t.stored
    _ = (modifyBase m s).stored.written (writeEa m s) v t.pia.ram t.tia.regs :=
      stored_writeCycle_written (live_modifyBase h)
    _ = s.stored.written (writeEa m s) v t.pia.ram t.tia.regs := by
      rw [stored_modifyBase_written h, Stored.written_written]

end

/-- Settles O29: kind M's last write, after the read and the first write of `modifyBase`, which has the same targets. -/
theorem modifyMemory : Obligations.ModifyMemory := by
  intro i op m s hl hinv hk v
  obtain ⟨t, ht, hr, rfl⟩ := exec_modify_next hk hl
  simp only [modifyFun_eq] at ht hr ⊢
  have hwf : StoresWf (modifyBase m s) := kept_storesWf.modifyBase (storesWf_of_inv_withTag hinv)
  refine ⟨_, ht, hr, fun c n hn => ?_, fun hq c n hn => ?_, ?_, ?_⟩
  · rw [← storeTargets_modifyBase] at hn
    rw [byteAt_withTag, byteAt_withP, byteAt_writeCycle_target (live_modifyBase hl) hwf hn]
  · rw [byteAt_withTag, byteAt_withP, byteAt_writeCycle_other, byteAt_modifyBase_other hq hn]
    rwa [storeTargets_modifyBase]
  · rw [stored_withTag, stored_withP, elsewhere_writeCycle, elsewhere_modifyBase]
  · rw [stored_withTag, stored_withP]
    exact stored_modify_written hl _

end Sys2Proof.Machine

namespace Sys2Proof.Machine

/-! ## Jumps, RTS and branches -/

/-- `t` follows from `s` by read cycles at these addresses, stack reads and changes of the CPU alone: nothing is stored,
in the extra RAM neither unless one of the addresses lies in a write port (R532). -/
structure OnlyReads (reads : List Addr) (s t : State) : Prop where
  live : Live t
  stored : t.stored = s.stored
  bytes : Quiet s reads → ∀ c n, byteAt c n t = byteAt c n s

namespace OnlyReads

variable {reads : List Addr} {s t : State}

theorem refl (h : Live s) : OnlyReads reads s s := ⟨h, rfl, fun _ _ _ => rfl⟩

variable (h : OnlyReads reads s t)
include h

theorem cpuOnly {f : State → State} (hf : CpuOnly f) : OnlyReads reads s (f t) where
  live := hf.live h.live
  stored := (hf.stored t).trans h.stored
  bytes hq c n := (hf.byteAt t c n).trans (h.bytes hq c n)

theorem withPc (a : Addr) : OnlyReads reads s (t.withPc a) := h.cpuOnly (f := fun u => u.withPc a) ⟨fun _ => ⟨_, rfl⟩⟩

theorem quietRead {a : Addr} (ha : Quiet s reads → inWritePort s.cfg a = false) :
    OnlyReads reads s (readCycle a t).2 where
  live := live_readCycle h.live
  stored := (stored_readCycle a t).trans h.stored
  bytes hq c n := by
    rw [byteAt_readCycle (by rw [cfg_eq_of_stored h.stored]; exact ha hq), h.bytes hq]

theorem readCycle {a : Addr} (ha : a ∈ reads) : OnlyReads reads s (readCycle a t).2 := h.quietRead fun hq => hq a ha

theorem readLow {a : Addr} (ha : a ∈ reads) : OnlyReads reads s (readLow a t).2 :=
  (h.readCycle ha).cpuOnly (cpuOnly_latchEa _).perform

theorem dummyStack : OnlyReads reads s (dummyStack t) := h.quietRead fun _ => inWritePort_stack _ _

theorem pullLow : OnlyReads reads s (pullLow t).2 where
  live := live_pullLow h.live
  stored := (stored_pullLow h.live).trans h.stored
  bytes hq c n := (byteAt_pullLow h.live c n).trans (h.bytes hq c n)

theorem pull : OnlyReads reads s (pull t).2 where
  live := live_pull h.live
  stored := (stored_pull h.live).trans h.stored
  bytes hq c n := (byteAt_pull h.live c n).trans (h.bytes hq c n)

/-- An instruction that ends so answers a next state with these registers, and stores nothing. -/
theorem exec_next {i : Instr} (he : exec i s = finish t) :
    ∃ u, exec i s = .next u ∧ u.stored = s.stored ∧ u.regs = t.regs ∧
      (Quiet s reads → ∀ c n, byteAt c n u = byteAt c n s) :=
  ⟨_, next_of_finish he h.live, h.stored, rfl, fun hq c n => (byteAt_withTag t _ c n).trans (h.bytes hq c n)⟩

end OnlyReads

/-! ### JMP -/

/-- The address of the high byte in JMP indirect: the next one in the pointer's page (R331). -/
theorem wordOf_next_in_page (a : Addr) :
    wordOf (loByte a + 1) (hiByte a) = BitVec.ofNat 16 (256 * (a.toNat / 256) + (a.toNat + 1) % 256) := by
  have hlo : loByte a + 1 = loByte (a + 1) := (BitVec.setWidth_add a 1 (by decide)).symm
  have hmod : (a + 1).toNat % 256 = (a.toNat + 1) % 256 := by
    rw [BitVec.toNat_add]
    exact Nat.mod_mod_of_dvd _ (by decide)
  rw [hlo, partialTarget_eq, hmod]

/-- Settles O32: the absolute form has no cycle after its fetch, the indirect form the two reads of the pointer. -/
theorem jumpsSetPc : Obligations.JumpsSetPc := by
  intro addr s h
  constructor
  · have hj : OnlyReads [] s (s.withPc addr) := (OnlyReads.refl h).withPc addr
    have he : exec (.jmpAbs addr) s = finish (s.withPc addr) := congrArg finish (perform_of_live h _)
    obtain ⟨t, ht, hs, hr, hb⟩ := hj.exec_next he
    exact ⟨t, ht, hr, hs, hb nofun⟩
  · intro hiAddr l hi
    have hq : OnlyReads [addr, hiAddr] s hi.2 := ((OnlyReads.refl h).readLow (by simp)).readCycle (by simp)
    have he : exec (.jmpInd addr) s = finish (hi.2.withPc (wordOf l.1 hi.1)) := by
      show finish (jumpIndirect addr s) = _
      rw [jumpIndirect, wordOf_next_in_page]
      exact congrArg finish (perform_of_live hq.live _)
    obtain ⟨t, ht, hs, hr, hb⟩ := (hq.withPc (wordOf l.1 hi.1)).exec_next he
    refine ⟨t, ht, hs, ?_, hb⟩
    have hw : wordOf l.1 hi.1 = BitVec.ofNat 16 (l.1.toNat + 256 * hi.1.toNat) := by
      rw [← toNat_wordOf, BitVec.ofNat_toNat, BitVec.setWidth_eq]
    rw [hr, regs_withPc, hw, regs_readCycle, regs_readLow]

/-! ### RTS -/

theorem pullIndex_eq (s : State) (k : Nat) : pullIndex s k = (s.cpu.s.toNat + k) % 256 - 0x80 := rfl

theorem pullIndex_of_s {s t : State} (h : t.cpu.s = s.cpu.s) (k : Nat) : pullIndex t k = pullIndex s k := by
  rw [pullIndex_eq, pullIndex_eq, h]

/-- The word that two pulls give, its low byte first (R333, R379). -/
def pulledWord (d : State) : Addr := wordOf (pullLow d).1 (pull (pullLow d).2).1

section
variable {d : State} (h : Live d)
include h

/-- Two pulls raise S by 2 and change no other register. -/
theorem regs_pullWord : (pull (pullLow d).2).2.regs = { d.regs with s := d.cpu.s + 2 } := by
  have hs : (pullLow d).2.cpu.s = d.cpu.s + 1 := congrArg Regs.s (regs_pullLow h)
  rw [regs_pull (live_pullLow h), hs, regs_pullLow h, BitVec.add_assoc]
  rfl

theorem pulledWord_ram (hr : pullsInRam d 2) :
    pulledWord d = wordOf (byteAt .pia (pullIndex d 1) d) (byteAt .pia (pullIndex d 2) d) := by
  have hlo : (pullLow d).1 = byteAt .pia (pullIndex d 1) d := pull_ram h (hr 0 (by decide))
  have hs : ((pullLow d).2.cpu.s.toNat + 1) % 256 = (d.cpu.s.toNat + 2) % 256 := by
    rw [show (pullLow d).2.cpu.s = d.cpu.s + 1 from congrArg Regs.s (regs_pullLow h), BitVec.toNat_add]
    exact pull_index_two _
  have hhi : (pull (pullLow d).2).1 = byteAt .pia (pullIndex d 2) d := by
    rw [pull_ram (live_pullLow h) (by rw [hs]; exact hr 1 (by decide)), hs, pia_of_stored (stored_pullLow h)]
    rfl
  rw [pulledWord, hlo, hhi]

end

/-- The word RTS pulls after its discarded reads (R333). -/
def pulledReturn (s : State) : Addr := pulledWord (dummyStack (dummyFetch s))

section
variable {s : State} (h : Live s)
include h

/-- RTS: the discarded reads, the two pulls, and a discarded read at the pulled word before PC passes it. -/
theorem returnSubroutine_eq :
    returnSubroutine s =
      (dummyFetch ((pull (pullLow (dummyStack (dummyFetch s))).2).2.withPc (pulledReturn s))).incPc :=
  returnSubroutine_of_live h

/-- RTS reads at PC and at the pulled word, and on the stack, and stores nothing. -/
theorem onlyReads_returnSubroutine : OnlyReads [s.cpu.pc, pulledReturn s] s (returnSubroutine s) := by
  have hd : OnlyReads [s.cpu.pc, pulledReturn s] s (dummyStack (dummyFetch s)) :=
    ((OnlyReads.refl h).readCycle (List.mem_cons_self ..)).dummyStack
  have hf : OnlyReads [s.cpu.pc, pulledReturn s] s
      (dummyFetch ((pull (pullLow (dummyStack (dummyFetch s))).2).2.withPc (pulledReturn s))) :=
    (hd.pullLow.pull.withPc _).readCycle (List.mem_cons_of_mem _ (List.mem_singleton_self _))
  rw [returnSubroutine_eq h]
  exact hf.withPc _

theorem regs_returnSubroutine :
    (returnSubroutine s).regs = { s.regs with s := s.cpu.s + 2, pc := pulledReturn s + 1 } := by
  have hd : (dummyStack (dummyFetch s)).regs = s.regs := (regs_dummyStack _).trans (regs_dummyFetch s)
  rw [returnSubroutine_eq h, incPc_eq, regs_withPc, pc_of_regs (regs_dummyFetch _), regs_dummyFetch, regs_withPc,
    regs_pullWord (live_dummyStack (live_dummyFetch h)), s_of_regs hd, hd]
  rfl

theorem pulledReturn_ram (hr : pullsInRam s 2) :
    pulledReturn s = wordOf (byteAt .pia (pullIndex s 1) s) (byteAt .pia (pullIndex s 2) s) := by
  have hs : (dummyStack (dummyFetch s)).cpu.s = s.cpu.s :=
    s_of_regs ((regs_dummyStack _).trans (regs_dummyFetch s))
  have hst : (dummyStack (dummyFetch s)).stored = s.stored := (stored_dummyStack _).trans (stored_dummyFetch s)
  have hr' : pullsInRam (dummyStack (dummyFetch s)) 2 := by
    simpa only [pullsInRam, hs] using hr
  rw [pulledReturn, pulledWord_ram (live_dummyStack (live_dummyFetch h)) hr', pia_of_stored hst, pia_of_stored hst,
    pullIndex_of_s hs, pullIndex_of_s hs]

end

/-- Settles O34: RTS's accesses are reads, the last of them at the pulled word, one before the PC it leaves. -/
theorem rtsPullsReturn : Obligations.RtsPullsReturn := by
  intro s h
  obtain ⟨t, ht, hs, hr, hb⟩ := (onlyReads_returnSubroutine h).exec_next (i := .rts) rfl
  rw [regs_returnSubroutine h] at hr
  have hpc : t.cpu.pc = pulledReturn s + 1 := congrArg Regs.pc hr
  refine ⟨t, ht, by rw [hr, hpc], hs, ?_, fun hp => ?_⟩
  · rw [hpc, BitVec.add_sub_cancel]
    exact hb
  · rw [hpc, pulledReturn_ram h hp, BitVec.toNat_add, toNat_wordOf]
    rfl

/-- The next state of an instruction of a live machine is live. -/
theorem live_of_exec {i : Instr} {s t : State} (h : Live s) (ht : exec i s = .next t) : Live t := by
  obtain ⟨u, hu, hl⟩ := exec_of_live i h
  rw [ht] at hu
  injection hu with e
  rwa [e]

/-- What JSR leaves for RTS on a stack in PIA RAM: S two lower, and the PC of JSR's last byte where the next two pulls
find it (R332). -/
theorem jsr_leaves {addr : Addr} {s t : State} (h : Live s) (hinv : (s.withTag .fetch).Inv) (hram : stackInRam 2 s)
    (ht : exec (.jsr addr) s = .next t) :
    t.regs = { s.regs with s := s.cpu.s - 2, pc := addr } ∧ pullsInRam t 2 ∧
      byteAt .pia (pullIndex t 1) t = loByte s.cpu.pc ∧ byteAt .pia (pullIndex t 2) t = hiByte s.cpu.pc := by
  obtain ⟨t', ht', hregs, -, hbytes, -⟩ := jsrPushesReturn addr s h hinv
  rw [ht] at ht'
  obtain rfl : t = t' := by injection ht'
  obtain ⟨hhi, hlo⟩ := hbytes hram
  have hlt := s.cpu.s.isLt
  have hs : t.cpu.s.toNat = s.cpu.s.toNat - 2 := by
    rw [show t.cpu.s = s.cpu.s - 2 from congrArg Regs.s hregs]
    bv_omega
  refine ⟨hregs, fun j hj => by omega, ?_, ?_⟩
  · rw [pullIndex_eq, hs, pull_index_word_lo _ hram hlt, hlo]
  · rw [pullIndex_eq, hs, pull_index_word_hi _ hram hlt, hhi]

/-- Settles O35: RTS pulls the word JSR has pushed, and goes on one after it. -/
theorem rtsReturnsFromJsr : Obligations.RtsReturnsFromJsr := by
  intro addr s t u h hinv hram ht hu
  obtain ⟨hregs, hin, hlo, hhi⟩ := jsr_leaves h hinv hram ht
  have hl : Live t := live_of_exec h ht
  have hpc : pulledReturn t = s.cpu.pc := by rw [pulledReturn_ram hl hin, hlo, hhi, wordOf_bytes]
  have hs : t.cpu.s + 2 = s.cpu.s := by
    rw [show t.cpu.s = s.cpu.s - 2 from congrArg Regs.s hregs, BitVec.sub_add_cancel]
  rw [next_of_exec hu rfl, regs_withTag, regs_returnSubroutine hl, hpc, hs, hregs]
  rfl

/-! ### Branches -/

/-- The address a branch reads before PC leaves its page (R334). -/
def branchPartial (off : Byte) (s : State) : Addr :=
  BitVec.ofNat 16 (256 * (s.cpu.pc.toNat / 256) + (branchTarget off s).toNat % 256)

/-- A branch not taken latches its offset alone; one taken makes one discarded read in its page, two out of it, and sets
PC to the target (R334). -/
theorem branch_of_live {s : State} (h : Live s) (taken : Bool) (off : Byte) :
    branch taken off s =
      if taken then
        (if (branchTarget off s).toNat / 256 = s.cpu.pc.toNat / 256 then dummyFetch (s.latchOffset off)
          else dummyRead (branchPartial off s) (dummyFetch (s.latchOffset off))).withPc (branchTarget off s)
      else s.latchOffset off := by
  have hl : Live (dummyFetch (s.latchOffset off)) := live_dummyFetch h
  have hpc : (s.latchOffset off).cpu.pc = s.cpu.pc := rfl
  simp only [branch, perform_of_live h, hpc, pc_add_offset, hiByte_eq_iff, partialTarget_eq, branchPartial]
  cases taken with
  | false => rfl
  | true =>
    simp only [if_true]
    split
    · exact perform_of_live hl _
    · exact perform_of_live (live_dummyRead hl) _

/-- A branch makes reads alone, and changes PC alone of the registers. -/
theorem branch_spec {s : State} (h : Live s) (taken : Bool) (off : Byte) :
    OnlyReads [s.cpu.pc, branchPartial off s] s (branch taken off s) ∧
      (branch taken off s).regs = { s.regs with pc := if taken then branchTarget off s else s.cpu.pc } := by
  have h0 : OnlyReads [s.cpu.pc, branchPartial off s] s (s.latchOffset off) :=
    (OnlyReads.refl h).cpuOnly (cpuOnly_offset off)
  have h1 : OnlyReads [s.cpu.pc, branchPartial off s] s (dummyFetch (s.latchOffset off)) :=
    h0.readCycle (List.mem_cons_self ..)
  rw [branch_of_live h]
  cases taken with
  | false => exact ⟨h0, rfl⟩
  | true =>
    simp only [if_true]
    split
    · exact ⟨h1.withPc _, by rw [regs_withPc, regs_dummyFetch, regs_latchOffset]⟩
    · exact ⟨(h1.readCycle (List.mem_cons_of_mem _ (List.mem_singleton_self _))).withPc _,
        by rw [regs_withPc, regs_dummyRead, regs_dummyFetch, regs_latchOffset]⟩

/-- Settles O36: the condition is the mnemonic's, and all that differs between the branches. -/
theorem branchesTestFlag : Obligations.BranchesTestFlag := by
  intro i op off s h hk
  obtain ⟨hq, hregs⟩ := branch_spec h (branchTaken op s.cpu.p) off
  obtain ⟨t, ht, hs, hr, hb⟩ := hq.exec_next (exec_branch hk s)
  exact ⟨t, ht, hs, hr.trans hregs, hb⟩

end Sys2Proof.Machine

namespace Sys2Proof.Machine

/-! ## Flag instructions and NOP -/

theorem lastAddress_readCycle {a : Addr} {s : State} (h : Live s) :
    (readCycle a s).2.bus.lastAddress = maskAddr a := by
  rw [readCycle_of_live h, bus_endCycle, bus_busRead]

/-- An implied instruction's only access after its fetch is the discarded read at PC (R162). -/
theorem lastAddress_exec_implied {i : Instr} {op : ImpliedOp} {s t : State} (hk : i.kind = .implied op) (h : Live s)
    (ht : exec i s = .next t) : t.bus.lastAddress = maskAddr s.cpu.pc := by
  obtain ⟨c, hc⟩ := (cpuOnly_impliedFun op).eq (dummyFetch s)
  rw [next_of_exec ht (exec_implied hk s), bus_withTag, implied, perform_of_live (live_dummyFetch h), hc]
  exact lastAddress_readCycle h

/-- Settles O26: each is its implied operation, which for NOP changes no register, after the discarded read at PC. -/
theorem flagInstructions : Obligations.FlagInstructions := by
  intro s h
  have flag (op : ImpliedOp) {i : Instr} (hk : i.kind = .implied op) := exec_implied_two_cycles hk h
  obtain ⟨t, ht, hcycles, hregs⟩ := flag .nop (i := .nop) rfl
  obtain ⟨t', ht', -, hstored, -, hbytes⟩ := exec_implied_next (i := .nop) rfl h
  obtain rfl : t = t' := by injection ht.symm.trans ht'
  have hlast : t.bus.lastAddress = BitVec.ofNat 13 (s.cpu.pc.toNat % 8192) :=
    (lastAddress_exec_implied rfl h ht).trans (mask_eq _)
  exact ⟨⟨rfl, flag .clc rfl⟩, ⟨rfl, flag .sec rfl⟩, ⟨rfl, flag .cli rfl⟩, ⟨rfl, flag .sei rfl⟩, ⟨rfl, flag .cld rfl⟩,
    ⟨rfl, flag .sed rfl⟩, ⟨rfl, flag .clv rfl⟩, rfl, t, ht, hcycles, hregs, hstored, hlast, hbytes⟩

/-! ## RTI -/

/-- Settles O38: RTI pulls P, then a word, after two discarded reads. -/
theorem rtiRestores : Obligations.RtiRestores := by
  intro s h
  obtain ⟨hl, hstored, hregs, hbytes, hram⟩ := returnInterrupt_spec h
  refine ⟨_, next_of_finish (i := .rti) rfl hl, hregs, hstored, fun hq c n => ?_, fun hr => ?_⟩
  · rw [byteAt_withTag, hbytes hq]
  · obtain ⟨hp, hpc⟩ := hram hr
    exact ⟨hp, (congrArg BitVec.toNat hpc).trans (toNat_wordOf _ _)⟩

/-- What BRK leaves for RTI on a stack in PIA RAM: S three lower, and P and the address BRK returns to where the next
three pulls find them (R378). -/
theorem brk_leaves {s t : State} (h : Live s) (hinv : (s.withTag .fetch).Inv) (hram : stackInRam 3 s)
    (ht : exec .brk s = .next t) :
    t.regs = { s.regs with s := s.cpu.s - 3, pc := t.cpu.pc, p := { s.cpu.p with i := true } } ∧ pullsInRam t 3 ∧
      byteAt .pia (pullIndex t 1) t = pushedP true s.cpu.p ∧
      byteAt .pia (pullIndex t 2) t = loByte (s.cpu.pc + 1) ∧
      byteAt .pia (pullIndex t 3) t = hiByte (s.cpu.pc + 1) := by
  obtain ⟨t', ht', hregs, -, hbytes, -⟩ := brkEntersVector s h hinv
  obtain rfl : t = t' := by injection ht.symm.trans ht'
  obtain ⟨hhi, hlo, hp⟩ := hbytes hram
  have hlt := s.cpu.s.isLt
  have hs : t.cpu.s.toNat = s.cpu.s.toNat - 3 := by
    rw [show t.cpu.s = s.cpu.s - 3 from congrArg Regs.s hregs]
    bv_omega
  obtain ⟨h1, h2, h3⟩ := pull_index_frame _ hram hlt
  simp only [pullIndex_eq, pullsInRam, hs, h1, h2, h3]
  exact ⟨hregs, pull_index_in_ram _ hram hlt, hp, hlo, hhi⟩

/-- Settles O39: RTI pulls the flags and the address BRK has pushed, and S rises by the three BRK took. -/
theorem rtiReturnsFromBrk : Obligations.RtiReturnsFromBrk := by
  intro s t u h hinv hram ht hu
  obtain ⟨hregs, hin, hp, hlo, hhi⟩ := brk_leaves h hinv hram ht
  obtain ⟨-, -, hrti, -, hpulls⟩ := returnInterrupt_spec (live_of_exec h ht)
  obtain ⟨hflags, hpc⟩ := hpulls hin
  have hs : t.cpu.s + 3 = s.cpu.s := by
    rw [show t.cpu.s = s.cpu.s - 3 from congrArg Regs.s hregs, BitVec.sub_add_cancel]
  rw [hp, unpackP_pushedP] at hflags
  rw [hlo, hhi, wordOf_bytes] at hpc
  rw [next_of_exec hu rfl, regs_withTag, hrti, hflags, hpc, hs, hregs]
  rfl

end Sys2Proof.Machine

namespace Sys2Proof.Machine

/-! ## The invariant -/

/-- Settles O42: no part of a step breaks the invariant but for the tag, and a step ends at an instruction boundary. -/
theorem stepKeepsInvariant : Obligations.StepKeepsInvariant := by
  intro s t h hs
  obtain ⟨u, hu, -, rfl⟩ := kept_sound.stepBody (sound_of_inv h) hs
  exact inv_withTag_of_sound hu

/-! ### At reset -/

theorem bankCount_pos {p : Params} (hw : p.wf = true) : 0 < bankCount p := by
  have hb : p.scheme = .tigervision ∨ p.scheme = .scheme3E → 0 < p.imageSize / 2048 := Params.banks_pos hw
  cases hs : p.scheme <;> simp [bankCount, hs] at hb ⊢ <;> exact hb

/-- What the devices' resets leave meets the invariant but for the tag (R601, R602). -/
theorem sound_of_deviceReset {s : State} (hcfg : s.cfg.wf = true) (hpia : s.pia.Inv) (hregs : s.tia.regs = [])
    (hmotion : s.tia.mactive = false ∧ s.tia.mclock = 0) (hframe : s.frame = Frame.reset)
    (hram : s.cart.ram.wf = true ∧ s.cart.ram.below (extraRamSize s.cfg) = true) (hbank : s.cart.bank = 0) :
    Sound s where
  cfg := hcfg
  pia := hpia
  tia := by simp [Tia.Inv, hregs, hmotion.1, hmotion.2, Memory.wf, Memory.below]
  frame := by simp [Frame.Inv, hframe, Frame.reset]
  cart := ⟨by rw [hbank]; exact bankCount_pos hcfg, hram.1, hram.2⟩
  flags := by constructor <;> (rw [hframe, tiaReg, hregs]; rfl)

theorem Kept.idleSlot {P : State → Prop} (h : Kept P) {s : State} (hs : P s) : P (idleSlot s) :=
  h.endSlot (h.beginSlot hs)

theorem Kept.resetInternal {P : State → Prop} (h : Kept P) {s : State} (hs : P s) : P (resetInternal s) :=
  h.cpu _ _ (h.idleSlot (h.idleSlot (h.idleSlot (h.idleSlot (h.idleSlot hs)))))

theorem Kept.resetVector {P : State → Prop} (h : Kept P) {s : State} (hs : P s) : P (resetVector s) := by
  have hl := h.readCycle vectorReset (h.cpu s _ hs : P (s.withLip vectorReset))
  have hi := h.performs (f := fun s => s.withP { s.cpu.p with i := true }) ⟨fun _ => ⟨_, rfl⟩⟩ hl
  exact h.cpu _ _ (h.performs (f := fun s => s.withPc _) ⟨fun _ => ⟨_, rfl⟩⟩ (h.readCycle (vectorReset + 1) hi))

/-- What the start of R600 has and no part of a step breaks holds after it. -/
theorem Kept.machineReset {P : State → Prop} (h : Kept P) {p : Params} {d : Draws} (hs : P (powerOn p d)) :
    P (machineReset p d) :=
  h.cpu _ _ (h.resetVector (h.resetInternal hs))

/-- Settles O43: the devices' resets meet the invariant, and the reset sequence is made of what a step is made of. -/
theorem resetMeetsInvariant : Obligations.ResetMeetsInvariant := by
  refine ⟨?_, fun p d hp hr hb hc he hs => ?_⟩
  · exact inv_of_sound (sound_of_deviceReset (by decide) ⟨by decide, rfl, rfl⟩ rfl ⟨rfl, rfl⟩ rfl ⟨rfl, rfl⟩ rfl) rfl
  · have h0 : Sound (powerOn p d) := sound_of_deviceReset hp ⟨hs, hr, hb⟩ rfl ⟨rfl, rfl⟩ rfl ⟨hc, he⟩ rfl
    exact inv_of_sound (kept_sound.machineReset h0) (tag_machineReset p d)

end Sys2Proof.Machine

namespace Sys2Proof.Machine

/-! ## Stops, interrupts and halts -/

/-- Settles O11: by the latch, then by the line and I. -/
theorem interruptPriority : Obligations.InterruptPriority := by
  intro s
  refine ⟨fun hn => ?_, fun hn hl hi => ?_, fun hn hi => ?_, fun hn hl => ?_⟩
  · rw [pendingInterrupt, if_pos hn]
  · simp only [pendingInterrupt, hn, hl, hi, Bool.false_eq_true, if_false, Bool.not_false, Bool.and_self, if_true]
  · simp only [pendingInterrupt, hn, hi, Bool.false_eq_true, if_false, Bool.not_true, Bool.and_false]
  · simp only [pendingInterrupt, hn, hl, Bool.false_eq_true, if_false, Bool.false_and]

/-! ### An invalid opcode -/

/-- An invalid opcode with the operations of its cycle 1 (R160, R402). -/
theorem raiseInvalidOpcode_opcodeDone {op : Byte} {a : Addr} {s : State} (h : s.traps.fatal = false) :
    (raiseInvalidOpcode op (opcodeDone op a s)).traps =
        { log := s.traps.log ++ [.invalidOpcode op a], fatal := true } ∧
      (raiseInvalidOpcode op (opcodeDone op a s)).regs = { s.regs with pc := s.cpu.pc + 1, lip := a } ∧
      (raiseInvalidOpcode op (opcodeDone op a s)).stored = s.stored := by
  have hf : ¬ (opcodeDone op a s).traps.fatal = true := by rw [traps_opcodeDone, h]; exact Bool.false_ne_true
  rw [raiseInvalidOpcode, if_neg hf]
  refine ⟨?_, regs_opcodeDone op a s, stored_opcodeDone op a s⟩
  dsimp only
  rw [traps_opcodeDone, lip_opcodeDone]

/-- The state the fetch of an invalid opcode stops in (R402). -/
theorem fetchInstr_invalid_state {s : State} (h : Live s) (hv : opcodeLength (busRead s.cpu.pc s).1 = none) :
    (fetchInstr s).2.traps =
        { log := (busRead s.cpu.pc s).2.traps.log ++ [.invalidOpcode (busRead s.cpu.pc s).1 s.cpu.pc], fatal := true } ∧
      (fetchInstr s).2.regs = { s.regs with pc := s.cpu.pc + 1, lip := s.cpu.pc } ∧
      (fetchInstr s).2.stored = s.stored := by
  obtain ⟨ht, hr, hst⟩ := raiseInvalidOpcode_opcodeDone (op := (busRead s.cpu.pc s).1) (a := s.cpu.pc)
    (fatal_busRead (a := s.cpu.pc) h)
  rw [(fetchInstr_invalid h hv).2, traps_endCycle, regs_endCycle, stored_endCycle]
  refine ⟨ht, ?_, ?_⟩
  · rw [hr, regs_busRead, cpu_busRead]
  · rw [hst, stored_busRead]

/-- Settles O7: the fetch of an invalid opcode is cycle 1 alone, and its record is what the step answers. -/
theorem invalidOpcodeStops : Obligations.InvalidOpcodeStops := by
  intro s h hp ho
  have hb := live_openRead h
  have hpc : (openRead s).cpu.pc = s.cpu.pc := congrArg Regs.pc (regs_openRead s)
  have hd : decode (fetchInstr (openRead s)).1 = none := by
    rw [← hpc] at ho
    rw [(fetchInstr_invalid hb ho).1]
    cases hd : decode [(busRead (openRead s).cpu.pc (openRead s)).1] with
    | none => rfl
    | some d => exact absurd ho (opcodeLength_of_decode hd)
  have hs : step s = .fault (stopReason (fetchInstr (openRead s)).2) := by
    simp only [step, nextAction, h.1, Bool.false_eq_true, if_false, hp, hd]
  rw [← hpc] at ho ⊢
  obtain ⟨ht, hr, hst⟩ := fetchInstr_invalid_state hb ho
  rw [stopReason_fetchInstr hb ho] at hs
  refine ⟨_, hs, by rw [ht], by rw [ht]; exact List.getLast?_concat, ?_, ?_⟩
  · rw [hr, regs_openRead]
  · rw [hst, stored_openRead]

/-! ### A halt -/

/-- Settles O46: the line's ticks bound the wait, and under the default order it ends with the line. -/
theorem haltEnds : Obligations.HaltEnds := by
  intro s
  refine ⟨halted_openRead s, ?_, fun h => ?_, fun ho hc h => ?_⟩
  · refine clock_awaitCpu haltBound _ s ((ticksLeft_le s).trans ?_)
    unfold ticksPerStep
    cases s.cfg.tiaClk <;> decide
  · rw [openRead_of_running h, clock_beginSlot]
  · exact awaitCpu_resume haltBound s ho hc h (by unfold haltBound; omega)

/-! ### A chip's trap -/

/-- The outcome is the stop of a chip's trap: this record, the last of the log, and these registers (R400). -/
def StopsWith (r : TrapRecord) (g : Regs) (o : Out) : Prop :=
  ∃ u, o = .fault (.chipTrap r u) ∧ u.regs = g ∧ u.traps.fatal = true ∧ u.traps.log.getLast? = some r

theorem stopsWith_outOf {u : State} {l : List TrapRecord} {k : AccessKind} {a : Addr} {g : Regs}
    (ht : u.traps = { log := l ++ [chipRecord k a], fatal := true }) (hg : u.regs = g) :
    StopsWith (chipRecord k a) g (outOf u) := by
  have hf : u.traps.fatal = true := by rw [ht]
  obtain ⟨hs, hl⟩ := stopReason_of_chip ht
  exact ⟨u, by rw [outOf, if_pos hf, hs], hg, hf, hl⟩

theorem stopsWith_finish {u : State} {l : List TrapRecord} {k : AccessKind} {a : Addr} {g : Regs}
    (ht : u.traps = { log := l ++ [chipRecord k a], fatal := true }) (hg : u.regs = g) :
    StopsWith (chipRecord k a) g (finish u) := by
  rw [finish_eq_outOf, perform_fatal (by rw [ht])]
  exact stopsWith_outOf ht hg

/-- An opcode fetch that a trap stops does nothing after its bus access. -/
theorem fetchOpcode_of_stopped {s : State} (h : (busRead s.cpu.pc s).2.traps.fatal = true) :
    (fetchOpcode s).2 = endCycle (busRead s.cpu.pc s).2 := by
  simp only [fetchOpcode, perform_fatal h, raiseInvalidOpcode, h, if_true, ite_self]

/-- A step whose opcode fetch stops the machine answers that stop. -/
theorem step_of_stopped_fetch {s : State} (hf : s.traps.fatal = false) (hp : pendingInterrupt (openRead s) = none)
    (h : (fetchOpcode (openRead s)).2.traps.fatal = true) : step s = outOf (fetchOpcode (openRead s)).2 := by
  have he := fetchInstr_stopped h
  rcases step_cases s with ⟨hf', -⟩ | ⟨k, -, hk, -⟩ | ⟨i, rest, -, -, -, hs⟩ | ⟨-, -, -, hs⟩
  · rw [hf] at hf'; cases hf'
  · rw [hp] at hk; cases hk
  · rw [hs, he, exec_fatal i h]
  · rw [hs, he, outOf, if_pos h]

theorem traps_performRead (op : ReadOp) (r : Byte × State) : (performRead op r).traps = r.2.traps := by
  obtain ⟨f, hf, hc⟩ := cpuOnly_performRead op r
  obtain ⟨c, hc⟩ := hc.perform.eq r.2
  rw [hf, hc]

theorem modifyMem_of_stopped {f : Byte → Flags → Byte × Flags} {m : MemMode} {s : State}
    (h : (modifyBase m s).traps.fatal = true) : modifyMem f m s = modifyBase m s := by
  obtain ⟨q, hq⟩ : ∃ q : Byte × Flags, modifyMem f m s =
      perform (fun t => t.withP q.2) (writeCycle (writeEa m s) q.1 (modifyBase m s)) := ⟨_, rfl⟩
  rw [hq, writeCycle_fatal h, perform_fatal h]

theorem callSubroutine_of_stopped {addr : Addr} {s : State}
    (h : (push (hiByte s.cpu.pc) (dummyStack s)).traps.fatal = true) :
    callSubroutine addr s = push (hiByte s.cpu.pc) (dummyStack s) := by
  have hj : jsrPushes s = push (hiByte s.cpu.pc) (dummyStack s) := push_fatal h
  have hr : (jsrHigh s).2 = push (hiByte s.cpu.pc) (dummyStack s) := by
    rw [jsrHigh, readCycle_fatal (by rw [hj, h]), hj]
  rw [callSubroutine, hr, perform_fatal h]

/-- A read-modify-write instruction that its read or its first write stops (R300). -/
theorem stopsWith_exec_modify {s : State} {i : Instr} {m : MemMode} {op : ModifyOp} (hk : i.kind = .modify op m)
    {l : List TrapRecord} {k : AccessKind} {t : State} (he : modifyBase m s = t)
    (ht : t.traps = { log := l ++ [chipRecord k (writeEa m s)], fatal := !false }) (hg : t.regs = s.regs) :
    StopsWith (chipRecord k (writeEa m s)) s.regs (exec i s) := by
  subst he
  rw [exec_modify hk s, modifyMem_of_stopped (by rw [ht]; rfl)]
  exact stopsWith_finish ht hg

section

variable {s : State} (hh : s.cfg.trapHandler = false) {i : Instr} {m : MemMode}
include hh

theorem stopsWith_step (hf : s.traps.fatal = false) (hp : pendingInterrupt (openRead s) = none)
    (ht : chipTraps s.cfg .read (maskAddr s.cpu.pc) (busRead s.cpu.pc (openRead s)).1 = true) :
    StopsWith (chipRecord .read s.cpu.pc) s.regs (step s) := by
  have hpc : (openRead s).cpu.pc = s.cpu.pc := congrArg Regs.pc (regs_openRead s)
  rw [← hpc] at ht ⊢
  have hb := busRead_trap (b := openRead s) (by rw [traps_openRead, hf]) (by rw [cfg_openRead]; exact ht)
  rw [cfg_openRead, hh] at hb
  have he := fetchOpcode_of_stopped (s := openRead s) (by rw [hb]; rfl)
  have htr : (fetchOpcode (openRead s)).2.traps = _ := (congrArg State.traps he).trans ((traps_endCycle _).trans hb)
  rw [step_of_stopped_fetch hf hp (by rw [htr]; rfl)]
  exact stopsWith_outOf htr (by rw [he, regs_endCycle, regs_busRead, regs_openRead])

theorem stopsWith_exec_read {op : ReadOp} (hk : i.kind = .read op (.mem m)) (hf : (readBase m s).traps.fatal = false)
    (ht : chipTraps (readBase m s).cfg .read (maskAddr (readEa m s))
      (busRead (readEa m s) (openRead (readBase m s))).1 = true) :
    StopsWith (chipRecord .read (readEa m s)) s.regs (exec i s) := by
  have htr := readCycle_trap hf ht
  rw [cfg_eq_of_stored (stored_readBase m s), hh] at htr
  have he : performRead op (readOperand (.mem m) s) = (readCycle (readEa m s) (readBase m s)).2 :=
    performRead_fatal ((congrArg Traps.fatal htr).trans rfl)
  rw [exec_read hk s, he]
  exact stopsWith_finish htr ((regs_readCycle _ _).trans (regs_readBase m s))

theorem stopsWith_exec_write {op : WriteOp} (hk : i.kind = .write op m) (hf : (writeBase m s).traps.fatal = false)
    (ht : chipTraps (writeBase m s).cfg .write (maskAddr (writeEa m s)) (storedRegister op s) = true) :
    StopsWith (chipRecord .write (writeEa m s)) s.regs (exec i s) := by
  have htr := writeCycle_trap hf ht
  rw [cfg_eq_of_stored (stored_writeBase m s), hh, storedRegister_eq rfl] at htr
  rw [exec_write hk s]
  exact stopsWith_finish htr (regs_writeMem m _ s)

theorem stopsWith_modify_read {op : ModifyOp} (hk : i.kind = .modify op m) (hf : (writeBase m s).traps.fatal = false)
    (ht : chipTraps (writeBase m s).cfg .read (maskAddr (writeEa m s))
      (busRead (writeEa m s) (openRead (writeBase m s))).1 = true) :
    StopsWith (chipRecord .read (writeEa m s)) s.regs (exec i s) := by
  have htr := readCycle_trap hf ht
  rw [cfg_eq_of_stored (stored_writeBase m s), hh] at htr
  have hrf : (readCycle (writeEa m s) (writeBase m s)).2.traps.fatal = true := by rw [htr]; rfl
  refine stopsWith_exec_modify hk ?_ htr (by rw [regs_readCycle, regs_writeBase])
  simp only [modifyBase]
  rw [perform_fatal hrf, writeCycle_fatal hrf]

theorem stopsWith_modify_write {op : ModifyOp} (hk : i.kind = .modify op m)
    (hf : (readCycle (writeEa m s) (writeBase m s)).2.traps.fatal = false)
    (ht : chipTraps (readCycle (writeEa m s) (writeBase m s)).2.cfg .write (maskAddr (writeEa m s))
      (readCycle (writeEa m s) (writeBase m s)).1 = true) :
    StopsWith (chipRecord .write (writeEa m s)) s.regs (exec i s) := by
  have hc : (readCycle (writeEa m s) (writeBase m s)).2.cfg = s.cfg :=
    (cfg_readCycle _ _).trans (cfg_eq_of_stored (stored_writeBase m s))
  have htr := writeCycle_trap (s := (readCycle (writeEa m s) (writeBase m s)).2.latchOperand
    (readCycle (writeEa m s) (writeBase m s)).1) hf ht
  rw [latchOperand_eq, cfg_withLat, hc, hh, ← latchOperand_eq] at htr
  refine stopsWith_exec_modify hk ?_ htr (by rw [regs_writeCycle, regs_latchOperand, regs_readCycle, regs_writeBase])
  simp only [modifyBase]
  rw [perform_running hf]

/-- An instruction whose first push traps, after a discarded read (R220). -/
theorem stopsWith_push {t u : State} {v : Byte} (hr : t.regs = s.regs) (hc : t.cfg = s.cfg)
    (hf : t.traps.fatal = false) (h : chipTraps t.cfg .write (maskAddr (pushAddr s 0)) v = true)
    (hu : (push v t).traps.fatal = true → u = push v t) :
    StopsWith (chipRecord .write (pushAddr s 0)) s.regs (finish u) := by
  have hs : stackAddr t = pushAddr s 0 :=
    stackAddr_of_s (k := 0) ((congrArg Regs.s hr).trans (BitVec.sub_zero _).symm) (Nat.zero_le _)
  rw [← hs] at h ⊢
  have ht := writeCycle_trap hf h
  rw [hc, hh] at ht
  have hp : push v t = writeCycle (stackAddr t) v t := perform_fatal (by rw [ht]; rfl)
  rw [hu (by rw [hp, ht]; rfl), hp]
  exact stopsWith_finish ht ((regs_writeCycle _ _ _).trans hr)

end

/-- Settles O49: each access is one bus access in the CPU's slot, and nothing after it runs in a stopped machine. -/
theorem trappingAccesses : Obligations.TrappingAccesses := by
  intro s i record readTraps writeTraps stops
  refine ⟨fun hh => ⟨?_, ?_, ?_, ?_, ?_, ?_, ?_⟩, fun hh => ⟨?_, ?_, ?_⟩⟩
  · rintro ⟨hf, ht⟩ hp
    exact stopsWith_step hh hf hp ht
  · rintro op m hk ⟨hf, ht⟩
    exact stopsWith_exec_read hh hk hf ht
  · rintro op m hk ⟨hf, ht⟩
    exact stopsWith_exec_write hh hk hf ht
  · intro op m hk r
    exact ⟨fun ⟨hf, ht⟩ => stopsWith_modify_read hh hk hf ht, fun ⟨hf, ht⟩ => stopsWith_modify_write hh hk hf ht⟩
  · rintro rfl ⟨hf, ht⟩
    exact stopsWith_push hh (regs_dummyFetch s) (cfg_dummyRead _ _) hf ht fun _ => rfl
  · rintro rfl ⟨hf, ht⟩
    rw [← packP_eq_pushedP] at ht
    exact stopsWith_push hh (regs_dummyFetch s) (cfg_dummyRead _ _) hf ht fun _ => rfl
  · rintro addr rfl ⟨hf, ht⟩
    exact stopsWith_push hh (regs_dummyStack s) (cfg_dummyRead _ _) hf ht callSubroutine_of_stopped
  · rintro a ⟨hf, ht⟩
    exact (readCycle_trap hf ht).trans (by rw [hh]; rfl)
  · rintro a v ⟨hf, ht⟩
    exact (writeCycle_trap hf ht).trans (by rw [hh]; rfl)
  · rintro op m hk ⟨hf, ht⟩
    have htr := readCycle_trap hf ht
    rw [cfg_eq_of_stored (stored_readBase m s), hh] at htr
    have hp := (traps_performRead op (readOperand (.mem m) s)).trans htr
    refine ⟨(performRead op (readOperand (.mem m) s)).withTag .fetch, ?_, congrArg Traps.log hp⟩
    rw [exec_read hk s, finish, if_neg (by rw [hp]; exact Bool.false_ne_true)]

end Sys2Proof.Machine

namespace Sys2Proof.Machine

/-! ## The PIA -/

/-- Bits 1 and 0 of an address by its remainder modulo 4. -/
theorem getLsbD_of_mod_four (m : BusAddr) :
    m.getLsbD 0 = decide (m.toNat % 4 % 2 = 1) ∧ m.getLsbD 1 = decide (m.toNat % 4 / 2 = 1) := by
  simp only [BitVec.getLsbD, Nat.testBit_eq_decide_div_mod_eq, decide_eq_decide]
  omega

theorem getLsbD_portByte (out dir input : Byte) {k : Nat} (hk : k < 8) :
    (portByte out dir input).getLsbD k = if dir.getLsbD k then out.getLsbD k else input.getLsbD k := by
  simp only [portByte, BitVec.getLsbD_or, BitVec.getLsbD_and, BitVec.getLsbD_not, hk, decide_true, Bool.true_and]
  cases dir.getLsbD k <;> simp

/-- A read of the port registers, by the two low address bits (R490, R497). -/
theorem piaRead_port {m : BusAddr} (h9 : m.getLsbD 9 = true) (h2 : m.getLsbD 2 = false) (l : Lines) (p : Pia) :
    (m.toNat % 4 = 0 → piaRead m l p = (portByte p.outA p.dirA l.portA, p)) ∧
    (m.toNat % 4 = 1 → piaRead m l p = (p.dirA, p)) ∧
    (m.toNat % 4 = 2 → piaRead m l p = (portByte p.outB p.dirB l.portB, p)) ∧
    (m.toNat % 4 = 3 → piaRead m l p = (p.dirB, p)) := by
  obtain ⟨h0, h1⟩ := getLsbD_of_mod_four m
  refine ⟨fun hm => ?_, fun hm => ?_, fun hm => ?_, fun hm => ?_⟩ <;>
    simp [piaRead, h9, h2, h0, h1, hm, -BitVec.getLsbD_eq_getElem]

/-- Settles O51: the register map by bits 9, 2, 1 and 0 of the address, and a port bit by bit. -/
theorem piaReads : Obligations.PiaReads := by
  intro p m l
  have hport := fun (h9 : m.getLsbD 9 = true) (h2 : m.getLsbD 2 = false) => piaRead_port h9 h2 l p
  refine ⟨fun h9 => ?_, fun h9 h2 h0 => ?_, fun h9 h2 h0 => ?_, fun h9 h2 hm => ?_, fun h9 h2 hm => ?_,
    fun h9 h2 hm => ?_, fun h9 h2 hm => ?_⟩
  · simp only [piaRead, h9, Bool.not_false, if_true, piaRamIndex]
  · simp only [piaRead, h9, h2, h0, Bool.not_true, Bool.false_eq_true, if_false, if_true]
  · simp only [piaRead, h9, h2, h0, Bool.not_true, Bool.false_eq_true, if_false, if_true]; rfl
  · obtain ⟨-, hdirA, -⟩ := hport h9 h2
    exact hdirA hm
  · obtain ⟨-, -, -, hdirB⟩ := hport h9 h2
    exact hdirB hm
  · obtain ⟨hA, -⟩ := hport h9 h2
    rw [hA hm]
    exact ⟨rfl, fun k hk => getLsbD_portByte _ _ _ hk⟩
  · obtain ⟨-, -, hB, -⟩ := hport h9 h2
    rw [hB hm]
    exact ⟨rfl, fun k hk => getLsbD_portByte _ _ _ hk⟩

/-- The tick on which the sub-counter fills while the countdown is 0 (R493). -/
theorem Pia.tick_underflow {p : Pia} (hs : p.sub + 1 = p.divisor.count) (hc : p.countdown = 0) :
    p.tick = { p with sub := 0, countdown := 0xFF, divisor := .d1, flag := true } := by
  simp only [Pia.tick, hs, hc, if_true]

/-- The last tick of a countdown from `v` comes when it has been 0 for `d` ticks. -/
theorem countdown_last (v : Nat) {d : Nat} (hd : 0 < d) :
    ∃ n, d * (v + 1) = n + 1 ∧ n / d = v ∧ n % d + 1 = d := by
  refine ⟨d * v + (d - 1), by rw [Nat.mul_add]; omega, ?_, ?_⟩
  · rw [Nat.mul_add_div hd, Nat.div_eq_of_lt (by omega), Nat.add_zero]
  · rw [Nat.mul_add_mod, Nat.mod_eq_of_lt (by omega)]; omega

/-- Settles O50: the timer's state while it counts, and the tick after its last one. -/
theorem timerCountsDown : Obligations.TimerCountsDown := by
  intro p m v h9 h2 h4 d q
  obtain ⟨-, -, -, -, -, hc, hs, hf, hd⟩ := piaWrite_fields m v p h9
  simp only [h2, h4, Bool.and_self, if_true, Bool.not_true, Bool.false_and] at hc hs hf hd
  have hd : (piaWrite m v p).divisor.count = d := hd
  have hcount (n : Nat) (hn : n < d * (v.toNat + 1)) :
      (q n).countdown.toNat = v.toNat - n / d ∧ (q n).flag = false ∧ (q n).divisor.count = d ∧ (q n).sub = n % d := by
    obtain ⟨e1, e2, e3, e4⟩ := piaTick_iterate (piaWrite m v p) _ v rfl hc hs hf n (by rw [hd]; exact hn)
    rw [hd] at e1 e4
    exact ⟨e1, e2, by rw [e3, hd], e4⟩
  obtain ⟨n, hn, hdiv, hmod⟩ := countdown_last v.toNat (hd ▸ Divisor.count_pos _)
  obtain ⟨c1, -, c3, c4⟩ := hcount n (by omega)
  rw [hdiv, Nat.sub_self] at c1
  have hlast : q (d * (v.toNat + 1)) = (q n).tick := by
    rw [hn]; exact Function.iterate_succ_apply' _ _ _
  rw [hlast, Pia.tick_underflow (by rw [c3, c4, hmod]) (BitVec.eq_of_toNat_eq c1)]
  exact ⟨fun n hn => by obtain ⟨a, b, c, -⟩ := hcount n hn; exact ⟨a, b, c⟩, hs, rfl, rfl, rfl⟩

/-! ## The ball -/

/-- The pixel of a tick is of the copy as it stands before the tick (R481). -/
theorem Ball.pixel_pixelTick (b : Ball) : b.pixelTick.pixel =
    (b.rendering && decide (0 ≤ b.renderCounter) && decide (b.renderCounter < b.width.pixels) &&
      (if b.vdel then b.enaOld else b.enaNew)) := by
  have hc (c : Ball) : c.counterStep.pixel = c.pixel := by simp only [Ball.counterStep]; split <;> rfl
  simp only [Ball.pixelTick, hc]
  split <;> rfl

/-- Settles O53: the render counter is `n - 5` in the `n`-th tick. -/
theorem ballAfterResbl : Obligations.BallAfterResbl := by
  refine ⟨fun b => rfl, fun b n he h1 hn => ?_⟩
  obtain ⟨k, rfl⟩ : ∃ k, n = k + 1 := ⟨n - 1, by omega⟩
  obtain ⟨-, hw, hena, hr, hrc⟩ := ballPixel_after b he k (by omega)
  rw [Function.iterate_succ_apply', Ball.pixel_pixelTick, hena, hw, Bool.and_true, hr]
  rw [hr, decide_eq_true_eq] at hrc
  by_cases hlt : (k : Int) < 4 + b.width.pixels
  · rw [hrc hlt, decide_eq_true hlt, Bool.true_and, ← Bool.decide_and, decide_eq_decide]
    push_cast; omega
  · rw [decide_eq_false hlt, Bool.false_and, Bool.false_and, eq_comm, decide_eq_false_iff_not]
    push_cast; omega

/-! ## The FrameManager -/

/-- The FrameManager where it begins to wait for VSYNC, when `k` frames have been handed out. -/
def Frame.waiting (k : Nat) : Frame :=
  { Frame.reset with nextBuffer := k, emitted := List.range k }

/-- One round is 91 lines to the frame's start and 222 to its end and the overscan's. -/
theorem nextLine_waiting (k : Nat) : (Frame.nextLine .ntsc 20)^[313 * k] Frame.reset = Frame.waiting k := by
  induction k with
  | zero => rfl
  | succ k ih =>
    obtain ⟨-, -, h91⟩ := frames_to_frame (Frame.waiting k) 0
    have h222 := frames_to_wait { Frame.waiting k with buffer := some k, nextBuffer := k + 1 }
    rw [show 313 * (k + 1) = 222 + (91 + 313 * k) by omega, Function.iterate_add_apply, Function.iterate_add_apply, ih]
    refine (congrArg _ h91).trans (h222.trans ?_)
    unfold Frame.waiting
    rw [List.range_succ]
    rfl

/-- Settles O54: the frame starts 91 lines into each round. -/
theorem framesWithoutVsync : Obligations.FramesWithoutVsync := by
  intro k f
  obtain ⟨-, h90, h91⟩ := frames_to_frame (Frame.waiting k) 39
  have e (j : Nat) : f (j + 313 * k) = (Frame.nextLine .ntsc 20)^[j] (Frame.waiting k) := by
    show (Frame.nextLine .ntsc 20)^[j + 313 * k] _ = _
    rw [Function.iterate_add_apply, nextLine_waiting]
  have e90 : f (90 + 313 * k) = { Frame.waiting k with state := .waitForFrameStart, lineInState := 39 } :=
    (e 90).trans (h90 (by decide))
  have e91 : f (91 + 313 * k) =
      { Frame.waiting k with buffer := some k, nextBuffer := k + 1, state := .frame, lineInState := 0 } :=
    (e 91).trans h91
  rw [e90, e91]
  exact ⟨rfl, rfl, nofun, rfl, rfl⟩

end Sys2Proof.Machine

namespace Sys2Proof.Machine

/-! ## One TIA tick -/

/-- The pixel step with the position counter's step last (R481). -/
theorem Ball.pixelTick_eq (b : Ball) : b.pixelTick = Ball.counterStep
    { b with
      pixel := decide (b.rendering = true ∧ 0 ≤ b.renderCounter ∧ b.renderCounter < b.width.pixels ∧
        (if b.vdel then b.enaOld else b.enaNew) = true)
      renderCounter := if b.rendering then b.renderCounter + 1 else b.renderCounter
      rendering := decide (b.rendering = true ∧ b.renderCounter + 1 < b.width.pixels) } := by
  simp only [Ball.pixelTick, Bool.decide_and, Bool.decide_eq_true, Bool.and_assoc]
  cases b.rendering <;> simp

theorem Ball.moving_pixelTick (b : Ball) : b.pixelTick.moving = b.moving := by
  have hc (c : Ball) : c.counterStep.moving = c.moving := by simp only [Ball.counterStep]; split <;> rfl
  rw [Ball.pixelTick_eq, hc]

/-- The ball after its pixel step, or in the blank (R481; log 18). -/
def Tia.shown (t : Tia) : Ball := if t.hblank then { t.ball with pixel := false } else t.ball.pixelTick

theorem Tia.shown_motion (t : Tia) : t.shown.hmm = t.ball.hmm ∧ t.shown.moving = t.ball.moving := by
  unfold Tia.shown
  split
  · exact ⟨rfl, rfl⟩
  · exact ⟨congrArg BallRegs.hmm (Ball.kept_pixelTick t.ball), Ball.moving_pixelTick t.ball⟩

theorem Tia.objects_of_not_moves {t : Tia} (h : ¬(t.mactive = true ∧ t.hclock.val % 4 = 0)) :
    t.objects = { t with ball := t.shown } := by
  simp only [Tia.objects, Bool.and_eq_true, decide_eq_true_eq, h, if_false, Tia.shown]

/-- A movement step (R484): the count meets `hmm`, or a moving ball steps in the blank, or the ball stays. -/
theorem Tia.objects_of_moves {t : Tia} (h : t.mactive = true ∧ t.hclock.val % 4 = 0) :
    t.objects =
      { t with
        ball :=
          if t.mclock = t.ball.hmm.val then { t.shown with moving := false }
          else if t.ball.moving = true ∧ t.hblank = true then t.shown.counterStep
          else t.shown
        mclock := t.mclock + 1
        mactive := decide (t.mclock + 1 ≠ 16) } := by
  have hm : t.objects = ({ t with ball := t.shown } : Tia).movementTick := by
    simp only [Tia.objects, Bool.and_eq_true, decide_eq_true_eq, h, and_self, if_true, Tia.shown]
  obtain ⟨h1, h2⟩ := t.shown_motion
  rw [hm, Tia.movementTick]
  simp only [h1, h2, Bool.and_eq_true]
  rfl

theorem tiaTick_wrap {s : State} (h : s.tia.hclock.val = 227) :
    (tiaTick s).frame = s.frame.nextLine s.cfg.tvMode s.cfg.visibleOverscan ∧ (tiaTick s).tia.hmoveExt = false := by
  have he : s.tia.objects.hclock = 227 := s.tia.objects_kept.2.2.1.trans (Fin.ext h)
  simp only [tiaTick, he, if_true, and_self]

theorem tiaTick_inLine {s : State} (h : s.tia.hclock.val ≠ 227) :
    (tiaTick s).frame = s.frame ∧ (tiaTick s).tia.hmoveExt = s.tia.hmoveExt := by
  obtain ⟨-, -, hh, -, he⟩ := s.tia.objects_kept
  have hn : ¬ s.tia.objects.hclock = 227 := fun e => h (congrArg Fin.val (hh.symm.trans e))
  simp only [tiaTick, hn, if_false, he, and_self]

/-- Settles O52: the clock and the line by the tick's two cases, the latches by the oracle, and the ball by whether the
tick is in the blank and whether it makes a movement step. -/
theorem tiaTickCounts : Obligations.TiaTickCounts := by
  intro s
  obtain ⟨hball, hmc, hma, hregs⟩ := tiaTick_objects s
  refine ⟨?_, fun h => ?_, fun h => ?_, fun f hf => ?_, hregs, ?_⟩
  · rcases tiaTick_cases s with ⟨h, h0, -⟩ | ⟨h, h1, -⟩ <;> omega
  · rcases tiaTick_cases s with ⟨-, -, hl, hh⟩ | ⟨hlt, -⟩
    · exact ⟨hl, hh, tiaTick_wrap h⟩
    · omega
  · rcases tiaTick_cases s with ⟨he, -⟩ | ⟨-, -, hl, hc⟩
    · exact absurd he h
    · exact ⟨hl, hc, tiaTick_inLine h⟩
  · rw [collision_tiaTick, latch_oracleSet hf]
  · intro b blank width enabled count drawn shown moves
    have hblank : s.tia.hblank = true ↔ blank := s.tia.hblank_iff
    have hcount (c : Ball) : c.counterStep = count c := Ball.counterStep_eq c
    have hwidth : b.width.pixels = width := by
      show b.width.pixels = match b.width with | .w1 => 1 | .w2 => 2 | .w4 => 4 | .w8 => 8
      cases b.width <;> rfl
    have hdrawn : b.pixelTick = count drawn := by rw [Ball.pixelTick_eq, hwidth, hcount]
    have hshown : s.tia.shown = shown := by
      show (if s.tia.hblank then _ else b.pixelTick) = if blank then _ else _
      rw [hdrawn]
      exact if_congr hblank rfl rfl
    rw [hball, hmc, hma]
    refine ⟨fun hn => ?_, fun hm => ?_⟩
    · rw [Tia.objects_of_not_moves hn]
      exact ⟨hshown, rfl, rfl⟩
    · rw [Tia.objects_of_moves hm]
      refine ⟨rfl, rfl, fun he => ?_, fun he hmv hbl => ?_, fun he hn => ?_⟩
      · exact (if_pos he).trans (by rw [hshown])
      · exact (if_neg he).trans ((if_pos ⟨hmv, hblank.2 hbl⟩).trans (by rw [hshown, hcount]))
      · exact (if_neg he).trans ((if_neg fun ⟨a, c⟩ => hn ⟨a, hblank.1 c⟩).trans hshown)

end Sys2Proof.Machine

namespace Sys2Proof.Machine

/-! ## The cartridge -/

/-! ### One access, by what is mapped at its offset -/

section

variable {p : Params} {lip : Addr} {d v : Byte} {m : BusAddr} {c : Cart} {i : Nat}

/-- An access of ROM switches, and a write there stores nothing (R83, R524). -/
theorem Cart.access_rom {c' : Cart} (hc : c.directSwitch p lip (cartOffset m) = c')
    (hp : c'.port p (cartOffset m) = .rom i) :
    c.read p lip d m = (p.image.read i, c') ∧ c.write p lip m v = c' := by
  simp only [Cart.read, Cart.write, hc, hp, and_self]

/-- An access of a RAM read port in a place that is no hotspot. -/
theorem Cart.access_ramRead (hc : c.directSwitch p lip (cartOffset m) = c)
    (hp : c.port p (cartOffset m) = .ramRead i) :
    (c.write p lip m v).ram = c.ram ∧ c.read p lip d m = (c.ram.read i, c) := by
  simp only [Cart.read, Cart.write, hc, hp, and_self]

/-- An access of a RAM write port: a write stores its byte, a read the last bus data (R532; D27). -/
theorem Cart.access_ramWrite (hw : c.ram.wf = true)
    (hp : (c.directSwitch p lip (cartOffset m)).port p (cartOffset m) = .ramWrite i) :
    (c.write p lip m v).ram.read i = v ∧ (c.read p lip d m).1 = d ∧ (c.read p lip d m).2.ram.read i = d ∧
      ∀ j, j ≠ i → (c.write p lip m v).ram.read j = c.ram.read j ∧ (c.read p lip d m).2.ram.read j = c.ram.read j := by
  simp only [Cart.read, Cart.write, hp, Cart.ram_directSwitch]
  exact ⟨Memory.read_write_same hw i v, trivial, Memory.read_write_same hw i d,
    fun j hj => ⟨Memory.read_write_other _ v hj, Memory.read_write_other _ d hj⟩⟩

end

theorem overlayPort_rom {size bank o : Nat} (h : 2 * size ≤ o) : overlayPort size bank o = .rom (4096 * bank + o) := by
  rw [overlayPort, if_neg (by omega), if_neg (by omega)]

theorem overlayPort_ramWrite {size bank o : Nat} (h : o < size) : overlayPort size bank o = .ramWrite o := by
  rw [overlayPort, if_pos h]

theorem overlayPort_ramRead {size bank o : Nat} (h : size ≤ o) (h2 : o < 2 * size) :
    overlayPort size bank o = .ramRead (o - size) := by
  rw [overlayPort, if_neg (by omega), if_pos h2]

/-! ### The switch inside an access, scheme by scheme -/

theorem Cart.hotspots_eq (a n o : Nat) (c : Cart) :
    c.hotspots a n o = { c with bank := if a ≤ o ∧ o < a + n then o - a else c.bank } := by
  unfold Cart.hotspots; split <;> rfl

theorem Cart.hotspots_elsewhere {a n o : Nat} (h : o < a) (c : Cart) : c.hotspots a n o = c := by
  rw [Cart.hotspots, if_neg (by omega)]

section

variable {p : Params} (lip : Addr) (o : Nat) (c : Cart)

theorem Cart.directSwitch_f0 (hs : p.scheme = .f0) :
    c.directSwitch p lip o = { c with bank := if o = 0xFF0 then (c.bank + 1) % 16 else c.bank } := by
  simp only [Cart.directSwitch, hs]; split <;> rfl

theorem Cart.directSwitch_fe (hs : p.scheme = .fe) :
    c.directSwitch p lip o =
      { c with bank := if p.feMode = .lip then (if lip.getLsbD 13 then 0 else 1) else c.bank } := by
  cases hf : p.feMode <;> simp [Cart.directSwitch, hs, hf]

theorem Cart.directSwitch_e7 (hs : p.scheme = .e7) :
    c.directSwitch p lip o =
      { c with
        lower := if 0xFE0 ≤ o ∧ o ≤ 0xFE7 then Fin.ofNat 8 (o - 0xFE0) else c.lower
        ramblk := if 0xFE8 ≤ o ∧ o ≤ 0xFEB then Fin.ofNat 4 (o - 0xFE8) else c.ramblk } := by
  simp only [Cart.directSwitch, hs]
  by_cases h1 : 0xFE0 ≤ o ∧ o ≤ 0xFE7
  · have h2 : ¬(0xFE8 ≤ o ∧ o ≤ 0xFEB) := by omega
    simp only [h1, h2, and_self, if_true, if_false]
  · by_cases h2 : 0xFE8 ≤ o ∧ o ≤ 0xFEB
    · simp only [h1, h2, and_self, if_true, if_false]
    · simp only [h1, h2, if_false]

theorem Cart.directSwitch_e7_elsewhere (hs : p.scheme = .e7) {o : Nat} (h : o < 0xFE0) :
    c.directSwitch p lip o = c := by
  simp only [Cart.directSwitch, hs, show ¬(0xFE0 ≤ o ∧ o ≤ 0xFE7) by omega, show ¬(0xFE8 ≤ o ∧ o ≤ 0xFEB) by omega,
    if_false]

end

/-- A scheme whose hotspots select 4 KiB banks, in the ROM above its overlay. -/
theorem Cart.banked_of_hotspots {p : Params} {lip : Addr} {d v : Byte} {m : BusAddr} {c : Cart} {a n : Nat}
    (hd : c.directSwitch p lip (cartOffset m) = c.hotspots a n (cartOffset m))
    (hp : ∀ c' : Cart, c'.port p (cartOffset m) = .rom (4096 * c'.bank + cartOffset m)) :
    let b := if a ≤ cartOffset m ∧ cartOffset m < a + n then cartOffset m - a else c.bank
    c.read p lip d m = (p.image.read (4096 * b + cartOffset m), { c with bank := b }) ∧
      c.write p lip m v = { c with bank := b } :=
  Cart.access_rom (hd.trans (Cart.hotspots_eq _ _ _ c)) (hp _)

theorem superChip_overlay {b : Bool} {o : Nat} (h : (if b then 256 else 0) ≤ o) : 2 * (if b then 128 else 0) ≤ o := by
  cases b with
  | false => exact Nat.zero_le o
  | true => exact h

/-- Settles O56: the switch of each scheme, and the bank it maps above the overlay. -/
theorem hotspotSwitches : Obligations.HotspotSwitches := by
  intro p lip d v m c o mapped banked overlay
  refine ⟨fun row hrow hs ho => ?_, fun hs => ?_, fun hs => ?_, fun hs ho => ?_, fun hs ho hl => ?_⟩
  · simp only [List.mem_cons, List.not_mem_nil, or_false] at hrow
    rcases hrow with rfl | rfl | rfl | rfl | rfl <;>
      refine Cart.banked_of_hotspots (by simp only [Cart.directSwitch, hs]) fun c' => ?_ <;>
      simp only [Cart.port, hs]
    · exact overlayPort_rom (superChip_overlay ho)
    · exact overlayPort_rom (superChip_overlay ho)
    · exact overlayPort_rom (superChip_overlay ho)
    · exact overlayPort_rom ho
  · exact Cart.access_rom (Cart.directSwitch_f0 lip o c hs) (by simp only [Cart.port, hs]; rfl)
  · exact Cart.access_rom (Cart.directSwitch_fe lip o c hs) (by simp only [Cart.port, hs]; rfl)
  · refine Cart.access_rom (Cart.directSwitch_e7 lip o c hs) ?_
    have h1 : ¬ cartOffset m < 2048 := by show ¬ o < 2048; omega
    have h2 : ¬ cartOffset m < 0x900 := by show ¬ o < 0x900; omega
    have h3 : ¬ cartOffset m < 0xA00 := by show ¬ o < 0xA00; omega
    simp only [Cart.port, hs, h1, h2, h3, if_false]; rfl
  · refine Cart.access_rom (Cart.directSwitch_e7_elsewhere lip c hs (o := o) (by omega)) ?_
    have h1 : cartOffset m < 2048 := ho
    simp only [Cart.port, hs, h1, hl, if_true, if_false]; rfl

/-! ### The listener's switch, scheme by scheme -/

/-- The schemes that switch in the listener alone, or not at all, leave the access itself alone (R525). -/
theorem Cart.directSwitch_of_listener {p : Params} (h : p.scheme ∈ [Scheme.e0, .tigervision, .ua, .cv, .scheme3E])
    (lip : Addr) (o : Nat) (c : Cart) : c.directSwitch p lip o = c := by
  simp only [List.mem_cons, List.not_mem_nil, or_false] at h
  rcases h with h | h | h | h | h <;> simp only [Cart.directSwitch, h]

theorem Cart.slice_eq (c : Cart) (n : Nat) : c.slice n = [c.s0.val, c.s1.val, c.s2.val, 7].getD n 7 :=
  match n with
  | 0 | 1 | 2 | 3 => rfl
  | _ + 4 => rfl

section

variable {p : Params} (m : BusAddr) (v : Byte) (k : AccessKind) (c : Cart)

theorem Cart.sniff_e0 (hs : p.scheme = .e0) :
    let o := cartOffset m
    c.sniff p m v k =
      { c with
        s0 := if m.getLsbD 12 ∧ 0xFE0 ≤ o ∧ o ≤ 0xFE7 then Fin.ofNat 8 (o - 0xFE0) else c.s0
        s1 := if m.getLsbD 12 ∧ 0xFE8 ≤ o ∧ o ≤ 0xFEF then Fin.ofNat 8 (o - 0xFE8) else c.s1
        s2 := if m.getLsbD 12 ∧ 0xFF0 ≤ o ∧ o ≤ 0xFF7 then Fin.ofNat 8 (o - 0xFF0) else c.s2 } := by
  intro o
  have ho : cartOffset m = o := rfl
  simp only [Cart.sniff, hs, ho]
  cases m.getLsbD 12
  · simp only [Bool.not_false, if_true, Bool.false_eq_true, false_and, if_false]
  · simp only [Bool.not_true, Bool.false_eq_true, if_false, true_and]
    by_cases h0 : 0xFE0 ≤ o ∧ o ≤ 0xFE7
    · rw [if_pos h0, if_pos h0, if_neg (by omega), if_neg (by omega)]
    · by_cases h1 : 0xFE8 ≤ o ∧ o ≤ 0xFEF
      · rw [if_neg h0, if_pos h1, if_neg h0, if_pos h1, if_neg (by omega)]
      · rw [if_neg h0, if_neg h1, if_neg h0, if_neg h1]
        split <;> rfl

theorem Cart.sniff_tigervision (hs : p.scheme = .tigervision) :
    c.sniff p m v k =
      { c with bank := if k = .write ∧ m.toNat ≤ 0x3F then v.toNat % (p.imageSize / 2048) else c.bank } := by
  simp only [Cart.sniff, hs]; split <;> rfl

theorem Cart.sniff_ua (hs : p.scheme = .ua) :
    c.sniff p m v k =
      { c with
        bank := if m.toNat &&& 0x1260 = 0x0220 then 0 else if m.toNat &&& 0x1260 = 0x0240 then 1 else c.bank } := by
  have h0 : m &&& 0x1260#13 = 0x0220#13 ↔ m.toNat &&& 0x1260 = 0x0220 := BitVec.toNat_inj.symm
  have h1 : m &&& 0x1260#13 = 0x0240#13 ↔ m.toNat &&& 0x1260 = 0x0240 := BitVec.toNat_inj.symm
  simp only [Cart.sniff, hs, h0, h1]
  split_ifs <;> rfl

theorem Cart.sniff_stackSniff (hs : p.scheme = .fe) (hm : p.feMode = .stackSniff) :
    c.sniff p m v k =
      { c with
        bank := if c.feArmed then (if v.getLsbD 5 then 0 else 1) else c.bank
        feArmed := decide (m.toNat = 0x01FE) } := by
  have h : m = 0x01FE#13 ↔ m.toNat = 0x01FE := BitVec.toNat_inj.symm
  simp only [Cart.sniff, hs, hm, h]

theorem Cart.sniff_3E (hs : p.scheme = .scheme3E) :
    (k = .write → m.toNat = 0x3E → c.sniff p m v k = { c with ramBlock := some (Fin.ofNat 32 v.toNat) }) ∧
    (k = .write → m.toNat = 0x3F →
      c.sniff p m v k = { c with bank := v.toNat % (p.imageSize / 2048), ramBlock := none }) ∧
    (k = .read ∨ m.toNat ≠ 0x3E ∧ m.toNat ≠ 0x3F → c.sniff p m v k = c) := by
  simp only [Cart.sniff, hs]
  refine ⟨fun hk hm => ?_, fun hk hm => ?_, fun h => ?_⟩
  · rw [if_pos ⟨hk, hm⟩]
  · rw [if_neg (by omega), if_pos ⟨hk, hm⟩]
  · have hn (n : Nat) (hn : n = 0x3E ∨ n = 0x3F) : ¬(k = .write ∧ m.toNat = n) := by
      rintro ⟨rfl, rfl⟩
      rcases h with h | h
      · cases h
      · omega
    rw [if_neg (hn _ (.inl rfl)), if_neg (hn _ (.inr rfl))]

theorem Cart.sniff_of_no_listener
    (h : p.scheme ∉ [Scheme.e0, .tigervision, .ua, .scheme3E, .fe] ∨ p.scheme = .fe ∧ p.feMode = .lip) :
    c.sniff p m v k = c := by
  rcases h with h | ⟨hs, hm⟩
  · cases hs : p.scheme <;> simp [hs] at h <;> simp only [Cart.sniff, hs]
  · simp only [Cart.sniff, hs, hm]

end

/-- Settles O57: what each scheme maps with its registers as they are, and what its listener makes of them. -/
theorem listenerSwitches : Obligations.ListenerSwitches := by
  intro p lip d v m k c o mapped next
  have hrom {i : Nat} (hs : p.scheme ∈ [Scheme.e0, .tigervision, .ua, .cv, .scheme3E]) (hp : c.port p o = .rom i) :
      mapped i := Cart.access_rom (Cart.directSwitch_of_listener hs lip o c) hp
  refine ⟨fun hs => ⟨hrom (by simp [hs]) ?_, Cart.sniff_e0 m v k c hs⟩,
    fun hs => ⟨hrom (by simp [hs]) ?_, Cart.sniff_tigervision m v k c hs⟩,
    fun hs => ⟨hrom (by simp [hs]) ?_, Cart.sniff_ua m v k c hs⟩,
    fun hs ho => hrom (by simp [hs]) ?_,
    fun hs => ⟨fun ho => hrom (by simp [hs]) ?_, fun ho hb => hrom (by simp [hs]) ?_, Cart.sniff_3E m v k c hs⟩,
    fun hs hm => Cart.sniff_stackSniff m v k c hs hm, fun h => Cart.sniff_of_no_listener m v k c h⟩
  · simp only [Cart.port, hs, Cart.slice_eq]
  · simp only [Cart.port, hs, apply_ite CartPort.rom]
  · simp only [Cart.port, hs]
  · have ho2 : o < 4096 := Nat.mod_lt _ (by decide)
    simp only [Cart.port, hs, show ¬ o < 1024 by omega, show ¬ o < 2048 by omega, if_false]
    rw [Nat.mod_eq_sub_mod ho, Nat.mod_eq_of_lt (by omega)]
  · simp only [Cart.port, hs, show ¬ o < 2048 by omega, if_false]
  · simp only [Cart.port, hs, ho, hb, if_true]

/-! ### A hotspot's access repeated -/

/-- Settles O55: a switch sets registers to values that the access alone gives, F0's and FE's latch excepted. -/
theorem hotspotsIdempotent : Obligations.HotspotsIdempotent := by
  intro p lip m v k c
  refine ⟨fun h => ?_, fun h => ?_⟩
  · cases hs : p.scheme
    case f0 => exact absurd hs h
    case fe => rw [Cart.directSwitch_fe lip _ c hs, Cart.directSwitch_fe lip _ _ hs]; split_ifs <;> rfl
    case e7 => rw [Cart.directSwitch_e7 lip _ c hs, Cart.directSwitch_e7 lip _ _ hs]; split_ifs <;> rfl
    all_goals simp only [Cart.directSwitch, hs, hotspots_twice]
  · cases hs : p.scheme
    case fe => exact absurd hs h
    case e0 => rw [Cart.sniff_e0 m v k c hs, Cart.sniff_e0 m v k _ hs]; split_ifs <;> rfl
    case tigervision => rw [Cart.sniff_tigervision m v k c hs, Cart.sniff_tigervision m v k _ hs]; split_ifs <;> rfl
    case ua => rw [Cart.sniff_ua m v k c hs, Cart.sniff_ua m v k _ hs]; split_ifs <;> rfl
    case scheme3E =>
      simp only [Cart.sniff, hs]
      split_ifs <;> rfl
    all_goals simp only [Cart.sniff, hs]

end Sys2Proof.Machine

namespace Sys2Proof.Machine

/-! ### The extra RAM -/

/-- SuperChip's overlay, under every bank (R532). -/
theorem Cart.port_superChip {p : Params} (hs : p.scheme ∈ [Scheme.f8, .f6, .f4]) (hc : p.superChip = true) (c : Cart)
    (o : Nat) : c.port p o = overlayPort 128 c.bank o := by
  simp only [List.mem_cons, List.not_mem_nil, or_false] at hs
  rcases hs with hs | hs | hs <;> simp only [Cart.port, hs, hc, if_true]

theorem Cart.directSwitch_below_hotspots {p : Params} (hs : p.scheme ∈ [Scheme.f8, .f6, .f4, .fa]) (lip : Addr) {o : Nat}
    (ho : o < 0x200) (c : Cart) : c.directSwitch p lip o = c := by
  simp only [List.mem_cons, List.not_mem_nil, or_false] at hs
  rcases hs with hs | hs | hs | hs <;> simp only [Cart.directSwitch, hs] <;> exact Cart.hotspots_elsewhere (by omega) c

/-- Settles O58: for each window, the port it maps, which no hotspot changes. -/
theorem extraRam : Obligations.ExtraRam := by
  intro p lip d v m c hw o writes reads
  have hwrite {i : Nat} (hp : (c.directSwitch p lip o).port p o = .ramWrite i) : writes i := Cart.access_ramWrite hw hp
  have hread {i : Nat} (hc : c.directSwitch p lip o = c) (hp : c.port p o = .ramRead i) : reads i :=
    Cart.access_ramRead hc hp
  refine ⟨fun hs hc => ⟨fun h => ?_, fun h1 h2 => ?_⟩, fun hs => ⟨fun h => ?_, fun h1 h2 => ?_⟩,
    fun hs => ⟨fun hl h => ?_, fun hl h1 h2 => ?_, fun h1 h2 => ?_, fun h1 h2 => ?_⟩,
    fun hs => ⟨fun h => ?_, fun h1 h2 => ?_⟩, fun hs b hb => ⟨fun h => ?_, fun h1 h2 => ?_⟩⟩
  · exact hwrite ((Cart.port_superChip hs hc _ o).trans (overlayPort_ramWrite h))
  · refine hread (Cart.directSwitch_below_hotspots ?_ lip (by omega) c)
      ((Cart.port_superChip hs hc c o).trans (overlayPort_ramRead h1 h2))
    exact List.mem_append_left [Scheme.fa] hs
  · refine hwrite ?_
    simp only [Cart.port, hs]
    exact overlayPort_ramWrite h
  · refine hread (Cart.directSwitch_below_hotspots (by simp [hs]) lip h2 c) ?_
    simp only [Cart.port, hs]
    exact overlayPort_ramRead h1 h2
  · have hd := Cart.directSwitch_e7_elsewhere lip c hs (o := o) (by omega)
    refine hwrite ?_
    simp only [hd, Cart.port, hs, hl, show o < 2048 by omega, h, if_true]
  · have hd := Cart.directSwitch_e7_elsewhere lip c hs (o := o) (by omega)
    refine hread hd ?_
    simp only [Cart.port, hs, hl, show o < 2048 by omega, show ¬ o < 1024 by omega, if_true, if_false]
  · have hd := Cart.directSwitch_e7_elsewhere lip c hs (o := o) (by omega)
    refine hwrite ?_
    simp only [hd, Cart.port, hs, show ¬ o < 2048 by omega, h2, if_true, if_false]
  · have hd := Cart.directSwitch_e7_elsewhere lip c hs (o := o) (by omega)
    refine hread hd ?_
    simp only [Cart.port, hs, show ¬ o < 2048 by omega, show ¬ o < 0x900 by omega, h2, if_true, if_false]
  · refine hread (Cart.directSwitch_of_listener (by simp [hs]) lip o c) ?_
    simp only [Cart.port, hs, h, if_true]
  · refine hwrite ?_
    simp only [Cart.port, hs, show ¬ o < 1024 by omega, h2, if_true, if_false]
  · refine hread (Cart.directSwitch_of_listener (by simp [hs]) lip o c) ?_
    simp only [Cart.port, hs, hb, show o < 2048 by omega, h, if_true]
  · refine hwrite ?_
    rw [Cart.directSwitch_of_listener (by simp [hs]) lip o c]
    simp only [Cart.port, hs, hb, h2, show ¬ o < 1024 by omega, if_true, if_false]

/-! ### Construction -/

theorem buildParams_of_scheme {name : SchemeName} {sch : Scheme} (h : name.scheme = some sch) (bytes : List Byte)
    (p : Params) :
    buildParams name bytes p =
      if sch.fits bytes.length then
        .ok { p with scheme := sch, imageSize := bytes.length, image := Memory.ofBytes 0 bytes }
      else .error .wrongLength := by
  simp only [buildParams, h]

/-- Parameters are built from a name that is not refused and an image that fits its scheme (R543, R550). -/
theorem buildParams_ok {name : SchemeName} {bytes : List Byte} {p q : Params} (h : buildParams name bytes p = .ok q) :
    ∃ sch, sch.fits bytes.length = true ∧
      q = { p with scheme := sch, imageSize := bytes.length, image := Memory.ofBytes 0 bytes } := by
  cases hn : name.scheme with
  | none => simp [buildParams, hn] at h
  | some sch =>
    rw [buildParams_of_scheme hn] at h
    split at h
    · next hf => exact ⟨sch, hf, (Except.ok.inj h).symm⟩
    · cases h

/-- The schemes with one image length (R544). -/
def fixedLengths : List (SchemeName × Scheme × Nat) :=
  [(.vanilla2k, .vanilla2k, 2048), (.vanilla4k, .vanilla4k, 4096), (.f8, .f8, 8192), (.f6, .f6, 16384),
    (.f4, .f4, 32768), (.f0, .f0, 65536), (.fa, .fa, 12288), (.e0, .e0, 8192), (.ua, .ua, 8192), (.fe, .fe, 8192),
    (.e7, .e7, 16384), (.ef, .ef, 65536), (.cv, .cv, 2048)]

theorem fits_fixedLength {row : SchemeName × Scheme × Nat} (h : row ∈ fixedLengths) :
    row.1.scheme = some row.2.1 ∧ ∀ n, row.2.1.fits n = (n == row.2.2) := by
  revert row
  simp [fixedLengths, SchemeName.scheme, Scheme.fits]

/-- Settles O59: the name's scheme, the lengths that fit it, and the image as a byte store. -/
theorem constructionChecks : Obligations.ConstructionChecks := by
  intro name bytes p
  refine ⟨fun hn => ?_, fun row hrow hn => ?_, fun row hrow hn => ?_, fun q hq => ?_⟩
  · simp only [List.mem_cons, List.not_mem_nil, or_false] at hn
    rcases hn with rfl | rfl | rfl | rfl | rfl | rfl | rfl <;> rfl
  · obtain ⟨hs, hf⟩ := fits_fixedLength hrow
    rw [buildParams_of_scheme (hn ▸ hs), hf]
    refine ⟨fun he => ⟨_, if_pos (beq_iff_eq.2 he), rfl⟩, fun he => if_neg fun e => he (beq_iff_eq.1 e)⟩
  · obtain ⟨hs, hf⟩ : row.1.scheme = some row.2 ∧ ∀ n, row.2.fits n = true ↔ 0 < n ∧ n % 2048 = 0 := by
      simp only [List.mem_cons, List.not_mem_nil, or_false] at hrow
      rcases hrow with rfl | rfl <;> simp [SchemeName.scheme, Scheme.fits]
    rw [buildParams_of_scheme (hn ▸ hs)]
    refine ⟨fun n he => ⟨_, if_pos ((hf _).2 (by omega)), rfl⟩, fun he => if_neg fun e => ?_⟩
    obtain ⟨h0, h1⟩ := (hf _).1 e
    omega
  · obtain ⟨sch, hf, rfl⟩ := buildParams_ok hq
    refine ⟨rfl, fun k hk => ?_, rfl, fun hb => ?_⟩
    · simpa using Memory.read_ofBytes bytes 0 k hk
    · simp only [Params.wf, Bool.and_eq_true]
      exact ⟨⟨⟨hf, Memory.wf_ofBytes bytes 0⟩, Memory.below_ofBytes bytes⟩, hb⟩

end Sys2Proof.Machine

namespace Sys2Proof.Machine

/-! ## Machine reset -/

/-- The machine `k` board steps into reset: the beam's part of it, and all that time and reads leave alone (R600 to
R602). -/
structure Resetting (k : Nat) (p : Params) (d : Draws) (s : State) : Prop where
  early : Early k p s
  stored : s.stored = (powerOn p d).stored
  cart : s.cart = Cart.reset d.cartRam
  traps : s.traps = { log := [], fatal := false }

theorem resetting_powerOn (p : Params) (d : Draws) : Resetting 0 p d (powerOn p d) where
  early := ⟨rfl, (Nat.zero_mul _).symm, rfl, rfl, ⟨rfl, rfl, rfl, rfl⟩, rfl, rfl⟩
  stored := rfl
  cart := rfl
  traps := rfl

namespace Resetting

variable {k : Nat} {p : Params} {d : Draws} {s : State} (h : Resetting k p d s)
include h

theorem live (hp : p.chipTrap = []) : Live s :=
  ⟨by rw [h.traps], .inr (by rw [h.early.cfg, hp])⟩

theorem setCpu {c : Cpu} (hc : c.halted = false) : Resetting k p d { s with cpu := c } where
  early := ⟨h.early.cfg, h.early.hclock, h.early.line, h.early.frame, h.early.rest, hc, h.early.clock⟩
  stored := h.stored
  cart := h.cart
  traps := h.traps

theorem withS (v : Byte) : Resetting k p d (s.withS v) := h.setCpu h.early.halted
theorem withPc (a : Addr) : Resetting k p d (s.withPc a) := h.setCpu h.early.halted
theorem withP (f : Flags) : Resetting k p d (s.withP f) := h.setCpu h.early.halted
theorem withLip (a : Addr) : Resetting k p d (s.withLip a) := h.setCpu h.early.halted
theorem withNmi (b : Bool) : Resetting k p d (s.withNmi b) := h.setCpu h.early.halted

theorem idle (hk : k < 15) : Resetting (k + 1) p d (idleSlot s) where
  early := early_idle h.early hk
  stored := (idle_still s).stored.trans h.stored
  cart := (idle_still s).cart.trans h.cart
  traps := (idle_still s).traps.trans h.traps

/-- A read of the vector's byte `j` (R600, R603). -/
theorem readVector (hp : p.chipTrap = []) (hk : k < 15) (hl : s.cpu.lip = vectorReset) {j : Nat} (hj : j < 2) {a : Addr}
    (ha : maskAddr a = BitVec.ofNat 13 (0x1FFC + j)) :
    Resetting (k + 1) p d (readCycle a s).2 ∧ (readCycle a s).1 = p.image.read (vectorIndex p + j) := by
  obtain ⟨hv, hc⟩ := readCycle_vector (h.live hp) h.cart hl hj ha
  have ht : (readCycle a s).2.traps = s.traps := traps_readCycle (by rw [h.early.cfg, hp])
  rw [h.early.cfg] at hv
  exact ⟨⟨early_read h.early hk (h.live hp) a, (stored_readCycle a s).trans h.stored, hc.trans h.cart, ht.trans h.traps⟩,
    hv⟩

end Resetting

theorem wordOf_eq_ofNat (l h : Byte) : wordOf l h = BitVec.ofNat 16 (l.toNat + 256 * h.toNat) := by
  rw [← toNat_wordOf, BitVec.ofNat_toNat, BitVec.setWidth_eq]

theorem resetting_resetInternal (p : Params) (d : Draws) : Resetting 5 p d (resetInternal (powerOn p d)) := by
  have h3 := (((resetting_powerOn p d).idle (by decide)).idle (by decide)).idle (by decide)
  have h5 := (h3.idle (by decide)).idle (by decide)
  exact h5.withS _

theorem regs_resetInternal (s : State) : (resetInternal s).regs = { s.regs with s := s.cpu.s - 3 } := by
  have h (u : State) : (idleSlot u).regs = u.regs := (idle_still u).regs
  simp only [resetInternal, regs_withS, cpu_s, h]

theorem lastRead_bus {a : Addr} {s : State} (hl : Live s) (h12 : a.getLsbD 12 = true) :
    (readCycle a s).2.bus = { lastAddress := maskAddr a, lastData := (readCycle a s).1, accessType := .cartridge } := by
  rw [readCycle_of_live hl, bus_endCycle, bus_busRead, if_pos h12]

/-- What the reset vector's reads leave, from the state after the internal cycles. -/
structure VectorRead (p : Params) (d : Draws) (r t : State) : Prop where
  resetting : Resetting 7 p d t
  regs : t.regs =
    { r.regs with
      pc := wordOf (p.image.read (vectorIndex p)) (p.image.read (vectorIndex p + 1))
      p := { r.regs.p with i := true } }
  bus : t.bus =
    { lastAddress := 0x1FFD, lastData := p.image.read (vectorIndex p + 1), accessType := .cartridge }

theorem vectorRead_resetVector {p : Params} {d : Draws} {r : State} (h : Resetting 5 p d r) (hp : p.chipTrap = []) :
    VectorRead p d r (resetVector r) := by
  have h0 : Resetting 5 p d (r.withLip vectorReset) := h.withLip _
  obtain ⟨h1, hlo⟩ := h0.readVector hp (by decide) rfl (j := 0) (by decide) (a := vectorReset) rfl
  set l := readCycle vectorReset (r.withLip vectorReset) with hl
  have hr1 : l.2.regs = { r.regs with lip := vectorReset } := by rw [hl, regs_readCycle, regs_withLip]
  have h2 : Resetting 6 p d (l.2.withP { l.2.cpu.p with i := true }) := h1.withP _
  obtain ⟨h3, hhi⟩ := h2.readVector hp (by decide) (congrArg Regs.lip hr1) (j := 1) (by decide) (a := vectorReset + 1) rfl
  have hb := lastRead_bus (a := vectorReset + 1) (h2.live hp) rfl
  set q := readCycle (vectorReset + 1) (l.2.withP { l.2.cpu.p with i := true }) with hq
  have he : resetVector r = ((q.2.withPc (wordOf l.1 q.1)).withLip r.cpu.lip) := by
    simp only [resetVector, perform_of_live (h1.live hp), perform_of_live (h3.live hp), ← hl, ← hq]
  rw [he]
  refine ⟨(h3.withPc _).withLip _, ?_, ?_⟩
  · rw [regs_withLip, regs_withPc, hq, regs_readCycle, regs_withP, hr1, ← hq, hlo, hhi, cpu_p, hr1]
    rfl
  · rw [← hhi]; exact hb

theorem nmiLatch_machineReset (p : Params) (d : Draws) : (machineReset p d).cpu.nmiLatch = false := by
  rw [machineReset, cpu_withNmi]

/-- Settles O60: the devices' resets, the five internal board steps, and the two reads of the vector. -/
theorem resetValues : Obligations.ResetValues := by
  intro p d hp s vector
  have hi := resetting_resetInternal p d
  have hv := vectorRead_resetVector hi hp
  have h7 : Resetting 7 p d s := hv.resetting.withNmi false
  have hregs : s.regs = _ := (regs_withNmi _ _).trans hv.regs
  have hbus : s.bus = _ := (bus_withNmi _ _).trans hv.bus
  have htag : s.cpu.tag = .fetch := tag_machineReset p d
  have hnmi : s.cpu.nmiLatch = false := nmiLatch_machineReset p d
  have hlatches (ho : p.collisionOracle = []) : s.collision = Collisions.none := by
    have h0 : NoCollision (powerOn p d) := ⟨ho, rfl⟩
    exact (kept_noCollision.machineReset h0).none
  have hvec : vectorIndex p = vector := rfl
  rw [hvec] at hregs hbus
  clear_value s vector
  have hrest := h7.early.rest
  have hst := h7.stored
  rw [regs_resetInternal, wordOf_eq_ofNat] at hregs
  refine ⟨hregs, htag, h7.early.halted, hnmi, hbus, h7.traps, h7.cart, h7.early.frame, hrest.ball, hrest.hmoveExt,
    hrest.mactive, hrest.mclock, fun r => ?_, congrArg Stored.ram hst, congrArg Stored.outA hst,
    congrArg Stored.dirA hst, congrArg Stored.outB hst, congrArg Stored.dirB hst, congrArg Stored.irqEnable hst,
    congrArg Stored.coproc hst, hlatches, h7.early.line, h7.early.hclock, h7.early.clock, h7.early.cfg⟩
  rw [tiaReg, show s.tia.regs = [] from congrArg Stored.tiaRegs hst]
  rfl

end Sys2Proof.Machine
